-- ==== Sys2Proof/Word.lean ====
section
/-! DEFINITION. The word types of the host's formats and the number bounds the manual fixes. -/

namespace Sys2Proof

/-- One byte of host memory (R164). -/
abbrev Byte := BitVec 8
/-- A 32-bit register or slot word (R150, R165). -/
abbrev Word32 := BitVec 32
/-- A 64-bit window register or host address (R150, R153). -/
abbrev Word64 := BitVec 64

/-- The least signed 24-bit sample. -/
abbrev minSample : Int := -8388608
/-- The greatest signed 24-bit sample. -/
abbrev maxSample : Int := 8388607

end Sys2Proof
end

