-- ==== Sys2Proof/Config.lean ====
section
/-! DEFINITION. What one MDR-324 fixes: the quantities the manual states for every part, and the one it leaves to the silicon. -/

namespace Sys2Proof

/-- The step number MID shows, which "marks the silicon step" (R151). No value is chosen: R171 gives 1 for the first
silicon step only. DESIGN CHOICE, safe (entry 16). -/
opaque Config.stepNumber : BitVec 8

namespace Config

/-- Unity of every multiplier, 2^23 (section 1.1). -/
abbrev unity : Int := 8388608
/-- Samples in a block. -/
abbrev blockSamples : Nat := 48
/-- Block ticks from one slow tick to the next (R177). -/
abbrev slowBlocks : Nat := 16
/-- Bit periods from one sync word to the next (R88, R165). -/
abbrev frameBits : Nat := 288
/-- The sync word that opens each lane frame (R165). -/
abbrev syncWord : Word32 := 0xE8E81717
/-- Lines one conference group can hold by role (R80). -/
abbrev groupPlaces : Nat := 8
/-- The block tick after issue at which a read has timed out (R114). -/
abbrev readTicks : Nat := 4
/-- Consecutive blocks the reference is tracked before the monitor locks (R98). -/
abbrev lockBlocks : Nat := 64
/-- Frames an elastic buffer holds (R92). -/
abbrev bufferFrames : Nat := 4
/-- The value at which the 16-bit lane counts stop (R90, R92, R102). -/
abbrev countTop : Nat := 65535
/-- The largest window (R153). -/
abbrev windowMax : Nat := 1048576
/-- Bytes of a plan section (R106). -/
abbrev sectionBytes : Nat := 512
/-- The part code MID shows (R171). -/
abbrev partCode : BitVec 24 := 0x000324

end Config

end Sys2Proof
end

