-- ==== Sys2Proof/Syntax.lean ====
section
/-! DEFINITION. The commands of the block: one constructor for each row of spec/opcode_table.json, with the operands its
rule needs (the table gives none; entry 5), and the types those operands are made of. -/

namespace Sys2Proof

/-- Lines 0 to 23. -/
abbrev Line := Fin 24
/-- Studio sources 0 to 15. -/
abbrev Source := Fin 16
/-- Talkback keys 0 to 15. -/
abbrev Key := Fin 16
/-- Talkback routes 0 to 31. -/
abbrev Route := Fin 32
/-- Conference groups 0 to 3. -/
abbrev Group := Fin 4
/-- Screener positions 0 to 2. -/
abbrev Position := Fin 3
/-- Input lanes 0 to 4. -/
abbrev InLane := Fin 5
/-- Output lanes 0 to 3. -/
abbrev OutLane := Fin 4
/-- Slots 0 to 7 of a lane frame (R85). -/
abbrev Slot := Fin 8
/-- Plan sections 0 to 31 (R106). -/
abbrev Section := Fin 32
/-- Gain codes 0 to 255 (R1). -/
abbrev GainCode := Fin 256

/-- The slot words of one lane frame, slots 0 to 7 in slot order, without the sync word (R86). -/
abbrev SlotWords := Vector Word32 8

/-- The window registers (R150, R153). -/
inductive WindowReg where
  /-- MPWB. -/
  | planBase
  /-- MPWE. -/
  | planEnd
  /-- MRWB. -/
  | reportBase
  /-- MRWE. -/
  | reportEnd
deriving DecidableEq, Repr

/-- A write to a window register: one aligned 64-bit access, or one of its 32-bit halves (R150, R171). -/
inductive WindowData where
  | whole (value : Word64)
  | low (value : Word32)
  | high (value : Word32)
deriving DecidableEq, Repr

/-- What a configuration access does (R149). Withdrawing bus mastering is a row of its own. The widths of the addresses and
of the message data are the model's. DESIGN CHOICE (entry 37). -/
inductive ConfigAccess where
  /-- The register window is placed at an address, or unplaced. -/
  | placeWindow (base : Option Word64)
  /-- Bus mastering is permitted. -/
  | permitBusMastering
  /-- Interrupt messages are enabled or disabled, with the address and data of the message. -/
  | setMessages (enabled : Bool) (address : Word64) (data : Word32)
  /-- An access that sets none of the three. -/
  | other
deriving DecidableEq, Repr

/-- A write to MNOTE or MMASK: the word written. `atEvent` says that the write falls at the instant of the notice event
that sent the last message, the event taken first (R146; entry 14). -/
structure NoticeWrite where
  word : Word32
  atEvent : Bool
deriving DecidableEq, Repr

/-- What a block tick meets besides the pins: whether the sample clock followed the reference within its tracking range over
the block just ended (R98), and whether a round begun at the tick takes its snapshots of lines and lanes before their
events of the tick (R51, R136; entry 2). -/
structure TickMeets where
  follows : Bool
  snapFirst : Bool
deriving DecidableEq, Repr

/-- What the link returns for a plan read (R114). -/
inductive ReadResult where
  | data (bytes : List Byte)
  /-- A completion reporting an error. -/
  | error
  /-- Data marked as poisoned. -/
  | poisoned
deriving DecidableEq, Repr

/-- How a LOCKED lane loses lock (R89). -/
inductive LockLoss where
  /-- The word at an expected sync position. -/
  | wrongSync (found : Word32)
  /-- No complete lane frame between two consecutive block ticks. -/
  | missingSync
deriving DecidableEq, Repr

/-- How far the sending of a record has come (R131). -/
inductive PartSent where
  | head
  | contents
deriving DecidableEq, Repr

/-- The ramps of MIX (R24 to R26). -/
inductive RampId where
  | sourceAir (s : Source)
  | lineAir (l : Line)
  | lineGroup (l : Line)
  | airTerm (l : Line)
  | groupTerm (l : Line)
  | holdTerm (l : Line)
  | screenerTerm (l : Line)
  | cueIn (l : Line)
  | cueOut (l : Line)
deriving DecidableEq, Repr

/-- Bytes of a register access (R150). -/
inductive AccessWidth where
  | one
  | two
  | three
  | four
  | eight
deriving DecidableEq, Repr

/-- A command: one row of spec/opcode_table.json. -/
inductive Instr where
  /-- POWER_ON_RESET (R160). -/
  | powerOnReset
  /-- SOFT_RESET (R161): a write of one to the MCTL soft reset bit. -/
  | softReset
  /-- LINK_RESET (R162). -/
  | linkReset
  /-- MEMORY_ENABLE (R158): the MCTL memory enable field written. -/
  | memoryEnable (on : Bool)
  /-- LANE_HOLD (R96): the MCTL lane hold field written. -/
  | laneHold (on : Bool)
  /-- POST (R109): the word written to MPOST. -/
  | post (bits : Word32)
  /-- NOTICE_CLEAR (R144): the write to MNOTE. -/
  | noticeClear (write : NoticeWrite)
  /-- NOTICE_MASK_WRITE (R146): the write to MMASK. -/
  | noticeMaskWrite (write : NoticeWrite)
  /-- WINDOW_REGISTER_WRITE (R154). -/
  | windowRegisterWrite (reg : WindowReg) (data : WindowData)
  /-- IGNORED_REGISTER_WRITE (R150): a write at an offset of the register window. -/
  | ignoredRegisterWrite (offset : BitVec 12) (width : AccessWidth) (value : Word64)
  /-- CONFIGURATION_ACCESS (R149). -/
  | configurationAccess (access : ConfigAccess)
  /-- BUS_MASTERING_WITHDRAWN (R159). -/
  | busMasteringWithdrawn
  /-- SAMPLE (R91). -/
  | sample
  /-- PARTNER_READ (R97): the frame clock of an output lane's partner. -/
  | partnerRead (lane : OutLane)
  /-- LANE_FRAME (R90): the frame a LOCKED lane receives in step with the sample. -/
  | laneFrame (lane : InLane) (slots : SlotWords)
  /-- ELASTIC_ARRIVAL (R92). -/
  | elasticArrival (lane : InLane) (slots : SlotWords)
  /-- ELASTIC_READ (R93). -/
  | elasticRead (lane : InLane)
  /-- LANE_LOCK (R88): the word at a bit position of the lane's stream. -/
  | laneLock (lane : InLane) (position : Nat) (word : Word32)
  /-- LOSS_OF_LOCK (R89). -/
  | lossOfLock (lane : InLane) (cause : LockLoss)
  /-- LANE_LOST (R102). -/
  | laneLost (lane : InLane)
  /-- REF_LOCK (R98). -/
  | refLock
  /-- REF_UNLOCK (R98). -/
  | refUnlock
  /-- BLOCK_TICK (R14): the active key pins (R52), and what else the tick meets. -/
  | blockTick (pins : BitVec 16) (meets : TickMeets)
  /-- KEY_PRESS (R53). -/
  | keyPress (key : Key)
  /-- KEY_RELEASE (R53). -/
  | keyRelease (key : Key)
  /-- HOLD_COUNT_EXPIRY (R58). -/
  | holdCountExpiry (route : Route)
  /-- OUTGOING_FADE_END (R67). -/
  | outgoingFadeEnd (line : Line)
  /-- RAMP_END (R17). -/
  | rampEnd (ramp : RampId)
  /-- CODE_SETTLE (R100). -/
  | codeSettle (line : Line)
  /-- LOSS_COUNT_EXPIRY (R41). -/
  | lossCountExpiry (line : Line)
  /-- SHADOW_COUNT_END (R48). -/
  | shadowCountEnd (line : Line)
  /-- PERIODIC_DUE (R138). -/
  | periodicDue
  /-- ENGINE_ACTIVE (R158). -/
  | engineActive
  /-- INTAKE_TAKE (R111). -/
  | intakeTake
  /-- SECTION_FETCH (R112). -/
  | sectionFetch
  /-- READ_COMPLETION (R114): the read it answers and what the link returns. -/
  | readCompletion (read : Nat) (result : ReadResult)
  /-- READ_TIMEOUT (R114). -/
  | readTimeout
  /-- APPLY (R121). -/
  | apply
  /-- ROUND_BEGIN (R136). -/
  | roundBegin
  /-- RECORD_WRITE_BEGIN (R131): the last part of the record sent in this step; RECORD_WRITE_COMPLETE sends the rest. -/
  | recordWriteBegin (sent : PartSent)
  /-- RECORD_WRITE_COMPLETE (R132). -/
  | recordWriteComplete
  /-- SEEKING_SYNC (R88): the word at a bit position of the lane's stream. -/
  | seekingSync (lane : InLane) (position : Nat) (word : Word32)
deriving DecidableEq, Repr

end Sys2Proof
end

