-- ==== Sys2Proof/WellFormed.lean ====
section
/-! DEFINITION. Which commands are well formed. Most operands are bounded by their types (a line is a Fin 24); two checks
are left: the writes R150 ignores, and the length of the data of a plan read. -/

namespace Sys2Proof

/-- Bytes of an access of each width. -/
def AccessWidth.bytes : AccessWidth → Nat
  | .one => 1
  | .two => 2
  | .three => 3
  | .four => 4
  | .eight => 8

/-- A 32-bit write at this offset is ignored: MID, MSTA and MMISS are read-only, and 0x01C and the offsets from 0x040
hold no register (R150, R171). -/
def ignoredWordOffset (offset : Nat) : Bool :=
  offset == 0x000 || offset == 0x008 || offset == 0x018 || offset == 0x01C || 0x040 ≤ offset

/-- The offsets of the 32-bit words that an access covers whole, in ascending order: what it has of any other word is
narrower than 32 bits (R150; entry 25). -/
def wholeWords (offset : Nat) (width : AccessWidth) : List Nat :=
  match width with
  | .one => []
  | .two => []
  | .three => []
  | .four => if offset % 4 = 0 then [offset] else []
  | .eight => if offset % 4 = 0 then [offset, offset + 4] else [offset + (4 - offset % 4)]

/-- The write is one R150 ignores: what it covers whole is read-only or holds no register, and the rest of it is narrower
than 32 bits. -/
def ignoredWrite (offset : BitVec 12) (width : AccessWidth) : Bool :=
  (wholeWords offset.toNat width).all ignoredWordOffset

/-- The command is well formed. -/
def Instr.wellFormed : Instr → Bool
  | .ignoredRegisterWrite offset width _ => ignoredWrite offset width
  | .readCompletion _ (.data bytes) => decide (bytes.length ≤ 508)
  | .powerOnReset | .softReset | .linkReset | .memoryEnable _ | .laneHold _ | .post _ | .noticeClear _
  | .noticeMaskWrite _ | .windowRegisterWrite _ _ | .configurationAccess _ | .busMasteringWithdrawn | .sample
  | .partnerRead _ | .laneFrame _ _ | .elasticArrival _ _ | .elasticRead _ | .laneLock _ _ _ | .lossOfLock _ _
  | .laneLost _ | .refLock | .refUnlock | .blockTick _ _ | .keyPress _ | .keyRelease _ | .holdCountExpiry _
  | .outgoingFadeEnd _ | .rampEnd _ | .codeSettle _ | .lossCountExpiry _ | .shadowCountEnd _ | .periodicDue
  | .engineActive | .intakeTake | .sectionFetch | .readCompletion _ .error | .readCompletion _ .poisoned
  | .readTimeout | .apply | .roundBegin | .recordWriteBegin _ | .recordWriteComplete | .seekingSync _ _ _ => true

end Sys2Proof
end

