-- ==== Sys2Proof/Decode.lean ====
section
/-! DEFINITION. Decoding. The opcode table gives no row any bits, so no word spells a command. What the manual does
encode is a host write to the register window: `hostWrite` gives the commands such a write is (R150, R152, R171). -/

namespace Sys2Proof

/-- The command that a word spells by the table's bits: the table gives none. -/
def decodeTableWord (_nbits _w : Nat) : Option Instr :=
  none

/-- The window register at the offset of its low half (R171). -/
def windowRegAt (offset : Nat) : Option WindowReg :=
  if offset = 0x020 then some .planBase
  else if offset = 0x028 then some .planEnd
  else if offset = 0x030 then some .reportBase
  else if offset = 0x038 then some .reportEnd
  else none

/-- The commands of a write to MCTL (R152): a soft reset, whose other fields are not taken, or both fields. -/
def controlWrite (value : Word32) : List Instr :=
  if value.getLsbD 2 then [.softReset] else [.memoryEnable (value.getLsbD 0), .laneHold (value.getLsbD 1)]

/-- The commands of one aligned 32-bit write, not at the instant of a notice event (R150, R171). -/
def wordWrite (offset : Nat) (value : Word32) : List Instr :=
  if offset = 0x004 then controlWrite value
  else if offset = 0x00C then [.post value]
  else if offset = 0x010 then [.noticeClear ⟨value, false⟩]
  else if offset = 0x014 then [.noticeMaskWrite ⟨value, false⟩]
  else
    match windowRegAt offset, windowRegAt (offset - 4) with
    | some r, _ => [.windowRegisterWrite r (.low value)]
    | none, some r => [.windowRegisterWrite r (.high value)]
    | none, none => [.ignoredRegisterWrite (BitVec.ofNat 12 offset) .four (value.setWidth 64)]

/-- The 32 bits that an access at an offset carries for the word at an offset it covers whole (R150). -/
def wordOf (offset : Nat) (value : Word64) (word : Nat) : Word32 :=
  (value >>> (8 * (word - offset))).setWidth 32

/-- The commands of a host write inside the register window, in the order LINK takes them (R150): one aligned 64-bit
access to a window register, or each word covered whole; what is narrower than 32 bits is ignored. -/
def hostWrite (offset : BitVec 12) (width : AccessWidth) (value : Word64) : List Instr :=
  match width, windowRegAt offset.toNat with
  | .eight, some r => [.windowRegisterWrite r (.whole value)]
  | _, _ =>
    match wholeWords offset.toNat width with
    | [] => [.ignoredRegisterWrite offset width value]
    | words => words.flatMap fun w => wordWrite w (wordOf offset.toNat value w)

end Sys2Proof
end

