-- ==== Sys2Proof/Machine/State.lean ====
section
/-! DEFINITION. The state of the part as plain data: one structure for each block of the manual, and the state after a
power-on reset. -/

namespace Sys2Proof.Machine

/-! ### LINE (chapter 2) -/

/-- The eight line states (R30). The position of SCREEN and the group of CONFER follow from the role (R31, R34). -/
inductive LineState where
  | vacant | parked | screen | hold | shadow | air | confer | lost
deriving DecidableEq, Repr

/-- A role with its argument (R27). -/
inductive Role where
  | off | auto | screen (p : Position) | hold | air | confer (g : Group)
deriving DecidableEq, Repr

/-- What CMAP delivers (R27, R29). -/
inductive Condition where
  | connected | disconnected | alerting
deriving DecidableEq, Repr

/-- The six level codes of a line (R27). -/
structure Levels where
  voice : GainCode
  ret : GainCode
  conferAir : GainCode
  hold : GainCode
  bed : GainCode
  duck : GainCode
deriving DecidableEq, Repr

/-- An applied line plan record (R27, R33). The partner set is held in ascending line number. -/
structure LinePlan where
  role : Role
  levels : Levels
  threshold : Fin 9
  partners : List Line
deriving DecidableEq, Repr

/-- A line context (R27). -/
structure LineCtx where
  state : LineState
  plan : LinePlan
  condition : Condition
  lossCount : Nat
  shadowCount : Nat
  lostFrom : Option LineState
  autoScreener : Option Position
  arrivalNumber : Option (BitVec 8)
  reportPending : Bool
deriving DecidableEq, Repr

/-- The Line Controller (R27, R28). -/
structure LineBlock where
  ctx : Vector LineCtx 24
  dumpDepth : Nat
  shadowMargin : Nat
  lossHoldoff : Nat
deriving DecidableEq, Repr

/-! ### MIX (chapter 1) -/

/-- A ramp (R17): the current multiplier, the start value g0, the target g1, the length L and the position n. -/
structure Ramp where
  cur : Int
  start : Int
  target : Int
  len : Nat
  pos : Nat
deriving DecidableEq, Repr

/-- A group-indexed ramp (R20). -/
structure GroupRamp where
  ramp : Ramp
  index : Group
  pending : Option Group
deriving DecidableEq, Repr

/-- A source context (R24). -/
structure SourceCtx where
  airCode : GainCode
  air : Ramp
  peak : Nat
deriving DecidableEq, Repr

/-- A contribution context (R25). -/
structure ContribCtx where
  voice : Int
  air : Ramp
  group : GroupRamp
  peak : Nat
deriving DecidableEq, Repr

/-- What a winner does to the programme (R69). -/
inductive DuckKind where
  | none | duck | interrupt
deriving DecidableEq, Repr

/-- A return context (R26). `position` is the screener position that the screener term reads: that of the line's role,
held while the term of a line that has left it ramps out (R9, R22; entry 31). -/
structure ReturnCtx where
  air : Ramp
  group : GroupRamp
  hold : Ramp
  screener : Ramp
  cueIn : Ramp
  cueOut : Ramp
  position : Option Position
  duck : DuckKind
  peak : Nat
  clip : BitVec 32
deriving DecidableEq, Repr

/-- An output context of one bus of output lane 3 (R26). -/
structure OutputCtx where
  peak : Nat
  clip : BitVec 32
deriving DecidableEq, Repr

/-- The Mix Core (R24 to R26, R4, R19). -/
structure Mix where
  sources : Vector SourceCtx 16
  holdFeed : Source
  mainBlocks : Nat
  cueBlocks : Nat
  contribs : Vector ContribCtx 24
  returns : Vector ReturnCtx 24
  outputs : Vector OutputCtx 8
deriving DecidableEq, Repr

/-! ### SCRN (chapter 4) -/

/-- A screener position record (R72). -/
structure PositionRec where
  talker : Option Source
  selected : Option Line
  level : GainCode
deriving DecidableEq, Repr

/-- What the screening table section carries (R72, R76). -/
structure ScreeningTable where
  positions : Vector PositionRec 3
  spreadBits : Nat
  spread : Vector (Option Position) 16
deriving DecidableEq, Repr

/-- The Screening Unit (R84). -/
structure Scrn where
  table : ScreeningTable
  arrivals : BitVec 8
  roleCounts : Vector Nat 4
deriving DecidableEq, Repr

/-! ### CUE (chapter 3) -/

/-- A route's target (R54, R62). -/
inductive Target where
  | line (n : Line) | group (g : Group) | air | screening (p : Position) | all
deriving DecidableEq, Repr

/-- How presses and releases move a route (R54). -/
inductive Mode where
  | momentary | latch
deriving DecidableEq, Repr

/-- A route entry (R54). -/
structure RouteEntry where
  valid : Bool
  talker : Source
  key : Key
  target : Target
  priority : Fin 8
  cueCode : GainCode
  hold : Fin 256
  mode : Mode
deriving DecidableEq, Repr

/-- A route's activity (R55). -/
inductive Activity where
  | idle | active | latched | holding
deriving DecidableEq, Repr

/-- A route: its entry, its activity and its hold count (R54, R55). -/
structure RouteCtx where
  entry : RouteEntry
  activity : Activity
  holdCount : Nat
deriving DecidableEq, Repr

/-- A key: its soft key, its debounced state and its run count (R52, R53). -/
structure KeyCtx where
  soft : Bool
  down : Bool
  run : Nat
deriving DecidableEq, Repr

/-- The cue state of a return (section 3.6), with the talker last presented for the winner and the marks of R70 that a
route became outgoing, or was cut, at the last block tick (entry 20). -/
structure CueReturn where
  winner : Option Route
  isNew : Bool
  outgoing : Option Route
  outTalker : Option Source
  duck : DuckKind
  talker : Option Source
  outNew : Bool
  cut : Bool
deriving DecidableEq, Repr

/-- The Cue Arbiter (R71). -/
structure Cue where
  keys : Vector KeyCtx 16
  routes : Vector RouteCtx 32
  returns : Vector CueReturn 24
deriving DecidableEq, Repr

/-! ### LRX and LTX (chapter 5) -/

/-- Which end clocks a lane (R87). -/
inductive Clocking where
  | master | slave
deriving DecidableEq, Repr

/-- The audio width of a lane (R87). -/
inductive Width where
  | wide | narrow
deriving DecidableEq, Repr

/-- A lane setup (R87). -/
structure LaneSetup where
  enabled : Bool
  clocking : Clocking
  width : Width
deriving DecidableEq, Repr

/-- An input lane's state (R88). -/
inductive InState where
  | off | seeking | locked
deriving DecidableEq, Repr

/-- An elastic buffer's mode (R92, R93). -/
inductive FillMode where
  | flowing | refilling
deriving DecidableEq, Repr

/-- The slot values a frame gave when it was taken (R90): audio, and the side code where one was taken. -/
structure Shown where
  audio : Vector Int 8
  side : Vector (Option (BitVec 6)) 8
deriving DecidableEq, Repr

/-- An input lane (section 5.3). `shown` is what the lane presents: on a SLAVE lane, the previous frame of its buffer.
`sideSample` is what R99 samples: the side codes of the frame presented for the last sample. -/
structure InLaneCtx where
  setup : LaneSetup
  state : InState
  run : Nat
  expected : Nat
  seeking : Nat
  lostShown : Bool
  buffer : List SlotWords
  mode : FillMode
  shown : Shown
  lastGood : Vector Int 8
  overruns : Nat
  underruns : Nat
  syncLosses : Nat
  parityRepeats : Nat
  statusPending : Bool
  sideSample : Vector (Option (BitVec 6)) 8
  frameSeen : Bool
  readDone : Bool
deriving DecidableEq, Repr

/-- The Lane Receiver, with the lane-loss time (R104). -/
structure Lrx where
  lanes : Vector InLaneCtx 5
  laneLoss : Nat
deriving DecidableEq, Repr

/-- The words of a lane frame as sent: the sync word, then the slot words of slots 0 to 7 (R86, R165). -/
abbrev FrameWords := Vector Word32 9

/-- An output lane (section 5.4). `sent` is the frame it last drove on the lane. -/
structure OutLaneCtx where
  setup : LaneSetup
  running : Bool
  buffer : List SlotWords
  mode : FillMode
  previous : SlotWords
  overruns : Nat
  underruns : Nat
  statusPending : Bool
  sent : Option FrameWords
deriving DecidableEq, Repr

/-- The Lane Transmitter (R104). -/
structure Ltx where
  lanes : Vector OutLaneCtx 4
  hold : Bool
deriving DecidableEq, Repr

/-! ### CMAP and the reference monitor (chapter 5) -/

/-- A code table entry (R101); NONE is `none`. -/
structure CodeEntry where
  condition : Option Condition
  notify : Bool
deriving DecidableEq, Repr

/-- A settle record (R100). -/
structure SettleRec where
  last : Option (BitVec 6)
  count : Nat
  delivered : Bool
deriving DecidableEq, Repr

/-- The Code Mapper (R105). -/
structure Cmap where
  table : Vector CodeEntry 64
  settle : Nat
  records : Vector SettleRec 24
deriving DecidableEq, Repr

/-- What the sample clock follows (R98). -/
inductive ClockSource where
  /-- Its nominal 48 kHz: it has not locked since a power-on or soft reset. -/
  | nominal
  /-- The house reference. -/
  | following
  /-- The last frequency at which it followed the reference. -/
  | held
deriving DecidableEq, Repr

/-- The reference monitor (R98): the lock state, the count of 64 blocks, the clock's source, and whether the reference
failed in the block now running. -/
structure RefMonitor where
  locked : Bool
  count : Nat
  clock : ClockSource
  failed : Bool
deriving DecidableEq, Repr

/-! ### INTAKE (chapter 6) -/

/-- The intake phases (R110). -/
inductive Phase where
  | idle | fetching | ready | applying
deriving DecidableEq, Repr

/-- The verdicts (R124). -/
inductive Verdict where
  | accepted | window | fetchFault | torn | range | groupFull
deriving DecidableEq, Repr

/-- A verdict entry (R124); field index NONE is `none`. -/
structure VerdictEntry where
  sec : Section
  verdict : Verdict
  edition : BitVec 16
  field : Option Nat
  number : BitVec 16
deriving DecidableEq, Repr

/-- What the studio source table carries (R106). -/
structure SourceTable where
  airCodes : Vector GainCode 16
  holdFeed : Source
deriving DecidableEq, Repr

/-- What the studio state section carries (R106). -/
structure StudioState where
  softKeys : Vector Bool 16
  dumpDepth : Nat
deriving DecidableEq, Repr

/-- What the timing record carries, clamped (R106, R117). -/
structure Timing where
  mainBlocks : Nat
  cueBlocks : Nat
  lossHoldoff : Nat
  shadowMargin : Nat
  settle : Nat
  laneLoss : Nat
  reportPeriod : Nat
deriving DecidableEq, Repr

/-- What the lane setup section carries (R106). -/
structure LaneSetups where
  inputs : Vector LaneSetup 5
  outputs : Vector LaneSetup 4
deriving DecidableEq, Repr

/-- The staging store (R119). -/
structure Staging where
  lines : Vector (Option LinePlan) 24
  sources : Option SourceTable
  routes : Option (Vector RouteEntry 32)
  codes : Option (Vector CodeEntry 64)
  screening : Option ScreeningTable
  studio : Option StudioState
  timing : Option Timing
  lanes : Option LaneSetups
deriving DecidableEq, Repr

/-- The Plan Intake Engine (R128), with the head value and the record bytes read so far of the section being fetched. -/
structure Intake where
  phase : Phase
  taken : Word32
  position : Option Section
  staging : Staging
  verdicts : List VerdictEntry
  reportRequest : Bool
  number : BitVec 16
  head : Option (BitVec 16)
  record : Option (List Byte)
deriving DecidableEq, Repr

/-! ### REPORT (chapter 7) -/

/-- The records of the report area (R130). -/
inductive RecordKind where
  | verdict (s : Section) | part | lane (e : Fin 9) | line (l : Line) | meter (i : Fin 48)
deriving DecidableEq, Repr

/-- A record of a round with its snapshot: the bytes between the stamps (for the part state record, after the report
sequence field), and whether it is a state-change lane record (R136). -/
structure RoundRecord where
  kind : RecordKind
  body : List Byte
  stateChange : Bool
deriving DecidableEq, Repr

/-- The record whose write is under way (R131). -/
structure Underway where
  item : RoundRecord
  stamp : BitVec 16
  sent : PartSent
deriving DecidableEq, Repr

/-- A round in progress (R136): the records not yet begun, the record under way, whether it carries a full report or
meters, whether its meter records are all complete and whether one was written, and the clip totals captured. -/
structure Round where
  todo : List RoundRecord
  current : Option Underway
  full : Bool
  meters : Bool
  metersDone : Bool
  meterWritten : Bool
  clips : Vector (BitVec 32) 32
deriving DecidableEq, Repr

/-- The Report Engine (R148). -/
structure Report where
  seq : BitVec 16
  blockCount : BitVec 32
  meterCounter : Nat
  due : Bool
  period : Nat
  verdicts : List VerdictEntry
  fullRequest : Bool
  round : Option Round
  lastClips : Vector (BitVec 32) 32
deriving DecidableEq, Repr

/-! ### LINK (chapter 8) -/

/-- The memory engine's states (R157). -/
inductive Engine where
  | stopped | active | draining
deriving DecidableEq, Repr

/-- The three reads of a section (R107). -/
inductive ReadStep where
  | head | record | tail
deriving DecidableEq, Repr

/-- A plan read outstanding on the link: the model's name for it, which read of the section it is, the host address and
the number of bytes it asks for (R106, R107), and the block ticks since its issue (R114). `late` says that it was issued
after a part of the tick now being taken, so that this tick is none of those (entry 36). -/
structure PlanRead where
  id : Nat
  step : ReadStep
  address : Nat
  length : Nat
  age : Nat
  late : Bool
deriving DecidableEq, Repr

/-- An interrupt message (R146, R149). The manual gives its address and its data no width: 64 and 32 bits are the model's.
DESIGN CHOICE (entry 37). -/
structure Message where
  address : Word64
  data : Word32
deriving DecidableEq, Repr

/-- The Link Interface (R163) and its configuration space (R149). `messages` and `lastMessage` are the interrupt messages
sent; `beforeEvent` is there while a notice event sent the last of them, and holds the one before it (R146; entry 14). The
widths of `placement`, `msgAddress` and `msgData` are the model's. DESIGN CHOICE (entry 37). -/
structure Link where
  placement : Option Word64
  busMaster : Bool
  msgEnabled : Bool
  msgAddress : Word64
  msgData : Word32
  planBase : Word64
  planEnd : Word64
  reportBase : Word64
  reportEnd : Word64
  post : Word32
  notice : Word32
  mask : Word32
  miss : BitVec 16
  memEnable : Bool
  engine : Engine
  read : Option PlanRead
  stale : List Nat
  nextRead : Nat
  messages : Nat
  lastMessage : Option Message
  beforeEvent : Option (Option Message)
deriving DecidableEq, Repr

/-! ### The model's own -/

/-- Which parts of the block tick now being taken have been taken by a command that names them, ahead of BLOCK_TICK
(entry 2): keys sampled, hold counts loaded, routes replaced, lanes and lines taken, the group memberships and group terms
that have taken their pending group, each with the index it left, a lane counted up to its loss, the meter period counter
raised, the look at the post word made, and `other` for an event with no mark of its own: the engine's start, a lock of the
reference, the end of a fade, a read's timeout. `roundOpen` says that the block tick just taken may still begin a round. -/
structure Instant where
  keys : Vector Bool 16
  holds : Vector Bool 32
  replaced : Vector Bool 32
  lanes : Vector Bool 5
  lines : Vector Bool 24
  members : Vector (Option Group) 24
  terms : Vector (Option Group) 24
  laneLost : Bool
  period : Bool
  take : Bool
  other : Bool
  roundOpen : Bool
deriving DecidableEq, Repr

/-- The block has no fault: no rule of the manual stops it. -/
inductive Fault where
deriving DecidableEq, Repr

/-- Why a command has no meaning: no command is refused. -/
inductive Refusal where
  /-- A row with no meaning in this model; no arm of `exec` raises it. Safe: nothing is claimed of it. -/
  | notModelled (mnemonic : String)
deriving DecidableEq, Repr

/-- The part: its ten blocks with the reference monitor, the bytes its writes have left in host memory (entry 13), the
block tick being taken (entry 2), and the queue of commands waiting (entry 1). -/
structure State where
  mix : Mix
  line : LineBlock
  scrn : Scrn
  cue : Cue
  lrx : Lrx
  ltx : Ltx
  cmap : Cmap
  ref : RefMonitor
  intake : Intake
  report : Report
  link : Link
  hostMem : List Host.Cell
  inst : Instant
  pending : List Instr
deriving DecidableEq, Repr

/-! ### Reset values -/

/-- A ramp at rest at 0 (R24 to R26). Its start value, its length and its position are the model's: DESIGN CHOICE
(entry 11). -/
def Ramp.rest : Ramp := { cur := 0, start := 0, target := 0, len := 0, pos := 0 }

/-- R20, R25, R26: at rest at 0, index 0, nothing pending. -/
def GroupRamp.rest : GroupRamp := { ramp := Ramp.rest, index := 0, pending := none }

/-- R28. -/
def LinePlan.default : LinePlan :=
  { role := .off, levels := { voice := 200, ret := 200, conferAir := 188, hold := 200, bed := 160, duck := 176 },
    threshold := 8, partners := [] }

/-- R28. -/
def LineCtx.reset : LineCtx :=
  { state := .vacant, plan := LinePlan.default, condition := .disconnected, lossCount := 0, shadowCount := 0,
    lostFrom := none, autoScreener := none, arrivalNumber := none, reportPending := false }

/-- R28. -/
def LineBlock.reset : LineBlock :=
  { ctx := Vector.replicate 24 LineCtx.reset, dumpDepth := 0, shadowMargin := 500, lossHoldoff := 3000 }

/-- R24 to R26, R4, R19. -/
def Mix.reset : Mix :=
  { sources := Vector.replicate 16 { airCode := 0, air := Ramp.rest, peak := 0 }, holdFeed := 15, mainBlocks := 4,
    cueBlocks := 2,
    contribs := Vector.replicate 24 { voice := Config.unity, air := Ramp.rest, group := GroupRamp.rest, peak := 0 },
    returns := Vector.replicate 24
      { air := Ramp.rest, group := GroupRamp.rest, hold := Ramp.rest, screener := Ramp.rest, cueIn := Ramp.rest,
        cueOut := Ramp.rest, position := none, duck := .none, peak := 0, clip := 0 },
    outputs := Vector.replicate 8 { peak := 0, clip := 0 } }

/-- R84. -/
def Scrn.reset : Scrn :=
  { table := { positions := Vector.replicate 3 { talker := none, selected := none, level := 200 }, spreadBits := 1,
               spread := Vector.replicate 16 none },
    arrivals := 0, roleCounts := Vector.replicate 4 0 }

/-- R71. -/
def RouteEntry.reset : RouteEntry :=
  { valid := false, talker := 0, key := 0, target := .line 0, priority := 0, cueCode := 0, hold := 0,
    mode := .momentary }

/-- R71. -/
def CueReturn.clear : CueReturn :=
  { winner := none, isNew := false, outgoing := none, outTalker := none, duck := .none, talker := none,
    outNew := false, cut := false }

/-- R71. -/
def Cue.reset : Cue :=
  { keys := Vector.replicate 16 { soft := false, down := false, run := 0 },
    routes := Vector.replicate 32 { entry := RouteEntry.reset, activity := .idle, holdCount := 0 },
    returns := Vector.replicate 24 CueReturn.clear }

/-- R104. -/
def LaneSetup.reset : LaneSetup := { enabled := false, clocking := .master, width := .wide }

/-- The silent frame (R92): every slot audio 0, no side code. -/
def Shown.silent : Shown := { audio := Vector.replicate 8 0, side := Vector.replicate 8 none }

/-- The silent frame as slot words (R92, R97): audio 0, valid 0, correct parity. The side code of its slots, which an output
lane sends before its first read, is stated by neither rule: it is 0. DESIGN CHOICE (entry 33). -/
def SlotWords.silent : SlotWords := Vector.replicate 8 1

/-- R104. -/
def InLaneCtx.reset : InLaneCtx :=
  { setup := LaneSetup.reset, state := .off, run := 0, expected := 0, seeking := 0, lostShown := false, buffer := [],
    mode := .refilling, shown := Shown.silent, lastGood := Vector.replicate 8 0, overruns := 0, underruns := 0,
    syncLosses := 0, parityRepeats := 0, statusPending := false, sideSample := Vector.replicate 8 none,
    frameSeen := false, readDone := false }

/-- R104. -/
def Lrx.reset : Lrx := { lanes := Vector.replicate 5 InLaneCtx.reset, laneLoss := 250 }

/-- R104. -/
def OutLaneCtx.reset : OutLaneCtx :=
  { setup := LaneSetup.reset, running := false, buffer := [], mode := .refilling, previous := SlotWords.silent,
    overruns := 0, underruns := 0, statusPending := false, sent := none }

/-- R104. -/
def Ltx.reset : Ltx := { lanes := Vector.replicate 4 OutLaneCtx.reset, hold := true }

/-- The default code table (R101). -/
def CodeEntry.default (code : Fin 64) : CodeEntry :=
  { condition := if code = 0 then some .disconnected else if code = 1 then some .connected
      else if code = 2 then some .alerting else none,
    notify := false }

/-- R100: last code NONE, count 0, mark clear. -/
def SettleRec.clear : SettleRec := { last := none, count := 0, delivered := false }

/-- R105. -/
def Cmap.reset : Cmap :=
  { table := Vector.ofFn CodeEntry.default, settle := 4, records := Vector.replicate 24 SettleRec.clear }

/-- R98, R105. -/
def RefMonitor.reset : RefMonitor := { locked := false, count := 0, clock := .nominal, failed := false }

/-- R111, R121. -/
def Staging.empty : Staging :=
  { lines := Vector.replicate 24 none, sources := none, routes := none, codes := none, screening := none,
    studio := none, timing := none, lanes := none }

/-- R128. -/
def Intake.reset : Intake :=
  { phase := .idle, taken := 0, position := none, staging := Staging.empty, verdicts := [], reportRequest := false,
    number := 0, head := none, record := none }

/-- R148. -/
def Report.reset : Report :=
  { seq := 0, blockCount := 0, meterCounter := 0, due := false, period := 100, verdicts := [], fullRequest := false,
    round := none, lastClips := Vector.replicate 32 0 }

/-- R163 and the defaults of R149; the message address and data are DESIGN CHOICE (entry 23). -/
def Link.reset : Link :=
  { placement := none, busMaster := false, msgEnabled := false, msgAddress := 0, msgData := 0, planBase := 0,
    planEnd := 0, reportBase := 0, reportEnd := 0, post := 0, notice := 0, mask := 0xFFFFFFFF, miss := 0,
    memEnable := false, engine := .stopped, read := none, stale := [], nextRead := 0, messages := 0,
    lastMessage := none, beforeEvent := none }

/-- Nothing of the next block tick has been taken yet. -/
def Instant.none : Instant :=
  { keys := Vector.replicate 16 false, holds := Vector.replicate 32 false, replaced := Vector.replicate 32 false,
    lanes := Vector.replicate 5 false, lines := Vector.replicate 24 false, members := Vector.replicate 24 .none,
    terms := Vector.replicate 24 .none, laneLost := false, period := false, take := false, other := false,
    roundOpen := false }

/-- The part after a power-on reset (R160), with an empty queue and no write of its own in host memory yet. -/
def State.reset : State :=
  { mix := Mix.reset, line := LineBlock.reset, scrn := Scrn.reset, cue := Cue.reset, lrx := Lrx.reset,
    ltx := Ltx.reset, cmap := Cmap.reset, ref := RefMonitor.reset, intake := Intake.reset, report := Report.reset,
    link := Link.reset, hostMem := [], inst := Instant.none, pending := [] }

end Sys2Proof.Machine
end

