-- ==== Sys2Proof/Machine/Flags.lean ====
section
/-! DEFINITION. Notices, the notice mask and interrupt messages (R144 to R147, R149), and parity (R86). -/

namespace Sys2Proof.Machine

/-- The bit of a notice in the notice word (R144). -/
def noticeBit (n : Nat) : Word32 := BitVec.twoPow 32 n

/-- Line k changed. -/
def noticeLine (l : Line) : Word32 := noticeBit l.val
/-- INTAKE. -/
def noticeIntake : Word32 := noticeBit 24
/-- LANE. -/
def noticeLane : Word32 := noticeBit 25
/-- REPORT. -/
def noticeReport : Word32 := noticeBit 26
/-- CLIP. -/
def noticeClip : Word32 := noticeBit 27
/-- DRAINED. -/
def noticeDrained : Word32 := noticeBit 28
/-- MISS. -/
def noticeMiss : Word32 := noticeBit 29
/-- REG_REFUSED. -/
def noticeRefused : Word32 := noticeBit 30
/-- REF. -/
def noticeRef : Word32 := noticeBit 31

/-- The unmasked pending set (R146). -/
def Link.unmasked (k : Link) : Word32 :=
  k.notice &&& ~~~k.mask

/-- An interrupt message, sent only while messages are enabled and bus mastering is permitted (R149). `before` is what is
kept of the message before it: its own, for a message that a notice event sends. -/
def Link.sendMessage (k : Link) (before : Option (Option Message)) : Link :=
  if k.msgEnabled && k.busMaster then
    { k with messages := k.messages + 1, lastMessage := some { address := k.msgAddress, data := k.msgData }
             beforeEvent := before }
  else k

/-- A notice set by its event: a message is sent when the unmasked pending set goes from empty to non-empty (R144,
R146). -/
def Link.raise (k : Link) (bit : Word32) : Link :=
  let k' := { k with notice := k.notice ||| bit }
  if k.unmasked = 0 && k'.unmasked ≠ 0 then k'.sendMessage (some k.lastMessage) else k'

/-- The message of a host write to MNOTE or MMASK that falls alone at its instant: one if the unmasked pending set is left
non-empty (R146). -/
def Link.afterHostWrite (k : Link) : Link :=
  if k.unmasked = 0 then k else k.sendMessage none

/-- The message of a host write that falls together with the notice event that sent the last message, the event taken
first: the two send one message between them where the write leaves the unmasked pending set non-empty, and none where it
leaves it empty (R146; entry 14). -/
def Link.afterJointWrite (k : Link) (before : Option Message) : Link :=
  if k.unmasked = 0 then { k with messages := k.messages - 1, lastMessage := before, beforeEvent := none }
  else { k with beforeEvent := none }

/-- The message of a host write to MNOTE or MMASK (R146). -/
def Link.answerWrite (k : Link) (atEvent : Bool) : Link :=
  match atEvent, k.beforeEvent with
  | true, some before => k.afterJointWrite before
  | _, _ => k.afterHostWrite

/-- A notice set in the part. -/
def State.raise (s : State) (bit : Word32) : State :=
  { s with link := s.link.raise bit }

/-- The number of ones in a word is odd (R86). -/
def oddOnes {w : Nat} (x : BitVec w) : Bool :=
  (List.range w).foldl (fun acc i => acc ^^ x.getLsbD i) false

end Sys2Proof.Machine
end

