-- ==== Sys2Proof/Machine/Operands.lean ====
section
/-! DEFINITION. The operand forms of the block: fields of host-memory records (R164), the plan sections with their
checks, clamps and staging (R106, R116 to R119, R166 to R168), and slot words (R86, R91, R95, R165). -/

namespace Sys2Proof.Machine

/-! ### Fields in host memory (R164) -/

/-- The byte at an index of a record. -/
def byteAt (b : List Byte) (i : Nat) : Nat :=
  (b.getD i 0).toNat

/-- The two-byte field at an index, least significant byte first (R164). -/
def wordAt (b : List Byte) (i : Nat) : Nat :=
  byteAt b i + 256 * byteAt b (i + 1)

/-- A two-byte field as its bytes (R164). -/
def bytes16 (v : Nat) : List Byte :=
  [BitVec.ofNat 8 v, BitVec.ofNat 8 (v / 256)]

/-- A four-byte field as its bytes (R164). -/
def bytes32 (v : Nat) : List Byte :=
  bytes16 v ++ bytes16 (v / 65536)

/-- A one-byte field as its byte. -/
def byte8 (v : Nat) : Byte := BitVec.ofNat 8 v

/-- A one-byte field that may be absent: NONE is 255 (R164). -/
def byteOpt {n : Nat} (v : Option (Fin n)) : Byte :=
  match v with
  | none => 255
  | some x => byte8 x.val

/-- The number of a byte, or NONE for 255 (R164). -/
def optAt (n : Nat) [NeZero n] (b : List Byte) (i : Nat) : Option (Fin n) :=
  if byteAt b i = 255 then none else some (Fin.ofNat n (byteAt b i))

/-! ### Roles, targets and conditions as codes (R166, R169) -/

/-- The role of a role code and an argument; the argument is read for SCREEN and CONFER alone (R116, R166). -/
def roleOf (code arg : Nat) : Role :=
  match code with
  | 1 => .auto
  | 2 => .screen (Fin.ofNat 3 arg)
  | 3 => .hold
  | 4 => .air
  | 5 => .confer (Fin.ofNat 4 arg)
  | _ => .off

/-- The code of a role (R166). -/
def Role.code : Role → Nat
  | .off => 0
  | .auto => 1
  | .screen _ => 2
  | .hold => 3
  | .air => 4
  | .confer _ => 5

/-- The argument of a role, 0 for a role without one (R27). -/
def Role.arg : Role → Nat
  | .screen p => p.val
  | .confer g => g.val
  | .off | .auto | .hold | .air => 0

/-- The group of a CONFER role (R79). -/
def Role.group : Role → Option Group
  | .confer g => some g
  | .off | .auto | .screen _ | .hold | .air => none

/-- The state index (R30). -/
def LineState.index : LineState → Nat
  | .vacant => 0
  | .parked => 1
  | .screen => 2
  | .hold => 3
  | .shadow => 4
  | .air => 5
  | .confer => 6
  | .lost => 7

/-- The code of a condition (R166). -/
def Condition.code : Condition → Nat
  | .connected => 1
  | .disconnected => 2
  | .alerting => 3

/-- The condition of a code of the code table; 0 is NONE (R166). -/
def conditionOf (code : Nat) : Option Condition :=
  match code with
  | 1 => some .connected
  | 2 => some .disconnected
  | 3 => some .alerting
  | _ => none

/-- The target of a target kind code and a number; the number is not read for AIR and ALL (R116, R166). -/
def targetOf (kind number : Nat) : Target :=
  match kind with
  | 0 => .line (Fin.ofNat 24 number)
  | 1 => .group (Fin.ofNat 4 number)
  | 2 => .air
  | 3 => .screening (Fin.ofNat 3 number)
  | _ => .all

/-- The code of a verdict (R169). -/
def Verdict.code : Verdict → Nat
  | .accepted => 0
  | .window => 1
  | .fetchFault => 2
  | .torn => 3
  | .range => 4
  | .groupFull => 5

/-- The code of the engine state (R169). -/
def Engine.code : Engine → Nat
  | .stopped => 0
  | .active => 1
  | .draining => 2

/-- The code of an intake phase (R171). -/
def Phase.code : Phase → Nat
  | .idle => 0
  | .fetching => 1
  | .ready => 2
  | .applying => 3

/-- The code of an input lane state (R169). -/
def InState.code : InState → Nat
  | .off => 0
  | .seeking => 1
  | .locked => 2

/-! ### Plan sections (R106, R166 to R168) -/

/-- The record kinds of the plan sections (R106). -/
inductive SectionKind where
  | line (l : Line) | sources | routes | codes | screening | studio | timing | lanes | request
deriving DecidableEq, Repr

/-- The record of a section (R106). -/
def sectionKind (s : Section) : SectionKind :=
  if s.val < 24 then .line (Fin.ofNat 24 s.val)
  else if s.val = 24 then .sources
  else if s.val = 25 then .routes
  else if s.val = 26 then .codes
  else if s.val = 27 then .screening
  else if s.val = 28 then .studio
  else if s.val = 29 then .timing
  else if s.val = 30 then .lanes
  else .request

/-- Bytes of a record, from offset 2 to its last field (R167, R168). -/
def recordLength : SectionKind → Nat
  | .line _ => 15
  | .sources => 17
  | .routes => 288
  | .codes => 128
  | .screening => 26
  | .studio => 18
  | .timing => 14
  | .lanes => 27
  | .request => 0

/-- Fields of a record (R116). -/
def fieldCount : SectionKind → Nat
  | .line _ => 15
  | .sources => 17
  | .routes => 288
  | .codes => 128
  | .screening => 26
  | .studio => 17
  | .timing => 7
  | .lanes => 27
  | .request => 0

/-- A byte that must be a number below a bound, or NONE. -/
def badOpt (n v : Nat) : Bool := v ≠ 255 && n ≤ v

/-- Field i of a line plan record holds an unknown code (R116). -/
def badLineField (b : List Byte) (i : Nat) : Bool :=
  let v := byteAt b i
  if i = 0 then 5 < v
  else if i = 1 then (byteAt b 0 = 2 && 2 < v) || (byteAt b 0 = 5 && 3 < v)
  else if i < 8 then false
  else if i = 8 then 8 < v
  else badOpt 24 v

/-- Field i of the route table holds an unknown code (R116, R168). -/
def badRouteField (b : List Byte) (i : Nat) : Bool :=
  let v := byteAt b i
  let kind := byteAt b (i - 1)
  match i % 9 with
  | 0 => 1 < v
  | 1 => 15 < v
  | 2 => 15 < v
  | 3 => 4 < v
  | 4 => (kind = 0 && 23 < v) || (kind = 1 && 3 < v) || (kind = 3 && 2 < v)
  | 5 => 7 < v
  | 8 => 1 < v
  | _ => false

/-- Field i of the screening table holds an unknown code (R116, R168). -/
def badScreeningField (b : List Byte) (i : Nat) : Bool :=
  let v := byteAt b i
  if i < 9 then
    match i % 3 with
    | 0 => badOpt 16 v
    | 1 => badOpt 24 v
    | _ => false
  else if i = 9 then false
  else badOpt 3 v

/-- Field i of a record holds a value outside its kind (R116). -/
def badField (k : SectionKind) (b : List Byte) (i : Nat) : Bool :=
  match k with
  | .line _ => badLineField b i
  | .sources => i = 16 && 15 < byteAt b i
  | .routes => badRouteField b i
  | .codes => if i % 2 = 0 then 3 < byteAt b i else 1 < byteAt b i
  | .screening => badScreeningField b i
  | .lanes => 1 < byteAt b i
  | .studio | .timing | .request => false

/-- The first field of a record that is refused (R116). -/
def firstBad (k : SectionKind) (b : List Byte) : Option Nat :=
  (List.range (fieldCount k)).find? (badField k b)

/-! ### Clamps and the partner set (R117, R118) -/

/-- A setting clamped to the nearer end of its range (R117). -/
def clampTo (lo hi v : Nat) : Nat := max lo (min hi v)

/-- The range of a timing field (R117, R167). -/
def timingRange (i : Nat) : Nat × Nat :=
  match i with
  | 0 => (1, 16)
  | 1 => (1, 16)
  | 2 => (1, 65535)
  | 3 => (0, 65535)
  | 4 => (1, 16)
  | 5 => (1, 65535)
  | _ => (1, 1000)

/-- A timing field clamped (R117). -/
def timingField (b : List Byte) (i : Nat) : Nat :=
  clampTo (timingRange i).1 (timingRange i).2 (wordAt b (2 * i))

/-- The partners kept from the entries of a list, in list order (R118). -/
def keptPartners (own : Line) (entries : List (Option Line)) : List Line :=
  entries.foldl (fun kept e =>
    match e with
    | none => kept
    | some l => if l = own || kept.contains l || 3 ≤ kept.length then kept else kept ++ [l]) []

/-- Entry i is dropped though it is not NONE (R118, R119). -/
def droppedPartner (own : Line) (entries : List (Option Line)) (i : Nat) : Bool :=
  match entries.getD i none with
  | none => false
  | some l =>
    let kept := keptPartners own (entries.take i)
    l = own || kept.contains l || 3 ≤ kept.length

/-- The partner entries of a line plan record (R167). -/
def partnerEntries (b : List Byte) : List (Option Line) :=
  (List.range 6).map fun i => optAt 24 b (9 + i)

/-- A set of lines in ascending line number. -/
def ascending (ls : List Line) : List Line :=
  (List.finRange 24).filter ls.contains

/-- Field i of a record was clamped, or a partner entry other than NONE was dropped from it (R119). -/
def alteredField (k : SectionKind) (b : List Byte) (i : Nat) : Bool :=
  match k with
  | .line own => 9 ≤ i && droppedPartner own (partnerEntries b) (i - 9)
  | .screening => i = 9 && clampTo 1 4 (byteAt b 9) ≠ byteAt b 9
  | .timing => timingField b i ≠ wordAt b (2 * i)
  | .sources | .routes | .codes | .studio | .lanes | .request => false

/-- The first field altered before staging (R119). -/
def firstAltered (k : SectionKind) (b : List Byte) : Option Nat :=
  (List.range (fieldCount k)).find? (alteredField k b)

/-! ### Staged records (R106, R167, R168) -/

/-- A gain code byte. -/
def gainAt (b : List Byte) (i : Nat) : GainCode := Fin.ofNat 256 (byteAt b i)

/-- A line plan record (R167). -/
def linePlanOf (own : Line) (b : List Byte) : LinePlan :=
  { role := roleOf (byteAt b 0) (byteAt b 1)
    levels := { voice := gainAt b 2, ret := gainAt b 3, conferAir := gainAt b 4, hold := gainAt b 5, bed := gainAt b 6,
                duck := gainAt b 7 }
    threshold := Fin.ofNat 9 (byteAt b 8)
    partners := ascending (keptPartners own (partnerEntries b)) }

/-- The studio source table (R167). -/
def sourceTableOf (b : List Byte) : SourceTable :=
  { airCodes := Vector.ofFn fun s => gainAt b s.val, holdFeed := Fin.ofNat 16 (byteAt b 16) }

/-- Entry e of the route table (R168). -/
def routeEntryOf (b : List Byte) (e : Nat) : RouteEntry :=
  let v := fun f => byteAt b (9 * e + f)
  { valid := v 0 = 1, talker := Fin.ofNat 16 (v 1), key := Fin.ofNat 16 (v 2), target := targetOf (v 3) (v 4),
    priority := Fin.ofNat 8 (v 5), cueCode := Fin.ofNat 256 (v 6), hold := Fin.ofNat 256 (v 7),
    mode := if v 8 = 1 then .latch else .momentary }

/-- Entry e of the code table (R168). -/
def codeEntryOf (b : List Byte) (e : Nat) : CodeEntry :=
  { condition := conditionOf (byteAt b (2 * e)), notify := byteAt b (2 * e + 1) = 1 }

/-- The screening table (R168). -/
def screeningTableOf (b : List Byte) : ScreeningTable :=
  { positions := Vector.ofFn fun p =>
      { talker := optAt 16 b (3 * p.val), selected := optAt 24 b (3 * p.val + 1), level := gainAt b (3 * p.val + 2) }
    spreadBits := clampTo 1 4 (byteAt b 9)
    spread := Vector.ofFn fun e => optAt 3 b (10 + e.val) }

/-- The studio state (R167): a soft key byte of 0 is clear and any other value is set (R164). -/
def studioStateOf (b : List Byte) : StudioState :=
  { softKeys := Vector.ofFn fun k => byteAt b k.val ≠ 0, dumpDepth := wordAt b 16 }

/-- The timing record (R167). -/
def timingOf (b : List Byte) : Timing :=
  { mainBlocks := timingField b 0, cueBlocks := timingField b 1, lossHoldoff := timingField b 2,
    shadowMargin := timingField b 3, settle := timingField b 4, laneLoss := timingField b 5,
    reportPeriod := timingField b 6 }

/-- The lane setup of entry e (R168). -/
def laneSetupOf (b : List Byte) (e : Nat) : LaneSetup :=
  { enabled := byteAt b (3 * e) = 1
    clocking := if byteAt b (3 * e + 1) = 1 then .slave else .master
    width := if byteAt b (3 * e + 2) = 1 then .narrow else .wide }

/-- The lane setup section (R168). -/
def laneSetupsOf (b : List Byte) : LaneSetups :=
  { inputs := Vector.ofFn fun l => laneSetupOf b l.val, outputs := Vector.ofFn fun l => laneSetupOf b (5 + l.val) }

/-- An accepted record entered in the staging store (R119). -/
def Staging.enter (g : Staging) (k : SectionKind) (b : List Byte) : Staging :=
  match k with
  | .line l => { g with lines := g.lines.set l (some (linePlanOf l b)) }
  | .sources => { g with sources := some (sourceTableOf b) }
  | .routes => { g with routes := some (Vector.ofFn fun e => routeEntryOf b e.val) }
  | .codes => { g with codes := some (Vector.ofFn fun e => codeEntryOf b e.val) }
  | .screening => { g with screening := some (screeningTableOf b) }
  | .studio => { g with studio := some (studioStateOf b) }
  | .timing => { g with timing := some (timingOf b) }
  | .lanes => { g with lanes := some (laneSetupsOf b) }
  | .request => g

/-! ### Slot words (R86, R165) -/

/-- The word's parity is correct: an odd number of ones (R86). -/
def parityOk (w : Word32) : Bool := oddOnes w

/-- The side code of a slot word (R165). -/
def slotCode (w : Word32) : BitVec 6 := w.extractLsb' 2 6

/-- The valid flag of a slot word (R165). -/
def slotValid (w : Word32) : Bool := w.getLsbD 1

/-- The audio of a slot word read at a lane's width (R91). -/
def slotAudio (width : Width) (w : Word32) : Int :=
  match width with
  | .wide => (w.extractLsb' 8 24).toInt
  | .narrow => (w.extractLsb' 16 16).toInt * 256

/-- A slot word with correct parity (R86, R165). -/
def makeSlot (audio : Int) (code : BitVec 6) (valid : Bool) : Word32 :=
  let body : BitVec 31 := (BitVec.ofInt 24 audio ++ code) ++ BitVec.ofBool valid
  body ++ BitVec.ofBool (!oddOnes body)

/-- An output converted at a lane's width (R95). -/
def convertOut (width : Width) (v : Int) : Int :=
  match width with
  | .wide => v
  | .narrow => max (-32768) (min 32767 ((v + 128) / 256)) * 256

end Sys2Proof.Machine
end

