-- ==== Sys2Proof/Machine/Ops.lean ====
section
/-! DEFINITION. The shared operations over the registers of LINK and over host memory as the part writes it: memory,
windows, misses, the memory engine, reads issued, and what a register read returns. -/

namespace Sys2Proof.Machine

/-! ### Host memory as the part's writes have left it (R131, R132; entry 13) -/

/-- The memory holds its canonical form: addresses strictly rising. An unlisted address reads as "not written by the
part", which no entry can be. -/
def memoryWf : List Host.Cell → Bool
  | [] => true
  | [_] => true
  | a :: b :: rest => a.1 < b.1 && memoryWf (b :: rest)

/-- The byte the part has left at an address, if it has written there. -/
def memoryRead (m : List Host.Cell) (a : Nat) : Option Byte :=
  (m.find? fun c => c.1 == a).map (·.2)

/-- One byte written. -/
def memoryWrite : List Host.Cell → Nat → Byte → List Host.Cell
  | [], a, b => [(a, b)]
  | c :: rest, a, b =>
    if a < c.1 then (a, b) :: c :: rest
    else if a = c.1 then (a, b) :: rest
    else c :: memoryWrite rest a b

/-- Bytes written from an address upward. -/
def memoryWriteBytes (m : List Host.Cell) (a : Nat) : List Byte → List Host.Cell
  | [] => m
  | b :: rest => memoryWriteBytes (memoryWrite m a b) (a + 1) rest

/-! ### Windows (R153, R155) -/

/-- The effective end of a window (R153). -/
def effectiveEnd (base setEnd : Word64) : Word64 :=
  if setEnd.toNat ≤ base.toNat then setEnd
  else if setEnd.toNat ≤ base.toNat + Config.windowMax then setEnd
  else base + BitVec.ofNat 64 Config.windowMax

/-- Every byte from an address lies in the window (R155). -/
def insideWindow (base setEnd : Word64) (a len : Nat) : Bool :=
  base.toNat ≤ a && a + len ≤ (effectiveEnd base setEnd).toNat

/-- The address of a plan section (R106). -/
def sectionAddress (k : Link) (s : Section) : Nat :=
  k.planBase.toNat + s.val * Config.sectionBytes

/-- The section lies inside the plan window (R113, R155). -/
def sectionInside (k : Link) (s : Section) : Bool :=
  insideWindow k.planBase k.planEnd (sectionAddress k s) Config.sectionBytes

/-- A window register's bits 11 to 0 are discarded (R153). -/
def alignedWindow (v : Word64) : Word64 :=
  v &&& 0xFFFFFFFFFFFFF000#64

/-- The value a write leaves in a window register: the whole, or one half replaced (R153, R171). -/
def windowValue (old : Word64) : WindowData → Word64
  | .whole v => alignedWindow v
  | .low v => alignedWindow (old.extractLsb' 32 32 ++ v)
  | .high v => alignedWindow (v ++ old.extractLsb' 0 32)

/-- A window register as held: base or set end. -/
def Link.window (k : Link) : WindowReg → Word64
  | .planBase => k.planBase
  | .planEnd => k.planEnd
  | .reportBase => k.reportBase
  | .reportEnd => k.reportEnd

/-- A window register set. -/
def Link.setWindow (k : Link) (r : WindowReg) (v : Word64) : Link :=
  match r with
  | .planBase => { k with planBase := v }
  | .planEnd => { k with planEnd := v }
  | .reportBase => { k with reportBase := v }
  | .reportEnd => { k with reportEnd := v }

/-! ### Misses (R156) -/

/-- A miss: the miss count rises by 1, rolling over, and MISS is set. -/
def Link.countMiss (k : Link) : Link :=
  ({ k with miss := k.miss + 1 } : Link).raise noticeMiss

/-- A miss in the part. -/
def State.countMiss (s : State) : State :=
  { s with link := s.link.countMiss }

/-! ### The memory engine (R157 to R159) -/

/-- Work is in flight: an intake whose phase is not IDLE, or a round in progress (R157). -/
def State.workInFlight (s : State) : Bool :=
  s.intake.phase ≠ .idle || s.report.round.isSome

/-- A draining engine with no work left reaches STOPPED and sets DRAINED (R158). -/
def State.drainCheck (s : State) : State :=
  if s.link.engine = .draining && !s.workInFlight then
    { s with link := ({ s.link with engine := .stopped } : Link).raise noticeDrained }
  else s

/-- Memory enable cleared: an ACTIVE engine enters DRAINING, and STOPPED at once with no work in flight (R158). -/
def State.clearEnable (s : State) : State :=
  let k := { s.link with memEnable := false }
  if s.link.engine = .active then ({ s with link := { k with engine := .draining } } : State).drainCheck
  else { s with link := k }

/-- An event of the next tick that has no mark of its own has been taken (entry 2). -/
def State.markOther (s : State) : State :=
  { s with inst := { s.inst with other := true } }

/-- The engine becomes ACTIVE at a block tick: it is STOPPED, enabled, and bus mastering is permitted (R158, R159). -/
def Link.startsAtTick (k : Link) : Bool :=
  k.engine = .stopped && k.memEnable && k.busMaster

/-- The engine at a block tick: a STOPPED engine becomes ACTIVE when the enable is 1 and bus mastering is permitted
(R158, R159). -/
def Link.engineTick (k : Link) : Link :=
  if k.startsAtTick then { k with engine := .active } else k

/-! ### Plan reads (R107, R114) -/

/-- Some part of the tick now being taken has been taken: what comes next falls after that tick (entry 36). -/
def Instant.started (t : Instant) : Bool :=
  decide ({ t with roundOpen := false } ≠ Instant.none)

/-- A read of so many bytes from a host address issued through the memory engine (R107). `late` says that the tick now
being taken has been taken in part. -/
def Link.issueRead (k : Link) (step : ReadStep) (address length : Nat) (late : Bool) : Link :=
  { k with
    read := some { id := k.nextRead, step := step, address := address, length := length, age := 0, late := late }
    nextRead := k.nextRead + 1 }

/-- The read outstanding is given up: its completion will be discarded when it arrives (R114, R127). -/
def Link.dropRead (k : Link) : Link :=
  match k.read with
  | none => k
  | some r => { k with read := none, stale := r.id :: k.stale }

/-- A completion for a read given up earlier is discarded (R114). -/
def Link.discard (k : Link) (id : Nat) : Link :=
  { k with stale := k.stale.erase id }

/-! ### The register window (R149 to R151, R171) -/

/-- The register window is placed: only then does the part answer an access to it (R149). -/
def Link.placed (k : Link) : Bool := k.placement.isSome

/-- The offset inside the register window of a host address, while the window is placed (R149). The window lies at any 64-bit
address and does not wrap past the top of the address space. DESIGN CHOICE (entry 37). -/
def registerOffset (k : Link) (address : Word64) : Option (BitVec 12) :=
  match k.placement with
  | none => none
  | some base =>
    if base.toNat ≤ address.toNat ∧ address.toNat < base.toNat + 4096 then
      some (BitVec.ofNat 12 (address.toNat - base.toNat))
    else none

/-- The identification word (R151, R171). -/
def registerMid : Word32 := Config.partCode ++ Config.stepNumber

/-- MCTL as read (R152, R171). -/
def registerMctl (s : State) : Word32 :=
  BitVec.ofNat 32 (s.link.memEnable.toNat + 2 * s.ltx.hold.toNat)

/-- The state word (R151, R171). -/
def registerMsta (s : State) : Word32 :=
  BitVec.ofNat 32
    (s.link.engine.code + 4 * s.intake.phase.code + 16 * s.ref.locked.toNat + 32 * s.ltx.hold.toNat)

/-- A window register as read: an end reads as the effective end (R153). -/
def Link.readWindow (k : Link) : WindowReg → Word64
  | .planBase => k.planBase
  | .planEnd => effectiveEnd k.planBase k.planEnd
  | .reportBase => k.reportBase
  | .reportEnd => effectiveEnd k.reportBase k.reportEnd

/-- What a 32-bit read at an aligned offset returns (R150, R171). -/
def readWord (s : State) (offset : Nat) : Word32 :=
  match offset with
  | 0x000 => registerMid
  | 0x004 => registerMctl s
  | 0x008 => registerMsta s
  | 0x00C => s.link.post
  | 0x010 => s.link.notice
  | 0x014 => s.link.mask
  | 0x018 => s.link.miss.setWidth 32
  | 0x020 => (s.link.readWindow .planBase).extractLsb' 0 32
  | 0x024 => (s.link.readWindow .planBase).extractLsb' 32 32
  | 0x028 => (s.link.readWindow .planEnd).extractLsb' 0 32
  | 0x02C => (s.link.readWindow .planEnd).extractLsb' 32 32
  | 0x030 => (s.link.readWindow .reportBase).extractLsb' 0 32
  | 0x034 => (s.link.readWindow .reportBase).extractLsb' 32 32
  | 0x038 => (s.link.readWindow .reportEnd).extractLsb' 0 32
  | 0x03C => (s.link.readWindow .reportEnd).extractLsb' 32 32
  | _ => 0

/-- The byte at an offset of the register window, as a read of the 32-bit word that contains it gives it (R150). -/
def readByte (s : State) (offset : Nat) : Byte :=
  (readWord s (offset - offset % 4)).extractLsb' (8 * (offset % 4)) 8

/-- What a register read returns (R150): the addressed bytes of the 32-bit words that contain them, least significant
first. A read changes no state. -/
def readRegister (s : State) (offset : BitVec 12) (width : AccessWidth) : Word64 :=
  (List.range width.bytes).foldl
    (fun v i => v ||| ((readByte s (offset.toNat + i)).setWidth 64 <<< (8 * i))) 0

/-- What a host memory read at an address returns: nothing where the access is not one of the part's (R149). -/
def State.readAt (s : State) (address : Word64) (width : AccessWidth) : Option Word64 :=
  (registerOffset s.link address).map fun offset => readRegister s offset width

/-- The commands that a host memory write at an address is: none where the access is not one of the part's (R149). -/
def State.writeAt (s : State) (address : Word64) (width : AccessWidth) (value : Word64) : List Instr :=
  match registerOffset s.link address with
  | none => []
  | some offset => hostWrite offset width value

end Sys2Proof.Machine
end

