-- ==== Sys2Proof/Machine/Lines.lean ====
section
/-! DEFINITION. LINE and SCRN: the connected state, arrivals, what one block tick makes of a line, and the capacity
check of the conference groups (chapters 2 and 4). -/

namespace Sys2Proof.Machine

/-! ### States, positions and arrivals -/

/-- The states of a line that is connected (R27). -/
def LineState.connected : LineState → Bool
  | .vacant | .lost => false
  | .parked | .screen | .hold | .shadow | .air | .confer => true

/-- The connected state, from role, shadow count and auto screener (R34). -/
def connectedState (role : Role) (shadow : Nat) (auto : Option Position) : LineState :=
  match role with
  | .off => .parked
  | .air => .air
  | .confer _ => .confer
  | .hold => if shadow = 0 then .hold else .shadow
  | .screen _ => if shadow = 0 then .screen else .shadow
  | .auto => if shadow ≠ 0 then .shadow else if auto.isSome then .screen else .hold

/-- The line's screener position (R31). -/
def LineCtx.position (c : LineCtx) : Option Position :=
  match c.plan.role with
  | .screen p => some p
  | .auto => c.autoScreener
  | .off | .hold | .air | .confer _ => none

/-- The state whose composition the return hears: a LOST line's is its connected state (R21, R23). -/
def LineCtx.heard (c : LineCtx) : LineState :=
  if c.state = .lost then connectedState c.plan.role c.shadowCount c.autoScreener else c.state

/-- SCRN's answer to an arrival that reads this value of the arrival counter (R76). -/
def arrivalAnswer (t : ScreeningTable) (counter : BitVec 8) : Option Position :=
  match t.spread[Fin.ofNat 16 (counter.toNat % 2 ^ t.spreadBits)] with
  | none => none
  | some p => if t.positions[p].talker.isSome then some p else none

/-! ### A line at a block tick (R29, R33 to R50) -/

/-- A delivery of CMAP: a condition and a notify flag (R29). -/
structure Delivery where
  condition : Condition
  notify : Bool
deriving DecidableEq, Repr

/-- What the tick gives every line: the change of the dump depth (R49), the count a line leaving air is started with
(R47), the loss hold-off (R43) and the screening table (R76), each as it stands after the tick. -/
structure LineEnv where
  delta : Int
  shadowStart : Nat
  holdoff : Nat
  table : ScreeningTable
deriving DecidableEq, Repr

/-- What reaches one line at a tick: its applied plan record (R33), the condition delivered (R29), and whether the
tick's decrease of its counts is taken (R41, R48). -/
structure LineInput where
  plan : Option LinePlan
  delivery : Option Delivery
  counted : Bool
deriving DecidableEq, Repr

/-- How a delivered condition moves a line from the state it held before the tick (R29, R37, R40, R42, R46). -/
inductive LineMove where
  | connect | reconnect | lose | stay
deriving DecidableEq, Repr

/-- The delivered condition differs from the recorded one (R29). -/
def conditionChanged (c : LineCtx) (i : LineInput) : Bool :=
  match i.delivery with
  | none => false
  | some d => d.condition ≠ c.condition

/-- The move a delivery gives (section 2.8). -/
def lineMove (c : LineCtx) (i : LineInput) : LineMove :=
  match i.delivery with
  | none => .stay
  | some d =>
    if d.condition = c.condition then .stay
    else if d.condition = .connected then
      match c.state with
      | .vacant => .connect
      | .lost => .reconnect
      | .parked | .screen | .hold | .shadow | .air | .confer => .stay
    else if c.state.connected then .lose else .stay

/-- The plan record after the tick (R33). -/
def planAfter (c : LineCtx) (i : LineInput) : LinePlan := i.plan.getD c.plan

/-- The apply changes the role or its argument (R33). -/
def roleChanged (c : LineCtx) (i : LineInput) : Bool := (planAfter c i).role ≠ c.plan.role

/-- The line is connected after the tick. -/
def connectedAfter (c : LineCtx) (i : LineInput) : Bool :=
  match lineMove c i with
  | .connect | .reconnect => true
  | .lose => false
  | .stay => c.state.connected

/-- The line takes an arrival at the tick: an AUTO line connecting from VACANT, or a connected line whose role is
changed to AUTO (R38, R45). -/
def takesArrival (c : LineCtx) (i : LineInput) : Bool :=
  (planAfter c i).role = .auto &&
    match lineMove c i with
    | .connect => true
    | .reconnect | .lose => false
    | .stay => c.state.connected && roleChanged c i

/-- The line enters or stays in AIR (R34). -/
def inAirAfter (c : LineCtx) (i : LineInput) : Bool :=
  connectedAfter c i && (planAfter c i).role = .air

/-- The line leaves AIR at the tick, so that its shadow count is started (R47). -/
def leavesAir (c : LineCtx) (i : LineInput) : Bool :=
  c.state = .air && !inAirAfter c i

/-- A running shadow count after a change of depth, clamped to 0..65535 (R49). -/
def adjustedCount (count : Nat) (delta : Int) : Nat :=
  min 65535 (Int.toNat (count + delta))

/-- The shadow count after the tick (R47 to R49). -/
def shadowAfter (e : LineEnv) (c : LineCtx) (i : LineInput) : Nat :=
  if inAirAfter c i then 0
  else if leavesAir c i then e.shadowStart
  else if c.shadowCount = 0 then 0
  else adjustedCount c.shadowCount e.delta - i.counted.toNat

/-- A running shadow count is adjusted by a change of depth (R49, R50). -/
def shadowAdjusted (e : LineEnv) (c : LineCtx) (i : LineInput) : Bool :=
  !inAirAfter c i && !leavesAir c i && c.shadowCount ≠ 0 && e.delta ≠ 0

/-- The loss count after the tick (R40 to R43). -/
def lossAfter (e : LineEnv) (c : LineCtx) (i : LineInput) : Nat :=
  match lineMove c i with
  | .connect | .reconnect => 0
  | .lose => e.holdoff
  | .stay => if c.state = .lost then c.lossCount - i.counted.toNat else c.lossCount

/-- The loss count reaches 0 at the tick: the line becomes VACANT (R41). -/
def lossExpires (e : LineEnv) (c : LineCtx) (i : LineInput) : Bool :=
  lineMove c i = .stay && c.state = .lost && i.counted && lossAfter e c i = 0

/-- The auto screener after the tick (R38, R41, R45). -/
def screenerAfter (e : LineEnv) (c : LineCtx) (i : LineInput) (arrivals : BitVec 8) : Option Position :=
  if takesArrival c i then arrivalAnswer e.table arrivals
  else if lossExpires e c i then none
  else if roleChanged c i && c.plan.role = .auto then none
  else c.autoScreener

/-- The state after the tick (section 2.8). -/
def stateAfter (e : LineEnv) (c : LineCtx) (i : LineInput) (arrivals : BitVec 8) : LineState :=
  if connectedAfter c i then
    connectedState (planAfter c i).role (shadowAfter e c i) (screenerAfter e c i arrivals)
  else if lineMove c i = .lose then .lost
  else if lossExpires e c i then .vacant
  else c.state

/-- The tick holds an event that marks the line for its status record (R50). -/
def lineMarked (e : LineEnv) (c : LineCtx) (i : LineInput) (arrivals : BitVec 8) : Bool :=
  stateAfter e c i arrivals ≠ c.state || conditionChanged c i || (i.delivery.map (·.notify)).getD false ||
    roleChanged c i || takesArrival c i || (c.autoScreener.isSome && (screenerAfter e c i arrivals).isNone) ||
    (leavesAir c i && e.shadowStart ≠ 0) || (c.shadowCount ≠ 0 && shadowAfter e c i = 0) || shadowAdjusted e c i

/-- One line at a block tick, taking together the record applied and the condition delivered (R46). -/
def lineTick (e : LineEnv) (c : LineCtx) (i : LineInput) (arrivals : BitVec 8) : LineCtx :=
  { state := stateAfter e c i arrivals
    plan := planAfter c i
    condition := (i.delivery.map (·.condition)).getD c.condition
    lossCount := lossAfter e c i
    shadowCount := shadowAfter e c i
    lostFrom :=
      match lineMove c i with
      | .connect | .reconnect => none
      | .lose => some c.state
      | .stay => c.lostFrom
    autoScreener := screenerAfter e c i arrivals
    arrivalNumber := if takesArrival c i then some arrivals else c.arrivalNumber
    reportPending := c.reportPending || lineMarked e c i arrivals }

/-- The arrival counter after a line's tick (R38, R77). -/
def arrivalsAfter (c : LineCtx) (i : LineInput) (arrivals : BitVec 8) : BitVec 8 :=
  if takesArrival c i then arrivals + 1 else arrivals

/-- The arrivals taken by the lines below a line at one tick (R39). -/
def arrivalsBelow (ctx : Vector LineCtx 24) (input : Vector LineInput 24) (l : Nat) : Nat :=
  ((List.finRange 24).filter fun j => j.val < l && takesArrival ctx[j] input[j]).length

/-- All lines at a block tick, in ascending line number (R39). -/
def linesTick (e : LineEnv) (ctx : Vector LineCtx 24) (input : Vector LineInput 24) (arrivals : BitVec 8) :
    Vector LineCtx 24 :=
  Vector.ofFn fun l => lineTick e ctx[l] input[l] (arrivals + BitVec.ofNat 8 (arrivalsBelow ctx input l.val))

/-- The arrival counter after a tick: advanced once for each arrival taken (R39, R77). -/
def arrivalsTick (ctx : Vector LineCtx 24) (input : Vector LineInput 24) (arrivals : BitVec 8) : BitVec 8 :=
  arrivals + BitVec.ofNat 8 (arrivalsBelow ctx input 24)

/-! ### The capacity check (R80 to R82) -/

/-- The group a staged role departs from (R81). -/
def departure (held staged : Role) : Option Group :=
  match held.group with
  | none => none
  | some h => if staged.group = some h then none else some h

/-- The group a staged role arrives at (R81). -/
def arrivalGroup (held staged : Role) : Option Group :=
  match staged.group with
  | none => none
  | some g => if held.group = some g then none else some g

/-- A staged role is a move from one group to another (R81). -/
def isMove (held staged : Role) : Bool :=
  (departure held staged).isSome && (arrivalGroup held staged).isSome

/-- What the check reads: the roles held before the tick, the staged roles, and the role counts (R81, R82). -/
structure CapacityInput where
  held : Vector Role 24
  staged : Vector (Option Role) 24
  counts : Vector Nat 4
deriving DecidableEq, Repr

/-- The group a line's staged record departs from. -/
def CapacityInput.departs (i : CapacityInput) (l : Line) : Option Group :=
  (i.staged[l]).bind (departure i.held[l])

/-- The group a line's staged record arrives at. -/
def CapacityInput.arrives (i : CapacityInput) (l : Line) : Option Group :=
  (i.staged[l]).bind (arrivalGroup i.held[l])

/-- A line's staged record is a move. -/
def CapacityInput.moves (i : CapacityInput) (l : Line) : Bool :=
  (i.staged[l]).any (isMove i.held[l])

/-- The room of a group at the start of a pass (R82): 8 less its role count, plus the departures of records not yet
refused. -/
def CapacityInput.room (i : CapacityInput) (refused : List Line) (g : Group) : Nat :=
  Config.groupPlaces + ((List.finRange 24).filter fun l => i.departs l = some g && !refused.contains l).length -
    i.counts[g]

/-- One pass: arrivals in ascending line number, each admitted while room remains (R82). -/
def CapacityInput.pass (i : CapacityInput) (refused : List Line) : List Line :=
  ((List.finRange 24).foldl (fun (acc : Vector Nat 4 × List Line) l =>
    match i.arrives l with
    | none => acc
    | some g => if acc.1[g] = 0 then (acc.1, acc.2 ++ [l]) else (acc.1.set g (acc.1[g] - 1), acc.2))
    (Vector.ofFn (i.room refused), [])).2

/-- Passes until one refuses no move beyond those the pass before refused; at most one pass more than the moves
staged (R82). -/
def CapacityInput.check (i : CapacityInput) : Nat → List Line → List Line
  | 0, refused => refused
  | fuel + 1, refused =>
    let now := i.pass refused
    if now.any (fun l => i.moves l && !refused.contains l) then i.check fuel now else now

/-- The lines whose staged records the capacity check refuses (R82). -/
def refusedLines (i : CapacityInput) : List Line :=
  i.check 25 []

/-- The role count of a group (R80). -/
def roleCount (roles : Vector Role 24) (g : Group) : Nat :=
  ((List.finRange 24).filter fun l => roles[l] = .confer g).length

end Sys2Proof.Machine
end

