-- ==== Sys2Proof/Machine/Cues.lean ====
section
/-! DEFINITION. CUE: keys, routes, coverage, arbitration and the cue state of a return (chapter 3). -/

namespace Sys2Proof.Machine

/-! ### Keys (R52, R53) -/

/-- A press (UP to DOWN) or a release (DOWN to UP) of a key (R53). -/
inductive KeyEvent where
  | press | release
deriving DecidableEq, Repr

/-- The run count at which the next differing sample is taken (R53). -/
abbrev lastRun : Nat := 3

/-- A key after a raw sample (R53). -/
def keySample (k : KeyCtx) (raw : Bool) : KeyCtx :=
  if raw = k.down then { k with run := 0 }
  else if lastRun ≤ k.run then { k with down := raw, run := 0 }
  else { k with run := k.run + 1 }

/-- The event a raw sample takes of the key, if it takes one (R53). -/
def keyEvent (k : KeyCtx) (raw : Bool) : Option KeyEvent :=
  if raw ≠ k.down ∧ lastRun ≤ k.run then some (if raw then .press else .release) else none

/-! ### Route activity (R55 to R58) -/

/-- A route let go: HOLDING with its hold value, or IDLE if that is 0 (R56, R57). -/
def RouteCtx.letGo (r : RouteCtx) : RouteCtx :=
  if r.entry.hold.val = 0 then { r with activity := .idle, holdCount := 0 }
  else { r with activity := .holding, holdCount := r.entry.hold.val }

/-- A valid MOMENTARY route takes an event of its key (R56). -/
def RouteCtx.momentaryEvent (r : RouteCtx) (e : KeyEvent) : RouteCtx :=
  match e with
  | .press => { r with activity := .active, holdCount := 0 }
  | .release => if r.activity = .active then r.letGo else r

/-- A valid LATCH route takes an event of its key (R57). -/
def RouteCtx.latchEvent (r : RouteCtx) (e : KeyEvent) : RouteCtx :=
  match e with
  | .press => if r.activity = .latched then r.letGo else { r with activity := .latched, holdCount := 0 }
  | .release => r

/-- A route takes an event of its key; an invalid route takes none (R55). -/
def RouteCtx.event (r : RouteCtx) (e : KeyEvent) : RouteCtx :=
  if !r.entry.valid then r
  else
    match r.entry.mode with
    | .momentary => r.momentaryEvent e
    | .latch => r.latchEvent e

/-- The decrease of a hold count at a slow tick: the route becomes IDLE at 0 (R58). -/
def RouteCtx.slowTick (r : RouteCtx) : RouteCtx :=
  if r.activity = .holding then
    if r.holdCount ≤ 1 then { r with activity := .idle, holdCount := 0 } else { r with holdCount := r.holdCount - 1 }
  else r

/-- A replaced route restarts from the debounced state of its key (R60). -/
def RouteCtx.restart (r : RouteCtx) (down : Bool) : RouteCtx :=
  { r with activity := if r.entry.mode = .momentary && down then .active else .idle, holdCount := 0 }

/-- The fields whose change makes an applied entry a replacement (R59). -/
def sameRoute (a b : RouteEntry) : Bool :=
  a.talker = b.talker && a.key = b.key && a.target = b.target && a.priority = b.priority && a.mode = b.mode

/-- The applied entry replaces the held one (R59). -/
def replaces (held applied : RouteEntry) : Bool :=
  applied.valid && (!held.valid || !sameRoute held applied)

/-- An applied entry compared with the held one (R59 to R61). `down` is the debounced state of the new key. -/
def RouteCtx.applyEntry (r : RouteCtx) (applied : RouteEntry) (down : Bool) : RouteCtx :=
  if r.entry.valid && !applied.valid then
    { entry := { r.entry with valid := false }, activity := .idle, holdCount := 0 }
  else if replaces r.entry applied then ({ r with entry := applied } : RouteCtx).restart down
  else { r with entry := applied }

/-- A route at a block tick: an invalid one is IDLE (R55), a replaced one restarts (R60), any other takes the slow
tick's decrease unless its count was loaded at this tick, and the event of its key (R56 to R58). -/
def RouteCtx.tick (r : RouteCtx) (replaced loaded slow down : Bool) (e : Option KeyEvent) : RouteCtx :=
  if !r.entry.valid then { r with activity := .idle, holdCount := 0 }
  else if replaced then r.restart down
  else
    let r' := if slow && !loaded then r.slowTick else r
    match e with
    | none => r'
    | some e => r'.event e

/-! ### Coverage and arbitration (R62, R63) -/

/-- The route claims the returns it covers (section 3.3). -/
def Activity.claiming : Activity → Bool
  | .idle => false
  | .active | .latched | .holding => true

/-- A target covers a line (R62). -/
def covers (t : Target) (k : Line) (c : LineCtx) : Bool :=
  match t with
  | .line n => n = k && c.state ≠ .vacant
  | .group g => c.state = .confer && c.plan.role = .confer g
  | .air => c.state = .air
  | .screening p => c.state = .screen && c.position = some p
  | .all => c.state ≠ .vacant

/-- A route is a candidate for a line's return (R63). -/
def isCandidate (r : RouteCtx) (k : Line) (c : LineCtx) : Bool :=
  r.entry.valid && r.activity.claiming && covers r.entry.target k c

/-- The better of the best candidate so far, of lower index, and a route (R63). -/
def betterRoute (routes : Vector RouteCtx 32) (k : Line) (c : LineCtx) (best : Option Route) (r : Route) :
    Option Route :=
  if isCandidate routes[r] k c then
    match best with
    | none => some r
    | some b => if routes[b].entry.priority < routes[r].entry.priority then some r else some b
  else best

/-- The winner arbitration names: highest priority, then lowest index (R63). -/
def arbitrate (routes : Vector RouteCtx 32) (k : Line) (c : LineCtx) : Option Route :=
  (List.finRange 32).foldl (betterRoute routes k c) none

/-! ### The cue state of a return (R64 to R69) -/

/-- The duck kind of a winner's priority against a line's threshold (R69). -/
def duckKind (routes : Vector RouteCtx 32) (winner : Option Route) (threshold : Fin 9) : DuckKind :=
  match winner with
  | none => .none
  | some r => if routes[r].entry.priority.val < threshold.val then .duck else .interrupt

/-- The outgoing route cleared at the end of its fade (R67). -/
def CueReturn.fadeEnd (q : CueReturn) (faded : Bool) : CueReturn :=
  if faded then { q with outgoing := none, outTalker := none } else q

/-- The named route is the winner before the tick, and not replaced at it (R66). -/
def sameWinner (q : CueReturn) (named : Option Route) (replaced : Vector Bool 32) : Bool :=
  named = q.winner && !((q.winner.map fun r => replaced[r]).getD false)

/-- The cue state of a return after arbitration (R64 to R69). `faded` says that its qOut has reached 0. -/
def CueReturn.tick (q : CueReturn) (c : LineCtx) (named : Option Route) (routes : Vector RouteCtx 32)
    (replaced : Vector Bool 32) (faded : Bool) : CueReturn :=
  if c.state = .vacant then CueReturn.clear
  else
    let q1 := q.fadeEnd faded
    let talker := named.map fun r => routes[r].entry.talker
    let duck := duckKind routes named c.plan.threshold
    if sameWinner q named replaced then
      { q1 with isNew := false, outNew := false, cut := false, talker := talker, duck := duck }
    else
      match q.winner with
      | none =>
        { q1 with winner := named, isNew := named.isSome, outNew := false, cut := false, talker := talker, duck := duck }
      | some w =>
        { winner := named, isNew := named.isSome, outgoing := some w, outTalker := q.talker, duck := duck,
          talker := talker, outNew := true, cut := q1.outgoing.isSome }

end Sys2Proof.Machine
end

