-- ==== Sys2Proof/Machine/Gain.lean ====
section
/-! DEFINITION. Gain codes, scaling and ducking (section 1.1, R15). -/

namespace Sys2Proof.Machine

/-- The multipliers of gain codes 0 to 31 (R1). -/
def gainPart0 : List Nat :=
  [0, 89, 94, 100, 106, 112, 118, 126,
   133, 141, 149, 158, 167, 177, 188, 199,
   211, 223, 236, 250, 265, 281, 298, 315,
   334, 354, 375, 397, 420, 445, 472, 500]

/-- The multipliers of gain codes 32 to 63 (R1). -/
def gainPart1 : List Nat :=
  [529, 561, 594, 629, 666, 706, 748, 792,
   839, 889, 941, 997, 1056, 1119, 1185, 1255,
   1330, 1408, 1492, 1580, 1674, 1773, 1878, 1989,
   2107, 2232, 2364, 2504, 2653, 2810, 2976, 3153]

/-- The multipliers of gain codes 64 to 95 (R1). -/
def gainPart2 : List Nat :=
  [3340, 3537, 3747, 3969, 4204, 4453, 4717, 4997,
   5293, 5606, 5939, 6291, 6663, 7058, 7476, 7919,
   8389, 8886, 9412, 9970, 10561, 11186, 11849, 12551,
   13295, 14083, 14917, 15801, 16737, 17729, 18780, 19893]

/-- The multipliers of gain codes 96 to 127 (R1). -/
def gainPart3 : List Nat :=
  [21071, 22320, 23642, 25043, 26527, 28099, 29764, 31528,
   33396, 35374, 37471, 39691, 42043, 44534, 47173, 49968,
   52929, 56065, 59387, 62906, 66633, 70581, 74764, 79194,
   83886, 88857, 94122, 99699, 105606, 111864, 118492, 125513]

/-- The multipliers of gain codes 128 to 159 (R1). -/
def gainPart4 : List Nat :=
  [132950, 140828, 149173, 158012, 167375, 177292, 187798, 198925,
   210712, 223198, 236423, 250432, 265271, 280989, 297639, 315275,
   333956, 353745, 374705, 396908, 420426, 445338, 471726, 499678,
   529285, 560648, 593868, 629057, 666331, 705813, 747635, 791936]

/-- The multipliers of gain codes 160 to 191 (R1). -/
def gainPart5 : List Nat :=
  [838861, 888566, 941217, 996988, 1056063, 1118639, 1184922, 1255133,
   1329505, 1408283, 1491729, 1580119, 1673747, 1772923, 1877975, 1989252,
   2107123, 2231978, 2364231, 2504320, 2652711, 2809894, 2976390, 3152753,
   3339565, 3537447, 3747054, 3969080, 4204263, 4453381, 4717261, 4996776]

/-- The multipliers of gain codes 192 to 223 (R1). -/
def gainPart6 : List Nat :=
  [5292854, 5606475, 5938680, 6290569, 6663308, 7058134, 7476355, 7919357,
   8388608, 8885664, 9412173, 9969879, 10560632, 11186389, 11849224, 12551334,
   13295048, 14082829, 14917289, 15801194, 16737473, 17729231, 18779754, 19892524,
   21071231, 22319780, 23642310, 25043205, 26527108, 28098938, 29763904, 31527527]

/-- The multipliers of gain codes 224 to 255 (R1). -/
def gainPart7 : List Nat :=
  [33395650, 35374467, 37470536, 39690804, 42042632, 44533815, 47172609, 49967762,
   52928538, 56064751, 59386797, 62905686, 66633082, 70581340, 74763547, 79193566,
   83886080, 88856643, 94121730, 99698793, 105606318, 111863886, 118492237, 125513344,
   132950477, 140828288, 149172889, 158011938, 167374734, 177292311, 187797541, 198925244]

/-- The multiplier of every gain code: 8,388,608 × 10^((c − 200)/40) to the nearest integer, halves up (R1). -/
def gainTable : List Nat :=
  gainPart0 ++ gainPart1 ++ gainPart2 ++ gainPart3 ++ gainPart4 ++ gainPart5 ++ gainPart6 ++ gainPart7

/-- m(c), the multiplier a gain code stands for (R1). -/
def mult (c : GainCode) : Int :=
  Int.ofNat (gainTable.getD c.val 0)

/-- S(D, g) = floor((D × g + 4,194,304) / 8,388,608) (R2). -/
def scale (d g : Int) : Int :=
  (d * g + 4194304) / 8388608

/-- D(a, b), the ducked multiplier, replaced by m(255) when it exceeds it (R15). -/
def ducked (a b : Int) : Int :=
  min ((a * b + 4194304) / 8388608) (mult 255)

/-- The clamp of an output to a signed 24-bit sample (R11, R12). -/
def clampSample (v : Int) : Int :=
  max minSample (min maxSample v)

/-- The exact sum of a contribution over the members of an indexed family (R5, R6). -/
def busSum {n : Nat} (f : Fin n → Int) : Int :=
  ∑ i, f i

end Sys2Proof.Machine
end

