-- ==== Sys2Proof/Machine/Ramps.lean ====
section
/-! DEFINITION. Ramps: their movement, their retargeting and the change of group index (R17 to R20). -/

namespace Sys2Proof.Machine

/-- The ramp makes no further change: n = L (R17). -/
def Ramp.atRest (r : Ramp) : Bool :=
  r.len ≤ r.pos

/-- The multiplier at position n: g0 + trunc((g1 − g0) × n / L) (R17). -/
def Ramp.valueAt (r : Ramp) (n : Nat) : Int :=
  r.start + Int.tdiv ((r.target - r.start) * n) r.len

/-- One sample of a ramp (R17). -/
def Ramp.advance (r : Ramp) : Ramp :=
  if r.atRest then r else { r with pos := r.pos + 1, cur := r.valueAt (r.pos + 1) }

/-- A ramp stopped at a value at once (R10, R16, R18). -/
def Ramp.stopAt (r : Ramp) (v : Int) : Ramp :=
  { r with cur := v, start := v, target := v, pos := r.len }

/-- A fresh ramp from the current value (R18). -/
def Ramp.begin (r : Ramp) (t : Int) (len : Nat) : Ramp :=
  { cur := r.cur, start := r.cur, target := t, len := len, pos := 0 }

/-- The recomputed target of a block tick (R18). -/
def Ramp.retarget (r : Ramp) (t : Int) (len : Nat) : Ramp :=
  if t = r.target then r
  else if t = r.cur then r.stopAt t
  else r.begin t len

/-- The next sample brings the ramp to its target (R17). -/
def Ramp.ending (r : Ramp) : Bool :=
  r.pos + 1 == r.len

/-- The ramp's end (R17): position L, the multiplier equal to the target. -/
def Ramp.finish (r : Ramp) : Ramp :=
  { r with pos := r.len, cur := r.target }

/-- Silent and at rest: a group index may change (R20). -/
def Ramp.silent (r : Ramp) : Bool :=
  r.atRest && r.cur == 0

/-- The recomputed target of a group-indexed multiplier at a block tick: a group with its target, or no group (R20). -/
def GroupRamp.retarget (g : GroupRamp) (want : Option (Group × Int)) (len : Nat) : GroupRamp :=
  match want with
  | none => { g with ramp := g.ramp.retarget 0 len, pending := none }
  | some (h, t) =>
    if h = g.index then { g with ramp := g.ramp.retarget t len, pending := none }
    else
      let out := g.ramp.retarget 0 len
      if out.silent then { ramp := out.retarget t len, index := h, pending := none }
      else { g with ramp := out, pending := some h }

/-- A group-indexed ramp that took its pending group ahead of its tick, at rest at 0 on the index it left (R20). -/
def GroupRamp.rewind (g : GroupRamp) (left : Option Group) : GroupRamp :=
  match left with
  | none => g
  | some o => { ramp := g.ramp.stopAt 0, index := o, pending := none }

/-- Samples of a ramp of so many blocks (R19). -/
def rampSamples (blocks : Nat) : Nat :=
  Config.blockSamples * blocks

end Sys2Proof.Machine
end

