-- ==== Sys2Proof/Machine/Mixing.lean ====
section
/-! DEFINITION. MIX: contributions, buses, terms and outputs of a sample, and the targets of a block tick (chapter 1). -/

namespace Sys2Proof.Machine

/-! ### Contributions and buses (R3 to R6) -/

/-- The input samples LRX presents: of the lines and of the studio sources (R91). -/
structure Inputs where
  lines : Vector Int 24
  sources : Vector Int 16
deriving DecidableEq, Repr

/-- The air contribution vA of a line (R3). -/
def airPart (m : Mix) (x : Inputs) (j : Line) : Int :=
  scale x.lines[j] m.contribs[j].air.cur

/-- The group contribution vG of a line (R3). -/
def groupPart (m : Mix) (x : Inputs) (j : Line) : Int :=
  scale x.lines[j] m.contribs[j].group.ramp.cur

/-- A line's group contribution as seen by a group (R3). -/
def groupSeen (m : Mix) (x : Inputs) (g : Group) (j : Line) : Int :=
  if m.contribs[j].group.index = g then groupPart m x j else 0

/-- The air contribution of a studio source (R4). -/
def sourcePart (m : Mix) (x : Inputs) (s : Source) : Int :=
  scale x.sources[s] m.sources[s].air.cur

/-- The caller bus K (R5). -/
def callerBus (m : Mix) (x : Inputs) : Int := busSum (airPart m x)

/-- The air bus A (R5). -/
def airBus (m : Mix) (x : Inputs) : Int := busSum (sourcePart m x) + callerBus m x

/-- A group bus (R6). -/
def groupBus (m : Mix) (x : Inputs) (g : Group) : Int := busSum (groupSeen m x g)

/-! ### Terms and returns (R8 to R11) -/

/-- What is subtracted from a bus for a return: the own line's contribution and each partner's (R8). -/
def ownShare (f : Line → Int) (k : Line) (partners : List Line) : Int :=
  f k + (partners.map f).sum

/-- The air term of a return (R8). -/
def airTerm (m : Mix) (x : Inputs) (k : Line) (partners : List Line) : Int :=
  scale (airBus m x - ownShare (airPart m x) k partners) m.returns[k].air.cur

/-- The group term of a return (R8). -/
def groupTerm (m : Mix) (x : Inputs) (k : Line) (partners : List Line) : Int :=
  let g := m.returns[k].group.index
  scale (groupBus m x g - ownShare (groupSeen m x g) k partners) m.returns[k].group.ramp.cur

/-- The hold term of a return (R9). -/
def holdTerm (m : Mix) (x : Inputs) (k : Line) : Int :=
  scale x.sources[m.holdFeed] m.returns[k].hold.cur

/-- The talker source of the screener position that a return's screener term reads (R9). The position is the one the
return holds: on a line whose role has become neither SCREEN nor AUTO that is the position it left, so that its screener
term ramps out on that talker (R22) and is not silent at once. DEDUCED (entry 31). -/
def screenerTalker (t : ScreeningTable) (position : Option Position) : Option Source :=
  position.bind fun p => t.positions[p].talker

/-- A source input read by a term, 0 where the term reads none. -/
def talkerInput (x : Inputs) (s : Option Source) : Int :=
  match s with
  | none => 0
  | some s => x.sources[s]

/-- The screener term of a return (R9). -/
def screenerTerm (m : Mix) (x : Inputs) (t : ScreeningTable) (k : Line) : Int :=
  scale (talkerInput x (screenerTalker t m.returns[k].position)) m.returns[k].screener.cur

/-- The cue term of a return: 0 without a winner (R10). -/
def cueTerm (m : Mix) (x : Inputs) (q : CueReturn) (k : Line) : Int :=
  if q.winner.isSome then scale (talkerInput x q.talker) m.returns[k].cueIn.cur else 0

/-- The outgoing cue term of a return: 0 without an outgoing route (R10). -/
def outgoingTerm (m : Mix) (x : Inputs) (q : CueReturn) (k : Line) : Int :=
  if q.outgoing.isSome then scale (talkerInput x q.outTalker) m.returns[k].cueOut.cur else 0

/-- The raw return of a line: the exact sum of its six terms (R11). -/
def rawReturn (m : Mix) (x : Inputs) (t : ScreeningTable) (c : LineCtx) (q : CueReturn) (k : Line) : Int :=
  airTerm m x k c.plan.partners + groupTerm m x k c.plan.partners + holdTerm m x k + screenerTerm m x t k +
    cueTerm m x q k + outgoingTerm m x q k

/-- The listen feed of a screener position (R7). -/
def listenFeed (m : Mix) (x : Inputs) (t : ScreeningTable) (ctx : Vector LineCtx 24) (p : Position) : Int :=
  match t.positions[p].selected with
  | none => 0
  | some sel =>
    if ctx[sel].state = .screen && ctx[sel].position = some p then scale x.lines[sel] m.contribs[sel].voice else 0

/-- The eight outputs of output lane 3 before their clamp, in slot order (R85). -/
def busOutput (m : Mix) (x : Inputs) (t : ScreeningTable) (ctx : Vector LineCtx 24) (i : Slot) : Int :=
  if i.val = 0 then callerBus m x
  else if i.val < 4 then listenFeed m x t ctx (Fin.ofNat 3 (i.val - 1))
  else groupBus m x (Fin.ofNat 4 (i.val - 4))

/-! ### Peaks, clip totals and ramps over a sample (R11 to R13, R17) -/

/-- A peak after a value (R13). -/
def peakAfter (peak : Nat) (v : Int) : Nat := max peak v.natAbs

/-- A clip total after an output: it rises when the clamp changes the value (R11, R12). -/
def clipAfter (clip : BitVec 32) (raw : Int) : BitVec 32 :=
  if clampSample raw = raw then clip else clip + 1

/-- A group-indexed ramp over a sample. -/
def GroupRamp.advance (g : GroupRamp) : GroupRamp := { g with ramp := g.ramp.advance }

/-- Every ramp of MIX advanced by one sample (R17). -/
def Mix.advance (m : Mix) : Mix :=
  { m with
    sources := Vector.ofFn fun s => { m.sources[s] with air := m.sources[s].air.advance }
    contribs := Vector.ofFn fun j =>
      { m.contribs[j] with air := m.contribs[j].air.advance, group := m.contribs[j].group.advance }
    returns := Vector.ofFn fun k =>
      let r := m.returns[k]
      { r with air := r.air.advance, group := r.group.advance, hold := r.hold.advance, screener := r.screener.advance,
               cueIn := r.cueIn.advance, cueOut := r.cueOut.advance } }

/-- What MIX sends: the raw returns and the raw outputs of output lane 3. -/
structure Outputs where
  returns : Vector Int 24
  buses : Vector Int 8
deriving DecidableEq, Repr

/-- The outputs of one sample, with the multipliers used in it (R5 to R12). -/
def mixOutputs (m : Mix) (x : Inputs) (t : ScreeningTable) (ctx : Vector LineCtx 24) (q : Vector CueReturn 24) :
    Outputs :=
  { returns := Vector.ofFn fun k => rawReturn m x t ctx[k] q[k] k
    buses := Vector.ofFn fun i => busOutput m x t ctx i }

/-- Peaks and clip totals after a sample (R11 to R13). -/
def Mix.measure (m : Mix) (x : Inputs) (o : Outputs) : Mix :=
  { m with
    sources := Vector.ofFn fun s => { m.sources[s] with peak := peakAfter m.sources[s].peak x.sources[s] }
    contribs := Vector.ofFn fun j => { m.contribs[j] with peak := peakAfter m.contribs[j].peak x.lines[j] }
    returns := Vector.ofFn fun k =>
      { m.returns[k] with peak := peakAfter m.returns[k].peak (clampSample o.returns[k])
                          clip := clipAfter m.returns[k].clip o.returns[k] }
    outputs := Vector.ofFn fun i =>
      { peak := peakAfter m.outputs[i].peak (clampSample o.buses[i])
        clip := clipAfter m.outputs[i].clip o.buses[i] } }

/-! ### Composition and targets (R14 to R22) -/

/-- The program terms a return hears, each with its level code (R21). -/
structure Composition where
  air : Option GainCode
  group : Option (Group × GainCode)
  hold : Option GainCode
  screener : Option GainCode
deriving DecidableEq, Repr

/-- No program term (R21). -/
def Composition.silent : Composition := { air := none, group := none, hold := none, screener := none }

/-- The position that selects line k, when k is in its care (R21, R74). -/
def selectedBy (t : ScreeningTable) (k : Line) (c : LineCtx) : Option Position :=
  c.position.bind fun p => if t.positions[p].selected = some k then some p else none

/-- The composition of the return of a line (R21, R23). -/
def composition (t : ScreeningTable) (k : Line) (c : LineCtx) : Composition :=
  let v := c.plan.levels
  match c.heard with
  | .vacant | .parked | .lost => Composition.silent
  | .screen =>
    match selectedBy t k c with
    | some p => { Composition.silent with hold := some v.bed, screener := some t.positions[p].level }
    | none => { Composition.silent with hold := some v.hold }
  | .hold => { Composition.silent with hold := some v.hold }
  | .shadow | .air => { Composition.silent with air := some v.ret }
  | .confer =>
    { Composition.silent with
      air := some v.conferAir, group := c.plan.role.group.map fun g => (g, v.ret) }

/-- The target of a program term in the composition with a level code (R15). -/
def levelTarget (duck : DuckKind) (duckCode level : GainCode) : Int :=
  match duck with
  | .none => mult level
  | .duck => ducked (mult level) (mult duckCode)
  | .interrupt => 0

/-- The target of a program term (R15). -/
def termTarget (duck : DuckKind) (duckCode : GainCode) (level : Option GainCode) : Int :=
  match level with
  | none => 0
  | some l => levelTarget duck duckCode l

/-- The target of the group term with its group (R15, R20). -/
def groupTermWant (duck : DuckKind) (c : LineCtx) (k : Composition) : Option (Group × Int) :=
  k.group.map fun gl => (gl.1, levelTarget duck c.plan.levels.duck gl.2)

/-- The target of the air membership (R3, R35). -/
def airMemberTarget (c : LineCtx) (voice : Int) : Int :=
  if c.state = .air then voice else 0

/-- The target of the group membership with its group (R3, R20, R35). -/
def groupMemberWant (c : LineCtx) (voice : Int) : Option (Group × Int) :=
  if c.state = .confer then c.plan.role.group.map fun g => (g, voice) else none

/-- The length of a program term's change: the cue length when the duck kind changed at the tick, except at entry into
VACANT (R19, R68). -/
def programLength (m : Mix) (c : LineCtx) (before after : DuckKind) : Nat :=
  if before ≠ after && c.state ≠ .vacant then rampSamples m.cueBlocks else rampSamples m.mainBlocks

/-- qCur at a block tick (R10, R16, R64, R66). -/
def cueInTick (r : Ramp) (q : CueReturn) (code : Option GainCode) (len : Nat) : Ramp :=
  match code with
  | none => r.stopAt 0
  | some c => if q.isNew then (r.stopAt 0).retarget (mult c) len else r.retarget (mult c) len

/-- qOut at a block tick: a new outgoing route fades from the value qCur held; without an outgoing route it is 0 (R10,
R16, R65). -/
def cueOutTick (out cur : Ramp) (q : CueReturn) (len : Nat) : Ramp :=
  if q.outNew then cur.begin 0 len
  else if q.outgoing.isNone then out.stopAt 0
  else out

/-- The screener position that a return's screener term reads after a block tick: that of the line's role, or none for an
AUTO line whose auto screener is NONE (R9); for any other role the position read before, on which the term ramps out (R22;
entry 31). -/
def positionAfter (held : Option Position) (c : LineCtx) : Option Position :=
  match c.plan.role with
  | .screen p => some p
  | .auto => c.autoScreener
  | .off | .hold | .air | .confer _ => held

/-- A return context at a block tick (R9, R14 to R16, R19, R20, R22, R69). -/
def ReturnCtx.tick (r : ReturnCtx) (m : Mix) (t : ScreeningTable) (k : Line) (c : LineCtx) (q : CueReturn)
    (routes : Vector RouteCtx 32) : ReturnCtx :=
  let p := composition t k c
  let d := c.plan.levels.duck
  let len := programLength m c r.duck q.duck
  let cueLen := rampSamples m.cueBlocks
  { r with
    air := r.air.retarget (termTarget q.duck d p.air) len
    group := r.group.retarget (groupTermWant q.duck c p) len
    hold := r.hold.retarget (termTarget q.duck d p.hold) len
    screener := r.screener.retarget (termTarget q.duck d p.screener) len
    cueIn := cueInTick r.cueIn q (q.winner.map fun w => routes[w].entry.cueCode) cueLen
    cueOut := cueOutTick r.cueOut r.cueIn q cueLen
    position := positionAfter r.position c
    duck := q.duck }

/-- A contribution context at a block tick (R3, R14, R19, R20, R25). -/
def ContribCtx.tick (b : ContribCtx) (m : Mix) (c : LineCtx) : ContribCtx :=
  let voice := mult c.plan.levels.voice
  let len := rampSamples m.mainBlocks
  { b with
    voice := voice
    air := b.air.retarget (airMemberTarget c voice) len
    group := b.group.retarget (groupMemberWant c voice) len }

/-- A source context at a block tick (R4, R14, R19). -/
def SourceCtx.tick (b : SourceCtx) (m : Mix) : SourceCtx :=
  { b with air := b.air.retarget (mult b.airCode) (rampSamples m.mainBlocks) }

/-- Every target recomputed at a block tick (R14). -/
def Mix.tick (m : Mix) (t : ScreeningTable) (ctx : Vector LineCtx 24) (q : Vector CueReturn 24)
    (routes : Vector RouteCtx 32) : Mix :=
  { m with
    sources := Vector.ofFn fun s => m.sources[s].tick m
    contribs := Vector.ofFn fun j => m.contribs[j].tick m ctx[j]
    returns := Vector.ofFn fun k => m.returns[k].tick m t k ctx[k] q[k] routes }

/-- The group ramps that took their pending group ahead of this tick put back as they stood, so that the tick takes the
switch itself, with the target and the length that it gives (R19, R20; entry 2). -/
def Mix.rewind (m : Mix) (members terms : Vector (Option Group) 24) : Mix :=
  { m with
    contribs := Vector.ofFn fun l => { m.contribs[l] with group := m.contribs[l].group.rewind members[l] }
    returns := Vector.ofFn fun l => { m.returns[l] with group := m.returns[l].group.rewind terms[l] } }

end Sys2Proof.Machine
end

