-- ==== Sys2Proof/Machine/Lanes.lean ====
section
/-! DEFINITION. LRX, LTX and CMAP: slots, lock, elastic buffers, lane setups, output frames and settle records
(chapter 5). -/

namespace Sys2Proof.Machine

/-- A 16-bit lane count that stops at 65535. -/
def countUp (n : Nat) : Nat := min Config.countTop (n + 1)

/-! ### Slot words taken (R90, R91) -/

/-- The audio a slot word presents (R90, R91). A parity error presents the last good sample as it was read, at the width
of then: DEDUCED (entry 35). -/
def slotShown (width : Width) (lastGood : Int) (w : Word32) : Int :=
  if !parityOk w then lastGood else if slotValid w then slotAudio width w else 0

/-- The side code a slot word gives: none on a parity error (R90). -/
def slotSide (w : Word32) : Option (BitVec 6) :=
  if parityOk w then some (slotCode w) else none

/-- The damaged slot words of a frame (R90). -/
def damagedSlots (f : SlotWords) : Nat :=
  ((List.finRange 8).filter fun i => !parityOk f[i]).length

/-- The slot values a frame gives when it is taken (R90). -/
def shownOf (c : InLaneCtx) (f : SlotWords) : Shown :=
  { audio := Vector.ofFn fun i => slotShown c.setup.width c.lastGood[i] f[i]
    side := Vector.ofFn fun i => slotSide f[i] }

/-- A frame taken by a LOCKED lane (R90): what it presents becomes the last good samples, since a damaged word presents
the last good sample itself. -/
def InLaneCtx.takeFrame (c : InLaneCtx) (f : SlotWords) : InLaneCtx :=
  { c with
    shown := shownOf c f
    lastGood := (shownOf c f).audio
    parityRepeats := min Config.countTop (c.parityRepeats + damagedSlots f) }

/-! ### Elastic buffers (R92, R93, R97) -/

/-- An arrival at an elastic buffer of four frames: it joins, or finds four and is discarded with the oldest (R92). -/
def bufferArrive (b : List SlotWords) (f : SlotWords) : List SlotWords :=
  if b.length < Config.bufferFrames then b ++ [f] else b.tail

/-- The arrival is an overrun slip (R92). -/
def isOverrun (b : List SlotWords) : Bool := Config.bufferFrames ≤ b.length

/-- A read takes the oldest frame (R93). -/
def readTakes (mode : FillMode) (b : List SlotWords) : Bool :=
  match mode with
  | .flowing => 1 ≤ b.length
  | .refilling => 2 ≤ b.length

/-- The mode after a read: an underrun enters REFILLING, a read that takes a frame flows (R93). -/
def modeAfterRead (mode : FillMode) (b : List SlotWords) : FillMode :=
  if readTakes mode b then .flowing else .refilling

/-- The read is an underrun slip (R93). -/
def isUnderrun (mode : FillMode) (b : List SlotWords) : Bool :=
  mode = .flowing && b.isEmpty

/-- An arrival at the elastic buffer of a LOCKED SLAVE input lane (R92). -/
def InLaneCtx.arrive (c : InLaneCtx) (f : SlotWords) : InLaneCtx :=
  { c with
    buffer := bufferArrive c.buffer f
    overruns := if isOverrun c.buffer then countUp c.overruns else c.overruns
    frameSeen := true }

/-- A read of the elastic buffer of a LOCKED SLAVE input lane (R93): the oldest frame is taken and presented, or the
previous frame's values are presented again, read at the width of their first read also where an apply has changed the
width since. DEDUCED (entry 35). -/
def InLaneCtx.readBuffer (c : InLaneCtx) : InLaneCtx :=
  let mode := modeAfterRead c.mode c.buffer
  match readTakes c.mode c.buffer, c.buffer with
  | true, f :: rest => { c.takeFrame f with buffer := rest, mode := mode }
  | _, _ =>
    { c with mode := mode, underruns := if isUnderrun c.mode c.buffer then countUp c.underruns else c.underruns }

/-- The lane is LOCKED and clocked by its partner. -/
def InLaneCtx.buffered (c : InLaneCtx) : Bool :=
  c.state = .locked && c.setup.clocking = .slave

/-- The read of a sample, made once (R93). -/
def InLaneCtx.readOnce (c : InLaneCtx) : InLaneCtx :=
  if c.buffered && !c.readDone then { c.readBuffer with readDone := true } else c

/-- What the lane presents to MIX in a slot (R91). -/
def InLaneCtx.present (c : InLaneCtx) (i : Slot) : Int :=
  if c.state = .locked then c.shown.audio[i] else 0

/-- The end of a sample on an input lane: the side codes presented are kept for the block tick, none where the lane is not
LOCKED; a lock lost after the sample leaves them (R99). -/
def InLaneCtx.endSample (c : InLaneCtx) : InLaneCtx :=
  { c with sideSample := if c.state = .locked then c.shown.side else Vector.replicate 8 none, readDone := false }

/-- The lane and slot of a line (R85). -/
def lineLane (l : Line) : InLane := Fin.ofNat 5 (l.val / 8)
/-- The slot of a line (R85). -/
def lineSlot (l : Line) : Slot := Fin.ofNat 8 l.val
/-- The lane of a studio source (R85). -/
def sourceLane (s : Source) : InLane := Fin.ofNat 5 (3 + s.val / 8)
/-- The slot of a studio source (R85). -/
def sourceSlot (s : Source) : Slot := Fin.ofNat 8 s.val

/-- The input samples LRX presents (R85, R91). -/
def presented (lanes : Vector InLaneCtx 5) : Inputs :=
  { lines := Vector.ofFn fun l => lanes[lineLane l].present (lineSlot l)
    sources := Vector.ofFn fun s => lanes[sourceLane s].present (sourceSlot s) }

/-! ### Lock (R88, R89) -/

/-- An input lane with its buffer emptied and nothing to present. What it presented for the last sample stays for the block
tick (R99). -/
def InLaneCtx.emptied (c : InLaneCtx) : InLaneCtx :=
  { c with buffer := [], mode := .refilling, shown := Shown.silent, readDone := false, frameSeen := false }

/-- Entry into OFF (R87). -/
def InLaneCtx.enterOff (c : InLaneCtx) : InLaneCtx :=
  { c.emptied with state := .off, run := 0, seeking := 0, lostShown := false, statusPending := true }

/-- Entry into SEEKING (R87, R89, R102). -/
def InLaneCtx.enterSeeking (c : InLaneCtx) : InLaneCtx :=
  { c.emptied with state := .seeking, run := 0, seeking := 0, lostShown := false, statusPending := true }

/-- Entry into LOCKED at the fourth correct sync (R88). The frames between those syncs count as frames of the block for
R89 (entry 9). No side code of a frame from before the lock is sampled after it: every code settles afresh (R100; entry
8). -/
def InLaneCtx.enterLocked (c : InLaneCtx) : InLaneCtx :=
  { c.emptied with state := .locked, run := 4, lastGood := Vector.replicate 8 0, seeking := 0, lostShown := false,
                   statusPending := true, frameSeen := true, sideSample := Vector.replicate 8 none }

/-- A sync found at a position (R88): the next is expected 288 bit periods later. -/
def InLaneCtx.syncFound (c : InLaneCtx) (position : Nat) : InLaneCtx :=
  if c.run = 3 then { c.enterLocked with expected := position + Config.frameBits }
  else { c with run := c.run + 1, expected := position + Config.frameBits }

/-- LRX looks at the word at a position: at every position in the hunt, at the expected one during a run (R88). -/
def InLaneCtx.looksAt (c : InLaneCtx) (position : Nat) : Bool :=
  c.run = 0 || position = c.expected

/-- The word at a position of a SEEKING lane's stream (R88). -/
def InLaneCtx.seek (c : InLaneCtx) (position : Nat) (word : Word32) : InLaneCtx :=
  if c.state = .seeking && c.looksAt position then
    if word = Config.syncWord then c.syncFound position else { c with run := 0 }
  else c

/-- The loss of a LOCKED lane's lock (R89). -/
def InLaneCtx.loseLock (c : InLaneCtx) : InLaneCtx :=
  { c.enterSeeking with syncLosses := countUp c.syncLosses }

/-- No complete frame arrived since the last block tick on a LOCKED SLAVE lane (R89). -/
def InLaneCtx.syncMissing (c : InLaneCtx) : Bool :=
  c.buffered && !c.frameSeen

/-- The lane is lost: SEEKING with a seeking count at or above the lane-loss time (R102). -/
def InLaneCtx.isLost (c : InLaneCtx) (laneLoss : Nat) : Bool :=
  c.state = .seeking && laneLoss ≤ c.seeking

/-- A lane becomes lost or ceases to be: a change of state for reporting (R103). -/
def InLaneCtx.showLost (c : InLaneCtx) (laneLoss : Nat) : InLaneCtx :=
  { c with lostShown := c.isLost laneLoss, statusPending := c.statusPending || c.isLost laneLoss ≠ c.lostShown }

/-- The seeking count at a block tick (R102). -/
def InLaneCtx.seekTick (c : InLaneCtx) : InLaneCtx :=
  if c.state = .seeking then { c with seeking := countUp c.seeking } else c

/-- An input lane at a block tick: a missing sync loses the lock, and a lane that was SEEKING counts (R89, R102,
R103). `taken` says that the lane entered SEEKING, or was counted, at this tick. -/
def InLaneCtx.tick (c : InLaneCtx) (laneLoss : Nat) (taken : Bool) : InLaneCtx :=
  if taken then c.showLost laneLoss
  else if c.syncMissing then c.loseLock.showLost laneLoss
  else c.seekTick.showLost laneLoss

/-- The end of a block tick on an input lane: the block's side-code samples are taken, and the next block begins. -/
def InLaneCtx.endTick (c : InLaneCtx) : InLaneCtx :=
  { c with frameSeen := false, sideSample := Vector.replicate 8 none }

/-! ### Lane setups (R87) -/

/-- The applied setup takes the lane into OFF or SEEKING (R87). -/
def setupRestarts (held applied : LaneSetup) : Bool :=
  held.enabled ≠ applied.enabled || (applied.enabled && held.clocking ≠ applied.clocking)

/-- An applied lane setup on an input lane (R87). A change of the width alone keeps what was presented and the last good
samples as they were read, at the old width. DEDUCED (entry 35). -/
def InLaneCtx.applySetup (c : InLaneCtx) (p : LaneSetup) : InLaneCtx :=
  let c' := { c with setup := p }
  if !setupRestarts c.setup p then c'
  else if p.enabled then c'.enterSeeking
  else c'.enterOff

/-- An output lane's buffer emptied and refilling, with the silent frame as its previous frame (R97). -/
def OutLaneCtx.emptied (c : OutLaneCtx) : OutLaneCtx :=
  { c with buffer := [], mode := .refilling, previous := SlotWords.silent }

/-- An applied lane setup on an output lane (R87). -/
def OutLaneCtx.applySetup (c : OutLaneCtx) (p : LaneSetup) : OutLaneCtx :=
  let c' := { c with setup := p }
  if !setupRestarts c.setup p then c'
  else if !p.enabled then { c'.emptied with running := false, sent := none, statusPending := true }
  else if c.setup.enabled then c'.emptied
  else { c'.emptied with running := true, statusPending := true }

/-! ### Output frames (R94 to R97) -/

/-- The side code of a return slot: the state index, plus 8 with a cue winner (R94). -/
def returnCode (c : LineCtx) (q : CueReturn) : BitVec 6 :=
  BitVec.ofNat 6 (c.state.index + if q.winner.isSome then 8 else 0)

/-- A slot word as LTX forms it (R94, R96). -/
def formSlot (hold : Bool) (width : Width) (v : Int) (code : BitVec 6) : Word32 :=
  if hold then makeSlot 0 0 false else makeSlot (convertOut width v) code true

/-- The line whose return an output lane carries in a slot (R85). -/
def laneLine (l : OutLane) (i : Slot) : Line := Fin.ofNat 24 (8 * l.val + i.val)

/-- The frame LTX forms for an output lane (R85, R94). -/
def formFrame (hold : Bool) (width : Width) (o : Outputs) (ctx : Vector LineCtx 24) (q : Vector CueReturn 24)
    (l : OutLane) : SlotWords :=
  Vector.ofFn fun i =>
    if l.val = 3 then formSlot hold width (clampSample o.buses[i]) 0
    else
      let k := laneLine l i
      formSlot hold width (clampSample o.returns[k]) (returnCode ctx[k] q[k])

/-- The nine words of a lane frame: the sync word and the slot words of slots 0 to 7 (R86, R165). -/
def frameWords (f : SlotWords) : FrameWords :=
  Vector.ofFn fun i => if h : i.val = 0 then Config.syncWord else f[i.val - 1]

/-- The bits of a lane frame in the order they are sent, each word most significant bit first: slot j's word begins
32 × (j + 1) bit periods after the first bit of the sync word (R86, R165). -/
def frameBits (f : FrameWords) : List Bool :=
  (List.finRange 9).flatMap fun i => (List.range 32).map fun b => (f[i]).getMsbD b

/-- A frame formed on an output lane: a MASTER lane sends it, a SLAVE lane writes it into its buffer, an OFF lane forms
none (R94, R97). A write that finds four frames leaves three, as R92 and the first case of R97 say, so the next write
joins; R97's 'Every write is then an overrun slip', of a partner that stops reading, is not followed. DEDUCED (entry 32). -/
def OutLaneCtx.put (c : OutLaneCtx) (f : SlotWords) : OutLaneCtx :=
  if !c.running then c
  else
    match c.setup.clocking with
    | .master => { c with sent := some (frameWords f) }
    | .slave =>
      { c with
        buffer := bufferArrive c.buffer f
        overruns := if isOverrun c.buffer then countUp c.overruns else c.overruns }

/-- The partner's frame clock reads a frame of a SLAVE output lane (R97). -/
def OutLaneCtx.partnerRead (c : OutLaneCtx) : OutLaneCtx :=
  let mode := modeAfterRead c.mode c.buffer
  match readTakes c.mode c.buffer, c.buffer with
  | true, f :: rest => { c with buffer := rest, mode := mode, previous := f, sent := some (frameWords f) }
  | _, _ =>
    { c with
      mode := mode, sent := some (frameWords c.previous)
      underruns := if isUnderrun c.mode c.buffer then countUp c.underruns else c.underruns }

/-! ### Settle records (R99 to R101) -/

/-- The top of a settle record's equal count (R100). -/
abbrev settleTop : Nat := 16

/-- A side-code sample applied to a settle record (R100). -/
def SettleRec.take (r : SettleRec) (code : BitVec 6) : SettleRec :=
  if r.last = some code then { r with count := min settleTop (r.count + 1) }
  else { last := some code, count := 1, delivered := false }

/-- A block without a sample leaves the record as it stands (R99). -/
def SettleRec.sampled (r : SettleRec) (code : Option (BitVec 6)) : SettleRec :=
  match code with
  | none => r
  | some c => r.take c

/-- The code has settled and is not yet delivered (R100). -/
def SettleRec.settles (r : SettleRec) (settle : Nat) : Bool :=
  r.last.isSome && settle ≤ r.count && !r.delivered

/-- The settle check (R100). -/
def SettleRec.check (r : SettleRec) (settle : Nat) : SettleRec :=
  if r.settles settle then { r with delivered := true } else r

/-- The delivery of a settled code: none where the entry's condition is NONE (R100, R101). -/
def settledDelivery (table : Vector CodeEntry 64) (r : SettleRec) (settle : Nat) : Option Delivery :=
  if r.settles settle then
    r.last.bind fun code =>
      (table[code.toFin].condition).map fun d => { condition := d, notify := table[code.toFin].notify }
  else none

/-- DISCONNECTED, without notify (R102). -/
def laneDelivery : Delivery := { condition := .disconnected, notify := false }

/-- The lane delivers DISCONNECTED to its lines, and gives no sample (R102). -/
def InLaneCtx.disconnects (c : InLaneCtx) (laneLoss : Nat) : Bool :=
  c.state = .off || c.isLost laneLoss

/-- A line's settle record at a tick before the settle check, with `after` its lane after the tick. A lane that is LOCKED
gives the sample it kept of the block's last frame (R99). The records of a lane that the tick finds or takes out of LOCKED
stand clear: the sample of a lock lost after that frame is applied, too, and the loss clears what it left before the check,
so that a SEEKING lane's lines are delivered no code (R89, R100, R102). DEDUCED (entry 8). -/
def settleSampled (m : Cmap) (after : InLaneCtx) (l : Line) : SettleRec :=
  if after.state = .locked then (m.records[l]).sampled after.sideSample[lineSlot l] else SettleRec.clear

/-- A line's settle record after a tick (R100). -/
def settleTick (m : Cmap) (after : InLaneCtx) (l : Line) : SettleRec :=
  (settleSampled m after l).check m.settle

/-- What CMAP delivers for a line at a tick (R100, R102). -/
def lineDelivery (m : Cmap) (after : InLaneCtx) (laneLoss : Nat) (l : Line) : Option Delivery :=
  if after.disconnects laneLoss then some laneDelivery
  else settledDelivery m.table (settleSampled m after l) m.settle

/-- The settle records of a lane's lines cleared, at a loss of lock (R89, R100) and at the lock that follows it, so that
every code settles afresh (R100). -/
def Cmap.clearLane (m : Cmap) (lane : InLane) : Cmap :=
  { m with records := Vector.ofFn fun l => if lineLane l = lane then SettleRec.clear else m.records[l] }

end Sys2Proof.Machine
end

