-- ==== Sys2Proof/Machine/Intakes.lean ====
section
/-! DEFINITION. INTAKE: taking the post word, fetching and judging sections, and handing the staged records to their
owners (chapter 6). -/

namespace Sys2Proof.Machine

/-! ### Taking (R109, R111) -/

/-- The lowest taken section from a number upward (R111, R112). -/
def nextTaken (taken : Word32) (least : Nat) : Option Section :=
  (List.finRange 32).find? fun s => least ≤ s.val && taken.getLsbD s.val

/-- INTAKE may take the post word (R111). -/
def State.mayTake (s : State) : Bool :=
  s.intake.phase = .idle && s.link.engine = .active && s.link.post ≠ 0

/-- An intake taken (R111). -/
def State.takePost (s : State) : State :=
  { s with
    intake :=
      { s.intake with
        phase := .fetching, taken := s.link.post, position := nextTaken s.link.post 0, staging := Staging.empty,
        verdicts := [], reportRequest := false, number := s.intake.number + 1, head := none, record := none }
    link := { s.link with post := 0 } }

/-- INTAKE at a block tick (R111). -/
def State.takeTick (s : State) : State :=
  if s.mayTake then s.takePost else s

/-! ### Fetching (R112 to R120) -/

/-- A verdict entered in the verdict list (R112, R124). -/
def Intake.enter (i : Intake) (sec : Section) (v : Verdict) (edition : BitVec 16) (field : Option Nat) : Intake :=
  { i with verdicts := i.verdicts ++ [{ sec := sec, verdict := v, edition := edition, field := field,
                                        number := i.number }] }

/-- Section 31 reached: the report request mark is set and ACCEPTED is entered without a read (R112). -/
def Intake.request (i : Intake) : Intake :=
  { i.enter 31 .accepted 0 none with reportRequest := true, phase := .ready, position := none }

/-- The section has its verdict: the next taken section is fetched, or the phase is READY (R112, R120). -/
def Intake.moveOn (i : Intake) (sec : Section) : Intake :=
  let i := { i with head := none, record := none }
  match nextTaken i.taken (sec.val + 1) with
  | none => { i with phase := .ready, position := none }
  | some n => if n = 31 then i.request else { i with position := some n }

/-- The fetch of a section ends with a verdict (R112). -/
def Intake.close (i : Intake) (sec : Section) (v : Verdict) (edition : BitVec 16) (field : Option Nat) : Intake :=
  (i.enter sec v edition field).moveOn sec

/-- The edition seen when a read fails: the head value, or 0 if the head read did not succeed (R114). -/
def Intake.editionSeen (i : Intake) : BitVec 16 := i.head.getD 0

/-- A section's fetch ended by a completion error or a timeout (R114). -/
def State.fetchFault (s : State) (sec : Section) : State :=
  { s with intake := s.intake.close sec .fetchFault s.intake.editionSeen none }

/-- Bytes a read asks for (R107). -/
def readLength (k : SectionKind) : ReadStep → Nat
  | .head | .tail => 2
  | .record => recordLength k

/-- Where in its section a read begins: the head at offset 0, the record at 2, the tail at 510 (R107). -/
def readOffset : ReadStep → Nat
  | .head => 0
  | .record => 2
  | .tail => Config.sectionBytes - 2

/-- A read that INTAKE would issue, of its bytes at its offset in the section (R107): while bus mastering is not permitted
it ends at once as a completion error (R159). -/
def State.issueRead (s : State) (sec : Section) (step : ReadStep) : State :=
  if s.link.busMaster then
    { s with
      link :=
        s.link.issueRead step (sectionAddress s.link sec + readOffset step) (readLength (sectionKind sec) step)
          s.inst.started }
  else s.fetchFault sec

/-- The fetch of a section begins (R112, R113). -/
def State.beginFetch (s : State) (sec : Section) : State :=
  if sec = 31 then { s with intake := s.intake.request }
  else if sectionInside s.link sec then s.issueRead sec .head
  else ({ s with intake := s.intake.close sec .window 0 none } : State).countMiss

/-- The section whose fetch may begin: the one at the fetch position, with no read of it outstanding (R112). -/
def State.fetchable (s : State) : Option Section :=
  if s.intake.phase = .fetching && s.link.read.isNone then s.intake.position else none

/-- The data of a successful read: all the bytes asked for (R114; entry 15). -/
def readData (length : Nat) : ReadResult → Option (List Byte)
  | .data bytes => if bytes.length = length then some bytes else none
  | .error | .poisoned => none

/-- A two-byte stamp as read (R107, R164). -/
def stampOf (b : List Byte) : BitVec 16 := BitVec.ofNat 16 (wordAt b 0)

/-- A section whose three reads have succeeded, judged by its editions and its fields (R115, R116, R119). -/
def Intake.judge (i : Intake) (sec : Section) (tail : BitVec 16) : Intake :=
  let head := i.editionSeen
  let k := sectionKind sec
  let b := i.record.getD []
  if head ≠ tail then i.close sec .torn head none
  else
    match firstBad k b with
    | some f => i.close sec .range head (some f)
    | none => ({ i with staging := i.staging.enter k b } : Intake).close sec .accepted head (firstAltered k b)

/-- A successful read taken: the next read is issued, or the section is judged (R107, R115). -/
def State.readDone (s : State) (sec : Section) (step : ReadStep) (b : List Byte) : State :=
  match step with
  | .head => ({ s with intake := { s.intake with head := some (stampOf b) } } : State).issueRead sec .record
  | .record => ({ s with intake := { s.intake with record := some b } } : State).issueRead sec .tail
  | .tail => { s with intake := s.intake.judge sec (stampOf b) }

/-- The completion of the read outstanding (R114). -/
def State.completeRead (s : State) (r : PlanRead) (result : ReadResult) : State :=
  let s' := { s with link := { s.link with read := none } }
  match s.intake.position with
  | none => s'
  | some sec =>
    match readData r.length result with
    | some b => s'.readDone sec r.step b
    | none => s'.fetchFault sec

/-- The read outstanding has timed out: its completion will be discarded and the fetch ends (R114). -/
def State.timeoutRead (s : State) : State :=
  let s' := { s with link := s.link.dropRead }
  match s.intake.position with
  | none => s'
  | some sec => s'.fetchFault sec

/-- The tick now being taken is the fourth after the read's issue (R114): one issued after a part of that tick does not
count it. -/
def PlanRead.times (r : PlanRead) : Bool :=
  !r.late && Config.readTicks ≤ r.age + 1

/-- A read that a tick has not timed out, with that tick counted where it is one after the read's issue (R114). -/
def PlanRead.counted (r : PlanRead) : PlanRead :=
  { r with age := if r.late then r.age else r.age + 1, late := false }

/-- A read outstanding at a block tick: at the fourth after its issue it has timed out (R114). -/
def State.readTick (s : State) : State :=
  match s.link.read with
  | none => s
  | some r => if r.times then s.timeoutRead else { s with link := { s.link with read := some r.counted } }

/-! ### The apply (R81, R121 to R124) -/

/-- What the capacity check reads of the part (R81). -/
def State.capacityInput (s : State) : CapacityInput :=
  { held := Vector.ofFn fun l => (s.line.ctx[l]).plan.role
    staged := Vector.ofFn fun l => (s.intake.staging.lines[l]).map (·.role)
    counts := s.scrn.roleCounts }

/-- The lines refused at this apply (R82). -/
def State.applyRefused (s : State) : List Line := refusedLines s.capacityInput

/-- The line plan records handed to LINE at this apply: those staged and not refused (R121). -/
def State.admittedPlans (s : State) : Vector (Option LinePlan) 24 :=
  let refused := s.applyRefused
  Vector.ofFn fun l => if refused.contains l then none else s.intake.staging.lines[l]

/-- A verdict entry of a refused line becomes GROUP_FULL, with field index 0 (R122). -/
def VerdictEntry.refuse (v : VerdictEntry) (refused : List Line) : VerdictEntry :=
  if refused.any (fun l => l.val = v.sec.val) then { v with verdict := .groupFull, field := some 0 } else v

/-- INTAKE at the apply: the verdicts stand, the staging store is emptied, the phase is APPLYING (R120 to R122). -/
def Intake.applied (i : Intake) (refused : List Line) : Intake :=
  { i with phase := .applying, staging := Staging.empty, verdicts := i.verdicts.map (·.refuse refused) }

/-- REPORT at an apply: the verdict entries handed over and a new report period (R124, R138). -/
def Report.applied (r : Report) (verdicts : List VerdictEntry) (g : Staging) : Report :=
  { r with
    verdicts := verdicts
    period := (g.timing.map (·.reportPeriod)).getD r.period }

/-- MIX at an apply: the studio source table and the ramp lengths (R19, R24). -/
def Mix.applied (m : Mix) (g : Staging) : Mix :=
  { m with
    sources :=
      match g.sources with
      | none => m.sources
      | some t => Vector.ofFn fun s => { m.sources[s] with airCode := t.airCodes[s] }
    holdFeed := (g.sources.map (·.holdFeed)).getD m.holdFeed
    mainBlocks := (g.timing.map (·.mainBlocks)).getD m.mainBlocks
    cueBlocks := (g.timing.map (·.cueBlocks)).getD m.cueBlocks }

/-- LINE's values for all lines at an apply (R27, R43, R49). -/
def LineBlock.applied (b : LineBlock) (g : Staging) : LineBlock :=
  { b with
    dumpDepth := (g.studio.map (·.dumpDepth)).getD b.dumpDepth
    shadowMargin := (g.timing.map (·.shadowMargin)).getD b.shadowMargin
    lossHoldoff := (g.timing.map (·.lossHoldoff)).getD b.lossHoldoff }

/-- SCRN at an apply: the screening table as a whole (R72, R76). -/
def Scrn.applied (b : Scrn) (g : Staging) : Scrn :=
  { b with table := g.screening.getD b.table }

/-- CUE at an apply: the soft keys (R52) and the route table (R59). -/
def Cue.applied (q : Cue) (g : Staging) : Cue :=
  let keys :=
    match g.studio with
    | none => q.keys
    | some t => Vector.ofFn fun k => { q.keys[k] with soft := t.softKeys[k] }
  { q with
    keys := keys
    routes :=
      match g.routes with
      | none => q.routes
      | some t => Vector.ofFn fun r => (q.routes[r]).applyEntry t[r] (keys[(t[r]).key]).down }

/-- The routes replaced at an apply (R59). -/
def replacedRoutes (q : Cue) (g : Staging) : Vector Bool 32 :=
  match g.routes with
  | none => Vector.replicate 32 false
  | some t => Vector.ofFn fun r => replaces (q.routes[r]).entry t[r]

/-- LRX at an apply: the lane setups and the lane-loss time (R87, R102). -/
def Lrx.applied (x : Lrx) (g : Staging) : Lrx :=
  { lanes :=
      match g.lanes with
      | none => x.lanes
      | some t => Vector.ofFn fun l => (x.lanes[l]).applySetup t.inputs[l]
    laneLoss := (g.timing.map (·.laneLoss)).getD x.laneLoss }

/-- The input lanes taken into OFF or SEEKING by an apply (R87). -/
def restartedLanes (x : Lrx) (g : Staging) : Vector Bool 5 :=
  match g.lanes with
  | none => Vector.replicate 5 false
  | some t => Vector.ofFn fun l => setupRestarts (x.lanes[l]).setup t.inputs[l]

/-- LTX at an apply (R87). -/
def Ltx.applied (x : Ltx) (g : Staging) : Ltx :=
  { x with
    lanes :=
      match g.lanes with
      | none => x.lanes
      | some t => Vector.ofFn fun l => (x.lanes[l]).applySetup t.outputs[l] }

/-- A settle record at an apply: cleared with its lane (R100), or with its mark cleared by a new code table (R101). -/
def SettleRec.applied (r : SettleRec) (laneRestarted newTable : Bool) : SettleRec :=
  if laneRestarted then SettleRec.clear
  else if newTable then { r with delivered := false }
  else r

/-- CMAP at an apply (R100, R101). -/
def Cmap.applied (m : Cmap) (g : Staging) (restarted : Vector Bool 5) : Cmap :=
  { table := g.codes.getD m.table
    settle := (g.timing.map (·.settle)).getD m.settle
    records := Vector.ofFn fun l => (m.records[l]).applied restarted[lineLane l] g.codes.isSome }

/-- What an apply marks as taken at this tick: the lanes it restarts and the routes it replaces. -/
def Instant.applied (t : Instant) (restarted : Vector Bool 5) (replaced : Vector Bool 32) : Instant :=
  { t with
    lanes := Vector.ofFn fun l => t.lanes[l] || restarted[l]
    replaced := Vector.ofFn fun r => t.replaced[r] || replaced[r] }

/-- Every staged record but the line plan records handed to its owner (R121). -/
def State.handOver (s : State) : State :=
  let g := s.intake.staging
  let intake := s.intake.applied s.applyRefused
  { s with
    mix := s.mix.applied g
    line := s.line.applied g
    scrn := s.scrn.applied g
    cue := s.cue.applied g
    lrx := s.lrx.applied g
    ltx := s.ltx.applied g
    cmap := s.cmap.applied g (restartedLanes s.lrx g)
    intake := intake
    report := s.report.applied intake.verdicts g
    inst := s.inst.applied (restartedLanes s.lrx g) (replacedRoutes s.cue g) }

end Sys2Proof.Machine
end

