-- ==== Sys2Proof/Machine/Reports.lean ====
section
/-! DEFINITION. REPORT: the records and their bytes, rounds, record writes and what follows their completion
(chapter 7, sections 9.1 and 9.4). -/

namespace Sys2Proof.Machine

/-! ### The report area (R130) -/

/-- The offset of a record in the report area (R130). -/
def RecordKind.offset : RecordKind → Nat
  | .part => 0x0000
  | .verdict s => 0x0100 + 16 * s.val
  | .line l => 0x0400 + 64 * l.val
  | .meter i => 0x1000 + 16 * i.val
  | .lane e => 0x1800 + 16 * e.val

/-- The size of a record (R130). -/
def RecordKind.size : RecordKind → Nat
  | .part => 32
  | .verdict _ => 16
  | .line _ => 64
  | .meter _ => 16
  | .lane _ => 16

/-- The address of a record (R130). -/
def recordAddress (k : Link) (r : RecordKind) : Nat :=
  k.reportBase.toNat + r.offset

/-- The record lies inside the report window (R132, R155). -/
def recordInside (k : Link) (r : RecordKind) : Bool :=
  insideWindow k.reportBase k.reportEnd (recordAddress k r) r.size

/-! ### Record contents (R133 to R135, R169, R170) -/

/-- The contents of a verdict entry (R169). -/
def verdictBody (v : VerdictEntry) : List Byte :=
  [byte8 v.sec.val, byte8 v.verdict.code] ++ bytes16 v.edition.toNat ++ bytes16 (v.field.getD 65535) ++
    bytes16 v.number.toNat ++ List.replicate 4 0

/-- The contents of the part state record after its report sequence field (R133, R169). -/
def partBody (s : State) (blockCount : BitVec 32) : List Byte :=
  bytes32 blockCount.toNat ++ bytes16 s.intake.number.toNat ++
    [byte8 s.link.engine.code, byte8 s.ref.locked.toNat, byte8 s.scrn.arrivals.toNat] ++ List.replicate 17 0

/-- The state argument of a line status record: the position for SCREEN, the group for CONFER (R169). -/
def stateArg (c : LineCtx) : Nat :=
  match c.state with
  | .screen => (c.position.map (·.val)).getD 0
  | .confer => (c.plan.role.group.map (·.val)).getD 0
  | .vacant | .parked | .hold | .shadow | .air | .lost => 0

/-- The level codes of a line in the order of the record (R169). -/
def levelBytes (v : Levels) : List Byte :=
  [v.voice, v.ret, v.conferAir, v.hold, v.bed, v.duck].map fun c => byte8 c.val

/-- The partner set of a line in three places (R169). -/
def partnerBytes (p : List Line) : List Byte :=
  (List.range 3).map fun i => byteOpt p[i]?

/-- The contents of a line status record (R134, R169). -/
def lineBody (k : Line) (c : LineCtx) (winner : Option Route) (blockCount : BitVec 32) : List Byte :=
  [byte8 k.val, byte8 c.state.index, byte8 (stateArg c), byte8 c.plan.role.code, byte8 c.plan.role.arg,
    byte8 c.condition.code] ++
  bytes32 blockCount.toNat ++ bytes16 c.lossCount ++ bytes16 c.shadowCount ++
  [(c.lostFrom.map fun x => byte8 x.index).getD 255, byteOpt c.autoScreener] ++
  bytes16 ((c.arrivalNumber.map (·.toNat)).getD 65535) ++
  [byteOpt winner, byte8 c.plan.threshold.val] ++ levelBytes c.plan.levels ++ partnerBytes c.plan.partners ++
  List.replicate 31 0

/-- The contents of a meter record from its two peaks and its clip total (R170). -/
def meterBytes (input output : Nat) (clip : BitVec 32) : List Byte :=
  bytes32 input ++ bytes32 output ++ bytes32 clip.toNat

/-- The contents of meter record i (R130, R135, R170). -/
def meterBody (m : Mix) (i : Fin 48) : List Byte :=
  if i.val < 24 then
    let k : Line := Fin.ofNat 24 i.val
    meterBytes m.contribs[k].peak m.returns[k].peak m.returns[k].clip
  else if i.val < 40 then meterBytes (m.sources[(Fin.ofNat 16 (i.val - 24) : Source)]).peak 0 0
  else
    let o : Fin 8 := Fin.ofNat 8 (i.val - 40)
    meterBytes 0 m.outputs[o].peak m.outputs[o].clip

/-- The contents of a lane status record from its fields (R170). -/
def laneBytes (code lost overruns underruns syncs parity fill : Nat) : List Byte :=
  [byte8 code, byte8 lost] ++ bytes16 overruns ++ bytes16 underruns ++ bytes16 syncs ++ bytes16 parity ++ [byte8 fill, 0]

/-- The contents of an input lane's status record (R103, R170). -/
def inLaneBody (c : InLaneCtx) : List Byte :=
  let slave := c.setup.clocking = .slave
  laneBytes c.state.code (c.state = .seeking && c.lostShown).toNat (if slave then c.overruns else 0)
    (if slave then c.underruns else 0) c.syncLosses c.parityRepeats (if c.buffered then c.buffer.length else 0)

/-- The contents of an output lane's status record (R103, R170). -/
def outLaneBody (c : OutLaneCtx) : List Byte :=
  let slave := c.setup.clocking = .slave
  laneBytes c.running.toNat 0 (if slave then c.overruns else 0) (if slave then c.underruns else 0) 0 0
    (if slave then c.buffer.length else 0)

/-- The contents of lane status record e (R130). -/
def laneBody (s : State) (e : Fin 9) : List Byte :=
  if e.val < 5 then inLaneBody s.lrx.lanes[(Fin.ofNat 5 e.val : InLane)]
  else outLaneBody s.ltx.lanes[(Fin.ofNat 4 (e.val - 5) : OutLane)]

/-- The status-pending flag behind lane status record e (R103). -/
def lanePending (s : State) (e : Fin 9) : Bool :=
  if e.val < 5 then (s.lrx.lanes[(Fin.ofNat 5 e.val : InLane)]).statusPending
  else (s.ltx.lanes[(Fin.ofNat 4 (e.val - 5) : OutLane)]).statusPending

/-! ### The work of a round (R136, R142) -/

/-- The work a round takes: verdict entries, a full report, a periodic write, lane and line flags. -/
structure Work where
  verdicts : List VerdictEntry
  full : Bool
  periodic : Bool
  lanes : List (Fin 9)
  lines : List Line
deriving DecidableEq, Repr

/-- No work. -/
def Work.nothing : Work := { verdicts := [], full := false, periodic := false, lanes := [], lines := [] }

/-- There is work for a round. -/
def Work.present (w : Work) : Bool :=
  !w.verdicts.isEmpty || w.full || w.periodic || !w.lanes.isEmpty || !w.lines.isEmpty

/-- The round carries meters (R136). -/
def Work.meters (w : Work) : Bool := w.full || w.periodic

/-- The work that the engine allows a round to take (R136, R142). -/
def State.work (s : State) : Work :=
  match s.link.engine with
  | .stopped => Work.nothing
  | .draining => { Work.nothing with verdicts := s.report.verdicts, full := s.report.fullRequest }
  | .active =>
    { verdicts := s.report.verdicts, full := s.report.fullRequest, periodic := s.report.due
      lanes := (List.finRange 9).filter (lanePending s)
      lines := (List.finRange 24).filter fun l => (s.line.ctx[l]).reportPending }

/-- The lanes whose records the round carries (R136). -/
def Work.carriedLanes (w : Work) : List (Fin 9) := if w.meters then List.finRange 9 else w.lanes

/-- The lines whose records the round carries (R136). -/
def Work.carriedLines (w : Work) : List Line := if w.full then List.finRange 24 else w.lines

/-- A record without a notice of its own. -/
def plainRecord (kind : RecordKind) (body : List Byte) : RoundRecord :=
  { kind := kind, body := body, stateChange := false }

/-- The records of a round with their snapshots, in the order of R137. -/
def roundRecords (s : State) (w : Work) : List RoundRecord :=
  let count := s.report.blockCount
  w.verdicts.map (fun v => plainRecord (.verdict v.sec) (verdictBody v)) ++
  (if w.meters then [plainRecord .part (partBody s count)] else []) ++
  w.carriedLanes.map (fun e => { kind := .lane e, body := laneBody s e, stateChange := lanePending s e }) ++
  w.carriedLines.map (fun l =>
    plainRecord (.line l) (lineBody l s.line.ctx[l] (s.cue.returns[l]).winner count)) ++
  (if w.meters then (List.finRange 48).map fun i => plainRecord (.meter i) (meterBody s.mix i) else [])

/-- The 32 clip totals: 24 returns and 8 output buses (R135). -/
def Mix.clipTotals (m : Mix) : Vector (BitVec 32) 32 :=
  Vector.ofFn fun i =>
    if i.val < 24 then (m.returns[(Fin.ofNat 24 i.val : Line)]).clip
    else (m.outputs[(Fin.ofNat 8 (i.val - 24) : Fin 8)]).clip

/-- Every peak restarted by a meter capture (R13, R135). -/
def Mix.restartPeaks (m : Mix) : Mix :=
  { m with
    sources := Vector.ofFn fun i => { m.sources[i] with peak := 0 }
    contribs := Vector.ofFn fun i => { m.contribs[i] with peak := 0 }
    returns := Vector.ofFn fun i => { m.returns[i] with peak := 0 }
    outputs := Vector.ofFn fun i => { m.outputs[i] with peak := 0 } }

/-- Report-pending flags of the lines of a list given these values. -/
def LineBlock.flag (b : LineBlock) (lines : List Line) (on : Line → Bool) : LineBlock :=
  { b with
    ctx := Vector.ofFn fun l => if lines.contains l then { b.ctx[l] with reportPending := on l } else b.ctx[l] }

/-- The input lane's place in the lane status records (R130). -/
def inLaneEntry (l : InLane) : Fin 9 := Fin.ofNat 9 l.val
/-- The output lane's place in the lane status records (R130). -/
def outLaneEntry (l : OutLane) : Fin 9 := Fin.ofNat 9 (5 + l.val)

/-- Status-pending flags of the input lanes of a list given these values. -/
def Lrx.flag (x : Lrx) (entries : List (Fin 9)) (on : Fin 9 → Bool) : Lrx :=
  { x with
    lanes := Vector.ofFn fun l =>
      let e := inLaneEntry l
      if entries.contains e then { x.lanes[l] with statusPending := on e } else x.lanes[l] }

/-- Status-pending flags of the output lanes of a list given these values. -/
def Ltx.flag (x : Ltx) (entries : List (Fin 9)) (on : Fin 9 → Bool) : Ltx :=
  { x with
    lanes := Vector.ofFn fun l =>
      let e := outLaneEntry l
      if entries.contains e then { x.lanes[l] with statusPending := on e } else x.lanes[l] }

/-- The flags of lines and lanes that R50 and R103 set. -/
structure ReportFlags where
  lines : Line → Bool
  lanes : Fin 9 → Bool

/-- No flag set. -/
def ReportFlags.clear : ReportFlags := { lines := fun _ => false, lanes := fun _ => false }

/-- The flags as they stand in a state. -/
def State.flags (s : State) : ReportFlags :=
  { lines := fun l => (s.line.ctx[l]).reportPending, lanes := lanePending s }

/-- The part with every flag clear: the flags that a tick sets from there are those of its own events. -/
def State.unflagged (s : State) : State :=
  { s with
    line := s.line.flag (List.finRange 24) ReportFlags.clear.lines
    lrx := s.lrx.flag (List.finRange 9) ReportFlags.clear.lanes
    ltx := s.ltx.flag (List.finRange 9) ReportFlags.clear.lanes }

/-- The round that takes this work, with its snapshots (R136). -/
def newRound (s : State) (w : Work) : Round :=
  { todo := roundRecords s w, current := none, full := w.full, meters := w.meters, metersDone := false,
    meterWritten := false, clips := s.mix.clipTotals }

/-- REPORT after the work is taken into a round (R136, R138). A full report begun while DRAINING clears a set due mark as
R136 and R138 give, where R142 says that the mark stays set while DRAINING. DEDUCED (entry 34). -/
def Report.takeWork (r : Report) (w : Work) (round : Round) : Report :=
  { r with
    verdicts := [], fullRequest := r.fullRequest && !w.full, due := r.due && !w.meters
    meterCounter := if w.full then 0 else r.meterCounter
    round := some round }

/-- A round begun with this work: its snapshots are of `seen`, and `left` are the flags of what it carries that events
after the snapshots have set again (R51, R135, R136). -/
def State.startRound (s seen : State) (left : ReportFlags) (w : Work) : State :=
  { s with
    mix := if w.meters then s.mix.restartPeaks else s.mix
    line := s.line.flag w.carriedLines left.lines
    lrx := s.lrx.flag w.carriedLanes left.lanes
    ltx := s.ltx.flag w.carriedLanes left.lanes
    report := s.report.takeWork w (newRound seen w) }

/-- A round may begin: none is in progress and there is work that the engine allows (R136, R142). -/
def State.mayRound (s : State) : Bool :=
  s.report.round.isNone && s.work.present

/-- REPORT's look for a round at a block tick, the snapshots taken of `seen` (R136). -/
def State.lookRound (s seen : State) (left : ReportFlags) : State :=
  if seen.mayRound then s.startRound seen left seen.work else s

/-- REPORT's look for a round at a block tick, the snapshots taken after its events (R51, R136). -/
def State.roundTick (s : State) : State :=
  s.lookRound s ReportFlags.clear

/-- A line as a snapshot taken before the line's events of a tick shows it, with the tick's plain decrease of its counts and
without the event of a count that reaches 0 (R51, R134). -/
def LineCtx.beforeEvents (c : LineCtx) : LineCtx :=
  let down := fun n => if n ≤ 1 then n else n - 1
  { c with lossCount := if c.state = .lost then down c.lossCount else c.lossCount, shadowCount := down c.shadowCount }

/-- The part after a tick as snapshots taken before the events of lines and lanes show it, with `s` the part before the
tick and `events` the flags that its events set. A line or lane that has an event is shown before it, and a second record
follows (R51, R136). Every other is shown as it stands after the tick: what changes without a flag, such as level codes, the
interrupt threshold and the partner set (R33), is in no later record (R36, R134). Whether the part state record then shows
the arrival counter (R133) before or after the arrivals of the tick is stated nowhere: it shows it as it stands after them,
like every other field that is no line's and no lane's. DESIGN CHOICE (entry 2). -/
def State.seenBefore (t s : State) (events : ReportFlags) : State :=
  { t with
    line := { t.line with
      ctx := Vector.ofFn fun l => if events.lines l then (s.line.ctx[l]).beforeEvents else t.line.ctx[l] }
    lrx := { t.lrx with
      lanes := Vector.ofFn fun i => if events.lanes (inLaneEntry i) then s.lrx.lanes[i] else t.lrx.lanes[i] }
    ltx := { t.ltx with
      lanes := Vector.ofFn fun o => if events.lanes (outLaneEntry o) then s.ltx.lanes[o] else t.ltx.lanes[o] } }

/-- The meter period counter and the due mark at a block tick (R138). -/
def Report.periodTick (r : Report) : Report :=
  if r.period ≤ r.meterCounter + 1 then { r with meterCounter := 0, due := true }
  else { r with meterCounter := r.meterCounter + 1 }

/-! ### Completion (R124, R125, R132, R139 to R141, R145) -/

/-- The verdict writes and any full report are complete: notice INTAKE, phase IDLE (R124, R125). -/
def State.intakeDone (s : State) : State :=
  { s with intake := { s.intake with phase := .idle } }.raise noticeIntake

/-- The notice of a completed record (R139, R140). -/
def State.recordNotice (s : State) (r : RoundRecord) (written : Bool) : State :=
  if !written then s
  else
    match r.kind with
    | .line l => s.raise (noticeLine l)
    | .lane _ => if r.stateChange then s.raise noticeLane else s
    | .verdict _ | .part | .meter _ => s

/-- The verdict writes of the round are complete: the full report is asked for, or the intake ends (R124, R125). -/
def State.verdictsDone (s : State) : State :=
  if s.intake.reportRequest then { s with report := { s.report with fullRequest := true } } else s.intakeDone

/-- The round's meter records are all complete: notices REPORT and CLIP (R145). -/
def State.metersComplete (s : State) (r : Round) : State :=
  let s1 := if r.meterWritten then s.raise noticeReport else s
  let s2 := if r.clips = s.report.lastClips then s1 else s1.raise noticeClip
  { s2 with report := { s2.report with lastClips := r.clips } }

/-- The record is a verdict entry. -/
def RecordKind.isVerdict : RecordKind → Bool
  | .verdict _ => true
  | .part | .lane _ | .line _ | .meter _ => false

/-- The record is a meter record. -/
def RecordKind.isMeter : RecordKind → Bool
  | .meter _ => true
  | .part | .lane _ | .line _ | .verdict _ => false

/-- The record is the last of its kind in the round. -/
def lastOf (p : RecordKind → Bool) (r : RoundRecord) (rest : List RoundRecord) : Bool :=
  p r.kind && !rest.any fun x => p x.kind

/-- The round after a record is complete. -/
def Round.completed (r : Round) (item : RoundRecord) (written : Bool) : Round :=
  { r with
    current := none
    meterWritten := r.meterWritten || (item.kind.isMeter && written)
    metersDone := r.metersDone || lastOf RecordKind.isMeter item r.todo }

/-- The end of a round with no record left: a full report ends its intake (R125, R137). -/
def State.roundEnd (s : State) (r : Round) : State :=
  if r.todo.isEmpty then
    let s' := { s with report := { s.report with round := none } }
    if r.full then s'.intakeDone else s'
  else { s with report := { s.report with round := some r } }

/-- A record of the round is complete, as written or as missed, with everything that follows it (R132, R158). -/
def State.finishRecord (s : State) (r : Round) (item : RoundRecord) (written : Bool) : State :=
  let r' := r.completed item written
  let s1 := s.recordNotice item written
  let s2 := if lastOf RecordKind.isVerdict item r.todo then s1.verdictsDone else s1
  let s3 := if lastOf RecordKind.isMeter item r.todo then s2.metersComplete r' else s2
  (s3.roundEnd r').drainCheck

/-! ### Record writes (R130 to R132, R159) -/

/-- The contents between the stamps: the part state record carries its stamp as the report sequence field (R133). -/
def recordContents (item : RoundRecord) (stamp : BitVec 16) : List Byte :=
  match item.kind with
  | .part => bytes16 stamp.toNat ++ item.body
  | .verdict _ | .lane _ | .line _ | .meter _ => item.body

/-- The stamp head sent (R131). -/
def State.sendHead (s : State) (item : RoundRecord) (stamp : BitVec 16) : State :=
  { s with hostMem := memoryWriteBytes s.hostMem (recordAddress s.link item.kind) (bytes16 stamp.toNat) }

/-- The contents sent (R131). -/
def State.sendContents (s : State) (item : RoundRecord) (stamp : BitVec 16) : State :=
  { s with
    hostMem := memoryWriteBytes s.hostMem (recordAddress s.link item.kind + 2) (recordContents item stamp) }

/-- The stamp tail sent (R131). -/
def State.sendTail (s : State) (item : RoundRecord) (stamp : BitVec 16) : State :=
  { s with
    hostMem :=
      memoryWriteBytes s.hostMem (recordAddress s.link item.kind + (item.kind.size - 2)) (bytes16 stamp.toNat) }

/-- The parts of a record sent by the step that begins it (R131). -/
def State.sendBegin (s : State) (item : RoundRecord) (stamp : BitVec 16) (sent : PartSent) : State :=
  match sent with
  | .head => s.sendHead item stamp
  | .contents => (s.sendHead item stamp).sendContents item stamp

/-- The parts of a record not sent yet (R131). -/
def State.sendRest (s : State) (u : Underway) : State :=
  match u.sent with
  | .head => (s.sendContents u.item u.stamp).sendTail u.item u.stamp
  | .contents => s.sendTail u.item u.stamp

/-- A record is begun inside the window: the report sequence rises and is its stamp (R131). -/
def State.beginWrite (s : State) (r : Round) (item : RoundRecord) (sent : PartSent) : State :=
  let stamp := s.report.seq + 1
  let r' := { r with current := some { item := item, stamp := stamp, sent := sent } }
  { s.sendBegin item stamp sent with report := { s.report with seq := stamp, round := some r' } }

/-- A record outside the window, or begun without bus mastering: a miss, complete at once (R132, R159). -/
def State.missRecord (s : State) (r : Round) (item : RoundRecord) : State :=
  s.countMiss.finishRecord r item false

/-- The record may be written (R132, R159). -/
def State.mayWrite (s : State) (item : RoundRecord) : Bool :=
  s.link.busMaster && recordInside s.link item.kind

/-- The next record of the round begun (R131, R132, R137). -/
def State.beginRecord (s : State) (r : Round) (sent : PartSent) : State :=
  match r.current, r.todo with
  | none, item :: rest =>
    let r' := { r with todo := rest }
    if s.mayWrite item then s.beginWrite r' item sent else s.missRecord r' item
  | _, _ => s

/-- The tail of the record under way sent (R131, R132). -/
def State.completeRecord (s : State) (r : Round) : State :=
  match r.current with
  | none => s
  | some u => (s.sendRest u).finishRecord r u.item true

/-- The record under way when bus mastering is withdrawn is missed (R159). -/
def State.missUnderway (s : State) : State :=
  match s.report.round with
  | none => s
  | some r =>
    match r.current with
    | none => s
    | some u => s.missRecord r u.item

/-! ### Abandonment by a link reset (R127, R143) -/

/-- The records of a round not complete. -/
def Round.uncompleted (r : Round) : List RoundRecord :=
  (r.current.map (·.item)).toList ++ r.todo

/-- The lines among a list of records. -/
def linesOf (rs : List RoundRecord) : List Line :=
  rs.filterMap fun x => match x.kind with
    | .line l => some l
    | .verdict _ | .part | .lane _ | .meter _ => none

/-- The lanes among a list of records. -/
def lanesOf (rs : List RoundRecord) : List (Fin 9) :=
  rs.filterMap fun x => match x.kind with
    | .lane e => some e
    | .verdict _ | .part | .line _ | .meter _ => none

/-- The records a link reset leaves uncompleted (R143). -/
def Report.uncompleted (r : Report) : List RoundRecord :=
  match r.round with
  | none => []
  | some x => x.uncompleted

/-- REPORT after a link reset (R143, R148). -/
def Report.linkReset (r : Report) : Report :=
  { r with
    due := r.due || (r.round.any fun x => x.meters && !x.metersDone)
    verdicts := [], fullRequest := false, round := none }

/-- INTAKE after a link reset: everything but its number (R127, R128). -/
def Intake.linkReset (i : Intake) : Intake :=
  { Intake.reset with number := i.number }

/-- LINK after a link reset: its reset values; a read outstanding is discarded on arrival (R162, R163). -/
def Link.linkReset (k : Link) : Link :=
  { Link.reset with
    stale := k.dropRead.stale, nextRead := k.nextRead, messages := k.messages, lastMessage := k.lastMessage }

end Sys2Proof.Machine
end

