-- ==== Sys2Proof/Machine/Ticks.lean ====
section
/-! DEFINITION. The block tick: its parts in the order the model takes them, and the same parts as the rows that name
them take them ahead of BLOCK_TICK (entries 2 and 3). -/

namespace Sys2Proof.Machine

/-! ### Lines and lanes at a tick -/

/-- An input lane after this tick (R89, R102). -/
def State.laneAfter (s : State) (i : InLane) : InLaneCtx :=
  (s.lrx.lanes[i]).tick s.lrx.laneLoss s.inst.lanes[i]

/-- What a tick gives every line; `delta` is the change of the dump depth made by an apply at it (R47, R49). -/
def State.lineEnv (s : State) (delta : Int) : LineEnv :=
  { delta := delta, shadowStart := min 65535 (s.line.dumpDepth + s.line.shadowMargin), holdoff := s.line.lossHoldoff,
    table := s.scrn.table }

/-- A line's settle record before the settle check of this tick (R99, R100). -/
def State.settleRecord (s : State) (l : Line) : SettleRec :=
  settleSampled s.cmap (s.laneAfter (lineLane l)) l

/-- A line's settle record after this tick (R100). -/
def State.settleAfter (s : State) (l : Line) : SettleRec :=
  settleTick s.cmap (s.laneAfter (lineLane l)) l

/-- What CMAP delivers for a line at this tick (R100, R102). -/
def State.delivery (s : State) (l : Line) : Option Delivery :=
  lineDelivery s.cmap (s.laneAfter (lineLane l)) s.lrx.laneLoss l

/-- What reaches a line at this tick; nothing reaches a line already taken at it. -/
def State.lineInput (s : State) (plan : Option LinePlan) (l : Line) : LineInput :=
  if s.inst.lines[l] then { plan := none, delivery := none, counted := false }
  else { plan := plan, delivery := s.delivery l, counted := true }

/-- What reaches every line at this tick. -/
def State.lineInputs (s : State) (plans : Vector (Option LinePlan) 24) : Vector LineInput 24 :=
  Vector.ofFn fun l => s.lineInput plans[l] l

/-- Every lane and every line counted as taken at this tick. -/
def Instant.allLines (t : Instant) : Instant :=
  { t with lanes := Vector.replicate 5 true, lines := Vector.replicate 24 true }

/-- The cue multipliers of a return at entry into VACANT (R68). -/
def ReturnCtx.vacate (r : ReturnCtx) : ReturnCtx :=
  { r with cueIn := r.cueIn.stopAt 0, cueOut := r.cueOut.stopAt 0 }

/-- The cue state and the cue multipliers of the returns whose lines entered VACANT, with `old` the lines before (R68). -/
def State.vacate (s : State) (old : Vector LineCtx 24) : State :=
  let entered : Line → Bool := fun l => (s.line.ctx[l]).state = .vacant && (old[l]).state ≠ .vacant
  { s with
    cue :=
      { s.cue with returns := Vector.ofFn fun l => if entered l then CueReturn.clear else s.cue.returns[l] }
    mix :=
      { s.mix with
        returns := Vector.ofFn fun l => if entered l then (s.mix.returns[l]).vacate else s.mix.returns[l] } }

/-- LRX, CMAP, LINE and SCRN's arrivals at a tick (R39, R46, R89, R99 to R102). -/
def State.linesMoved (s : State) (plans : Vector (Option LinePlan) 24) (delta : Int) : State :=
  { s with
    lrx := { s.lrx with lanes := Vector.ofFn s.laneAfter }
    cmap :=
      { s.cmap with
        records := Vector.ofFn fun l => if s.inst.lines[l] then s.cmap.records[l] else s.settleAfter l }
    line := { s.line with ctx := linesTick (s.lineEnv delta) s.line.ctx (s.lineInputs plans) s.scrn.arrivals }
    scrn := { s.scrn with arrivals := arrivalsTick s.line.ctx (s.lineInputs plans) s.scrn.arrivals }
    inst := s.inst.allLines }

/-- Lanes and lines at a tick, with what entry into VACANT does to a return (R68). -/
def State.linePhase (s : State) (plans : Vector (Option LinePlan) 24) (delta : Int) : State :=
  (s.linesMoved plans delta).vacate s.line.ctx

/-- One line's counts, condition and state at this tick, ahead of the others (R29, R41, R48, R100). -/
def State.lineMoved (s : State) (l : Line) : State :=
  let c := s.line.ctx[l]
  let i := s.lineInput none l
  { s with
    cmap := { s.cmap with records := s.cmap.records.set l (s.settleAfter l) }
    line := { s.line with ctx := s.line.ctx.set l (lineTick (s.lineEnv 0) c i s.scrn.arrivals) }
    scrn := { s.scrn with arrivals := arrivalsAfter c i s.scrn.arrivals }
    inst := { s.inst with lines := s.inst.lines.set l true } }

/-- One line's part of this tick, taken ahead of the others (R29, R41, R48, R68, R100). -/
def State.tickLine (s : State) (l : Line) : State :=
  (s.lineMoved l).vacate s.line.ctx

/-- A line's part of this tick, unless it has been taken. -/
def State.tickLineOnce (s : State) (l : Line) : State :=
  if s.inst.lines[l] then s else s.tickLine l

/-- A line takes an arrival at this tick: one already taken at it does not (R38). -/
def State.arrivalDue (s : State) (l : Line) : Bool :=
  takesArrival s.line.ctx[l] (s.lineInput none l)

/-- The lines that SCRN serves before a line at this tick: where the line takes an arrival, the lower lines that take one
(R39, R77). -/
def State.servedBefore (s : State) (l : Line) : List Line :=
  (List.finRange 24).filter fun j => decide (j < l) && s.arrivalDue l && s.arrivalDue j

/-- A line's part of this tick taken ahead, in its place among the arrivals of the tick: the lower lines that take one go
first (R39, R77). -/
def State.tickLineInOrder (s : State) (l : Line) : State :=
  ((s.servedBefore l).foldl State.tickLine s).tickLine l

/-! ### The apply (R46, R80, R121) -/

/-- Keys, hold counts, lines, a lost lane, the meter period or the take of this tick have been taken already (entry 3). -/
def Instant.begun (t : Instant) : Bool :=
  ((List.finRange 16).any fun k => t.keys[k]) || ((List.finRange 32).any fun r => t.holds[r]) ||
    ((List.finRange 24).any fun l => t.lines[l]) || t.laneLost || t.period || t.take

/-- An apply is due at this tick: the phase is READY, and was before any part of the tick was taken; an intake taken at
the tick itself is applied at the next one (R120). -/
def State.applyDue (s : State) : Bool :=
  s.intake.phase = .ready && !s.inst.begun

/-- The apply carries line plan records (R80). -/
def Staging.carriesLines (g : Staging) : Bool :=
  (List.finRange 24).any fun l => (g.lines[l]).isSome

/-- The role counts as the lines' roles stand (R80). -/
def State.countRoles (s : State) : State :=
  { s with
    scrn :=
      { s.scrn with
        roleCounts := Vector.ofFn fun g => roleCount (Vector.ofFn fun l => (s.line.ctx[l]).plan.role) g } }

/-- The apply, with the deliveries of the same tick (R46, R80, R121). -/
def State.applyTick (s : State) : State :=
  let s1 := s.handOver
  let s2 := s1.linePhase s.admittedPlans ((s1.line.dumpDepth : Int) - s.line.dumpDepth)
  if s.intake.staging.carriesLines then s2.countRoles else s2

/-- Lanes, lines and an apply at a tick. -/
def State.linePart (s : State) : State :=
  if s.applyDue then s.applyTick else s.linePhase (Vector.replicate 24 none) 0

/-! ### Counters (R133, R138, R177) -/

/-- The block count at a tick (R133). -/
def State.countBlock (s : State) : State :=
  { s with report := { s.report with blockCount := s.report.blockCount + 1 } }

/-- The tick is a slow tick (R177): `blockCount` is the count after it. -/
def isSlowTick (blockCount : BitVec 32) : Bool :=
  blockCount.toNat % Config.slowBlocks == 0

/-- The meter period counter at a tick (R138). -/
def State.periodPhase (s : State) : State :=
  if s.inst.period then s else { s with report := s.report.periodTick }

/-! ### Keys, routes and cue at a tick (R52 to R70) -/

/-- A key's raw state: its pin or its soft key (R52). -/
def rawKey (pins : BitVec 16) (k : KeyCtx) (i : Key) : Bool :=
  pins.getLsbD i.val || k.soft

/-- A key after this tick (R52, R53). -/
def State.keyAfter (s : State) (pins : BitVec 16) (i : Key) : KeyCtx :=
  let k := s.cue.keys[i]
  if s.inst.keys[i] then k else keySample k (rawKey pins k i)

/-- The event of a key at this tick (R53). -/
def State.keyEventAt (s : State) (pins : BitVec 16) (i : Key) : Option KeyEvent :=
  let k := s.cue.keys[i]
  if s.inst.keys[i] then none else keyEvent k (rawKey pins k i)

/-- A route after this tick (R55 to R60). -/
def State.routeAfter (s : State) (pins : BitVec 16) (r : Route) : RouteCtx :=
  let x := s.cue.routes[r]
  x.tick s.inst.replaced[r] s.inst.holds[r] (isSlowTick s.report.blockCount) (s.keyAfter pins x.entry.key).down
    (s.keyEventAt pins x.entry.key)

/-- Keys and routes at a tick. -/
def State.keyPhase (s : State) (pins : BitVec 16) : State :=
  { s with cue := { s.cue with keys := Vector.ofFn (s.keyAfter pins), routes := Vector.ofFn (s.routeAfter pins) } }

/-- A return's qOut has completed its ramp to 0 (R16, R67). -/
def State.fadeEnded (s : State) (k : Line) : Bool :=
  (s.cue.returns[k]).outgoing.isSome && (s.mix.returns[k]).cueOut.silent

/-- A return's cue state after this tick (R63 to R69). -/
def State.cueAfter (s : State) (k : Line) : CueReturn :=
  (s.cue.returns[k]).tick s.line.ctx[k] (arbitrate s.cue.routes k s.line.ctx[k]) s.cue.routes s.inst.replaced
    (s.fadeEnded k)

/-- Arbitration and the cue state of every return at a tick. -/
def State.cuePhase (s : State) : State :=
  { s with cue := { s.cue with returns := Vector.ofFn s.cueAfter } }

/-- Every target of MIX at a tick (R14). A pending group taken ahead of the tick is taken anew by it (R19, R20). -/
def State.mixPhase (s : State) : State :=
  { s with
    mix := (s.mix.rewind s.inst.members s.inst.terms).tick s.scrn.table s.line.ctx s.cue.returns s.cue.routes }

/-! ### The reference monitor (R98) -/

/-- The monitor becomes LOCKED. -/
def RefMonitor.lock (r : RefMonitor) : RefMonitor :=
  { r with locked := true, count := Config.lockBlocks, clock := .following }

/-- The reference is missing or out of range: the count begins again, and a LOCKED monitor holds its clock. -/
def RefMonitor.lose (r : RefMonitor) : RefMonitor :=
  { r with locked := false, count := 0, clock := if r.locked then .held else r.clock }

/-- The monitor at the end of a block in which the clock followed the reference or not (R98). -/
def RefMonitor.tick (r : RefMonitor) (follows : Bool) : RefMonitor :=
  if follows && !r.failed then
    if r.locked then r
    else if Config.lockBlocks ≤ r.count + 1 then { r.lock with failed := false }
    else { r with count := r.count + 1 }
  else { r.lose with failed := false }

/-- The monitor in the part with a new state: a change of the lock state sets REF (R98, R144). -/
def State.setRef (s : State) (r : RefMonitor) : State :=
  if r.locked = s.ref.locked then { s with ref := r } else { s with ref := r }.raise noticeRef

/-! ### The whole tick -/

/-- The take at a tick (R111). -/
def State.takePhase (s : State) : State :=
  if s.inst.take then s else s.takeTick

/-- A round may still begin at a tick after REPORT's look for one: none was in progress, the engine is not STOPPED, and the
look found no work (R136, R137, R142). -/
def State.staysOpen (s : State) : Bool :=
  s.report.round.isNone && s.link.engine ≠ .stopped && !s.work.present

/-- The tick is over: nothing of the next one has been taken, a round may still begin at it where `roundOpen` says so, and
a block begins on every input lane. -/
def State.endTick (s : State) (roundOpen : Bool) : State :=
  { s with
    inst := { Instant.none with roundOpen := roundOpen }
    lrx := { s.lrx with lanes := Vector.ofFn fun i => (s.lrx.lanes[i]).endTick } }

/-- The parts of a tick before REPORT's: LINK, INTAKE, the counters, lines, keys, cue and MIX. -/
def State.audioTick (s : State) (pins : BitVec 16) : State :=
  let s1 := { s with link := s.link.engineTick }
  let s2 := s1.takePhase.countBlock.linePart.periodPhase
  (s2.keyPhase pins).cuePhase.mixPhase

/-- A tick but for REPORT's round: the reference monitor and the outstanding read with the parts before. -/
def State.tickEvents (s : State) (pins : BitVec 16) (follows : Bool) : State :=
  let s1 := s.audioTick pins
  (s1.setRef (s1.ref.tick follows)).readTick

/-- The flags that the events of a tick set, whatever was set before it (R50, R103). -/
def State.tickFlags (s : State) (pins : BitVec 16) : ReportFlags :=
  (s.unflagged.audioTick pins).flags

/-- The part that the snapshots of a tick show, with `s` the part before the tick and `t` after it: `snapFirst` says whether
they are taken before the events of lines and lanes or after them (R51, R136). -/
def State.seenAt (t s : State) (pins : BitVec 16) (snapFirst : Bool) : State :=
  if snapFirst then t.seenBefore s (s.tickFlags pins) else t

/-- The round at a tick, with `s` the part before it: events taken after the snapshots set their flags again (R51, R136). -/
def State.roundPhase (t s : State) (pins : BitVec 16) (snapFirst : Bool) : State :=
  t.lookRound (t.seenAt s pins snapFirst) (if snapFirst then s.tickFlags pins else ReportFlags.clear)

/-- A block tick (entry 2). A round may begin at the tick after BLOCK_TICK where none was in progress at it and none was
begun by it (R136, R137). -/
def State.blockTick (s : State) (pins : BitVec 16) (follows snapFirst : Bool) : State :=
  let t := s.tickEvents pins follows
  (t.roundPhase s pins snapFirst).endTick (t.seenAt s pins snapFirst).staysOpen

end Sys2Proof.Machine
end

