-- ==== Sys2Proof/Machine/Resets.lean ====
section
/-! DEFINITION. The three resets (R160 to R163). -/

namespace Sys2Proof.Machine

/-- The part at its power-on values (R160). What is outside the part stays: the commands waiting, the host's memory,
and the interrupt messages that have left on the link (entries 13 and 14). -/
def State.powerOn (s : State) : State :=
  { State.reset with
    link := { Link.reset with messages := s.link.messages, lastMessage := s.link.lastMessage }
    hostMem := s.hostMem
    pending := s.pending }

/-- LINK after a soft reset: configuration space is kept, and a read outstanding is discarded on arrival (R161, R163). -/
def Link.softReset (k : Link) : Link :=
  { Link.linkReset k with
    placement := k.placement, busMaster := k.busMaster, msgEnabled := k.msgEnabled, msgAddress := k.msgAddress,
    msgData := k.msgData }

/-- The part after a soft reset (R161). -/
def State.softReset (s : State) : State :=
  { s.powerOn with link := s.link.softReset }

/-- The part after a link reset: LINK, the intake and the round alone (R127, R143, R162). -/
def State.linkReset (s : State) : State :=
  let lanes := lanesOf s.report.uncompleted
  { s with
    line := s.line.flag (linesOf s.report.uncompleted) fun _ => true
    lrx := s.lrx.flag lanes fun _ => true
    ltx := s.ltx.flag lanes fun _ => true
    intake := s.intake.linkReset
    report := s.report.linkReset
    link := s.link.linkReset }

/-- POWER_ON_RESET (R160). -/
def execPowerOnReset (s : State) : Host.Outcome State Fault Refusal :=
  .next s.powerOn

/-- SOFT_RESET (R152, R161): a write to MCTL, which reaches the part only while the register window is placed (R149). -/
def execSoftReset (s : State) : Host.Outcome State Fault Refusal :=
  .next (if s.link.placed then s.softReset else s)

/-- LINK_RESET (R162). -/
def execLinkReset (s : State) : Host.Outcome State Fault Refusal :=
  .next s.linkReset

end Sys2Proof.Machine
end

