-- ==== Sys2Proof/Machine/Registers.lean ====
section
/-! DEFINITION. Register writes, configuration accesses and the start of the memory engine (chapter 8). -/

namespace Sys2Proof.Machine

/-! ### MCTL (R152, R158) -/

/-- Memory enable written (R158). -/
def State.writeEnable (s : State) (on : Bool) : State :=
  if on then { s with link := { s.link with memEnable := true } } else s.clearEnable

/-- Lane hold written (R96, R152). -/
def State.writeHold (s : State) (on : Bool) : State :=
  { s with ltx := { s.ltx with hold := on } }

/-- MEMORY_ENABLE (R158), written through the placed register window (R149). -/
def execMemoryEnable (on : Bool) (s : State) : Host.Outcome State Fault Refusal :=
  .next (if s.link.placed then s.writeEnable on else s)

/-- LANE_HOLD (R96), written through the placed register window (R149). -/
def execLaneHold (on : Bool) (s : State) : Host.Outcome State Fault Refusal :=
  .next (if s.link.placed then s.writeHold on else s)

/-! ### MPOST, MNOTE, MMASK (R109, R144, R146) -/

/-- Ones written to MPOST set their bits (R109). -/
def Link.writePost (k : Link) (bits : Word32) : Link :=
  { k with post := k.post ||| bits }

/-- Ones written to MNOTE clear their notices (R144, R146). -/
def Link.writeNotice (k : Link) (bits : Word32) (atEvent : Bool) : Link :=
  ({ k with notice := k.notice &&& ~~~bits } : Link).answerWrite atEvent

/-- The mask replaced (R146). -/
def Link.writeMask (k : Link) (mask : Word32) (atEvent : Bool) : Link :=
  ({ k with mask := mask } : Link).answerWrite atEvent

/-- POST (R109), written through the placed register window (R149). -/
def execPost (bits : Word32) (s : State) : Host.Outcome State Fault Refusal :=
  .next (if s.link.placed then { s with link := s.link.writePost bits } else s)

/-- NOTICE_CLEAR (R144), written through the placed register window (R149). -/
def execNoticeClear (write : NoticeWrite) (s : State) : Host.Outcome State Fault Refusal :=
  .next (if s.link.placed then { s with link := s.link.writeNotice write.word write.atEvent } else s)

/-- NOTICE_MASK_WRITE (R146), written through the placed register window (R149). -/
def execNoticeMaskWrite (write : NoticeWrite) (s : State) : Host.Outcome State Fault Refusal :=
  .next (if s.link.placed then { s with link := s.link.writeMask write.word write.atEvent } else s)

/-! ### Window registers (R150, R153, R154) -/

/-- A window register written: accepted while STOPPED, refused with REG_REFUSED otherwise (R154). -/
def Link.writeWindow (k : Link) (reg : WindowReg) (data : WindowData) : Link :=
  if k.engine = .stopped then k.setWindow reg (windowValue (k.window reg) data) else k.raise noticeRefused

/-- WINDOW_REGISTER_WRITE (R154), written through the placed register window (R149). -/
def execWindowRegisterWrite (reg : WindowReg) (data : WindowData) (s : State) : Host.Outcome State Fault Refusal :=
  .next (if s.link.placed then { s with link := s.link.writeWindow reg data } else s)

/-! ### A write at an offset (R150) -/

/-- MCTL written (R152): a soft reset, or the two other fields. -/
def State.writeControl (s : State) (value : Word32) : State :=
  if value.getLsbD 2 then s.softReset else (s.writeEnable (value.getLsbD 0)).writeHold (value.getLsbD 1)

/-- One aligned 32-bit write at an offset of the register window (R150, R171): ignored where the offset's register is
read-only or no register lies there. -/
def State.writeWord (s : State) (offset : Nat) (value : Word32) : State :=
  if offset = 0x004 then s.writeControl value
  else if offset = 0x00C then { s with link := s.link.writePost value }
  else if offset = 0x010 then { s with link := s.link.writeNotice value false }
  else if offset = 0x014 then { s with link := s.link.writeMask value false }
  else
    match windowRegAt offset, windowRegAt (offset - 4) with
    | some r, _ => { s with link := s.link.writeWindow r (.low value) }
    | none, some r => { s with link := s.link.writeWindow r (.high value) }
    | none, none => s

/-- A write at an offset of the register window, of any width and alignment (R150; entry 25): one aligned 64-bit access to
a window register, or each word covered whole, in ascending order; the rest is ignored. -/
def State.registerWrite (s : State) (offset : BitVec 12) (width : AccessWidth) (value : Word64) : State :=
  match width, windowRegAt offset.toNat with
  | .eight, some r => { s with link := s.link.writeWindow r (.whole value) }
  | _, _ => (wholeWords offset.toNat width).foldl (fun t w => t.writeWord w (wordOf offset.toNat value w)) s

/-- IGNORED_REGISTER_WRITE (R150): the write it names. One that R150 ignores changes nothing; operands that name any other
write have that write's effect (entry 25). -/
def execIgnoredRegisterWrite (offset : BitVec 12) (width : AccessWidth) (value : Word64) (s : State) :
    Host.Outcome State Fault Refusal :=
  .next (if s.link.placed then s.registerWrite offset width value else s)

/-! ### Configuration space (R149, R159) -/

/-- What an access sets in configuration space (R149). -/
def Link.configure (k : Link) (access : ConfigAccess) : Link :=
  match access with
  | .placeWindow base => { k with placement := base }
  | .permitBusMastering => { k with busMaster := true }
  | .setMessages enabled address data => { k with msgEnabled := enabled, msgAddress := address, msgData := data }
  | .other => k

/-- CONFIGURATION_ACCESS (R149). -/
def execConfigurationAccess (access : ConfigAccess) (s : State) : Host.Outcome State Fault Refusal :=
  .next { s with link := s.link.configure access }

/-- Bus mastering withdrawn: memory enable is cleared (R152, R159; entry 30), an ACTIVE engine drains, and the record
under way is missed (R159). -/
def State.withdraw (s : State) : State :=
  ({ s with link := { s.link with busMaster := false } } : State).clearEnable.missUnderway

/-- BUS_MASTERING_WITHDRAWN (R159). -/
def execBusMasteringWithdrawn (s : State) : Host.Outcome State Fault Refusal :=
  .next (if s.link.busMaster then s.withdraw else s)

/-- ENGINE_ACTIVE (R158): a STOPPED engine at a block tick. -/
def execEngineActive (s : State) : Host.Outcome State Fault Refusal :=
  .next (if s.link.startsAtTick then { s with link := s.link.engineTick }.markOther else s)

end Sys2Proof.Machine
end

