-- ==== Sys2Proof/Machine/Audio.lean ====
section
/-! DEFINITION. Samples, lane frames, elastic buffers, lock and the reference (chapters 1 and 5). -/

namespace Sys2Proof.Machine

/-! ### A sample (R2 to R13, R90 to R97) -/

/-- The reads of the elastic buffers that a sample makes (R93). -/
def State.readLanes (s : State) : State :=
  { s with lrx := { s.lrx with lanes := Vector.ofFn fun i => (s.lrx.lanes[i]).readOnce } }

/-- The input samples of the part as its lanes stand (R91). -/
def State.inputs (s : State) : Inputs := presented s.lrx.lanes

/-- The outputs of a sample with the multipliers of the state (R5 to R12). -/
def State.outputs (s : State) : Outputs :=
  mixOutputs s.mix s.inputs s.scrn.table s.line.ctx s.cue.returns

/-- The frame LTX forms for an output lane (R94 to R96). -/
def State.frame (s : State) (o : Outputs) (l : OutLane) : SlotWords :=
  formFrame s.ltx.hold (s.ltx.lanes[l]).setup.width o s.line.ctx s.cue.returns l

/-- What MIX measures and LTX sends of a sample's outputs (R11 to R13, R94, R97). -/
def State.emit (s : State) (o : Outputs) : State :=
  { s with
    mix := s.mix.measure s.inputs o
    ltx := { s.ltx with lanes := Vector.ofFn fun l => (s.ltx.lanes[l]).put (s.frame o l) }
    lrx := { s.lrx with lanes := Vector.ofFn fun i => (s.lrx.lanes[i]).endSample } }

/-- The part as it stands in a sample: the lanes read and every ramp advanced (R17, R93). -/
def State.inSample (s : State) : State :=
  { s.readLanes with mix := s.mix.advance }

/-- A sample ends the instant of the last block tick: no round begins at it any more, and a pending group taken since is
taken for good. -/
def Instant.sampled (t : Instant) : Instant :=
  { t with members := Vector.replicate 24 .none, terms := Vector.replicate 24 .none, roundOpen := false }

/-- One sample (R91). -/
def State.takeSample (s : State) : State :=
  { s.inSample.emit s.inSample.outputs with inst := s.inst.sampled }

/-- SAMPLE (R91). -/
def execSample (s : State) : Host.Outcome State Fault Refusal :=
  .next s.takeSample

/-! ### Lanes -/

/-- An output lane replaced. -/
def State.setOutLane (s : State) (l : OutLane) (c : OutLaneCtx) : State :=
  { s with ltx := { s.ltx with lanes := s.ltx.lanes.set l c } }

/-- An input lane replaced. -/
def State.setInLane (s : State) (l : InLane) (c : InLaneCtx) : State :=
  { s with lrx := { s.lrx with lanes := s.lrx.lanes.set l c } }

/-- A RUNNING output lane clocked by its partner. -/
def OutLaneCtx.buffered (c : OutLaneCtx) : Bool :=
  c.running && c.setup.clocking = .slave

/-- A LOCKED input lane clocked by the part. -/
def InLaneCtx.inStep (c : InLaneCtx) : Bool :=
  c.state = .locked && c.setup.clocking = .master

/-- PARTNER_READ (R97): the partner of a RUNNING SLAVE output lane reads a frame. -/
def execPartnerRead (lane : OutLane) (s : State) : Host.Outcome State Fault Refusal :=
  let c := s.ltx.lanes[lane]
  .next (if c.buffered then s.setOutLane lane c.partnerRead else s)

/-- LANE_FRAME (R90): the frame received in step with the sample on a LOCKED MASTER input lane. -/
def execLaneFrame (lane : InLane) (slots : SlotWords) (s : State) : Host.Outcome State Fault Refusal :=
  let c := s.lrx.lanes[lane]
  .next (if c.inStep then s.setInLane lane (c.takeFrame slots) else s)

/-- ELASTIC_ARRIVAL (R92): a frame received on a LOCKED SLAVE input lane. -/
def execElasticArrival (lane : InLane) (slots : SlotWords) (s : State) : Host.Outcome State Fault Refusal :=
  let c := s.lrx.lanes[lane]
  .next (if c.buffered then s.setInLane lane (c.arrive slots) else s)

/-- ELASTIC_READ (R93): the one read of a sample on a LOCKED SLAVE input lane. -/
def execElasticRead (lane : InLane) (s : State) : Host.Outcome State Fault Refusal :=
  .next (s.setInLane lane (s.lrx.lanes[lane]).readOnce)

/-- The word at a position is the fourth correct sync of a SEEKING lane (R88). -/
def InLaneCtx.locksAt (c : InLaneCtx) (position : Nat) (word : Word32) : Bool :=
  c.state = .seeking && c.run = 3 && c.expected = position && word = Config.syncWord

/-- A word of an input lane's stream taken: where it locks the lane the settle records of the lane's lines are cleared, so
that every code settles afresh (R88, R100; entry 8). -/
def State.seekLane (s : State) (lane : InLane) (position : Nat) (word : Word32) : State :=
  let c := s.lrx.lanes[lane]
  { s.setInLane lane (c.seek position word) with
    cmap := if c.locksAt position word then s.cmap.clearLane lane else s.cmap }

/-- LANE_LOCK (R88). -/
def execLaneLock (lane : InLane) (position : Nat) (word : Word32) (s : State) : Host.Outcome State Fault Refusal :=
  .next (if (s.lrx.lanes[lane]).locksAt position word then s.seekLane lane position word else s)

/-- SEEKING_SYNC (R88): a word of a SEEKING lane's stream. -/
def execSeekingSync (lane : InLane) (position : Nat) (word : Word32) (s : State) :
    Host.Outcome State Fault Refusal :=
  .next (s.seekLane lane position word)

/-- A lane loses lock by this cause (R89). -/
def InLaneCtx.losesBy (c : InLaneCtx) (cause : LockLoss) : Bool :=
  match cause with
  | .wrongSync found => c.state = .locked && found ≠ Config.syncWord
  | .missingSync => c.syncMissing

/-- An input lane that enters SEEKING at a block tick is not counted at it (R102). -/
def Instant.seekingEntered (t : Instant) (lane : InLane) (cause : LockLoss) : Instant :=
  match cause with
  | .wrongSync _ => t
  | .missingSync => { t with lanes := t.lanes.set lane true }

/-- An input lane's lock lost, with the settle records of its lines (R89, R100). -/
def State.loseLock (s : State) (lane : InLane) (cause : LockLoss) : State :=
  { s.setInLane lane (s.lrx.lanes[lane]).loseLock with
    cmap := s.cmap.clearLane lane
    inst := s.inst.seekingEntered lane cause }

/-- LOSS_OF_LOCK (R89). -/
def execLossOfLock (lane : InLane) (cause : LockLoss) (s : State) : Host.Outcome State Fault Refusal :=
  .next (if (s.lrx.lanes[lane]).losesBy cause then s.loseLock lane cause else s)

/-! ### The reference monitor (R98) -/

/-- The block now ending completes the count (R98). -/
def RefMonitor.locksNow (r : RefMonitor) : Bool :=
  !r.locked && !r.failed && Config.lockBlocks ≤ r.count + 1

/-- REF_LOCK (R98): the 64th consecutive block. -/
def execRefLock (s : State) : Host.Outcome State Fault Refusal :=
  .next (if s.ref.locksNow then (s.setRef s.ref.lock).markOther else s)

/-- REF_UNLOCK (R98): a reference period is missing or the reference has left the tracking range. -/
def execRefUnlock (s : State) : Host.Outcome State Fault Refusal :=
  .next (s.setRef { s.ref.lose with failed := true })

end Sys2Proof.Machine
end

