-- ==== Sys2Proof/Machine/TickEvents.lean ====
section
/-! DEFINITION. The block tick, and the events of a tick that have rows of their own: each takes its part of the tick
ahead of BLOCK_TICK where it is due, and changes nothing where it is not (entries 2 and 3). -/

namespace Sys2Proof.Machine

/-- BLOCK_TICK (R14). -/
def execBlockTick (pins : BitVec 16) (meets : TickMeets) (s : State) : Host.Outcome State Fault Refusal :=
  .next (s.blockTick pins meets.follows meets.snapFirst)

/-! ### Keys and routes (R53, R55 to R58) -/

/-- A key whose next sample is the fourth of its run, in the tick now being taken. -/
def State.keyReady (s : State) (k : Key) : Bool :=
  lastRun ≤ (s.cue.keys[k]).run && !s.inst.keys[k] && !s.applyDue

/-- A press of the key is due: it is UP, and the sample that is DOWN completes its run (R53). -/
def State.pressDue (s : State) (k : Key) : Bool :=
  !(s.cue.keys[k]).down && s.keyReady k

/-- A release of the key is due: it is DOWN, its soft key is clear, and the sample that is UP completes its run
(R52, R53). -/
def State.releaseDue (s : State) (k : Key) : Bool :=
  (s.cue.keys[k]).down && !(s.cue.keys[k]).soft && s.keyReady k

/-- A route after an event of a key: a route on that key takes it, unless it was replaced at this tick (R55, R60). -/
def State.routeEvent (s : State) (k : Key) (e : KeyEvent) (r : Route) : RouteCtx :=
  let x := s.cue.routes[r]
  if x.entry.key = k && !s.inst.replaced[r] then x.event e else x

/-- A route enters HOLDING by an event of a key, so that its count is loaded at this tick (R58). -/
def State.entersHolding (s : State) (k : Key) (e : KeyEvent) (r : Route) : Bool :=
  (s.routeEvent k e r).activity = .holding && (s.cue.routes[r]).activity ≠ .holding

/-- A press or a release of a key taken (R53, R55). -/
def State.takeKey (s : State) (k : Key) (e : KeyEvent) : State :=
  { s with
    cue :=
      { s.cue with
        keys := s.cue.keys.set k { s.cue.keys[k] with down := e = .press, run := 0 }
        routes := Vector.ofFn (s.routeEvent k e) }
    inst :=
      { s.inst with
        keys := s.inst.keys.set k true
        holds := Vector.ofFn fun r => s.inst.holds[r] || s.entersHolding k e r } }

/-- KEY_PRESS (R53). -/
def execKeyPress (key : Key) (s : State) : Host.Outcome State Fault Refusal :=
  .next (if s.pressDue key then s.takeKey key .press else s)

/-- KEY_RELEASE (R53). -/
def execKeyRelease (key : Key) (s : State) : Host.Outcome State Fault Refusal :=
  .next (if s.releaseDue key then s.takeKey key .release else s)

/-- The tick now being taken is a slow tick (R177). -/
def State.comingSlow (s : State) : Bool :=
  isSlowTick (s.report.blockCount + 1)

/-- A route's hold count reaches 0 at this tick (R58). -/
def State.expiryDue (s : State) (r : Route) : Bool :=
  let x := s.cue.routes[r]
  x.entry.valid && x.activity = .holding && x.holdCount = 1 && s.comingSlow && !s.inst.holds[r] &&
    !s.inst.replaced[r] && !s.applyDue

/-- A route's slow tick taken (R58). -/
def State.expireRoute (s : State) (r : Route) : State :=
  { s with
    cue := { s.cue with routes := s.cue.routes.set r (s.cue.routes[r]).slowTick }
    inst := { s.inst with holds := s.inst.holds.set r true } }

/-- HOLD_COUNT_EXPIRY (R58). -/
def execHoldCountExpiry (route : Route) (s : State) : Host.Outcome State Fault Refusal :=
  .next (if s.expiryDue route then s.expireRoute route else s)

/-! ### Cue fades and ramps (R17, R20, R67) -/

/-- A return's cue state replaced. -/
def State.setCue (s : State) (l : Line) (q : CueReturn) : State :=
  { s with cue := { s.cue with returns := s.cue.returns.set l q } }

/-- OUTGOING_FADE_END (R67). -/
def execOutgoingFadeEnd (line : Line) (s : State) : Host.Outcome State Fault Refusal :=
  .next (if s.fadeEnded line then (s.setCue line ((s.cue.returns[line]).fadeEnd true)).markOther else s)

/-- A ramp of MIX by its name (R24 to R26). -/
def Mix.ramp (m : Mix) : RampId → Ramp
  | .sourceAir i => (m.sources[i]).air
  | .lineAir l => (m.contribs[l]).air
  | .lineGroup l => (m.contribs[l]).group.ramp
  | .airTerm l => (m.returns[l]).air
  | .groupTerm l => (m.returns[l]).group.ramp
  | .holdTerm l => (m.returns[l]).hold
  | .screenerTerm l => (m.returns[l]).screener
  | .cueIn l => (m.returns[l]).cueIn
  | .cueOut l => (m.returns[l]).cueOut

/-- A ramp of MIX replaced. -/
def Mix.setRamp (m : Mix) (r : Ramp) : RampId → Mix
  | .sourceAir i => { m with sources := m.sources.set i { m.sources[i] with air := r } }
  | .lineAir l => { m with contribs := m.contribs.set l { m.contribs[l] with air := r } }
  | .lineGroup l =>
    { m with contribs := m.contribs.set l { m.contribs[l] with group := { (m.contribs[l]).group with ramp := r } } }
  | .airTerm l => { m with returns := m.returns.set l { m.returns[l] with air := r } }
  | .groupTerm l =>
    { m with returns := m.returns.set l { m.returns[l] with group := { (m.returns[l]).group with ramp := r } } }
  | .holdTerm l => { m with returns := m.returns.set l { m.returns[l] with hold := r } }
  | .screenerTerm l => { m with returns := m.returns.set l { m.returns[l] with screener := r } }
  | .cueIn l => { m with returns := m.returns.set l { m.returns[l] with cueIn := r } }
  | .cueOut l => { m with returns := m.returns.set l { m.returns[l] with cueOut := r } }

/-- A group-indexed ramp that stands silent with a group pending (R20). -/
def GroupRamp.switches (g : GroupRamp) : Bool :=
  g.ramp.silent && g.pending.isSome

/-- The membership of a line takes its pending group (R20). The tick's BLOCK_TICK takes the switch anew, from the index
left, with what stands after the tick (R19; entry 2). -/
def State.switchMember (s : State) (l : Line) : State :=
  let b := s.mix.contribs[l]
  let g := b.group.retarget (groupMemberWant s.line.ctx[l] b.voice) (rampSamples s.mix.mainBlocks)
  { s with
    mix := { s.mix with contribs := s.mix.contribs.set l { b with group := g } }
    inst := { s.inst with members := s.inst.members.set l (some b.group.index) } }

/-- The group term of a return takes its pending group (R20), as `switchMember` does a membership's. -/
def State.switchTerm (s : State) (l : Line) : State :=
  let r := s.mix.returns[l]
  let c := s.line.ctx[l]
  let want := groupTermWant r.duck c (composition s.scrn.table l c)
  let g := r.group.retarget want (rampSamples s.mix.mainBlocks)
  { s with
    mix := { s.mix with returns := s.mix.returns.set l { r with group := g } }
    inst := { s.inst with terms := s.inst.terms.set l (some r.group.index) } }

/-- The pending group taken at the end of a ramp to 0, where the ramp carries one (R20). -/
def State.rampSwitch (s : State) (ramp : RampId) : State :=
  match ramp with
  | .lineGroup l => if (s.mix.contribs[l]).group.switches && !s.applyDue then s.switchMember l else s
  | .groupTerm l => if (s.mix.returns[l]).group.switches && !s.applyDue then s.switchTerm l else s
  | .sourceAir _ | .lineAir _ | .airTerm _ | .holdTerm _ | .screenerTerm _ | .cueIn _ | .cueOut _ => s

/-- RAMP_END (R17): a moving ramp whose next sample is its last takes its target, ahead of that sample; a
group-indexed ramp that has ended at 0 takes its pending group (R20). -/
def execRampEnd (ramp : RampId) (s : State) : Host.Outcome State Fault Refusal :=
  let r := s.mix.ramp ramp
  .next (if r.ending then { s with mix := s.mix.setRamp r.finish ramp } else s.rampSwitch ramp)

/-! ### Lines and lanes (R41, R48, R100, R102) -/

/-- A line's part of this tick may be taken ahead: it has not been, and no apply is due at the tick (R46). -/
def State.lineFree (s : State) (l : Line) : Bool :=
  !s.inst.lines[l] && !s.applyDue

/-- A code of the line settles at this tick (R100). -/
def State.settleDue (s : State) (l : Line) : Bool :=
  s.lineFree l && !(s.laneAfter (lineLane l)).disconnects s.lrx.laneLoss && (s.settleRecord l).settles s.cmap.settle

/-- CODE_SETTLE (R100). -/
def execCodeSettle (line : Line) (s : State) : Host.Outcome State Fault Refusal :=
  .next (if s.settleDue line then s.tickLineInOrder line else s)

/-- A SEEKING lane's count reaches the lane-loss time at this tick (R102). -/
def State.lostDue (s : State) (lane : InLane) : Bool :=
  !s.inst.lanes[lane] && !s.applyDue && (s.lrx.lanes[lane]).state = .seeking &&
    !(s.lrx.lanes[lane]).isLost s.lrx.laneLoss && (s.laneAfter lane).isLost s.lrx.laneLoss

/-- An input lane's part of this tick taken ahead (R102). -/
def State.tickLane (s : State) (lane : InLane) : State :=
  { s.setInLane lane (s.laneAfter lane) with
    inst := { s.inst with lanes := s.inst.lanes.set lane true, laneLost := true } }

/-- The lines an input lane carries, in ascending line number (R85). -/
def linesOfLane (lane : InLane) : List Line :=
  (List.finRange 24).filter fun l => lineLane l = lane

/-- LANE_LOST (R102): the lane is lost, and its lines are delivered DISCONNECTED. -/
def execLaneLost (lane : InLane) (s : State) : Host.Outcome State Fault Refusal :=
  .next (if s.lostDue lane then (linesOfLane lane).foldl State.tickLineOnce (s.tickLane lane) else s)

/-- A LOST line's loss count reaches 0 at this tick (R41). -/
def State.lossDue (s : State) (l : Line) : Bool :=
  s.lineFree l && lossExpires (s.lineEnv 0) s.line.ctx[l] (s.lineInput none l)

/-- LOSS_COUNT_EXPIRY (R41, R68). -/
def execLossCountExpiry (line : Line) (s : State) : Host.Outcome State Fault Refusal :=
  .next (if s.lossDue line then s.tickLineInOrder line else s)

/-- A shadow count reaches 0 at this tick (R48). -/
def State.shadowDue (s : State) (l : Line) : Bool :=
  let c := s.line.ctx[l]
  let i := s.lineInput none l
  s.lineFree l && c.shadowCount ≠ 0 && !inAirAfter c i && shadowAfter (s.lineEnv 0) c i = 0

/-- SHADOW_COUNT_END (R48). -/
def execShadowCountEnd (line : Line) (s : State) : Host.Outcome State Fault Refusal :=
  .next (if s.shadowDue line then s.tickLineInOrder line else s)

/-! ### The report period (R138) -/

/-- The meter period counter reaches the report period at this tick (R138). -/
def State.periodDue (s : State) : Bool :=
  !s.inst.period && !s.applyDue && s.report.period ≤ s.report.meterCounter + 1

/-- PERIODIC_DUE (R138). -/
def execPeriodicDue (s : State) : Host.Outcome State Fault Refusal :=
  .next
    (if s.periodDue then { s with report := s.report.periodTick, inst := { s.inst with period := true } } else s)

end Sys2Proof.Machine
end

