-- ==== Sys2Proof/Machine/PlanEvents.lean ====
section
/-! DEFINITION. The steps of an intake: the take, the fetch of a section, the ends of its reads, and the apply
(chapter 6). -/

namespace Sys2Proof.Machine

/-- INTAKE_TAKE (R111). -/
def execIntakeTake (s : State) : Host.Outcome State Fault Refusal :=
  .next
    (if s.mayTake && !s.inst.take then { s.takePost with inst := { s.inst with take := true } } else s)

/-- SECTION_FETCH (R112): the fetch of the section at the fetch position begins. -/
def execSectionFetch (s : State) : Host.Outcome State Fault Refusal :=
  .next
    (match s.fetchable with
    | none => s
    | some sec => s.beginFetch sec)

/-- READ_COMPLETION (R114): the read outstanding ends by this completion; one for any other read is discarded. -/
def execReadCompletion (read : Nat) (result : ReadResult) (s : State) : Host.Outcome State Fault Refusal :=
  .next
    (match s.link.read with
    | none => { s with link := s.link.discard read }
    | some r => if r.id = read then s.completeRead r result else { s with link := s.link.discard read })

/-- The read outstanding has timed out at this tick: the fourth after its issue (R114). -/
def State.timeoutDue (s : State) : Bool :=
  s.link.read.any PlanRead.times

/-- READ_TIMEOUT (R114). -/
def execReadTimeout (s : State) : Host.Outcome State Fault Refusal :=
  .next (if s.timeoutDue then s.timeoutRead.markOther else s)

/-- APPLY (R121). -/
def execApply (s : State) : Host.Outcome State Fault Refusal :=
  .next (if s.applyDue then s.applyTick else s)

end Sys2Proof.Machine
end

