-- ==== Sys2Proof/Machine/ReportEvents.lean ====
section
/-! DEFINITION. The steps of a report round: its begin, and the writing of its records (chapter 7). -/

namespace Sys2Proof.Machine

/-- Nothing has been taken since a block tick at which no round began, so that one may still begin at it (R136; entry
2). -/
def Instant.justTicked (t : Instant) : Bool :=
  decide (t = { Instant.none with roundOpen := true })

/-- A round may begin at the block tick just taken (R136). -/
def State.roundDue (s : State) : Bool :=
  s.mayRound && s.inst.justTicked

/-- The round begun at the block tick just taken: REPORT begins at most one at a tick (R136). -/
def State.roundAfter (s : State) : State :=
  { s.roundTick with inst := Instant.none }

/-- ROUND_BEGIN (R136). -/
def execRoundBegin (s : State) : Host.Outcome State Fault Refusal :=
  .next (if s.roundDue then s.roundAfter else s)

/-- RECORD_WRITE_BEGIN (R131, R132): the next record of the round in progress. -/
def execRecordWriteBegin (sent : PartSent) (s : State) : Host.Outcome State Fault Refusal :=
  .next
    (match s.report.round with
    | none => s
    | some r => s.beginRecord r sent)

/-- RECORD_WRITE_COMPLETE (R132): the tail of the record under way is sent. -/
def execRecordWriteComplete (s : State) : Host.Outcome State Fault Refusal :=
  .next
    (match s.report.round with
    | none => s
    | some r => s.completeRecord r)

end Sys2Proof.Machine
end

