-- ==== Sys2Proof/Machine/Dispatch.lean ====
section
/-! DEFINITION. One meaning for each command: the arms of exec. -/

namespace Sys2Proof.Machine

def exec (i : Instr) (s : State) : Host.Outcome State Fault Refusal :=
  match i with
  | .powerOnReset => Sys2Proof.Machine.execPowerOnReset s
  | .softReset => Sys2Proof.Machine.execSoftReset s
  | .linkReset => Sys2Proof.Machine.execLinkReset s
  | .memoryEnable on => Sys2Proof.Machine.execMemoryEnable on s
  | .laneHold on => Sys2Proof.Machine.execLaneHold on s
  | .post bits => Sys2Proof.Machine.execPost bits s
  | .noticeClear write => Sys2Proof.Machine.execNoticeClear write s
  | .noticeMaskWrite write => Sys2Proof.Machine.execNoticeMaskWrite write s
  | .windowRegisterWrite reg data => Sys2Proof.Machine.execWindowRegisterWrite reg data s
  | .ignoredRegisterWrite offset width value => Sys2Proof.Machine.execIgnoredRegisterWrite offset width value s
  | .configurationAccess access => Sys2Proof.Machine.execConfigurationAccess access s
  | .busMasteringWithdrawn => Sys2Proof.Machine.execBusMasteringWithdrawn s
  | .sample => Sys2Proof.Machine.execSample s
  | .partnerRead lane => Sys2Proof.Machine.execPartnerRead lane s
  | .laneFrame lane slots => Sys2Proof.Machine.execLaneFrame lane slots s
  | .elasticArrival lane slots => Sys2Proof.Machine.execElasticArrival lane slots s
  | .elasticRead lane => Sys2Proof.Machine.execElasticRead lane s
  | .laneLock lane position word => Sys2Proof.Machine.execLaneLock lane position word s
  | .lossOfLock lane cause => Sys2Proof.Machine.execLossOfLock lane cause s
  | .laneLost lane => Sys2Proof.Machine.execLaneLost lane s
  | .refLock => Sys2Proof.Machine.execRefLock s
  | .refUnlock => Sys2Proof.Machine.execRefUnlock s
  | .blockTick pins meets => Sys2Proof.Machine.execBlockTick pins meets s
  | .keyPress key => Sys2Proof.Machine.execKeyPress key s
  | .keyRelease key => Sys2Proof.Machine.execKeyRelease key s
  | .holdCountExpiry route => Sys2Proof.Machine.execHoldCountExpiry route s
  | .outgoingFadeEnd line => Sys2Proof.Machine.execOutgoingFadeEnd line s
  | .rampEnd ramp => Sys2Proof.Machine.execRampEnd ramp s
  | .codeSettle line => Sys2Proof.Machine.execCodeSettle line s
  | .lossCountExpiry line => Sys2Proof.Machine.execLossCountExpiry line s
  | .shadowCountEnd line => Sys2Proof.Machine.execShadowCountEnd line s
  | .periodicDue => Sys2Proof.Machine.execPeriodicDue s
  | .engineActive => Sys2Proof.Machine.execEngineActive s
  | .intakeTake => Sys2Proof.Machine.execIntakeTake s
  | .sectionFetch => Sys2Proof.Machine.execSectionFetch s
  | .readCompletion read result => Sys2Proof.Machine.execReadCompletion read result s
  | .readTimeout => Sys2Proof.Machine.execReadTimeout s
  | .apply => Sys2Proof.Machine.execApply s
  | .roundBegin => Sys2Proof.Machine.execRoundBegin s
  | .recordWriteBegin sent => Sys2Proof.Machine.execRecordWriteBegin sent s
  | .recordWriteComplete => Sys2Proof.Machine.execRecordWriteComplete s
  | .seekingSync lane position word => Sys2Proof.Machine.execSeekingSync lane position word s

end Sys2Proof.Machine
end

