-- ==== Sys2Proof/Safety.lean ====
section
/-! DEFINITION. What a sound state of the part is, block by block: the ranges and the relations between fields that the
manual says hold at every moment. -/

namespace Sys2Proof.Machine

/-! ### LINE (R27, R30, R32, R34, R43, R47, R48) -/

/-- A plan record a line may hold: at most three partners, in ascending order, none the line's own number (R27, R32). -/
def LinePlan.sound (own : Line) (p : LinePlan) : Bool :=
  decide (p.partners.length ≤ 3) && !p.partners.contains own && decide (p.partners.Pairwise (· < ·))

/-- The state of a connected line is its connected state, and only such a line has the condition CONNECTED (R27, R29,
R34). -/
def LineCtx.stateSound (c : LineCtx) : Bool :=
  if c.state.connected then
    c.state = connectedState c.plan.role c.shadowCount c.autoScreener && c.condition = .connected
  else c.condition ≠ .connected

/-- The counts of a line: within 0..65535, a loss count above 0 exactly while LOST (R27, R43), and no shadow count in
AIR (R47, R48). -/
def LineCtx.countsSound (c : LineCtx) : Bool :=
  decide (c.lossCount ≤ 65535) && decide (c.shadowCount ≤ 65535) && (c.lossCount ≠ 0) == (c.state = .lost) &&
    (c.state ≠ .air || c.shadowCount = 0)

/-- An auto screener belongs to an AUTO line that is not VACANT (R41, R45), and a LOST line was lost from a connected
state (R40). -/
def LineCtx.memorySound (c : LineCtx) : Bool :=
  (c.autoScreener.isNone || (c.plan.role = .auto && c.state ≠ .vacant)) &&
    (c.state ≠ .lost || c.lostFrom.any LineState.connected)

/-- A line context the manual allows. -/
def LineCtx.sound (l : Line) (c : LineCtx) : Bool :=
  c.plan.sound l && c.stateSound && c.countsSound && c.memorySound

/-! ### Settings (R19, R27, R100, R102, R117, R138) -/

/-- A timing record within its ranges (R117). -/
def Timing.sound (t : Timing) : Bool :=
  decide (1 ≤ t.mainBlocks ∧ t.mainBlocks ≤ 16) && decide (1 ≤ t.cueBlocks ∧ t.cueBlocks ≤ 16) &&
    decide (1 ≤ t.lossHoldoff ∧ t.lossHoldoff ≤ 65535) && decide (t.shadowMargin ≤ 65535) &&
    decide (1 ≤ t.settle ∧ t.settle ≤ 16) && decide (1 ≤ t.laneLoss ∧ t.laneLoss ≤ 65535) &&
    decide (1 ≤ t.reportPeriod ∧ t.reportPeriod ≤ 1000)

/-- The timing values the owners hold, as one record. -/
def State.timing (s : State) : Timing :=
  { mainBlocks := s.mix.mainBlocks, cueBlocks := s.mix.cueBlocks, lossHoldoff := s.line.lossHoldoff,
    shadowMargin := s.line.shadowMargin, settle := s.cmap.settle, laneLoss := s.lrx.laneLoss,
    reportPeriod := s.report.period }

/-- What staging holds is within the ranges of its records (R117 to R119). -/
def Staging.sound (g : Staging) : Prop :=
  (∀ l : Line, (g.lines[l]).all (LinePlan.sound l) = true) ∧ g.timing.all Timing.sound = true ∧
    (g.studio.all fun t => decide (t.dumpDepth ≤ 65535)) = true

/-- The settings of the part are within their ranges, those in staging too. -/
def State.settingsSound (s : State) : Prop :=
  s.timing.sound = true ∧ s.line.dumpDepth ≤ 65535 ∧ s.report.meterCounter ≤ 999 ∧ s.intake.staging.sound

/-- Every line is sound, and the settings are. -/
def State.linesSound (s : State) : Prop :=
  (∀ l : Line, LineCtx.sound l s.line.ctx[l] = true) ∧ s.settingsSound

/-! ### SCRN (R80) -/

/-- Each role count is the number of lines whose applied role is CONFER of its group, and is at most eight (R80). -/
def State.rolesSound (s : State) : Prop :=
  ∀ g : Group, s.scrn.roleCounts[g] = roleCount (Vector.ofFn fun l => (s.line.ctx[l]).plan.role) g ∧
    s.scrn.roleCounts[g] ≤ 8

/-! ### MIX (R17, R19) -/

/-- A ramp the manual allows: n at most L, at its target when at rest, and always between its start and its target. -/
def Ramp.sound (r : Ramp) : Bool :=
  decide (r.pos ≤ r.len) && (!r.atRest || r.cur = r.target) &&
    decide (min r.start r.target ≤ r.cur ∧ r.cur ≤ max r.start r.target)

/-- Every ramp of MIX is sound, and the settings are. -/
def State.rampsSound (s : State) : Prop :=
  (∀ i : RampId, (s.mix.ramp i).sound = true) ∧ s.settingsSound

/-- The return of a VACANT line has no cue and its cue multipliers stand at 0 (R10, R63, R68). -/
def State.vacantReturn (s : State) (l : Line) : Bool :=
  (s.line.ctx[l]).state ≠ .vacant ||
    (s.cue.returns[l] = CueReturn.clear && (s.mix.returns[l]).cueIn.silent && (s.mix.returns[l]).cueOut.silent)

/-- No VACANT line's return carries cue. -/
def State.vacantSound (s : State) : Prop :=
  ∀ l : Line, s.vacantReturn l = true

/-! ### CUE (R53, R55 to R58) -/

/-- A route the manual allows: IDLE while invalid, a hold count above 0 exactly while HOLDING and at most 255, never
LATCHED in MOMENTARY mode and never ACTIVE in LATCH mode. -/
def RouteCtx.sound (r : RouteCtx) : Bool :=
  (r.entry.valid || r.activity = .idle) && (r.holdCount ≠ 0) == (r.activity = .holding) &&
    decide (r.holdCount ≤ 255) && (r.entry.mode ≠ .momentary || r.activity ≠ .latched) &&
    (r.entry.mode ≠ .latch || r.activity ≠ .active)

/-- Every key's run count is at most 3, and every route is sound. -/
def State.cueSound (s : State) : Prop :=
  (∀ k : Key, (s.cue.keys[k]).run ≤ 3) ∧ ∀ r : Route, (s.cue.routes[r]).sound = true

/-! ### LRX and LTX (R87, R88, R90, R92, R97) -/

/-- An input lane the manual allows: OFF exactly while not enabled, a sync run of 4 exactly while LOCKED, at most four
frames in its buffer and none unless it is a LOCKED SLAVE lane, and counts that have stopped at 65535. -/
def InLaneCtx.sound (c : InLaneCtx) : Bool :=
  (c.state = .off) == !c.setup.enabled && (c.run = 4) == (c.state = .locked) && decide (c.run ≤ 4) &&
    decide (c.buffer.length ≤ 4) && (c.buffered || c.buffer.isEmpty) &&
    decide (c.overruns ≤ 65535 ∧ c.underruns ≤ 65535 ∧ c.syncLosses ≤ 65535 ∧ c.parityRepeats ≤ 65535 ∧
      c.seeking ≤ 65535)

/-- An output lane the manual allows: RUNNING exactly while enabled, at most four frames in its buffer and none unless
it is a RUNNING SLAVE lane, and counts that have stopped at 65535. -/
def OutLaneCtx.sound (c : OutLaneCtx) : Bool :=
  c.running == c.setup.enabled && decide (c.buffer.length ≤ 4) && (c.buffered || c.buffer.isEmpty) &&
    decide (c.overruns ≤ 65535 ∧ c.underruns ≤ 65535)

/-- Every lane is sound. -/
def State.lanesSound (s : State) : Prop :=
  (∀ i : InLane, (s.lrx.lanes[i]).sound = true) ∧ ∀ l : OutLane, (s.ltx.lanes[l]).sound = true

/-! ### INTAKE (R112, R120) -/

/-- From INTAKE as it stands, the fetch of a section has ended with this verdict entry: the entry joins the list, what was
read of the section is dropped, and the fetch position is the next taken section; or the phase is READY, at once where no
section is left, and by way of section 31's own entry where that is the next (R112, R120). -/
def Intake.endsFetch (i t : Intake) (sec : Section) (e : VerdictEntry) : Prop :=
  let next := fun n : Section =>
    sec < n ∧ i.taken.getLsbD n.val = true ∧ ∀ m : Section, sec < m → m < n → i.taken.getLsbD m.val = false
  t.head = none ∧ t.record = none ∧ t.taken = i.taken ∧ t.number = i.number ∧
  ((∀ n : Section, sec < n → i.taken.getLsbD n.val = false) →
    t.verdicts = i.verdicts ++ [e] ∧ t.phase = .ready ∧ t.position = none ∧ t.reportRequest = i.reportRequest) ∧
  ∀ n : Section, next n →
    (n.val < 31 → t.verdicts = i.verdicts ++ [e] ∧ t.phase = i.phase ∧ t.position = some n ∧
      t.reportRequest = i.reportRequest) ∧
    (n.val = 31 →
      t.verdicts = i.verdicts ++ [e] ++ [{ sec := 31, verdict := .accepted, edition := 0, field := none,
                                           number := i.number }] ∧
      t.phase = .ready ∧ t.position = none ∧ t.reportRequest = true)

/-! ### Plan records as they lie in host memory (R106, R107, R116 to R119, R164, R166 to R168) -/

/-- The byte at an offset of a section, from the bytes of its record, which begin at offset 2 (R107). -/
def sectionByte (body : List Byte) (offset : Nat) : Nat := (body.getD (offset - 2) 0).toNat

/-- The two-byte field at an offset of a section, least significant byte first (R164). -/
def sectionWord (body : List Byte) (offset : Nat) : Nat :=
  sectionByte body offset + 256 * sectionByte body (offset + 1)

/-- Bytes of a section's record, from offset 2 to its last field (R167, R168). -/
def sectionRecordBytes (sec : Section) : Nat :=
  if sec.val < 24 then 15
  else
    match sec.val with
    | 24 => 17
    | 25 => 288
    | 26 => 128
    | 27 => 26
    | 28 => 18
    | 29 => 14
    | 30 => 27
    | _ => 0

/-- Fields of a section's record (R116). -/
def sectionFields (sec : Section) : Nat :=
  if sec.val < 24 then 15
  else
    match sec.val with
    | 24 => 17
    | 25 => 288
    | 26 => 128
    | 27 => 26
    | 28 => 17
    | 29 => 7
    | 30 => 27
    | _ => 0

/-- Field f of a section's record holds a value of its kind (R116, R166 to R168): field f begins at offset 2 + f. -/
def sectionFieldKnown (sec : Section) (body : List Byte) (f : Nat) : Bool :=
  let v := sectionByte body (2 + f)
  let before := sectionByte body (1 + f)
  if sec.val < 24 then
    if f = 0 then v ≤ 5
    else if f = 1 then (before ≠ 2 || v ≤ 2) && (before ≠ 5 || v ≤ 3)
    else if f = 8 then v ≤ 8
    else if 9 ≤ f then v ≤ 23 || v = 255
    else true
  else
    match sec.val with
    | 24 => f ≠ 16 || v ≤ 15
    | 25 =>
      match f % 9 with
      | 0 => v ≤ 1
      | 1 => v ≤ 15
      | 2 => v ≤ 15
      | 3 => v ≤ 4
      | 4 => (before ≠ 0 || v ≤ 23) && (before ≠ 1 || v ≤ 3) && (before ≠ 3 || v ≤ 2)
      | 5 => v ≤ 7
      | 8 => v ≤ 1
      | _ => true
    | 26 => if f % 2 = 0 then v ≤ 3 else v ≤ 1
    | 27 =>
      if f < 9 then
        match f % 3 with
        | 0 => v ≤ 15 || v = 255
        | 1 => v ≤ 23 || v = 255
        | _ => true
      else f = 9 || v ≤ 2 || v = 255
    | 30 => v ≤ 1
    | _ => true

/-- `kept` says which of the six partner entries of a line's record are kept: those that name a line, not the record's own
and not one that an earlier entry kept, until three have been kept (R118). -/
def keepsPartners (own : Line) (body : List Byte) (kept : Fin 6 → Bool) : Prop :=
  let entry := fun i : Fin 6 => sectionByte body (11 + i.val)
  ∀ i : Fin 6, kept i = true ↔
    entry i ≠ 255 ∧ entry i ≠ own.val ∧ (∀ j, j < i → kept j = true → entry j ≠ entry i) ∧
      (Finset.univ.filter fun j : Fin 6 => j < i ∧ kept j = true).card < 3

/-- Field f of a section's record is changed before it is staged: a setting outside its range, or a partner entry dropped
that is not NONE (R117 to R119). -/
def sectionAltered (sec : Section) (body : List Byte) (f : Nat) : Prop :=
  let v := sectionWord body (2 + 2 * f)
  (∃ (own : Line) (kept : Fin 6 → Bool) (i : Fin 6), sec.val = own.val ∧ keepsPartners own body kept ∧ f = 9 + i.val ∧
    sectionByte body (11 + i.val) ≠ 255 ∧ kept i = false) ∨
  (sec.val = 27 ∧ f = 9 ∧ (sectionByte body 11 = 0 ∨ 4 < sectionByte body 11)) ∨
  (sec.val = 29 ∧
    ((f = 0 ∨ f = 1 ∨ f = 4) ∧ (v = 0 ∨ 16 < v) ∨ (f = 2 ∨ f = 5) ∧ v = 0 ∨ f = 6 ∧ (v = 0 ∨ 1000 < v)))

/-- A number that may be absent, in the byte at an offset: NONE is 255 (R164). -/
def sectionNames {n : Nat} (body : List Byte) (x : Option (Fin n)) (offset : Nat) : Prop :=
  match x with
  | none => sectionByte body offset = 255
  | some y => sectionByte body offset = y.val

/-- A lane setup in the three bytes from an offset (R168). -/
def sectionSetup (body : List Byte) (x : LaneSetup) (offset : Nat) : Prop :=
  (x.enabled = true ↔ sectionByte body offset = 1) ∧
    x.clocking = (if sectionByte body (offset + 1) = 1 then .slave else .master) ∧
    x.width = if sectionByte body (offset + 2) = 1 then .narrow else .wide

/-- A line plan record from its bytes (R118, R166, R167). -/
def sectionPlan (own : Line) (body : List Byte) (p : LinePlan) : Prop :=
  let u8 := sectionByte body
  (u8 2 = 0 → p.role = .off) ∧ (u8 2 = 1 → p.role = .auto) ∧
    (u8 2 = 2 → ∃ q : Position, p.role = .screen q ∧ q.val = u8 3) ∧ (u8 2 = 3 → p.role = .hold) ∧
    (u8 2 = 4 → p.role = .air) ∧ (u8 2 = 5 → ∃ g : Group, p.role = .confer g ∧ g.val = u8 3) ∧
    p.levels.voice.val = u8 4 ∧ p.levels.ret.val = u8 5 ∧ p.levels.conferAir.val = u8 6 ∧ p.levels.hold.val = u8 7 ∧
    p.levels.bed.val = u8 8 ∧ p.levels.duck.val = u8 9 ∧ p.threshold.val = u8 10 ∧ p.partners.Pairwise (· < ·) ∧
    ∃ kept, keepsPartners own body kept ∧ ∀ l : Line, l ∈ p.partners ↔ ∃ i, kept i = true ∧ u8 (11 + i.val) = l.val

/-- A route entry from the nine bytes from an offset (R166, R168). -/
def sectionRoute (body : List Byte) (offset : Nat) (r : RouteEntry) : Prop :=
  let u8 := fun i : Nat => sectionByte body (offset + i)
  (r.valid = true ↔ u8 0 = 1) ∧ r.talker.val = u8 1 ∧ r.key.val = u8 2 ∧
    (u8 3 = 0 → ∃ n : Line, r.target = .line n ∧ n.val = u8 4) ∧
    (u8 3 = 1 → ∃ g : Group, r.target = .group g ∧ g.val = u8 4) ∧ (u8 3 = 2 → r.target = .air) ∧
    (u8 3 = 3 → ∃ p : Position, r.target = .screening p ∧ p.val = u8 4) ∧ (u8 3 = 4 → r.target = .all) ∧
    r.priority.val = u8 5 ∧ r.cueCode.val = u8 6 ∧ r.hold.val = u8 7 ∧
    r.mode = if u8 8 = 1 then .latch else .momentary

/-- From staging `g` to `t`, the record of a section has joined, each field as its bytes give it and each setting clamped to
its range (R106, R117 to R119, R166 to R168). -/
def Staging.joined (g t : Staging) (sec : Section) (body : List Byte) : Prop :=
  let u8 := sectionByte body
  let clamped := fun low high offset : Nat => max low (min high (sectionWord body offset))
  (∀ own : Line, sec.val = own.val → ∃ p, t = { g with lines := g.lines.set own (some p) } ∧ sectionPlan own body p) ∧
  (sec.val = 24 → ∃ x, t = { g with sources := some x } ∧ (∀ i : Source, (x.airCodes[i]).val = u8 (2 + i.val)) ∧
    x.holdFeed.val = u8 18) ∧
  (sec.val = 25 → ∃ x, t = { g with routes := some x } ∧ ∀ r : Route, sectionRoute body (2 + 9 * r.val) x[r]) ∧
  (sec.val = 26 → ∃ x, t = { g with codes := some x } ∧ ∀ e : Fin 64,
    let c := u8 (2 + 2 * e.val)
    (c = 0 → (x[e]).condition = none) ∧ (c = 1 → (x[e]).condition = some .connected) ∧
      (c = 2 → (x[e]).condition = some .disconnected) ∧ (c = 3 → (x[e]).condition = some .alerting) ∧
      ((x[e]).notify = true ↔ u8 (3 + 2 * e.val) = 1)) ∧
  (sec.val = 27 → ∃ x, t = { g with screening := some x } ∧ x.spreadBits = max 1 (min 4 (u8 11)) ∧
    (∀ p : Position, sectionNames body (x.positions[p]).talker (2 + 3 * p.val) ∧
      sectionNames body (x.positions[p]).selected (3 + 3 * p.val) ∧ ((x.positions[p]).level).val = u8 (4 + 3 * p.val)) ∧
    ∀ e : Fin 16, sectionNames body x.spread[e] (12 + e.val)) ∧
  (sec.val = 28 → ∃ x, t = { g with studio := some x } ∧ x.dumpDepth = sectionWord body 18 ∧
    ∀ k : Key, x.softKeys[k] = true ↔ u8 (2 + k.val) ≠ 0) ∧
  (sec.val = 29 → t =
    { g with
      timing :=
        some
          { mainBlocks := clamped 1 16 2, cueBlocks := clamped 1 16 4, lossHoldoff := clamped 1 65535 6
            shadowMargin := sectionWord body 8, settle := clamped 1 16 10, laneLoss := clamped 1 65535 12
            reportPeriod := clamped 1 1000 14 } }) ∧
  (sec.val = 30 → ∃ x, t = { g with lanes := some x } ∧
    (∀ i : InLane, sectionSetup body x.inputs[i] (2 + 3 * i.val)) ∧
    ∀ o : OutLane, sectionSetup body x.outputs[o] (17 + 3 * o.val)) ∧
  (sec.val = 31 → t = g)

/-! ### LRX in a sample (R85, R90, R91, R93) -/

/-- The input samples of a sample: line k is carried in slot k mod 8 of input lane k div 8, source i in slot i mod 8 of lane
3 + i div 8, each lane as it stands after its one read; a lane not LOCKED presents 0 (R85, R91). -/
def State.carries (s : State) (x : Inputs) : Prop :=
  ∀ (i : InLane) (j : Slot) (u : State), exec (.elasticRead i) s = .next u →
    let v := if (u.lrx.lanes[i]).state = .locked then (u.lrx.lanes[i]).shown.audio[j] else 0
    (∀ k : Line, k.val = 8 * i.val + j.val → x.lines[k] = v) ∧
      ∀ y : Source, 24 + y.val = 8 * i.val + j.val → x.sources[y] = v

/-! ### CMAP at a tick (R99, R100, R102) -/

/-- The side-code sample of a line at a tick from `s` to `t`: the code its lane kept of the frame presented for the last
sample. What a lane that the tick leaves OFF or SEEKING may have kept leaves nothing: its lines' records are clear (R89, R99,
R100; entry 8). -/
def State.sampleAt (s t : State) (l : Line) : Option (BitVec 6) :=
  if (t.lrx.lanes[lineLane l]).state = .locked then (s.lrx.lanes[lineLane l]).sideSample[lineSlot l] else none

/-- A settle record with this sample applied (R99, R100). -/
def SettleRec.withSample (r : SettleRec) (sample : Option (BitVec 6)) : SettleRec :=
  match sample with
  | none => r
  | some code =>
    if r.last = some code then { r with count := min 16 (r.count + 1) }
    else { last := some code, count := 1, delivered := false }

/-- A settle record after a tick that gives it this sample, with the settle check (R100). -/
def SettleRec.settled (r : SettleRec) (sample : Option (BitVec 6)) (settle : Nat) : SettleRec :=
  let next := r.withSample sample
  { next with delivered := next.delivered || (next.last.isSome && settle ≤ next.count) }

/-- A line's settle record at a tick from `s` to `t` before its sample, where no apply is taken: clear on a lane that is not
LOCKED after the tick (R89, R100). -/
def State.heldAt (s t : State) (l : Line) : SettleRec :=
  if (t.lrx.lanes[lineLane l]).state = .locked then s.cmap.records[l]
  else { last := none, count := 0, delivered := false }

/-- What CMAP delivers for a line at a tick from `s` to `t`, with `held` its settle record before the sample: DISCONNECTED
without notify where the tick leaves its lane OFF or lost (R102), else the entry of a code that settles, or nothing where no
code settles or the entry's condition is NONE (R100, R101). -/
def State.deliveredAt (s t : State) (held : SettleRec) (l : Line) : Option Delivery :=
  let c := t.lrx.lanes[lineLane l]
  let r := held.withSample (s.sampleAt t l)
  if c.state = .off || (c.state = .seeking && t.lrx.laneLoss ≤ c.seeking) then
    some { condition := .disconnected, notify := false }
  else
    match r.last with
    | none => none
    | some code =>
      let entry := t.cmap.table[code.toFin]
      if r.count < t.cmap.settle || r.delivered then none
      else entry.condition.map fun d => { condition := d, notify := entry.notify }

/-! ### LINE at a tick (R43, R47, R49, R76) -/

/-- What a tick from `s` to `t` gives every line: the change of the dump depth (R49), the count a line leaving air is
started with (R47), the loss hold-off (R43) and the screening table (R76), each as it stands after the tick. -/
def State.envAt (s t : State) : LineEnv :=
  { delta := (t.line.dumpDepth : Int) - s.line.dumpDepth
    shadowStart := min 65535 (t.line.dumpDepth + t.line.shadowMargin)
    holdoff := t.line.lossHoldoff
    table := t.scrn.table }

/-! ### REPORT at the beginning of a round (R135 to R142) -/

/-- A round begun now carries meters: a full report is asked for, or, while the engine is ACTIVE, a periodic write is due. -/
def State.roundMeters (s : State) : Prop :=
  s.report.fullRequest = true ∨ (s.link.engine = .active ∧ s.report.due = true)

/-- A round begun now carries a lane's record: with meters, or, while the engine is ACTIVE, for its flag. -/
def State.roundLane (s : State) (flag : Bool) : Prop :=
  s.roundMeters ∨ (s.link.engine = .active ∧ flag = true)

/-- A round begun now carries a line's record: with a full report, or, while the engine is ACTIVE, for its flag. -/
def State.roundLine (s : State) (flag : Bool) : Prop :=
  s.report.fullRequest = true ∨ (s.link.engine = .active ∧ flag = true)

/-- There is work for a round, with these flags of lanes and lines (R136, R142). -/
def State.roundWork (s : State) (lane : Fin 9 → Bool) (line : Line → Bool) : Prop :=
  s.report.verdicts ≠ [] ∨ s.roundMeters ∨ (∃ e, s.roundLane (lane e)) ∨ ∃ l, s.roundLine (line l)

/-- The place of a record in the order of a round's writing (R137). -/
def RecordKind.place : RecordKind → Nat
  | .verdict sec => sec.val
  | .part => 32
  | .lane e => 33 + e.val
  | .line l => 42 + l.val
  | .meter i => 66 + i.val

/-- From `s` to `t`, the round has been begun with the work that REPORT holds in `s` and with these flags of lanes and lines:
which records it carries and in which order, its verdict entries and meters, and what REPORT and MIX hold after it (R135 to
R138, R142). -/
def Round.takes (r : Round) (s t : State) (lane : Fin 9 → Bool) (line : Line → Bool) : Prop :=
  r.current = none ∧ (r.meters = true ↔ s.roundMeters) ∧ (r.full = true ↔ s.report.fullRequest = true) ∧
  (∀ x ∈ r.todo, ∀ sec, x.kind = .verdict sec → ∃ v ∈ s.report.verdicts, v.sec = sec ∧ x.body = verdictBody v) ∧
  (∀ v ∈ s.report.verdicts, ∃ x ∈ r.todo, x.kind = .verdict v.sec ∧ x.body = verdictBody v) ∧
  ((∃ x ∈ r.todo, x.kind = .part) ↔ s.roundMeters) ∧
  (∀ e, (∃ x ∈ r.todo, x.kind = .lane e) ↔ s.roundLane (lane e)) ∧
  (∀ x ∈ r.todo, ∀ e, x.kind = .lane e → x.stateChange = lane e) ∧
  (∀ l, (∃ x ∈ r.todo, x.kind = .line l) ↔ s.roundLine (line l)) ∧
  (∀ i : Fin 48, (∃ x ∈ r.todo, x.kind = .meter i) ↔ s.roundMeters) ∧
  (∀ x ∈ r.todo, ∀ i, x.kind = .meter i → x.body = meterBody s.mix i) ∧
  (s.report.verdicts.Pairwise (fun a b => a.sec < b.sec) → r.todo.Pairwise fun x y => x.kind.place < y.kind.place) ∧
  (∀ l : Line, r.clips[(Fin.ofNat 32 l.val)] = (s.mix.returns[l]).clip) ∧
  (∀ i : Slot, r.clips[(Fin.ofNat 32 (24 + i.val))] = (s.mix.outputs[i]).clip) ∧
  t.report =
    { s.report with
      verdicts := [], fullRequest := false, due := t.report.due, meterCounter := t.report.meterCounter
      round := some r } ∧
  (t.report.due = true ↔ s.report.due = true ∧ ¬s.roundMeters) ∧
  t.report.meterCounter = (if s.report.fullRequest = true then 0 else s.report.meterCounter) ∧
  (¬s.roundMeters → t.mix = s.mix) ∧
  (s.roundMeters → (∀ x : Source, t.mix.sources[x] = { s.mix.sources[x] with peak := 0 }) ∧
    (∀ l : Line, t.mix.contribs[l] = { s.mix.contribs[l] with peak := 0 } ∧
      t.mix.returns[l] = { s.mix.returns[l] with peak := 0 }) ∧
    (∀ i : Slot, t.mix.outputs[i] = { s.mix.outputs[i] with peak := 0 }) ∧
    t.mix = { s.mix with sources := t.mix.sources, contribs := t.mix.contribs, returns := t.mix.returns,
                         outputs := t.mix.outputs })

/-- From `s` to `t`, a round begun with these flags of lanes and lines has left `laneLeft` and `lineLeft` as the flags of what
it carries, and nothing else of a line or a lane has changed (R136). -/
def State.flaggedAfter (s t : State) (lane : Fin 9 → Bool) (line : Line → Bool) (laneLeft : Fin 9 → Bool)
    (lineLeft : Line → Bool) : Prop :=
  (∀ l : Line, t.line.ctx[l] = { s.line.ctx[l] with reportPending := (t.line.ctx[l]).reportPending } ∧
    (s.roundLine (line l) → (t.line.ctx[l]).reportPending = lineLeft l) ∧
    (¬s.roundLine (line l) → (t.line.ctx[l]).reportPending = (s.line.ctx[l]).reportPending)) ∧
  (∀ i : InLane, t.lrx.lanes[i] = { s.lrx.lanes[i] with statusPending := (t.lrx.lanes[i]).statusPending }) ∧
  (∀ o : OutLane, t.ltx.lanes[o] = { s.ltx.lanes[o] with statusPending := (t.ltx.lanes[o]).statusPending }) ∧
  ∀ e : Fin 9, (s.roundLane (lane e) → lanePending t e = laneLeft e) ∧
    (¬s.roundLane (lane e) → lanePending t e = lanePending s e)

/-! ### REPORT at the end of a record (R124, R125, R132, R137, R139 to R141, R145, R158) -/

/-- From `s` to `t`, a record of the round has been completed, written or missed, with `rest` the records left: its own
notices, the end of the verdict writes and of a full report, REPORT and CLIP with the last meter record, MISS for a missed
record, the end of the round with its last record, and the stop of a DRAINING engine with DRAINED when no work is left. -/
def State.recordEnds (s t : State) (r : Round) (x : RoundRecord) (rest : List RoundRecord) (written : Bool) : Prop :=
  let lastVerdict := x.kind.isVerdict = true ∧ ∀ y ∈ rest, y.kind.isVerdict = false
  let lastMeter := x.kind.isMeter = true ∧ ∀ y ∈ rest, y.kind.isMeter = false
  let meterWritten := r.meterWritten = true ∨ (x.kind.isMeter = true ∧ written = true)
  let intakeOver := (lastVerdict ∧ s.intake.reportRequest = false) ∨ (rest = [] ∧ r.full = true)
  let drained := s.link.engine = .draining ∧ t.intake.phase = .idle ∧ t.report.round = none
  (intakeOver → t.intake = { s.intake with phase := .idle }) ∧ (¬intakeOver → t.intake = s.intake) ∧
  t.report =
    { s.report with
      fullRequest := t.report.fullRequest, lastClips := t.report.lastClips, round := t.report.round } ∧
  (t.report.fullRequest = true ↔
    s.report.fullRequest = true ∨ (lastVerdict ∧ s.intake.reportRequest = true)) ∧
  (lastMeter → t.report.lastClips = r.clips) ∧ (¬lastMeter → t.report.lastClips = s.report.lastClips) ∧
  (rest = [] → t.report.round = none) ∧
  (rest ≠ [] → ∃ r', t.report.round = some r' ∧
    r' = { r with todo := rest, current := none, metersDone := r'.metersDone, meterWritten := r'.meterWritten } ∧
    (r'.metersDone = true ↔ r.metersDone = true ∨ lastMeter) ∧ (r'.meterWritten = true ↔ meterWritten)) ∧
  (drained → t.link.engine = .stopped) ∧ (¬drained → t.link.engine = s.link.engine) ∧
  (∀ n < 32, t.link.notice.getLsbD n = true ↔
    s.link.notice.getLsbD n = true ∨ (written = true ∧ ∃ l : Line, x.kind = .line l ∧ n = l.val) ∨
      (n = 24 ∧ intakeOver) ∨ (n = 25 ∧ written = true ∧ x.stateChange = true ∧ ∃ e, x.kind = .lane e) ∨
      (n = 26 ∧ lastMeter ∧ meterWritten) ∨ (n = 27 ∧ lastMeter ∧ r.clips ≠ s.report.lastClips) ∨
      (n = 28 ∧ drained) ∨ (n = 29 ∧ written = false)) ∧
  t.link =
    { s.link with
      engine := t.link.engine, notice := t.link.notice, messages := t.link.messages
      lastMessage := t.link.lastMessage, beforeEvent := t.link.beforeEvent
      miss := s.link.miss + if written = true then 0 else 1 }

/-! ### LINK (R132, R153, R157, R158) -/

/-- A window register holds a whole multiple of 4 KiB (R153). -/
def windowSound (v : Word64) : Bool := v.toNat % 4096 == 0

/-- All four window registers are whole multiples of 4 KiB (R153). -/
def Link.windowsSound (k : Link) : Bool :=
  windowSound k.planBase && windowSound k.planEnd && windowSound k.reportBase && windowSound k.reportEnd

/-- No work is in flight while the engine is STOPPED, and some is while it is DRAINING (R157, R158). -/
def State.engineSound (s : State) : Prop :=
  (s.link.engine = .stopped → s.workInFlight = false) ∧ (s.link.engine = .draining → s.workInFlight = true)

/-- What REPORT owes the intake: verdict entries handed over, a full report asked for, verdict records in the round, or a
full report in the round (R124, R125, R136). -/
def State.owed (s : State) : Nat :=
  (!s.report.verdicts.isEmpty).toNat + s.report.fullRequest.toNat +
    (s.report.round.any fun r => r.uncompleted.any fun x => x.kind.isVerdict).toNat +
    (s.report.round.any (·.full)).toNat

/-- Verdict entries in ascending section number, each section once (R112, R137). -/
def verdictsAscend (v : List VerdictEntry) : Prop := v.Pairwise fun a b => a.sec < b.sec

/-- The verdict entries stand in the order of the fetch, all of sections below the fetch position (R112, R124). -/
def State.verdictsSound (s : State) : Prop :=
  verdictsAscend s.intake.verdicts ∧ verdictsAscend s.report.verdicts ∧
    ∀ p, s.intake.position = some p → ∀ v ∈ s.intake.verdicts, v.sec < p

/-- A read is outstanding only while INTAKE is FETCHING (R112, R114), and REPORT owes the intake one thing at a time, only
while it is APPLYING (R124, R125). -/
def State.intakeSound (s : State) : Prop :=
  (s.link.read.isSome = true → s.intake.phase = .fetching) ∧ s.owed ≤ 1 ∧
    (s.owed ≠ 0 → s.intake.phase = .applying) ∧ s.verdictsSound

/-- A round in progress has a record left to complete (R137). -/
def State.roundSound (s : State) : Prop :=
  ∀ r, s.report.round = some r → r.uncompleted ≠ []

/-- LINK and REPORT are sound, and the host memory they write is in canonical form. -/
def State.linkSound (s : State) : Prop :=
  memoryWf s.hostMem = true ∧ s.link.windowsSound = true ∧ s.engineSound ∧ s.intakeSound ∧ s.roundSound

end Sys2Proof.Machine
end

