-- ==== Sys2Proof/Certificates/Slice0/Obligations.lean ====
section
/-! DEFINITION. The statements for the provers: the queue and the resets, the registers, a sample, the lanes, the block
tick and its events, the intake, the report, and the invariants that every step keeps. -/

open Sys2Proof Sys2Proof.Machine

/-! ### The queue and progress -/

/-- The step runs the command at the front of the queue, with the queue's rest waiting; with no command waiting it
changes nothing. The queue is the model's own (entry 1). -/
def Obligations.StepTakesFront : Prop :=
  (∀ (c : Instr) (rest : List Instr) (s : State), s.pending = c :: rest → step s = exec c { s with pending := rest }) ∧
    ∀ s : State, s.pending = [] → step s = .next s

/-- No command reads or changes the queue: with another queue it has the same effect and leaves that queue. The queue is
the model's own (entry 1). -/
def Obligations.QueueUntouched : Prop :=
  ∀ (c : Instr) (s t : State) (q : List Instr),
    exec c s = .next t → exec c { s with pending := q } = .next { t with pending := q }

/-- Every command completes in every state: none faults and none is refused. -/
def Obligations.CommandsComplete : Prop :=
  ∀ (c : Instr) (s : State), ∃ t, exec c s = .next t

/-! ### Resets (section 8.5 and the reset sections of the chapters) -/

/-- The values that the manual gives the blocks after a power-on reset. -/
def Obligations.ResetValues : Prop :=
  let s := State.reset
  (∀ l : Line,
    (s.line.ctx[l]).state = .vacant ∧ (s.line.ctx[l]).plan.role = .off ∧ (s.line.ctx[l]).condition = .disconnected ∧
    (s.line.ctx[l]).lossCount = 0 ∧ (s.line.ctx[l]).shadowCount = 0 ∧ (s.line.ctx[l]).lostFrom = none ∧
    (s.line.ctx[l]).autoScreener = none ∧ (s.line.ctx[l]).arrivalNumber = none ∧
    (s.line.ctx[l]).reportPending = false ∧
    (s.line.ctx[l]).plan.levels =
      { voice := 200, ret := 200, conferAir := 188, hold := 200, bed := 160, duck := 176 } ∧
    (s.line.ctx[l]).plan.threshold = 8 ∧ (s.line.ctx[l]).plan.partners = []) ∧
  (s.line.dumpDepth, s.line.shadowMargin, s.line.lossHoldoff) = (0, 500, 3000) ∧
  (s.mix.holdFeed, s.mix.mainBlocks, s.mix.cueBlocks) = (15, 4, 2) ∧
  (∀ i : RampId, (s.mix.ramp i).cur = 0 ∧ (s.mix.ramp i).target = 0 ∧ (s.mix.ramp i).atRest = true) ∧
  (∀ x : Source, (s.mix.sources[x]).airCode = 0 ∧ (s.mix.sources[x]).peak = 0) ∧
  (∀ l : Line, (s.mix.contribs[l]).voice = 8388608 ∧ (s.mix.contribs[l]).group.index = 0 ∧
    (s.mix.contribs[l]).group.pending = none ∧ (s.mix.contribs[l]).peak = 0 ∧ (s.mix.returns[l]).group.index = 0 ∧
    (s.mix.returns[l]).group.pending = none ∧ (s.mix.returns[l]).duck = .none ∧ (s.mix.returns[l]).peak = 0 ∧
    (s.mix.returns[l]).clip = 0) ∧
  (∀ i : Slot, s.mix.outputs[i] = { peak := 0, clip := 0 }) ∧
  (∀ k : Key, s.cue.keys[k] = { soft := false, down := false, run := 0 }) ∧
  (∀ r : Route, (s.cue.routes[r]).activity = .idle ∧ (s.cue.routes[r]).holdCount = 0 ∧
    (s.cue.routes[r]).entry =
      { valid := false, talker := 0, key := 0, target := .line 0, priority := 0, cueCode := 0, hold := 0
        mode := .momentary }) ∧
  (∀ k : Line, (s.cue.returns[k]).winner = none ∧ (s.cue.returns[k]).outgoing = none ∧
    (s.cue.returns[k]).outTalker = none ∧ (s.cue.returns[k]).duck = .none) ∧
  (∀ p : Position, s.scrn.table.positions[p] = { talker := none, selected := none, level := 200 }) ∧
  (s.scrn.table.spreadBits, s.scrn.arrivals) = (1, 0) ∧ (∀ i : Fin 16, s.scrn.table.spread[i] = none) ∧
  (∀ g : Group, s.scrn.roleCounts[g] = 0) ∧
  (∀ i : InLane, (s.lrx.lanes[i]).state = .off ∧
    (s.lrx.lanes[i]).setup = { enabled := false, clocking := .master, width := .wide } ∧ (s.lrx.lanes[i]).run = 0 ∧
    (s.lrx.lanes[i]).seeking = 0 ∧ (s.lrx.lanes[i]).buffer = [] ∧ (s.lrx.lanes[i]).mode = .refilling ∧
    (∀ j : Slot, (s.lrx.lanes[i]).present j = 0 ∧ (s.lrx.lanes[i]).lastGood[j] = 0 ∧
      (s.lrx.lanes[i]).shown.audio[j] = 0 ∧ (s.lrx.lanes[i]).shown.side[j] = none) ∧
    (s.lrx.lanes[i]).overruns = 0 ∧ (s.lrx.lanes[i]).underruns = 0 ∧ (s.lrx.lanes[i]).syncLosses = 0 ∧
    (s.lrx.lanes[i]).parityRepeats = 0 ∧ (s.lrx.lanes[i]).statusPending = false) ∧
  (∀ l : OutLane, (s.ltx.lanes[l]).running = false ∧
    (s.ltx.lanes[l]).setup = { enabled := false, clocking := .master, width := .wide } ∧
    (s.ltx.lanes[l]).buffer = [] ∧ (s.ltx.lanes[l]).mode = .refilling ∧ (s.ltx.lanes[l]).overruns = 0 ∧
    (s.ltx.lanes[l]).underruns = 0 ∧ (s.ltx.lanes[l]).statusPending = false ∧
    ∀ j : Slot, slotAudio .wide (s.ltx.lanes[l]).previous[j] = 0 ∧ slotValid (s.ltx.lanes[l]).previous[j] = false) ∧
  s.ltx.hold = true ∧ s.lrx.laneLoss = 250 ∧
  (s.cmap.settle = 4 ∧ (∀ l : Line, s.cmap.records[l] = { last := none, count := 0, delivered := false }) ∧
    s.cmap.table[(0 : Fin 64)] = { condition := some .disconnected, notify := false } ∧
    s.cmap.table[(1 : Fin 64)] = { condition := some .connected, notify := false } ∧
    s.cmap.table[(2 : Fin 64)] = { condition := some .alerting, notify := false } ∧
    ∀ c : Fin 64, 2 < c → s.cmap.table[c] = { condition := none, notify := false }) ∧
  (s.ref.locked = false ∧ s.ref.count = 0) ∧
  (s.intake.phase = .idle ∧ s.intake.taken = 0 ∧ s.intake.position = none ∧ s.intake.verdicts = [] ∧
    s.intake.reportRequest = false ∧ s.intake.number = 0 ∧
    s.intake.staging =
      { lines := Vector.replicate 24 none, sources := none, routes := none, codes := none, screening := none
        studio := none, timing := none, lanes := none }) ∧
  (s.report.seq = 0 ∧ s.report.blockCount = 0 ∧ s.report.meterCounter = 0 ∧ s.report.due = false ∧
    s.report.period = 100 ∧ s.report.round = none ∧ s.report.verdicts = [] ∧ s.report.fullRequest = false ∧
    ∀ i : Fin 32, s.report.lastClips[i] = 0) ∧
  (s.link.planBase = 0 ∧ s.link.planEnd = 0 ∧ s.link.reportBase = 0 ∧ s.link.reportEnd = 0 ∧ s.link.post = 0 ∧
    s.link.notice = 0 ∧ s.link.mask = 0xFFFFFFFF ∧ s.link.miss = 0 ∧ s.link.memEnable = false ∧
    s.link.engine = .stopped ∧ s.link.read = none ∧ s.link.placement = none ∧ s.link.busMaster = false ∧
    s.link.msgEnabled = false)

/-- A power-on reset gives every block its reset values, and so does a soft reset written through the placed register
window; the soft reset alone keeps configuration space, and the completion of a read it finds outstanding will be
discarded. What is outside the part stays: the queue, the host's memory and the messages sent (entries 1, 13 and 14). -/
def Obligations.PowerOnAndSoftReset : Prop :=
  ∀ s : State,
    (∃ t, exec .powerOnReset s = .next t ∧
      t = { State.reset with
            hostMem := s.hostMem, pending := s.pending
            link := { State.reset.link with messages := s.link.messages, lastMessage := s.link.lastMessage } }) ∧
    (s.link.placement.isSome = true → ∃ t, exec .softReset s = .next t ∧
      t = { State.reset with hostMem := s.hostMem, pending := s.pending, link := t.link } ∧
      t.link =
        { State.reset.link with
          placement := s.link.placement, busMaster := s.link.busMaster, msgEnabled := s.link.msgEnabled,
          msgAddress := s.link.msgAddress, msgData := s.link.msgData, stale := t.link.stale,
          nextRead := s.link.nextRead, messages := s.link.messages, lastMessage := s.link.lastMessage } ∧
      (∀ r, s.link.read = some r → r.id ∈ t.link.stale) ∧ ∀ n ∈ s.link.stale, n ∈ t.link.stale)

/-- A link reset returns LINK to its reset values and ends the intake and the round; MIX, LINE, CUE, SCRN, the lanes,
CMAP and the reference monitor carry on, but for the report flags of the abandoned round: the flag of every line and lane
whose record it had not completed is set again, and the periodic due mark when its meter records were not all
complete. -/
def Obligations.LinkResetReach : Prop :=
  ∀ s : State, ∃ t, exec .linkReset s = .next t ∧
    t = { s with line := t.line, lrx := t.lrx, ltx := t.ltx, intake := t.intake, report := t.report, link := t.link } ∧
    (t.line = { s.line with ctx := t.line.ctx } ∧
      ∀ l : Line, t.line.ctx[l] = { s.line.ctx[l] with reportPending := (t.line.ctx[l]).reportPending }) ∧
    (t.lrx = { s.lrx with lanes := t.lrx.lanes } ∧
      ∀ i : InLane, t.lrx.lanes[i] = { s.lrx.lanes[i] with statusPending := (t.lrx.lanes[i]).statusPending }) ∧
    (t.ltx = { s.ltx with lanes := t.ltx.lanes } ∧
      ∀ i : OutLane, t.ltx.lanes[i] = { s.ltx.lanes[i] with statusPending := (t.ltx.lanes[i]).statusPending }) ∧
    t.intake = { State.reset.intake with number := s.intake.number } ∧
    t.report =
      { s.report with due := t.report.due, verdicts := [], fullRequest := false, round := none } ∧
    t.link =
      { State.reset.link with
        stale := t.link.stale, nextRead := s.link.nextRead, messages := s.link.messages,
        lastMessage := s.link.lastMessage } ∧
    (∀ r, s.link.read = some r → r.id ∈ t.link.stale) ∧
    (s.report.round = none → t.line = s.line ∧ t.lrx = s.lrx ∧ t.ltx = s.ltx ∧ t.report.due = s.report.due) ∧
    ∀ r, s.report.round = some r →
      (∀ l : Line, (t.line.ctx[l]).reportPending = true ↔
        (s.line.ctx[l]).reportPending = true ∨ ∃ x ∈ r.uncompleted, x.kind = .line l) ∧
      (∀ i : InLane, (t.lrx.lanes[i]).statusPending = true ↔
        (s.lrx.lanes[i]).statusPending = true ∨ ∃ x ∈ r.uncompleted, x.kind = .lane (inLaneEntry i)) ∧
      (∀ i : OutLane, (t.ltx.lanes[i]).statusPending = true ↔
        (s.ltx.lanes[i]).statusPending = true ∨ ∃ x ∈ r.uncompleted, x.kind = .lane (outLaneEntry i)) ∧
      (t.report.due = true ↔ s.report.due = true ∨ (r.meters = true ∧ r.metersDone = false))

/-! ### Registers, configuration space and the memory engine (chapter 8) -/

/-- Through the placed register window, a write to MPOST sets the bits written as one and a write of lane hold hands it to
LTX; a configuration access sets what it names; each changes nothing else. How wide the addresses and the message data of
configuration space are is the model's (entry 37). -/
def Obligations.PlainWrites : Prop :=
  ∀ (s : State) (bits : Word32) (on : Bool) (base : Option Word64) (a : Word64) (d : Word32),
    (s.link.placement.isSome = true →
      (∃ t, exec (.post bits) s = .next t ∧ t = { s with link := { s.link with post := t.link.post } } ∧
        ∀ i, t.link.post.getLsbD i = (s.link.post.getLsbD i || bits.getLsbD i)) ∧
      exec (.laneHold on) s = .next { s with ltx := { s.ltx with hold := on } }) ∧
    exec (.configurationAccess (.placeWindow base)) s = .next { s with link := { s.link with placement := base } } ∧
    exec (.configurationAccess .permitBusMastering) s = .next { s with link := { s.link with busMaster := true } } ∧
    exec (.configurationAccess (.setMessages on a d)) s =
      .next { s with link := { s.link with msgEnabled := on, msgAddress := a, msgData := d } } ∧
    exec (.configurationAccess .other) s = .next s

/-- Over every command: a bit pending in the post word stays pending, unless a reset clears it (a soft reset by its row or
by a write to MCTL named at its offset) or an intake takes it at a block tick, which then holds it in its taken set. -/
def Obligations.PendingBitsStay : Prop :=
  ∀ (c : Instr) (s t : State) (n : Nat), exec c s = .next t → s.link.post.getLsbD n = true →
    t.link.post.getLsbD n = true ∨ c = .powerOnReset ∨ c = .softReset ∨ c = .linkReset ∨
      (∃ offset width value, c = .ignoredRegisterWrite offset width value ∧
        Instr.softReset ∈ hostWrite offset width value) ∨
      ((c = .intakeTake ∨ ∃ pins follows first, c = .blockTick pins ⟨follows, first⟩) ∧
        t.intake.taken.getLsbD n = true ∧ t.intake.number = s.intake.number + 1)

/-- Through the placed register window, a write to MNOTE clears the notices written as one and a write to MMASK replaces
the mask; each sends one message when it leaves an unmasked notice pending and none when it leaves none. A write that
falls at the instant of the notice event that sent the last message, the event first, sends none of its own, and where it
leaves no unmasked notice pending the event's message is not sent either. A notice set by its event sends one exactly when
the unmasked pending set goes from empty to non-empty. A message is sent only while messages are enabled and bus mastering
is permitted, and carries the address and data of configuration space. That the model counts the messages, and that the
command says which write falls at the instant of an event, are its own (entry 14), and so are the widths of a message's
address and data (entry 37). -/
def Obligations.NoticesAndMessages : Prop :=
  let sent := fun (k : Link) (before : Option (Option Message)) =>
    { k with messages := k.messages + 1, lastMessage := some { address := k.msgAddress, data := k.msgData }
             beforeEvent := before }
  let answered := fun (k : Link) (atEvent : Bool) (u : Link) =>
    let pending := k.notice &&& ~~~k.mask ≠ 0
    (atEvent = false ∨ k.beforeEvent = none →
      (pending ∧ k.msgEnabled = true ∧ k.busMaster = true → u = sent k none) ∧
        (¬(pending ∧ k.msgEnabled = true ∧ k.busMaster = true) → u = k)) ∧
    ∀ before, atEvent = true → k.beforeEvent = some before →
      (pending → u = { k with beforeEvent := none }) ∧
        (¬pending → u = { k with messages := k.messages - 1, lastMessage := before, beforeEvent := none })
  (∀ (s : State) (v : Word32) (atEvent : Bool), s.link.placement.isSome = true →
    (∃ t, exec (.noticeClear ⟨v, atEvent⟩) s = .next t ∧ t = { s with link := t.link } ∧
      (∀ i < 32, t.link.notice.getLsbD i = (s.link.notice.getLsbD i && !v.getLsbD i)) ∧
      answered { s.link with notice := t.link.notice } atEvent t.link) ∧
    (∃ t, exec (.noticeMaskWrite ⟨v, atEvent⟩) s = .next t ∧ t = { s with link := t.link } ∧
      answered { s.link with mask := v } atEvent t.link)) ∧
  ∀ (k : Link) (b : Word32),
    let sends := k.notice &&& ~~~k.mask = 0 ∧ (k.notice ||| b) &&& ~~~k.mask ≠ 0 ∧ k.msgEnabled = true ∧
      k.busMaster = true
    (sends → k.raise b = sent { k with notice := k.notice ||| b } (some k.lastMessage)) ∧
      (¬sends → k.raise b = { k with notice := k.notice ||| b })

/-- Through the placed register window, memory enable set is stored. Cleared, an ACTIVE engine enters DRAINING, or STOPPED
at once with DRAINED when no work is in flight; a STOPPED or DRAINING engine stays. At a block tick a STOPPED engine
becomes ACTIVE exactly when the enable is 1 and bus mastering is permitted. Nothing else changes, but for the model's mark
that no round begins at the tick before any more (entry 2). -/
def Obligations.MemoryEngineMoves : Prop :=
  ∀ s : State,
    (s.link.placement.isSome = true →
      exec (.memoryEnable true) s = .next { s with link := { s.link with memEnable := true } } ∧
      (s.link.engine ≠ .active →
        exec (.memoryEnable false) s = .next { s with link := { s.link with memEnable := false } }) ∧
      (s.link.engine = .active → s.intake.phase = .idle → s.report.round = none →
        exec (.memoryEnable false) s =
          .next { s with
            link := ({ s.link with memEnable := false, engine := .stopped } : Link).raise 0x10000000 }) ∧
      (s.link.engine = .active → (s.intake.phase ≠ .idle ∨ s.report.round.isSome = true) →
        exec (.memoryEnable false) s =
          .next { s with link := { s.link with memEnable := false, engine := .draining } })) ∧
    (s.link.engine = .stopped → s.link.memEnable = true → s.link.busMaster = true →
      exec .engineActive s =
        .next { s with link := { s.link with engine := .active }, inst := { s.inst with other := true } }) ∧
    (s.link.engine ≠ .stopped ∨ s.link.memEnable = false ∨ s.link.busMaster = false →
      exec .engineActive s = .next s)

/-- Through the placed register window, a window register is written while the engine is STOPPED, whatever the memory
enable holds, whole or by halves, with its low 12 bits discarded; otherwise the write is refused with REG_REFUSED and the
window stands. Over every command, the window registers change only while the engine is STOPPED, or by a reset (a soft
reset by its row or by a write to MCTL named at its offset). -/
def Obligations.WindowRegisters : Prop :=
  (∀ (s : State) (reg : WindowReg) (data : WindowData), s.link.placement.isSome = true →
    ∃ t, exec (.windowRegisterWrite reg data) s = .next t ∧ t = { s with link := t.link } ∧
      (s.link.engine = .stopped →
        (∀ r, r ≠ reg → t.link.window r = s.link.window r) ∧
        (∀ i, (t.link.window reg).getLsbD i =
          (decide (12 ≤ i) && match data with
            | .whole v => v.getLsbD i
            | .low v => if i < 32 then v.getLsbD i else (s.link.window reg).getLsbD i
            | .high v => if i < 32 then (s.link.window reg).getLsbD i else v.getLsbD (i - 32))) ∧
        t.link =
          { s.link with
            planBase := t.link.planBase, planEnd := t.link.planEnd, reportBase := t.link.reportBase,
            reportEnd := t.link.reportEnd }) ∧
      (s.link.engine ≠ .stopped → t.link = s.link.raise 0x40000000)) ∧
  ∀ (c : Instr) (s t : State), exec c s = .next t → s.link.engine ≠ .stopped →
    c ≠ .powerOnReset → c ≠ .softReset → c ≠ .linkReset →
    (∀ offset width value, c = .ignoredRegisterWrite offset width value →
      Instr.softReset ∉ hostWrite offset width value) →
    t.link.planBase = s.link.planBase ∧ t.link.planEnd = s.link.planEnd ∧ t.link.reportBase = s.link.reportBase ∧
      t.link.reportEnd = s.link.reportEnd

/-- The effective end: a set end at or below the base closes the window, which then contains no byte; an open window
contains exactly the addresses from its base to its effective end, is at most 1 MiB long, and ends at the set end when
that lies within 1 MiB. -/
def Obligations.EffectiveEnd : Prop :=
  ∀ base setEnd : Word64,
    (setEnd.toNat ≤ base.toNat → effectiveEnd base setEnd = setEnd ∧
      ∀ a len, 0 < len → insideWindow base setEnd a len = false) ∧
    (base.toNat < setEnd.toNat →
      (effectiveEnd base setEnd).toNat = min setEnd.toNat (base.toNat + 1048576) ∧
      ∀ a, insideWindow base setEnd a 1 = true ↔ base.toNat ≤ a ∧ a < (effectiveEnd base setEnd).toNat)

/-- While the register window is unplaced no register command changes anything, and no address is the part's; while it is
placed, its 4096 addresses are the part's and no other. A write that section 8.2 ignores, each one narrower than 32
bits among them, changes nothing; operands of the row that name another write have the effect of the commands that
this write is (entry 25). A read returns, register by register, the part code and the step number; memory enable and
lane hold, with 0 in the place of soft reset; the engine state, the intake phase, the reference lock and lane hold;
the post word; the notice word; the mask; the miss count; and the bases and effective ends of the windows, low half
first; any other word is 0, and a narrower read is the addressed bytes. A 32-bit write at each offset is the command
of its register, or one that is ignored; a 64-bit one is one write of a window register, or two 32-bit ones, the lower
first. That an access off its alignment is taken by the words that it covers whole is the model's (entry 25), and so is
where the window may lie (entry 37). -/
def Obligations.RegisterWindow : Prop :=
  ∀ (s : State) (offset : BitVec 12) (width : AccessWidth) (value address : Word64),
    (s.link.placement = none →
      (∀ c : Instr,
        c = .softReset ∨ (∃ on, c = .memoryEnable on) ∨ (∃ on, c = .laneHold on) ∨ (∃ v, c = .post v) ∨
          (∃ w, c = .noticeClear w) ∨ (∃ w, c = .noticeMaskWrite w) ∨
          (∃ r d, c = .windowRegisterWrite r d) ∨ c = .ignoredRegisterWrite offset width value →
        exec c s = .next s) ∧
      s.readAt address width = none ∧ s.writeAt address width value = []) ∧
    (∀ base, s.link.placement = some base →
      (ignoredWrite offset width = true ∨ width.bytes < 4 →
        exec (.ignoredRegisterWrite offset width value) s = .next s) ∧
      (∃ t, exec (.ignoredRegisterWrite offset width value) s = .next t ∧
        (hostWrite offset width value).foldlM
          (fun u c => match exec c u with
            | .next v => some v
            | _ => none) s = some t) ∧
      (base.toNat ≤ address.toNat → address.toNat < base.toNat + 4096 →
        let o := BitVec.ofNat 12 (address.toNat - base.toNat)
        s.readAt address width = some (readRegister s o width) ∧ s.writeAt address width value = hostWrite o width value) ∧
      (address.toNat < base.toNat ∨ base.toNat + 4096 ≤ address.toNat →
        s.readAt address width = none ∧ s.writeAt address width value = [])) ∧
    (let word := fun o : Nat => (readRegister s (BitVec.ofNat 12 o) .four).toNat
     let halves := fun (o : Nat) (v : Word64) => word o = v.toNat % 4294967296 ∧ word (o + 4) = v.toNat / 4294967296
     word 0x000 = 0x324 * 256 + Config.stepNumber.toNat ∧
     word 0x004 = (if s.link.memEnable = true then 1 else 0) + (if s.ltx.hold = true then 2 else 0) ∧
     word 0x008 =
       (match s.link.engine with | .stopped => 0 | .active => 1 | .draining => 2) +
         4 * (match s.intake.phase with | .idle => 0 | .fetching => 1 | .ready => 2 | .applying => 3) +
         (if s.ref.locked = true then 16 else 0) + (if s.ltx.hold = true then 32 else 0) ∧
     word 0x00C = s.link.post.toNat ∧ word 0x010 = s.link.notice.toNat ∧ word 0x014 = s.link.mask.toNat ∧
     word 0x018 = s.link.miss.toNat ∧ word 0x01C = 0 ∧ halves 0x020 s.link.planBase ∧
     halves 0x028 (effectiveEnd s.link.planBase s.link.planEnd) ∧ halves 0x030 s.link.reportBase ∧
     halves 0x038 (effectiveEnd s.link.reportBase s.link.reportEnd) ∧
     (∀ o, 0x040 ≤ o → o < 4096 → o % 4 = 0 → word o = 0) ∧
     (readRegister s offset width).toNat < 256 ^ width.bytes ∧
     ∀ i < width.bytes, offset.toNat + i < 4096 →
       (readRegister s offset width).toNat / 256 ^ i % 256 =
         word (offset.toNat + i - (offset.toNat + i) % 4) / 256 ^ ((offset.toNat + i) % 4) % 256) ∧
    (let o := offset.toNat
     let low : Word32 := value.setWidth 32
     let one := hostWrite offset .four value
     let two := hostWrite offset .eight value
     (o = 0x004 →
       one = if low.getLsbD 2 = true then [.softReset] else [.memoryEnable (low.getLsbD 0), .laneHold (low.getLsbD 1)]) ∧
     (o = 0x00C → one = [.post low]) ∧ (o = 0x010 → one = [.noticeClear ⟨low, false⟩]) ∧
     (o = 0x014 → one = [.noticeMaskWrite ⟨low, false⟩]) ∧
     (o = 0x020 → one = [.windowRegisterWrite .planBase (.low low)] ∧
       two = [.windowRegisterWrite .planBase (.whole value)]) ∧
     (o = 0x024 → one = [.windowRegisterWrite .planBase (.high low)]) ∧
     (o = 0x028 → one = [.windowRegisterWrite .planEnd (.low low)] ∧
       two = [.windowRegisterWrite .planEnd (.whole value)]) ∧
     (o = 0x02C → one = [.windowRegisterWrite .planEnd (.high low)]) ∧
     (o = 0x030 → one = [.windowRegisterWrite .reportBase (.low low)] ∧
       two = [.windowRegisterWrite .reportBase (.whole value)]) ∧
     (o = 0x034 → one = [.windowRegisterWrite .reportBase (.high low)]) ∧
     (o = 0x038 → one = [.windowRegisterWrite .reportEnd (.low low)] ∧
       two = [.windowRegisterWrite .reportEnd (.whole value)]) ∧
     (o = 0x03C → one = [.windowRegisterWrite .reportEnd (.high low)]) ∧
     (o = 0x000 ∨ o = 0x008 ∨ o = 0x018 ∨ o = 0x01C ∨ (0x040 ≤ o ∧ o % 4 = 0) →
       one = [.ignoredRegisterWrite offset .four (low.setWidth 64)]) ∧
     (o % 4 = 0 → o ≠ 0x020 → o ≠ 0x028 → o ≠ 0x030 → o ≠ 0x038 →
       two = one ++ hostWrite (offset + 4) .four (value >>> 32)) ∧
     (o % 4 ≠ 0 → two = hostWrite (offset + BitVec.ofNat 12 (4 - o % 4)) .four (value >>> (8 * (4 - o % 4))) ∧
       one = [.ignoredRegisterWrite offset .four value]) ∧
     (width.bytes < 4 → hostWrite offset width value = [.ignoredRegisterWrite offset width value]))

/-- Bus mastering withdrawn with a record under way: the enable is cleared, the record is missed, one miss is counted, no
byte is written and no stamp is spent. With no record under way nothing is missed. An ACTIVE engine drains, and it
stops with DRAINED at once when no work is in flight. What follows a missed record follows it here. Nothing else of
LINK changes, and no message is sent. While bus mastering is not permitted the command changes nothing. That the
enable is cleared in every engine state is the model's reading (entry 30). -/
def Obligations.MasteringWithdrawn : Prop :=
  ∀ s : State,
    (s.link.busMaster = false → exec .busMasteringWithdrawn s = .next s) ∧
    (s.link.busMaster = true → ∃ t, exec .busMasteringWithdrawn s = .next t ∧
      t.link.busMaster = false ∧ t.link.memEnable = false ∧ t.hostMem = s.hostMem ∧ t.report.seq = s.report.seq ∧
      t = { s with intake := t.intake, report := t.report, link := t.link } ∧
      (∀ r, s.report.round = some r → r.current = none →
        t.report = s.report ∧ t.intake = s.intake ∧
          t.link = { s.link with busMaster := false, memEnable := false,
                                 engine := if s.link.engine = .active then .draining else s.link.engine }) ∧
      (s.report.round = none → t.report = s.report ∧ t.intake = s.intake ∧
        t.link =
          if s.link.engine = .active ∧ s.intake.phase = .idle then
            { s.link with busMaster := false, memEnable := false, engine := .stopped
                          notice := s.link.notice ||| 0x10000000 }
          else
            { s.link with busMaster := false, memEnable := false
                          engine := if s.link.engine = .active then .draining else s.link.engine }) ∧
      ∀ r u, s.report.round = some r → r.current = some u →
        ({ s with
            link := { s.link with
              busMaster := false, memEnable := false
              engine := if s.link.engine = .active then .draining else s.link.engine } } : State).recordEnds
            t r u.item r.todo false ∧
          t.link.messages = s.link.messages ∧ t.link.lastMessage = s.link.lastMessage ∧
          t.link.beforeEvent = s.link.beforeEvent)

/-! ### A sample (chapters 1 and 5) -/

/-- A sample moves every ramp by one position, to g0 + trunc((g1 − g0) × n / L), and leaves a ramp at rest. A ramp of the
manual never leaves the span from its start to its target, and after L − n samples it is at rest, exactly at its
target. -/
def Obligations.RampLaw : Prop :=
  (∀ s : State, ∃ t, exec .sample s = .next t ∧
    ∀ i : RampId,
      t.mix.ramp i = (s.mix.ramp i).advance ∧
      ((s.mix.ramp i).len ≤ (s.mix.ramp i).pos → t.mix.ramp i = s.mix.ramp i) ∧
      ((s.mix.ramp i).pos < (s.mix.ramp i).len →
        t.mix.ramp i =
          { s.mix.ramp i with
            pos := (s.mix.ramp i).pos + 1
            cur := (s.mix.ramp i).start +
              Int.tdiv (((s.mix.ramp i).target - (s.mix.ramp i).start) * ((s.mix.ramp i).pos + 1 : Nat))
                (s.mix.ramp i).len })) ∧
  ∀ r : Ramp, r.sound = true →
    (∀ n : Nat, min r.start r.target ≤ (Ramp.advance^[n] r).cur ∧
      (Ramp.advance^[n] r).cur ≤ max r.start r.target) ∧
    (Ramp.advance^[r.len - r.pos] r).cur = r.target ∧ (Ramp.advance^[r.len - r.pos] r).atRest = true

/-- The inputs of a sample come from the slots of the input lanes: line k from slot k mod 8 of lane k div 8, source i from
slot i mod 8 of lane 3 + i div 8. A sample raises the clip total of each return and of each output of lane 3 exactly
when the clamp changes its raw value, and keeps as peaks the largest magnitudes of the clamped returns and outputs and
of the inputs, with the multipliers and the inputs of that sample. On each input lane it makes the one read of an
elastic buffer that no command has made for it, and keeps the side codes presented for the block tick, none on a lane
not LOCKED. It reaches MIX, LRX and LTX alone, and changes no code, voice multiplier, duck state, group index, pending
group or length; that it ends the instant of the tick before it is the model's mark (entry 2), and that a command may
make the read ahead of it the model's order (entry 7). -/
def Obligations.SampleMeasures : Prop :=
  ∀ s : State, ∃ t, exec .sample s = .next t ∧
    t = { s with mix := t.mix, lrx := t.lrx, ltx := t.ltx, inst := t.inst } ∧
    t.mix = { s.mix with sources := t.mix.sources, contribs := t.mix.contribs, returns := t.mix.returns,
                         outputs := t.mix.outputs } ∧
    (∀ i : Source, (t.mix.sources[i]).airCode = (s.mix.sources[i]).airCode) ∧
    (∀ k : Line, (t.mix.contribs[k]).voice = (s.mix.contribs[k]).voice ∧
      (t.mix.returns[k]).duck = (s.mix.returns[k]).duck ∧
      (t.mix.returns[k]).position = (s.mix.returns[k]).position ∧
      (t.mix.contribs[k]).group.index = (s.mix.contribs[k]).group.index ∧
      (t.mix.contribs[k]).group.pending = (s.mix.contribs[k]).group.pending ∧
      (t.mix.returns[k]).group.index = (s.mix.returns[k]).group.index ∧
      (t.mix.returns[k]).group.pending = (s.mix.returns[k]).group.pending) ∧
    t.lrx = { s.lrx with lanes := t.lrx.lanes } ∧
    (∀ i : InLane, ∃ u, exec (.elasticRead i) s = .next u ∧
      t.lrx.lanes[i] =
        { u.lrx.lanes[i] with
          readDone := false
          sideSample :=
            if (u.lrx.lanes[i]).state = .locked then (u.lrx.lanes[i]).shown.side else Vector.replicate 8 none }) ∧
    ∃ x : Inputs, s.carries x ∧
    let raw := fun k : Line => rawReturn s.mix.advance x s.scrn.table s.line.ctx[k] s.cue.returns[k] k
    let bus := fun i : Slot => busOutput s.mix.advance x s.scrn.table s.line.ctx i
    (∀ k : Line,
      (t.mix.returns[k]).clip =
        (s.mix.returns[k]).clip + (if -8388608 ≤ raw k ∧ raw k ≤ 8388607 then 0 else 1) ∧
      (t.mix.returns[k]).peak =
        max (s.mix.returns[k]).peak (max (-8388608) (min 8388607 (raw k))).natAbs ∧
      (t.mix.contribs[k]).peak = max (s.mix.contribs[k]).peak (x.lines[k]).natAbs) ∧
    (∀ i : Slot,
      (t.mix.outputs[i]).clip =
        (s.mix.outputs[i]).clip + (if -8388608 ≤ bus i ∧ bus i ≤ 8388607 then 0 else 1) ∧
      (t.mix.outputs[i]).peak =
        max (s.mix.outputs[i]).peak (max (-8388608) (min 8388607 (bus i))).natAbs) ∧
    ∀ i : Source, (t.mix.sources[i]).peak = max (s.mix.sources[i]).peak (x.sources[i]).natAbs

/-- The frame of a sample, on every RUNNING output lane: in slot i of lane n, on lanes 0 to 2 the clamped return of line 8
× n + i at the lane's width with the line's state index (plus 8 with a cue winner) as side code, on lane 3 the clamped
caller bus, listen feed or group bus with side code 0, valid, with correct parity; with lane hold on, the word 1:
audio 0, side code 0, valid 0. A MASTER lane sends the sync word and the eight slot words; a SLAVE lane writes the
frame into its buffer, or, finding four, drops it with the oldest and counts an overrun slip. An OFF lane does
nothing. That a write which finds three frames joins them without a slip, so that not every write to a buffer that its
partner has stopped reading is one, is the model's reading (entry 32). -/
def Obligations.SampleSends : Prop :=
  ∀ (s t : State) (l : OutLane), exec .sample s = .next t →
    let c := s.ltx.lanes[l]
    let m := s.mix.advance
    ∃ x : Inputs, s.carries x ∧
    (c.running = false → t.ltx.lanes[l] = c) ∧
    (c.running = true → ∃ f : SlotWords,
      (∀ i : Slot, parityOk f[i] = true ∧ (s.ltx.hold = true → f[i] = 1) ∧
        (s.ltx.hold = false → slotValid f[i] = true ∧
          (∀ k : Line, k.val = 8 * l.val + i.val →
            slotAudio .wide f[i] =
                convertOut c.setup.width
                  (max (-8388608)
                    (min 8388607 (rawReturn m x s.scrn.table s.line.ctx[k] s.cue.returns[k] k))) ∧
              (slotCode f[i]).toNat =
                (s.line.ctx[k]).state.index + (if (s.cue.returns[k]).winner.isSome then 8 else 0)) ∧
          (l.val = 3 →
            slotAudio .wide f[i] =
                convertOut c.setup.width (max (-8388608) (min 8388607 (busOutput m x s.scrn.table s.line.ctx i))) ∧
              slotCode f[i] = 0))) ∧
      (c.setup.clocking = .master → ∃ w : FrameWords, t.ltx.lanes[l] = { c with sent := some w } ∧
        w[(0 : Fin 9)] = 0xE8E81717 ∧ ∀ i : Slot, w[i.succ] = f[i]) ∧
      (c.setup.clocking = .slave →
        (c.buffer.length < 4 → t.ltx.lanes[l] = { c with buffer := c.buffer ++ [f] }) ∧
        (4 ≤ c.buffer.length →
          t.ltx.lanes[l] = { c with buffer := c.buffer.tail, overruns := min 65535 (c.overruns + 1) })))

/-- The raw return of a line is the sum of its six terms: the scaling of the exact sum of the air contributions of every
source and of every line other than the line and its partners; of the group contributions to the term's group of every
such line; of the hold feed source; of the talker of the position that the return reads; and of the talkers of the
winner and of the outgoing route, where there is one. So no return hears its own line or the line's partners, whatever
the ramps, the buses and the cue. Lane 3 carries the sum of the air contributions of all lines, the listen feeds, and
the sums of the group contributions. That a return keeps the position it reads while its screener term ramps out is
the model's reading (entry 31). -/
def Obligations.OwnVoiceCancelled : Prop :=
  let S := fun d g : Int => (d * g + 4194304) / 8388608
  let air := fun (m : Mix) (x : Inputs) (j : Line) => S x.lines[j] (m.contribs[j]).air.cur
  let group := fun (m : Mix) (x : Inputs) (j : Line) => S x.lines[j] (m.contribs[j]).group.ramp.cur
  let talker := fun (x : Inputs) (i : Option Source) =>
    match i with
    | none => 0
    | some i => x.sources[i]
  (∀ (m : Mix) (x y : Inputs) (t : ScreeningTable) (c : LineCtx) (q : CueReturn) (k : Line),
    c.plan.partners.Nodup → k ∉ c.plan.partners →
    (let others := Finset.univ.filter fun j : Line => j ≠ k ∧ j ∉ c.plan.partners
     let r := m.returns[k]
     rawReturn m x t c q k =
       S ((∑ i : Source, S x.sources[i] (m.sources[i]).air.cur) + ∑ j ∈ others, air m x j) r.air.cur +
         S (∑ j ∈ others.filter fun j => (m.contribs[j]).group.index = r.group.index, group m x j) r.group.ramp.cur +
         S x.sources[m.holdFeed] r.hold.cur +
         S (talker x (r.position.bind fun p => (t.positions[p]).talker)) r.screener.cur +
         (if q.winner = none then 0 else S (talker x q.talker) r.cueIn.cur) +
         (if q.outgoing = none then 0 else S (talker x q.outTalker) r.cueOut.cur)) ∧
    (x.sources = y.sources → (∀ j : Line, j ≠ k → j ∉ c.plan.partners → x.lines[j] = y.lines[j]) →
      rawReturn m x t c q k = rawReturn m y t c q k)) ∧
  ∀ (m : Mix) (x : Inputs) (t : ScreeningTable) (ctx : Vector LineCtx 24),
    busOutput m x t ctx 0 = ∑ j : Line, air m x j ∧
    (∀ p : Position,
      let feed := busOutput m x t ctx (Fin.ofNat 8 (p.val + 1))
      let hears := fun j : Line =>
        (t.positions[p]).selected = some j ∧ (ctx[j]).state = .screen ∧ (ctx[j]).position = some p
      (∀ j : Line, hears j → feed = S x.lines[j] (m.contribs[j]).voice) ∧ ((∀ j : Line, ¬hears j) → feed = 0)) ∧
    ∀ g : Group,
      busOutput m x t ctx (Fin.ofNat 8 (g.val + 4)) =
        ∑ j ∈ Finset.univ.filter fun j : Line => (m.contribs[j]).group.index = g, group m x j

/-- A slot word carries its fields: every 24-bit sample, side code and valid flag written into a word is read back from
it, the word's parity is correct, and it is not the sync word. In every word the audio is bits 31 to 8, bit 31 the sign,
the side code bits 7 to 2, the valid flag bit 1, and the parity is correct where bits 31 to 0 hold an odd number of ones.
A NARROW lane reads the audio as 256 times the signed number in bits 31 to 16. An output is carried as it stands on a
WIDE lane, and on a NARROW one as 256 × n, with n the whole part of (out + 128) / 256 rounded down and limited to 16 bits.
A lane frame is 288 bits: the sync word first, and slot j's word from 32 × (j + 1) bit periods on, each word most
significant bit first. -/
def Obligations.SlotRoundTrip : Prop :=
  (∀ w : Word32,
    let top := fun n : Nat => w.toNat / 2 ^ n
    (slotCode w).toNat = top 2 % 64 ∧ (slotValid w = true ↔ top 1 % 2 = 1) ∧
      (parityOk w = true ↔ ((List.range 32).countP fun b => w.getLsbD b) % 2 = 1) ∧
      slotAudio .wide w = (top 8 : Int) - (if w.getLsbD 31 = true then 2 ^ 24 else 0) ∧
      slotAudio .narrow w = 256 * ((top 16 : Int) - (if w.getLsbD 31 = true then 2 ^ 16 else 0))) ∧
  (∀ out n : Int, convertOut .wide out = out ∧
    (256 * n ≤ out + 128 → out + 128 < 256 * (n + 1) →
      convertOut .narrow out = 256 * (if n < -32768 then -32768 else if 32767 < n then 32767 else n))) ∧
  (∀ (a : Int) (code : BitVec 6) (valid : Bool), -8388608 ≤ a → a ≤ 8388607 →
    slotAudio .wide (makeSlot a code valid) = a ∧ slotCode (makeSlot a code valid) = code ∧
      slotValid (makeSlot a code valid) = valid ∧ parityOk (makeSlot a code valid) = true ∧
      makeSlot a code valid ≠ 0xE8E81717) ∧
  ∀ f : SlotWords,
    let bits := frameBits (frameWords f)
    bits.length = 288 ∧ (∀ b < 32, bits[b]? = some ((0xE8E81717#32).getLsbD (31 - b))) ∧
      ∀ (j : Slot) (b : Nat), b < 32 → bits[32 * (j.val + 1) + b]? = some ((f[j]).getLsbD (31 - b))

/-- A group index changes only while the multiplier is 0, and a recomputed target leaves nothing pending when it names the
current index or no group. A multiplier at 0 that is at rest, or whose target was not 0, takes the group that the
recomputed target names, the pending one among them, and is retargeted on it at once. -/
def Obligations.GroupIndexMoves : Prop :=
  ∀ (g : GroupRamp) (want : Option (Group × Int)) (len : Nat),
    ((g.retarget want len).index ≠ g.index → g.ramp.cur = 0 ∧ want.map Prod.fst = some (g.retarget want len).index) ∧
      (g.retarget want len).ramp.cur = g.ramp.cur ∧
      (want = none ∨ want.map Prod.fst = some g.index →
        (g.retarget want len).pending = none ∧ (g.retarget want len).index = g.index) ∧
      ((g.retarget want len).pending ≠ none → (g.retarget want len).ramp.target = 0 ∧
        (g.retarget want len).pending = want.map Prod.fst) ∧
      ∀ h v, want = some (h, v) → g.ramp.cur = 0 → (g.ramp.len ≤ g.ramp.pos ∨ g.ramp.target ≠ 0) →
        (g.retarget want len).index = h ∧ (g.retarget want len).pending = none ∧
          (g.retarget want len).ramp.target = v

/-! ### Lanes (chapter 5) -/

/-- A frame on a LOCKED MASTER lane: a slot word with a parity error presents and keeps the last good sample, gives no
side code and counts; any other gives its side code, and its audio where valid, 0 where not. Nothing else changes; on
any other lane nothing at all does. -/
def Obligations.LaneFrameTaken : Prop :=
  ∀ (s : State) (i : InLane) (f : SlotWords),
    ((s.lrx.lanes[i]).state = .locked → (s.lrx.lanes[i]).setup.clocking = .master →
      ∃ t, exec (.laneFrame i f) s = .next t ∧
        t = { s with lrx := { s.lrx with lanes := s.lrx.lanes.set i t.lrx.lanes[i] } } ∧
        t.lrx.lanes[i] =
          { s.lrx.lanes[i] with
            shown := (t.lrx.lanes[i]).shown, lastGood := (t.lrx.lanes[i]).shown.audio
            parityRepeats :=
              min 65535 ((s.lrx.lanes[i]).parityRepeats + (List.finRange 8).countP fun j => !parityOk f[j]) } ∧
        ∀ j : Slot,
          (parityOk f[j] = false →
            ((t.lrx.lanes[i]).shown.audio[j] = (s.lrx.lanes[i]).lastGood[j] ∧ (t.lrx.lanes[i]).shown.side[j] = none)) ∧
          (parityOk f[j] = true →
            ((t.lrx.lanes[i]).shown.side[j] = some (slotCode f[j]) ∧
              (t.lrx.lanes[i]).shown.audio[j] =
                if slotValid f[j] = true then slotAudio (s.lrx.lanes[i]).setup.width f[j] else 0))) ∧
    ((s.lrx.lanes[i]).state ≠ .locked ∨ (s.lrx.lanes[i]).setup.clocking ≠ .master →
      exec (.laneFrame i f) s = .next s)

/-- An arrival on a LOCKED SLAVE lane joins a buffer of fewer than four frames; one that finds four is discarded with the
oldest and counts an overrun slip. The one read a sample makes of the buffer follows the four cases of the table of
section 5.3; a second read before the sample changes nothing, as does either on a lane not LOCKED and SLAVE. That the
read may come as a command of its own ahead of its sample is the model's (entry 7). -/
def Obligations.ElasticBuffer : Prop :=
  ∀ (s : State) (i : InLane) (f : SlotWords),
    let c := s.lrx.lanes[i]
    ((c.state ≠ .locked ∨ c.setup.clocking ≠ .slave) →
      exec (.elasticArrival i f) s = .next s ∧ exec (.elasticRead i) s = .next s) ∧
    (c.readDone = true → exec (.elasticRead i) s = .next s) ∧
    (c.state = .locked → c.setup.clocking = .slave →
      (∃ t, exec (.elasticArrival i f) s = .next t ∧
        t = { s with lrx := { s.lrx with lanes := s.lrx.lanes.set i t.lrx.lanes[i] } } ∧
        (c.buffer.length < 4 → t.lrx.lanes[i] = { c with buffer := c.buffer ++ [f], frameSeen := true }) ∧
        (4 ≤ c.buffer.length →
          t.lrx.lanes[i] =
            { c with buffer := c.buffer.tail, frameSeen := true, overruns := min 65535 (c.overruns + 1) })) ∧
      (c.readDone = false →
        ∃ t, exec (.elasticRead i) s = .next t ∧
          t = { s with lrx := { s.lrx with lanes := s.lrx.lanes.set i t.lrx.lanes[i] } } ∧
          (t.lrx.lanes[i]).readDone = true ∧
          (c.mode = .flowing → c.buffer = [] →
            t.lrx.lanes[i] =
              { c with mode := .refilling, underruns := min 65535 (c.underruns + 1), readDone := true }) ∧
          (c.mode = .refilling → c.buffer.length < 2 → t.lrx.lanes[i] = { c with readDone := true }) ∧
          (∀ g rest, c.buffer = g :: rest → (c.mode = .flowing ∨ rest ≠ []) →
            t.lrx.lanes[i] = { c.takeFrame g with buffer := rest, mode := .flowing, readDone := true })))

/-- A read by the partner of a RUNNING SLAVE output lane sends its oldest frame, or the previous one again, by the same
table, each behind the sync word; on any other output lane it changes nothing. -/
def Obligations.PartnerReadTaken : Prop :=
  ∀ (s : State) (l : OutLane),
    ((s.ltx.lanes[l]).running = true → (s.ltx.lanes[l]).setup.clocking = .slave →
      ∃ t, exec (.partnerRead l) s = .next t ∧
        t = { s with ltx := { s.ltx with lanes := s.ltx.lanes.set l t.ltx.lanes[l] } } ∧
        ((s.ltx.lanes[l]).mode = .flowing → (s.ltx.lanes[l]).buffer = [] →
          t.ltx.lanes[l] =
            { s.ltx.lanes[l] with
              mode := .refilling, underruns := min 65535 ((s.ltx.lanes[l]).underruns + 1)
              sent := some (frameWords (s.ltx.lanes[l]).previous) }) ∧
        ((s.ltx.lanes[l]).mode = .refilling → (s.ltx.lanes[l]).buffer.length < 2 →
          t.ltx.lanes[l] = { s.ltx.lanes[l] with sent := some (frameWords (s.ltx.lanes[l]).previous) }) ∧
        ∀ f rest, (s.ltx.lanes[l]).buffer = f :: rest → ((s.ltx.lanes[l]).mode = .flowing ∨ rest ≠ []) →
          t.ltx.lanes[l] =
            { s.ltx.lanes[l] with buffer := rest, mode := .flowing, previous := f, sent := some (frameWords f) }) ∧
    (∀ f : SlotWords, (frameWords f)[(0 : Fin 9)] = 0xE8E81717 ∧ ∀ i : Slot, (frameWords f)[i.succ] = f[i]) ∧
    ((s.ltx.lanes[l]).running = false ∨ (s.ltx.lanes[l]).setup.clocking = .master →
      exec (.partnerRead l) s = .next s)

/-- A word of a SEEKING lane's stream: the sync word looked for raises the run and expects the next 288 bit periods later;
the fourth, by either row, locks the lane with every last good sample 0 and an empty refilling buffer, its setup and
its counts kept, and every code of the lane's lines settles afresh: their settle records are clear and no side code
from before the lock is left to be sampled, neither kept nor presented; any other word at a looked-for position
returns the run to 0. A word that is not looked for, or on a lane not SEEKING, changes nothing, and so does LANE_LOCK
with a word that does not lock the lane. That the records are cleared at the lock, and not at the loss alone, is the
model's (entry 8), and so is that the frames between the syncs count as frames of the block (entry 9). -/
def Obligations.SeekingAndLock : Prop :=
  ∀ (s : State) (i : InLane) (p : Nat) (w : Word32),
    (((s.lrx.lanes[i]).state ≠ .seeking ∨ ((s.lrx.lanes[i]).run ≠ 0 ∧ (s.lrx.lanes[i]).expected ≠ p)) →
      exec (.seekingSync i p w) s = .next s ∧ exec (.laneLock i p w) s = .next s) ∧
    ((s.lrx.lanes[i]).run ≠ 3 ∨ w ≠ 0xE8E81717 → exec (.laneLock i p w) s = .next s) ∧
    ((s.lrx.lanes[i]).state = .seeking →
    ((s.lrx.lanes[i]).run = 0 ∨ (s.lrx.lanes[i]).expected = p) → (s.lrx.lanes[i]).run ≤ 3 →
    ∃ t, exec (.seekingSync i p w) s = .next t ∧
      t = { s with lrx := { s.lrx with lanes := s.lrx.lanes.set i t.lrx.lanes[i] }
                   cmap := { s.cmap with records := t.cmap.records } } ∧
      (w ≠ 0xE8E81717 ∨ (s.lrx.lanes[i]).run < 3 → t.cmap = s.cmap) ∧
      (w ≠ 0xE8E81717 → t.lrx.lanes[i] = { s.lrx.lanes[i] with run := 0 }) ∧
      (w = 0xE8E81717 → (s.lrx.lanes[i]).run < 3 →
        t.lrx.lanes[i] = { s.lrx.lanes[i] with run := (s.lrx.lanes[i]).run + 1, expected := p + 288 }) ∧
      (w = 0xE8E81717 → (s.lrx.lanes[i]).run = 3 →
        exec (.laneLock i p w) s = .next t ∧
          t.lrx.lanes[i] =
            { s.lrx.lanes[i] with
              state := .locked, run := 4, expected := p + 288, seeking := 0, lostShown := false, buffer := []
              mode := .refilling, shown := { audio := Vector.replicate 8 0, side := Vector.replicate 8 none }
              lastGood := Vector.replicate 8 0, statusPending := true, sideSample := Vector.replicate 8 none
              frameSeen := true, readDone := false } ∧
          ∀ l : Line, t.cmap.records[l] =
            if l.val / 8 = i.val then { last := none, count := 0, delivered := false } else s.cmap.records[l]))

/-- A LOCKED lane loses lock by a wrong word at an expected sync, and a LOCKED SLAVE lane by a block without a complete
frame: it enters SEEKING at once, with one sync loss, run and seeking count 0, an empty buffer, its flag set and 0
presented, and the settle records of its lines are cleared, those of every other line kept; the side codes of its last
frame are kept as they stood. BLOCK_TICK itself takes a missing sync, too, where no apply is due. Which part of the
tick the row takes is the model's mark (entry 2). -/
def Obligations.LockLost : Prop :=
  (∀ (s : State) (pins : BitVec 16) (follows first : Bool) (i : InLane),
      (s.intake.phase ≠ .ready ∨ s.inst.begun = true) →
    s.inst.lanes[i] = false → (s.lrx.lanes[i]).state = .locked → (s.lrx.lanes[i]).setup.clocking = .slave →
    (s.lrx.lanes[i]).frameSeen = false →
    ∃ t, exec (.blockTick pins ⟨follows, first⟩) s = .next t ∧
      (t.lrx.lanes[i]).state = .seeking ∧ (t.lrx.lanes[i]).run = 0 ∧ (t.lrx.lanes[i]).seeking = 0 ∧
      (t.lrx.lanes[i]).buffer = [] ∧ (t.lrx.lanes[i]).setup = (s.lrx.lanes[i]).setup ∧
      (t.lrx.lanes[i]).syncLosses = min 65535 ((s.lrx.lanes[i]).syncLosses + 1) ∧
      ∀ j : Slot, (t.lrx.lanes[i]).present j = 0) ∧
  ∀ (s : State) (i : InLane) (cause : LockLoss), (s.lrx.lanes[i]).state = .locked →
    ((∃ w, cause = .wrongSync w ∧ w ≠ 0xE8E81717) ∨
      (cause = .missingSync ∧ (s.lrx.lanes[i]).setup.clocking = .slave ∧ (s.lrx.lanes[i]).frameSeen = false)) →
    ∃ t, exec (.lossOfLock i cause) s = .next t ∧
      t = { s with lrx := { s.lrx with lanes := s.lrx.lanes.set i t.lrx.lanes[i] },
                   cmap := { s.cmap with records := t.cmap.records }, inst := t.inst } ∧
      (∀ w, cause = .wrongSync w → t.inst = s.inst) ∧
      (t.lrx.lanes[i]).state = .seeking ∧ (t.lrx.lanes[i]).run = 0 ∧ (t.lrx.lanes[i]).seeking = 0 ∧
      (t.lrx.lanes[i]).buffer = [] ∧ (t.lrx.lanes[i]).statusPending = true ∧
      (t.lrx.lanes[i]).syncLosses = min 65535 ((s.lrx.lanes[i]).syncLosses + 1) ∧
      (t.lrx.lanes[i]).setup = (s.lrx.lanes[i]).setup ∧
      (t.lrx.lanes[i]).overruns = (s.lrx.lanes[i]).overruns ∧
      (t.lrx.lanes[i]).underruns = (s.lrx.lanes[i]).underruns ∧
      (t.lrx.lanes[i]).parityRepeats = (s.lrx.lanes[i]).parityRepeats ∧
      (t.lrx.lanes[i]).sideSample = (s.lrx.lanes[i]).sideSample ∧
      (∀ j : Slot, (t.lrx.lanes[i]).present j = 0) ∧
      ∀ l : Line, t.cmap.records[l] =
        if l.val / 8 = i.val then { last := none, count := 0, delivered := false } else s.cmap.records[l]

/-- The reference monitor: the 64th consecutive block locks it, a lost reference unlocks a LOCKED monitor and holds its
clock, and each change of the lock sets REF; nothing else changes, but for the model's mark that no round begins at
the tick before any more (entry 2). At each BLOCK_TICK a block in which the clock has followed the reference raises
the count of an UNLOCKED monitor, up to the lock; a block in which it has not unlocks the monitor and begins the count
again. That the command says which, and that an earlier REF_UNLOCK in the block counts as such a block, are the
model's (entry 19). -/
def Obligations.ReferenceLock : Prop :=
  (∀ s : State,
    (s.ref.locked = false → s.ref.failed = false → s.ref.count = 63 →
      ∃ t, exec .refLock s = .next t ∧
        t = { s with ref := t.ref, link := s.link.raise 0x80000000, inst := { s.inst with other := true } } ∧
        t.ref.locked = true ∧ t.ref.clock = .following) ∧
    (∃ t, exec .refUnlock s = .next t ∧
      t = { s with ref := t.ref, link := if s.ref.locked = true then s.link.raise 0x80000000 else s.link } ∧
      t.ref.locked = false ∧ t.ref.count = 0 ∧
      t.ref.clock = if s.ref.locked = true then .held else s.ref.clock)) ∧
  ∀ (s : State) (pins : BitVec 16) (follows first : Bool),
    ∃ t, exec (.blockTick pins ⟨follows, first⟩) s = .next t ∧
      (follows = true → s.ref.failed = false →
        (s.ref.locked = true → t.ref = s.ref) ∧
        (s.ref.locked = false → s.ref.count + 1 < 64 → t.ref = { s.ref with count := s.ref.count + 1 }) ∧
        (s.ref.locked = false → 64 ≤ s.ref.count + 1 → t.ref.locked = true ∧ t.ref.clock = .following)) ∧
      (follows = false ∨ s.ref.failed = true →
        t.ref = { locked := false, count := 0, failed := false
                  clock := if s.ref.locked = true then .held else s.ref.clock }) ∧
      t.link.notice = s.link.notice ||| (if t.ref.locked = s.ref.locked then 0 else 0x80000000)

/-! ### The block tick (chapters 1 to 3 and 7) -/

/-- A block tick raises the block count by one, begins the next tick afresh, and leaves host memory and the queue. A
STOPPED engine becomes ACTIVE where the enable is 1 and bus mastering is permitted, and stays STOPPED otherwise; any
other engine state stays. No round begins while one is in progress or while the engine is STOPPED, and a round may
begin at the tick after BLOCK_TICK only where none was in progress at it, none was begun by it, and the engine is not
STOPPED. A line status record of a round begun at it shows the block count and the cue winner after the tick, and the
line after its events of the tick; or, where the snapshots are taken before those events, a line that has one before it,
with the tick's plain decrease of its counts alone and its flag set again by the event, and every other line as it stands
after the tick, with level codes, threshold and partner set as applied at it. A lane status record shows its lane in the
same way. The part state record shows the part after the tick in either order. The marks of what a tick has taken, that
the command says which of the two orders is taken, and that the arrival counter is shown after the arrivals of the tick
in both, are the model's own (entry 2). No clip total changes, and the peaks restart at 0 where a round with meters begins
and else stand. The windows, the mask, the miss count, memory enable and configuration space stand. Where no apply is
taken, every setting stands: lane hold and every output lane, the lane setups, the screening and code tables, the timing;
and an input lane that is OFF, or LOCKED and not missing its sync, stands with what it presents, its buffer and its
counts. The status flags of lanes change there only where a round is begun. -/
def Obligations.BlockTickCounts : Prop :=
  ∀ (s : State) (pins : BitVec 16) (follows first : Bool), ∃ t, exec (.blockTick pins ⟨follows, first⟩) s = .next t ∧
    t.report.blockCount = s.report.blockCount + 1 ∧ t.inst = { Instant.none with roundOpen := t.inst.roundOpen } ∧
    t.hostMem = s.hostMem ∧ t.pending = s.pending ∧
    (s.link.engine ≠ .stopped → t.link.engine = s.link.engine) ∧
    (s.link.engine = .stopped → s.link.memEnable = true → s.link.busMaster = true → t.link.engine = .active) ∧
    (s.link.engine = .stopped → s.link.memEnable = false ∨ s.link.busMaster = false → t.link.engine = .stopped) ∧
    (∀ r, s.report.round = some r → t.report.round = some r) ∧
    (t.link.engine = .stopped → s.report.round = none → t.report.round = none) ∧
    (t.inst.roundOpen = true → s.report.round = none ∧ t.report.round = none ∧ t.link.engine ≠ .stopped) ∧
    (let restarted := ∃ r, s.report.round = none ∧ t.report.round = some r ∧ r.meters = true
     let peak := fun n n' : Nat => (restarted → n' = 0) ∧ (¬restarted → n' = n)
     (∀ i : Source, peak (s.mix.sources[i]).peak (t.mix.sources[i]).peak) ∧
     (∀ l : Line, peak (s.mix.contribs[l]).peak (t.mix.contribs[l]).peak ∧
       peak (s.mix.returns[l]).peak (t.mix.returns[l]).peak ∧ (t.mix.returns[l]).clip = (s.mix.returns[l]).clip) ∧
     ∀ i : Slot, peak (s.mix.outputs[i]).peak (t.mix.outputs[i]).peak ∧
       (t.mix.outputs[i]).clip = (s.mix.outputs[i]).clip) ∧
    t.link =
      { s.link with
        post := t.link.post, notice := t.link.notice, engine := t.link.engine, read := t.link.read
        stale := t.link.stale, messages := t.link.messages, lastMessage := t.link.lastMessage
        beforeEvent := t.link.beforeEvent } ∧
    ((s.intake.phase ≠ .ready ∨ s.inst.begun = true) →
      t.mix = { s.mix with sources := t.mix.sources, contribs := t.mix.contribs, returns := t.mix.returns,
                           outputs := t.mix.outputs } ∧
      (∀ i : Source, (t.mix.sources[i]).airCode = (s.mix.sources[i]).airCode) ∧
      t.line = { s.line with ctx := t.line.ctx } ∧ t.scrn = { s.scrn with arrivals := t.scrn.arrivals } ∧
      t.cmap = { s.cmap with records := t.cmap.records } ∧ t.lrx = { s.lrx with lanes := t.lrx.lanes } ∧
      t.ltx = { s.ltx with lanes := t.ltx.lanes } ∧
      t.report = { s.report with
        blockCount := t.report.blockCount, meterCounter := t.report.meterCounter, due := t.report.due
        verdicts := t.report.verdicts, fullRequest := t.report.fullRequest, round := t.report.round } ∧
      (t.report.round = s.report.round →
        t.report.verdicts = s.report.verdicts ∧ t.report.fullRequest = s.report.fullRequest ∧ t.ltx = s.ltx) ∧
      (∀ o : OutLane,
        t.ltx.lanes[o] = { s.ltx.lanes[o] with statusPending := (t.ltx.lanes[o]).statusPending }) ∧
      ∀ i : InLane,
        let c := s.lrx.lanes[i]
        c.state = .off ∨ (c.state = .locked ∧
          (c.setup.clocking = .master ∨ c.frameSeen = true ∨ s.inst.lanes[i] = true)) →
        t.lrx.lanes[i] =
          { c with
            lostShown := false, statusPending := (t.lrx.lanes[i]).statusPending, frameSeen := false
            sideSample := Vector.replicate 8 none } ∧
        (t.report.round = s.report.round → c.lostShown = false →
          (t.lrx.lanes[i]).statusPending = c.statusPending)) ∧
    ∀ r, s.report.round = none → t.report.round = some r → ∀ x ∈ r.todo,
      (x.kind = .part → x.body = partBody t t.report.blockCount) ∧
      (∀ e : Fin 9, x.kind = .lane e →
        (first = false → lanePending t e = false) ∧
        (lanePending t e = false → x.body = laneBody t e) ∧ (lanePending t e = true → x.body = laneBody s e)) ∧
      ∀ l : Line, x.kind = .line l →
        let winner := (t.cue.returns[l]).winner
        (first = false ∨ (s.inst.lines[l] = true ∧ LineCtx.sound l s.line.ctx[l] = true) →
          (t.line.ctx[l]).reportPending = false) ∧
        ((t.line.ctx[l]).reportPending = false → x.body = lineBody l t.line.ctx[l] winner t.report.blockCount) ∧
        ((t.line.ctx[l]).reportPending = true →
          ∃ c : LineCtx, x.body = lineBody l c winner t.report.blockCount ∧
            c = { s.line.ctx[l] with lossCount := c.lossCount, shadowCount := c.shadowCount } ∧
            c.shadowCount =
              (if (s.line.ctx[l]).shadowCount ≤ 1 then (s.line.ctx[l]).shadowCount
               else (s.line.ctx[l]).shadowCount - 1) ∧
            c.lossCount =
              (if (s.line.ctx[l]).state ≠ .lost ∨ (s.line.ctx[l]).lossCount ≤ 1 then (s.line.ctx[l]).lossCount
               else (s.line.ctx[l]).lossCount - 1)) ∧
        (first = true → (t.line.ctx[l]).state ≠ (s.line.ctx[l]).state ∨
            (t.line.ctx[l]).plan.role ≠ (s.line.ctx[l]).plan.role ∨
            (t.line.ctx[l]).condition ≠ (s.line.ctx[l]).condition →
          (t.line.ctx[l]).reportPending = true)

/-- At a block tick each key not taken ahead of it is sampled: a raw state equal to the debounced one clears the run; one
that differs raises it, and the fourth changes the debounced state. A valid route takes the event of its key as its
mode gives; a route that no event moves keeps its activity, but that a hold count not loaded at this tick falls by one
at a slow tick, to IDLE at 0. An invalid route is IDLE. A route replaced at the tick takes no event and restarts from
its key as it stands after the tick. Where an apply is due at the tick, the soft keys, the entries and the routes
replaced are those after it, as APPLY gives them; where none is due, APPLY changes nothing. -/
def Obligations.BlockTickKeys : Prop :=
  ∀ (v s t : State) (pins : BitVec 16) (follows first : Bool),
    exec (.blockTick pins ⟨follows, first⟩) v = .next t → exec .apply v = .next s →
    let raw := fun k : Key => pins.getLsbD k.val || (s.cue.keys[k]).soft
    (∀ k : Key, s.inst.keys[k] = false → (s.cue.keys[k]).run ≤ 3 →
      (t.cue.keys[k]).soft = (s.cue.keys[k]).soft ∧
      (raw k = (s.cue.keys[k]).down → (t.cue.keys[k]).down = (s.cue.keys[k]).down ∧ (t.cue.keys[k]).run = 0) ∧
      (raw k ≠ (s.cue.keys[k]).down → (s.cue.keys[k]).run < 3 →
        (t.cue.keys[k]).down = (s.cue.keys[k]).down ∧ (t.cue.keys[k]).run = (s.cue.keys[k]).run + 1) ∧
      (raw k ≠ (s.cue.keys[k]).down → (s.cue.keys[k]).run = 3 →
        (t.cue.keys[k]).down = raw k ∧ (t.cue.keys[k]).run = 0)) ∧
    ∀ r : Route,
      let x := s.cue.routes[r]
      let k := s.cue.keys[x.entry.key]
      let event := s.inst.keys[x.entry.key] = false ∧ raw x.entry.key ≠ k.down ∧ k.run = 3
      let pressed := event ∧ k.down = false
      let released := event ∧ k.down = true
      let letGo := { x with activity := if x.entry.hold = 0 then .idle else .holding, holdCount := x.entry.hold.val }
      let counts := x.activity = .holding ∧ (s.report.blockCount + 1).toNat % 16 = 0 ∧ s.inst.holds[r] = false
      (x.entry.valid = false → t.cue.routes[r] = { x with activity := .idle, holdCount := 0 }) ∧
      (x.entry.valid = true → s.inst.replaced[r] = true →
        t.cue.routes[r] =
          { x with
            activity :=
              if x.entry.mode = .momentary ∧ (t.cue.keys[x.entry.key]).down = true then .active else .idle
            holdCount := 0 }) ∧
      (x.entry.valid = true → s.inst.replaced[r] = false → k.run ≤ 3 →
        (x.entry.mode = .momentary → pressed → t.cue.routes[r] = { x with activity := .active, holdCount := 0 }) ∧
        (x.entry.mode = .momentary → released → x.activity = .active → t.cue.routes[r] = letGo) ∧
        (x.entry.mode = .latch → pressed → x.activity ≠ .latched →
          t.cue.routes[r] = { x with activity := .latched, holdCount := 0 }) ∧
        (x.entry.mode = .latch → pressed → x.activity = .latched → t.cue.routes[r] = letGo) ∧
        (¬pressed → ¬(released ∧ x.entry.mode = .momentary ∧ x.activity = .active) →
          (¬counts → t.cue.routes[r] = x) ∧
          (counts → x.holdCount ≤ 1 → t.cue.routes[r] = { x with activity := .idle, holdCount := 0 }) ∧
          (counts → 1 < x.holdCount → t.cue.routes[r] = { x with holdCount := x.holdCount - 1 })))

/-- After every block tick the return of a VACANT line has neither winner nor outgoing route and duck kind NONE. Any other
return's winner is a valid claiming route that covers its line, of the highest priority and then the lowest index, or
none if there is no such route; and its duck kind follows from the winner's priority and the line's threshold. A
target LINE covers the line of its number in any state but VACANT, GROUP a line in CONFER on the group, AIR a line in
AIR, SCREENING a line in SCREEN with the position, selected or waiting, and ALL every line not VACANT. All are read as
they stand after the tick. -/
def Obligations.BlockTickArbitrates : Prop :=
  ∀ (s t : State) (pins : BitVec 16) (follows first : Bool) (k : Line), exec (.blockTick pins ⟨follows, first⟩) s = .next t →
    let c := t.line.ctx[k]
    let position :=
      match c.plan.role with
      | .screen p => some p
      | .auto => c.autoScreener
      | .off | .hold | .air | .confer _ => none
    let covered := fun target : Target =>
      match target with
      | .line n => n = k ∧ c.state ≠ .vacant
      | .group g => c.state = .confer ∧ c.plan.role = .confer g
      | .air => c.state = .air
      | .screening p => c.state = .screen ∧ position = some p
      | .all => c.state ≠ .vacant
    let candidate := fun r : Route =>
      (t.cue.routes[r]).entry.valid = true ∧ (t.cue.routes[r]).activity ≠ .idle ∧ covered (t.cue.routes[r]).entry.target
    ((t.line.ctx[k]).state = .vacant →
      (t.cue.returns[k]).winner = none ∧ (t.cue.returns[k]).outgoing = none ∧ (t.cue.returns[k]).duck = .none) ∧
    ((t.line.ctx[k]).state ≠ .vacant →
      ((t.cue.returns[k]).winner = none → (∀ r, ¬candidate r) ∧ (t.cue.returns[k]).duck = .none) ∧
      ∀ w, (t.cue.returns[k]).winner = some w →
        candidate w ∧
        (∀ r, candidate r → (t.cue.routes[r]).entry.priority < (t.cue.routes[w]).entry.priority ∨
          ((t.cue.routes[r]).entry.priority = (t.cue.routes[w]).entry.priority ∧ w ≤ r)) ∧
        (t.cue.returns[k]).duck =
          if (t.cue.routes[w]).entry.priority.val < (t.line.ctx[k]).plan.threshold.val then .duck else .interrupt)

/-- After every block tick the target of each membership, source and program multiplier is the one that the lines, codes
and cue give as they stand after the tick; a group-indexed one whose index is not its group's has target 0 and that
group pending. A return's terms are those of the table of compositions: none in VACANT and PARKED; the hold term at
the bed level and the screener term at the position's talk level in SCREEN, selected; the hold term at the hold level
in SCREEN, waiting, and in HOLD; the air term at the return level in SHADOW and AIR; the air term at the confer-air
level and the group term at the return level in CONFER; and in LOST those of the line's connected state. The screener
term of a return reads the position of a line of role SCREEN, and the auto screener, or none, of a line of role AUTO; on
a line of any other role it reads on the position it read before, which is the model's (entry 31). The gain law:
code 0 is mute, and a code above 0 stands for 8,388,608 × 10^((c − 200)/40), so 0.5 dB for each code, to the nearest
integer m with halves up; that is (2m − 1)^40 ≤ 2^960 × 10^(c − 200) < (2m + 1)^40, stated with 10^200 on both sides. -/
def Obligations.BlockTickTargets : Prop :=
  (mult 0 = 0 ∧ ∀ c : GainCode, 0 < c.val →
    let m := (mult c).toNat
    mult c = m ∧ 0 < m ∧ (2 * m - 1) ^ 40 * 10 ^ 200 ≤ (2 ^ 240) ^ 4 * 10 ^ c.val ∧
      (2 ^ 240) ^ 4 * 10 ^ c.val < (2 * m + 1) ^ 40 * 10 ^ 200) ∧
  ∀ (s t : State) (pins : BitVec 16) (follows first : Bool), exec (.blockTick pins ⟨follows, first⟩) s = .next t →
    (∀ i : Source, (t.mix.sources[i]).air.target = mult (t.mix.sources[i]).airCode) ∧
    (∀ l : Line,
      let b := t.mix.contribs[l]
      b.voice = mult (t.line.ctx[l]).plan.levels.voice ∧
      b.air.target = (if (t.line.ctx[l]).state = .air then b.voice else 0) ∧
      ((t.line.ctx[l]).state ≠ .confer → b.group.ramp.target = 0) ∧
      ∀ g, (t.line.ctx[l]).state = .confer → (t.line.ctx[l]).plan.role = .confer g →
        (b.group.index = g → b.group.ramp.target = b.voice ∧ b.group.pending = none) ∧
          (b.group.index ≠ g → b.group.ramp.target = 0 ∧ b.group.pending = some g)) ∧
    ∀ k : Line,
      let c := t.line.ctx[k]
      let v := c.plan.levels
      let position :=
        match c.plan.role with
        | .screen p => some p
        | .auto => c.autoScreener
        | .off | .hold | .air | .confer _ => none
      let connected : LineState :=
        match c.plan.role with
        | .off => .parked
        | .air => .air
        | .confer _ => .confer
        | .hold => if c.shadowCount = 0 then .hold else .shadow
        | .screen _ => if c.shadowCount = 0 then .screen else .shadow
        | .auto => if c.shadowCount ≠ 0 then .shadow else if position = none then .hold else .screen
      let talkLevel : Option GainCode :=
        match position with
        | none => none
        | some p =>
          if (t.scrn.table.positions[p]).selected = some k then some (t.scrn.table.positions[p]).level else none
      let p : Composition :=
        match if c.state = .lost then connected else c.state with
        | .vacant | .parked | .lost => { air := none, group := none, hold := none, screener := none }
        | .screen =>
          { air := none, group := none, hold := some (if talkLevel = none then v.hold else v.bed), screener := talkLevel }
        | .hold => { air := none, group := none, hold := some v.hold, screener := none }
        | .shadow | .air => { air := some v.ret, group := none, hold := none, screener := none }
        | .confer =>
          { air := some v.conferAir, hold := none, screener := none
            group := match c.plan.role with
              | .confer g => some (g, v.ret)
              | .off | .auto | .screen _ | .hold | .air => none }
      let d := v.duck
      let r := t.mix.returns[k]
      let target := fun code : Option GainCode =>
        match code, (t.cue.returns[k]).duck with
        | none, _ => 0
        | some c, .none => mult c
        | some c, .duck => min ((mult c * mult d + 4194304) / 8388608) (mult 255)
        | some _, .interrupt => 0
      r.air.target = target p.air ∧ r.hold.target = target p.hold ∧ r.screener.target = target p.screener ∧
        (p.group = none → r.group.ramp.target = 0) ∧
        (∀ g c, p.group = some (g, c) →
          (r.group.index = g → r.group.ramp.target = target (some c) ∧ r.group.pending = none) ∧
            (r.group.index ≠ g → r.group.ramp.target = 0 ∧ r.group.pending = some g)) ∧
        r.duck = (t.cue.returns[k]).duck ∧
        r.position =
          match c.plan.role with
          | .screen p => some p
          | .auto => c.autoScreener
          | .off | .hold | .air | .confer _ => (s.mix.returns[k]).position

/-- The ramps at a block tick. A multiplier whose target stays goes on as it was; one whose new target is the value at
which it stands stops there; any other starts a fresh ramp from the value at which it stands, whatever course it was on.
The length is the main length for the air and group memberships and for the studio sources; for a program term it is the
cue length where the duck kind changed at the tick, but for a line that is VACANT after it, and the main length otherwise.
A group multiplier whose index changes stands at 0 and starts from there; so does one whose pending group was taken ahead
of the tick, which the tick takes anew (entry 2). The lengths are those after the tick.
The cue crossfade on a return that is not VACANT after the tick. The routes replaced are those marked before
the tick and those that an apply taken at it replaces, as APPLY gives them. A
winner that is displaced, or whose route was replaced, becomes the outgoing route with the talker it had; qOut starts
from the value qCur held, toward 0 over the cue length, whatever route was outgoing before: that one is cut. A new
winner's qCur stands at 0 with the target m(cue code) over the cue length. A winner that stays is retargeted to its
code from where it stands, and without a new outgoing route the old one goes on until its fade has ended. The talker
that a winner had is held by the model (entry 20); that qOut starts a ramp of the cue length also where qCur stands at 0
is the model's reading (entry 12). -/
def Obligations.CueCrossfade : Prop :=
  ∀ (s a t : State) (pins : BitVec 16) (follows first : Bool),
    exec (.blockTick pins ⟨follows, first⟩) s = .next t → exec .apply s = .next a →
    let cueLen := 48 * t.mix.cueBlocks
    let mainLen := 48 * t.mix.mainBlocks
    let moves := fun (x x' : Ramp) (len : Nat) =>
      (x'.target = x.target → x' = x) ∧
      (x'.target ≠ x.target → x'.target = x.cur → x'.cur = x.cur ∧ x'.start = x.cur ∧ x'.len ≤ x'.pos) ∧
      (x'.target ≠ x.target → x'.target ≠ x.cur →
        x' = { cur := x.cur, start := x.cur, target := x'.target, len := len, pos := 0 })
    let groupMoves := fun (g g' : GroupRamp) (taken : Option Group) (len : Nat) =>
      (taken = none → g'.index = g.index → moves g.ramp g'.ramp len) ∧
      (taken = none → g'.index ≠ g.index → g.ramp.cur = 0) ∧
      (taken ≠ none ∨ g'.index ≠ g.index →
        g'.ramp.cur = 0 ∧ (g'.ramp.target = 0 → g'.ramp.len ≤ g'.ramp.pos) ∧
          (g'.ramp.target ≠ 0 → g'.ramp = { cur := 0, start := 0, target := g'.ramp.target, len := len, pos := 0 }))
    (∀ i : Source, moves (s.mix.sources[i]).air (t.mix.sources[i]).air mainLen) ∧
    (∀ l : Line, moves (s.mix.contribs[l]).air (t.mix.contribs[l]).air mainLen ∧
      groupMoves (s.mix.contribs[l]).group (t.mix.contribs[l]).group s.inst.members[l] mainLen) ∧
    (∀ k : Line,
      let m := s.mix.returns[k]
      let m' := t.mix.returns[k]
      let len := if m'.duck ≠ m.duck ∧ (t.line.ctx[k]).state ≠ .vacant then cueLen else mainLen
      moves m.air m'.air len ∧ moves m.hold m'.hold len ∧ moves m.screener m'.screener len ∧
        groupMoves m.group m'.group s.inst.terms[k] len) ∧
    ∀ k : Line, (t.line.ctx[k]).state ≠ .vacant →
      let q := s.cue.returns[k]
      let q' := t.cue.returns[k]
      let m := s.mix.returns[k]
      let m' := t.mix.returns[k]
      let code := fun w : Route => mult (t.cue.routes[w]).entry.cueCode
      let replaced := ∃ w, q.winner = some w ∧ a.inst.replaced[w] = true
      let ended := q.outgoing.isSome = true ∧ m.cueOut.cur = 0 ∧ m.cueOut.len ≤ m.cueOut.pos
      let risen := ∀ n, q'.winner = some n →
        m'.cueIn.cur = 0 ∧ m'.cueIn.target = code n ∧
          (code n ≠ 0 → m'.cueIn = { cur := 0, start := 0, target := code n, len := cueLen, pos := 0 })
      let goesOn :=
        (ended → q'.outgoing = none ∧ q'.outTalker = none ∧ m'.cueOut.cur = 0 ∧ m'.cueOut.target = 0) ∧
          (¬ended → q'.outgoing = q.outgoing ∧ q'.outTalker = q.outTalker ∧
            (q.outgoing.isSome = true → m'.cueOut = m.cueOut))
      (∀ w, q'.winner = some w → q'.talker = some (t.cue.routes[w]).entry.talker) ∧
      (q'.winner = none → m'.cueIn.cur = 0 ∧ m'.cueIn.target = 0) ∧
      (∀ w, q.winner = some w → q'.winner ≠ some w ∨ replaced →
        q'.outgoing = some w ∧ q'.outTalker = q.talker ∧
          m'.cueOut = { cur := m.cueIn.cur, start := m.cueIn.cur, target := 0, len := cueLen, pos := 0 } ∧ risen) ∧
      (q.winner = none → risen ∧ goesOn) ∧
      (∀ w, q.winner = some w → q'.winner = some w → ¬replaced →
        m'.cueIn.target = code w ∧ moves m.cueIn m'.cueIn cueLen ∧ goesOn)

/-- A block tick that delivers nothing to a line and applies nothing: a running shadow count falls by one in every state,
a LOST line's loss count falls by one and makes it VACANT at 0, and a line in SHADOW leaves it at 0. -/
def Obligations.BlockTickLineCounts : Prop :=
  ∀ (s t : State) (pins : BitVec 16) (follows first : Bool) (l : Line), exec (.blockTick pins ⟨follows, first⟩) s = .next t →
    (s.intake.phase ≠ .ready ∨ s.inst.begun = true) → s.inst.lines[l] = false → s.delivery l = none →
    LineCtx.sound l s.line.ctx[l] = true →
    let c := s.line.ctx[l]
    let c' := t.line.ctx[l]
    c'.plan = c.plan ∧ c'.condition = c.condition ∧ c'.lostFrom = c.lostFrom ∧
    c'.shadowCount = c.shadowCount - 1 ∧
    (c.state = .lost → c'.lossCount = c.lossCount - 1 ∧
      c'.state = if c.lossCount = 1 then .vacant else .lost) ∧
    (c.state ≠ .lost → c'.lossCount = 0) ∧
    (c.state = .shadow → c'.state = if c.shadowCount = 1 then connectedState c.plan.role 0 c.autoScreener else .shadow) ∧
    (c.state ≠ .lost → c.state ≠ .shadow → c'.state = c.state)

/-- A BLOCK_TICK that takes no apply gives every line not taken ahead of it its tick, with what CMAP delivers for it: the
shadow count of a line that leaves air starts at the dump depth plus the shadow margin, at most 65535, the loss count
at the hold-off, and an arrival reads the screening table, each as it stands after the tick. (The model's are the marks
of what was taken ahead, entry 2, the parts that put off an apply, entry 3, and its reading that the last side-code
sample of a lane not LOCKED after the tick leaves nothing, entry 8.) The connected state is that of the table of roles
and counts, and an arrival is answered the entry of the spread table at its number modulo the spread size, or NONE where
the entry names no position or a disabled one.

At any record applied, condition delivered and change of depth: a connected line delivered
another condition enters LOST with its loss count at the hold-off, lost-from the state it left, and a shadow count
started exactly if it left AIR. A LOST line delivered CONNECTED, a VACANT line delivered CONNECTED and a connected
line take the connected state of the role applied, of the count and of the auto screener after the tick; the shadow
count is cleared in AIR, started by a role change out of AIR, and otherwise moved by the change of depth and the
tick's decrease. An AUTO line connecting from VACANT, or changed to AUTO while connected, takes an arrival; no other
does. A role change of a VACANT or LOST line moves no state. A VACANT or LOST line delivered another condition records
it, and a LOST line's loss count falls by one whatever is delivered, a repeated DISCONNECTED too, to VACANT without
its auto screener at 0. A line is marked for its status record by a change of state, of the recorded condition or of
the role, by a delivery that carries notify, by the loss of its auto screener, and by a shadow count that starts, ends
or is adjusted; by nothing else. -/
def Obligations.LossAndReconnection : Prop :=
  (∀ (s t : State) (pins : BitVec 16) (follows first : Bool), exec (.blockTick pins ⟨follows, first⟩) s = .next t →
    (s.intake.phase ≠ .ready ∨ s.inst.begun = true) →
    let input : Vector LineInput 24 := Vector.ofFn fun l =>
      if s.inst.lines[l] = true then { plan := none, delivery := none, counted := false }
      else { plan := none, delivery := s.deliveredAt t (s.heldAt t l) l, counted := true }
    let lines := linesTick (s.envAt t) s.line.ctx input s.scrn.arrivals
    t.scrn.arrivals = arrivalsTick s.line.ctx input s.scrn.arrivals ∧
    ∀ l : Line, s.delivery l = s.deliveredAt t (s.heldAt t l) l ∧
      t.line.ctx[l] = { lines[l] with reportPending := (t.line.ctx[l]).reportPending } ∧
      (t.report.round = s.report.round → (t.line.ctx[l]).reportPending = (lines[l]).reportPending)) ∧
  (∀ (role : Role) (count : Nat) (auto : Option Position),
    connectedState role count auto =
      match role with
      | .off => .parked
      | .air => .air
      | .confer _ => .confer
      | .hold => if count = 0 then .hold else .shadow
      | .screen _ => if count = 0 then .screen else .shadow
      | .auto => if count ≠ 0 then .shadow else if auto = none then .hold else .screen) ∧
  (∀ (e : LineEnv) (l : Line) (c : LineCtx) (n : BitVec 8), LineCtx.sound l c = true → e.delta = 0 →
    lineTick e c { plan := none, delivery := none, counted := false } n = c) ∧
  (∀ (table : ScreeningTable) (n : BitVec 8) (i : Fin 16), i.val = n.toNat % 2 ^ table.spreadBits →
    (table.spread[i] = none → arrivalAnswer table n = none) ∧
    ∀ p, table.spread[i] = some p →
      arrivalAnswer table n = if (table.positions[p]).talker = none then none else some p) ∧
  ∀ (e : LineEnv) (l : Line) (c : LineCtx) (plan : Option LinePlan) (d : Option Delivery) (n : BitVec 8),
    LineCtx.sound l c = true →
    let t := lineTick e c { plan := plan, delivery := d, counted := true } n
    let p := plan.getD c.plan
    let changed := p.role ≠ c.plan.role
    let running :=
      if c.shadowCount = 0 then 0 else (max 0 (min 65535 ((c.shadowCount : Int) + e.delta))).toNat - 1
    let kept := t.arrivalNumber = c.arrivalNumber ∧
      t.autoScreener = if c.plan.role = .auto ∧ p.role ≠ .auto then none else c.autoScreener
    let arrives := t.arrivalNumber = some n ∧ t.autoScreener = arrivalAnswer e.table n ∧ t.reportPending = true
    t.plan = p ∧
    (c.state.connected = true → ∀ x, d = some x → x.condition ≠ .connected →
      t.state = .lost ∧ t.lossCount = e.holdoff ∧ t.lostFrom = some c.state ∧ t.condition = x.condition ∧
      t.reportPending = true ∧ kept ∧ t.shadowCount = if c.state = .air then e.shadowStart else running) ∧
    (c.state = .lost → ∀ x, d = some x → x.condition = .connected →
      t.state = connectedState p.role t.shadowCount t.autoScreener ∧ t.lossCount = 0 ∧ t.lostFrom = none ∧
      t.shadowCount = (if p.role = .air then 0 else running) ∧ kept ∧ t.reportPending = true ∧
      t.condition = .connected) ∧
    (c.state = .vacant → ∀ x, d = some x → x.condition = .connected →
      t.state = connectedState p.role t.shadowCount t.autoScreener ∧ t.lossCount = 0 ∧ t.lostFrom = none ∧
      t.shadowCount = (if p.role = .air then 0 else running) ∧ (p.role = .auto → arrives) ∧
      (p.role ≠ .auto → kept) ∧ t.reportPending = true ∧ t.condition = .connected) ∧
    (c.state.connected = true → (∀ x, d = some x → x.condition = .connected) →
      t.state = connectedState p.role t.shadowCount t.autoScreener ∧ t.lostFrom = c.lostFrom ∧
      t.condition = .connected ∧ t.lossCount = 0 ∧
      t.shadowCount = (if p.role = .air then 0 else if c.state = .air then e.shadowStart else running) ∧
      (p.role = .auto → changed → arrives) ∧ (p.role ≠ .auto ∨ ¬changed → kept) ∧
      (changed → t.reportPending = true)) ∧
    (c.state.connected = false → (∀ x, d = some x → x.condition ≠ .connected) →
      t.state = (if c.state = .lost ∧ c.lossCount ≠ 1 then .lost else .vacant) ∧ t.shadowCount = running ∧
      t.arrivalNumber = c.arrivalNumber ∧ t.lostFrom = c.lostFrom ∧
      t.lossCount = (if c.state = .lost then c.lossCount - 1 else 0) ∧
      t.condition = (match d with
        | none => c.condition
        | some x => x.condition) ∧
      t.autoScreener =
        if (c.state = .lost ∧ c.lossCount = 1) ∨ (c.plan.role = .auto ∧ p.role ≠ .auto) then none else c.autoScreener) ∧
    (t.reportPending = true ↔
      c.reportPending = true ∨ t.state ≠ c.state ∨ t.condition ≠ c.condition ∨ (∃ x, d = some x ∧ x.notify = true) ∨
        changed ∨ (c.autoScreener.isSome = true ∧ t.autoScreener = none) ∨
        (c.shadowCount ≠ 0 ∧ (t.shadowCount = 0 ∨ (e.delta ≠ 0 ∧ t.state ≠ .air))))

/-- Arrivals at one tick are served in ascending line number: each line that takes one records the counter advanced by the
arrivals of the lines below it, and the counter ends advanced once for each. An arrival is taken by an AUTO line that
is delivered CONNECTED while VACANT, and by a connected line whose role is changed to AUTO and that does not lose its
connection at the tick; by no other line. Every line has its own tick with the counter so advanced. -/
def Obligations.ArrivalsInOrder : Prop :=
  ∀ (e : LineEnv) (ctx : Vector LineCtx 24) (input : Vector LineInput 24) (n : BitVec 8),
    let takers := (List.finRange 24).filter fun l => takesArrival ctx[l] input[l]
    (∀ l ∈ takers, ((linesTick e ctx input n)[l]).arrivalNumber =
      some (n + BitVec.ofNat 8 (takers.countP fun j => decide (j < l)))) ∧
    (∀ l : Line, l ∉ takers → ((linesTick e ctx input n)[l]).arrivalNumber = (ctx[l]).arrivalNumber) ∧
    arrivalsTick ctx input n = n + BitVec.ofNat 8 takers.length ∧
    ∀ l : Line,
      let c := ctx[l]
      let i := input[l]
      let p := i.plan.getD c.plan
      (linesTick e ctx input n)[l] = lineTick e c i (n + BitVec.ofNat 8 (takers.countP fun j => decide (j < l))) ∧
      (l ∈ takers ↔ p.role = .auto ∧
        ((c.state = .vacant ∧ c.condition ≠ .connected ∧ ∃ d, i.delivery = some d ∧ d.condition = .connected) ∨
          (c.state.connected = true ∧ p.role ≠ c.plan.role ∧
            ∀ d, i.delivery = some d → d.condition = .connected ∨ d.condition = c.condition)))

/-! ### The events of a tick that have rows of their own -/

/-- A press due makes its key DOWN and a release due makes it UP, with run 0. A valid MOMENTARY route on the key becomes
ACTIVE at a press and, where ACTIVE, lets go at a release: HOLDING with its hold value, IDLE if that is 0. A valid LATCH
route becomes LATCHED at a press, or from LATCHED lets go. Every other key and route, and every other block, stands. (No
apply is due; a route replaced at the tick takes no event.) -/
def Obligations.KeyEventsTaken : Prop :=
  ∀ (s : State) (k : Key), (s.cue.keys[k]).run = 3 → s.inst.keys[k] = false →
    (s.intake.phase ≠ .ready ∨ s.inst.begun = true) →
    ((s.cue.keys[k]).down = false →
      ∃ t, exec (.keyPress k) s = .next t ∧
        t = { s with cue := { s.cue with keys := t.cue.keys, routes := t.cue.routes }, inst := t.inst } ∧
        t.cue.keys = s.cue.keys.set k { s.cue.keys[k] with down := true, run := 0 } ∧
        ∀ r : Route,
          let x := s.cue.routes[r]
          let letGo := { x with activity := if x.entry.hold = 0 then .idle else .holding, holdCount := x.entry.hold.val }
          (x.entry.key ≠ k ∨ x.entry.valid = false ∨ s.inst.replaced[r] = true → t.cue.routes[r] = x) ∧
          (x.entry.key = k → x.entry.valid = true → s.inst.replaced[r] = false →
            (x.entry.mode = .momentary → t.cue.routes[r] = { x with activity := .active, holdCount := 0 }) ∧
            (x.entry.mode = .latch → x.activity ≠ .latched →
              t.cue.routes[r] = { x with activity := .latched, holdCount := 0 }) ∧
            (x.entry.mode = .latch → x.activity = .latched → t.cue.routes[r] = letGo))) ∧
    ((s.cue.keys[k]).down = true → (s.cue.keys[k]).soft = false →
      ∃ t, exec (.keyRelease k) s = .next t ∧
        t = { s with cue := { s.cue with keys := t.cue.keys, routes := t.cue.routes }, inst := t.inst } ∧
        t.cue.keys = s.cue.keys.set k { s.cue.keys[k] with down := false, run := 0 } ∧
        ∀ r : Route,
          let x := s.cue.routes[r]
          let letGo := { x with activity := if x.entry.hold = 0 then .idle else .holding, holdCount := x.entry.hold.val }
          let lets := x.entry.key = k ∧ x.entry.valid = true ∧ s.inst.replaced[r] = false ∧
            x.entry.mode = .momentary ∧ x.activity = .active
          (¬lets → t.cue.routes[r] = x) ∧ (lets → t.cue.routes[r] = letGo))

/-- A hold count of 1 at a slow tick ends: its route becomes IDLE. A return whose qOut has completed its ramp to 0 loses
its outgoing route and talker. Nothing else changes but the model's marks: the hold count taken, and that no round
begins at the tick before any more (entry 2). -/
def Obligations.CueEnds : Prop :=
  (∀ (s : State) (r : Route), (s.cue.routes[r]).entry.valid = true → (s.cue.routes[r]).activity = .holding →
    (s.cue.routes[r]).holdCount = 1 → (s.report.blockCount + 1).toNat % 16 = 0 → s.inst.holds[r] = false →
    s.inst.replaced[r] = false → (s.intake.phase ≠ .ready ∨ s.inst.begun = true) →
    exec (.holdCountExpiry r) s =
      .next { s with
        cue := { s.cue with
          routes := s.cue.routes.set r { s.cue.routes[r] with activity := .idle, holdCount := 0 } }
        inst := { s.inst with holds := s.inst.holds.set r true } }) ∧
  ∀ (s : State) (k : Line), (s.cue.returns[k]).outgoing.isSome = true → (s.mix.returns[k]).cueOut.cur = 0 →
    (s.mix.returns[k]).cueOut.len ≤ (s.mix.returns[k]).cueOut.pos →
    exec (.outgoingFadeEnd k) s =
      .next { s with
        cue := { s.cue with
          returns := s.cue.returns.set k { s.cue.returns[k] with outgoing := none, outTalker := none } }
        inst := { s.inst with other := true } }

/-- A ramp one sample from its end comes to rest at its target, and every other ramp, code and peak stands. A group
membership or group term at rest at 0 with a group pending takes the group that its line is then in and is retargeted on
it, or, where the line is in none, drops the pending group and keeps its index. (No apply is due. That the tick's
BLOCK_TICK takes this switch anew is the model's: entry 2. That a line in no group drops the pending group and keeps the
index is the model's reading: entry 21.) -/
def Obligations.RampEnds : Prop :=
  (∀ (s : State) (i : RampId), (s.mix.ramp i).pos + 1 = (s.mix.ramp i).len →
    ∃ t, exec (.rampEnd i) s = .next t ∧ t = { s with mix := t.mix } ∧
      t.mix.ramp i =
        { s.mix.ramp i with pos := (s.mix.ramp i).len, cur := (s.mix.ramp i).target } ∧
      (∀ j, j ≠ i → t.mix.ramp j = s.mix.ramp j) ∧
      (∀ l : Line, (t.mix.contribs[l]).group.index = (s.mix.contribs[l]).group.index ∧
        (t.mix.contribs[l]).group.pending = (s.mix.contribs[l]).group.pending ∧
        (t.mix.contribs[l]).peak = (s.mix.contribs[l]).peak ∧ (t.mix.contribs[l]).voice = (s.mix.contribs[l]).voice ∧
        (t.mix.returns[l]).group.index = (s.mix.returns[l]).group.index ∧
        (t.mix.returns[l]).group.pending = (s.mix.returns[l]).group.pending ∧
        (t.mix.returns[l]).peak = (s.mix.returns[l]).peak ∧ (t.mix.returns[l]).clip = (s.mix.returns[l]).clip ∧
        (t.mix.returns[l]).duck = (s.mix.returns[l]).duck ∧
        (t.mix.returns[l]).position = (s.mix.returns[l]).position) ∧
      (∀ x : Source, (t.mix.sources[x]).airCode = (s.mix.sources[x]).airCode ∧
        (t.mix.sources[x]).peak = (s.mix.sources[x]).peak) ∧
      t.mix = { s.mix with sources := t.mix.sources, contribs := t.mix.contribs, returns := t.mix.returns }) ∧
  ∀ (s : State) (l : Line), (s.intake.phase ≠ .ready ∨ s.inst.begun = true) →
    let b := s.mix.contribs[l]
    let r := s.mix.returns[l]
    let c := s.line.ctx[l]
    (b.group.ramp.cur = 0 → b.group.ramp.len ≤ b.group.ramp.pos → b.group.pending.isSome = true →
      ∃ g, exec (.rampEnd (.lineGroup l)) s =
          .next { s with
            mix := { s.mix with contribs := s.mix.contribs.set l { b with group := g } }
            inst := { s.inst with members := s.inst.members.set l (some b.group.index) } } ∧
        g.pending = none ∧ g.ramp.cur = 0 ∧
        (∀ h, c.state = .confer → c.plan.role = .confer h → g.index = h ∧ g.ramp.target = b.voice) ∧
        (c.state ≠ .confer → g.index = b.group.index ∧ g.ramp.target = 0)) ∧
    (r.group.ramp.cur = 0 → r.group.ramp.len ≤ r.group.ramp.pos → r.group.pending.isSome = true →
      ∃ g, exec (.rampEnd (.groupTerm l)) s =
          .next { s with
            mix := { s.mix with returns := s.mix.returns.set l { r with group := g } }
            inst := { s.inst with terms := s.inst.terms.set l (some r.group.index) } } ∧
        g.pending = none ∧ g.ramp.cur = 0 ∧
        (∀ h v, groupTermWant r.duck c (composition s.scrn.table l c) = some (h, v) →
          g.index = h ∧ g.ramp.target = v) ∧
        (groupTermWant r.duck c (composition s.scrn.table l c) = none → g.index = r.group.index ∧ g.ramp.target = 0))

/-- A code that reaches the settle count with its mark clear is delivered: the mark is set and the line records the
condition of the code's entry. Where the line thereby takes an arrival, the lower lines that take one at the same tick
are served before it, and its arrival number is the counter advanced by theirs. The line, and each line served before
it, has its whole tick, with the settings as they stand. Every other line and settle record stands, and so does every
block that the row does not reach. (The line's part of the tick is taken ahead of BLOCK_TICK: entry 2.) BLOCK_TICK
itself gives the record of each line not taken its sample and its settle check, where no apply is due: a lane that
the tick finds or leaves out of LOCKED has its lines' records clear, and until it is lost delivers them nothing: they keep
their conditions. Else the line records the condition delivered: that of the entry of a code that settles, or DISCONNECTED
on a lane that is OFF or lost. That the last sample of a lock just lost leaves nothing is the model's (entry 8). -/
def Obligations.CodeSettles : Prop :=
  (∀ (s : State) (pins : BitVec 16) (follows first : Bool) (l : Line), (s.intake.phase ≠ .ready ∨ s.inst.begun = true) →
    s.inst.lines[l] = false →
    ∃ t, exec (.blockTick pins ⟨follows, first⟩) s = .next t ∧
      let c' := t.lrx.lanes[lineLane l]
      let held := s.cmap.records[l]
      let base := if c'.state = .locked then held else { last := none, count := 0, delivered := false }
      t.cmap.records[l] = base.settled (s.sampleAt t l) s.cmap.settle ∧
      (c'.state ≠ .locked → t.cmap.records[l] = { last := none, count := 0, delivered := false }) ∧
      (c'.state = .seeking → c'.seeking < s.lrx.laneLoss →
        s.delivery l = none ∧ (t.line.ctx[l]).condition = (s.line.ctx[l]).condition) ∧
      (c'.state = .off ∨ (c'.state = .seeking ∧ s.lrx.laneLoss ≤ c'.seeking) →
        (t.line.ctx[l]).condition = .disconnected) ∧
      (∀ code d, ¬(c'.state = .off ∨ (c'.state = .seeking ∧ s.lrx.laneLoss ≤ c'.seeking)) →
        (base.withSample (s.sampleAt t l)).delivered = false → (t.cmap.records[l]).delivered = true →
        (t.cmap.records[l]).last = some code → (s.cmap.table[code.toFin]).condition = some d →
        (t.line.ctx[l]).condition = d)) ∧
  ∀ (s : State) (l : Line) (code : BitVec 6) (d : Condition),
    (s.lrx.lanes[lineLane l]).state = .locked →
    ((s.lrx.lanes[lineLane l]).setup.clocking = .master ∨ (s.lrx.lanes[lineLane l]).frameSeen = true) →
    (s.lrx.lanes[lineLane l]).sideSample[lineSlot l] = some code →
    (s.cmap.records[l]).last = some code → (s.cmap.records[l]).delivered = false →
    s.cmap.settle ≤ (s.cmap.records[l]).count + 1 → s.cmap.settle ≤ 16 →
    (s.cmap.table[code.toFin]).condition = some d → s.inst.lines[l] = false →
    (s.intake.phase ≠ .ready ∨ s.inst.begun = true) →
    let arrives := (s.line.ctx[l]).state = .vacant ∧ (s.line.ctx[l]).plan.role = .auto ∧ d = .connected ∧
      (s.line.ctx[l]).condition ≠ .connected
    let input : LineInput :=
      { plan := none, delivery := some { condition := d, notify := (s.cmap.table[code.toFin]).notify }, counted := true }
    let served := fun j : Line => arrives ∧ j < l ∧ s.inst.lines[j] = false ∧ (s.line.ctx[j]).state = .vacant ∧
      (s.line.ctx[j]).plan.role = .auto ∧ (s.line.ctx[j]).condition ≠ .connected ∧
      ∃ x, s.delivery j = some x ∧ x.condition = .connected
    ∃ t, exec (.codeSettle l) s = .next t ∧
      t.cmap.records[l] =
        { last := some code, count := min 16 ((s.cmap.records[l]).count + 1), delivered := true } ∧
      t.cmap = { s.cmap with records := t.cmap.records } ∧
      (t.line.ctx[l]).condition = d ∧ (t.line.ctx[l]).plan = (s.line.ctx[l]).plan ∧
      (d ≠ (s.line.ctx[l]).condition → (t.line.ctx[l]).reportPending = true) ∧
      (arrives → ∃ below : Finset Line, (∀ j, j ∈ below ↔ served j) ∧
        (t.line.ctx[l]).arrivalNumber = some (s.scrn.arrivals + BitVec.ofNat 8 below.card) ∧
        t.scrn.arrivals = s.scrn.arrivals + BitVec.ofNat 8 (below.card + 1) ∧
        t.line.ctx[l] =
          lineTick (s.envAt t) s.line.ctx[l] input (s.scrn.arrivals + BitVec.ofNat 8 below.card) ∧
        ∀ j ∈ below, t.line.ctx[j] =
          lineTick (s.envAt t) s.line.ctx[j] { plan := none, delivery := s.delivery j, counted := true }
            (s.scrn.arrivals + BitVec.ofNat 8 (below.filter fun x => x < j).card)) ∧
      (¬arrives → t.scrn.arrivals = s.scrn.arrivals ∧
        t.line.ctx[l] = lineTick (s.envAt t) s.line.ctx[l] input s.scrn.arrivals ∧
        (t.line.ctx[l]).arrivalNumber = (s.line.ctx[l]).arrivalNumber) ∧
      (∀ j : Line, served j → (t.line.ctx[j]).condition = .connected ∧ (t.line.ctx[j]).reportPending = true) ∧
      (∀ j : Line, j ≠ l → ¬served j → t.line.ctx[j] = s.line.ctx[j] ∧ t.cmap.records[j] = s.cmap.records[j] ∧
        t.cue.returns[j] = s.cue.returns[j] ∧ t.mix.returns[j] = s.mix.returns[j]) ∧
      t = { s with
            cmap := t.cmap, line := { s.line with ctx := t.line.ctx }, scrn := { s.scrn with arrivals := t.scrn.arrivals }
            inst := t.inst, cue := { s.cue with returns := t.cue.returns }
            mix := { s.mix with returns := t.mix.returns } }

/-- A line that is delivered nothing: a LOST line whose loss count is 1 becomes VACANT with loss count 0, lost-from kept,
auto screener NONE, its shadow count running and its return without cue; a line in SHADOW whose count is 1 leaves it for
the connected state of its role with count 0, which is HOLD or SCREEN, and no return changes. Each is marked for its
status record. No other line or return changes. -/
def Obligations.LineCountsEnd : Prop :=
  ∀ (s : State) (l : Line), LineCtx.sound l s.line.ctx[l] = true → s.delivery l = none →
    s.inst.lines[l] = false → (s.intake.phase ≠ .ready ∨ s.inst.begun = true) →
    ((s.line.ctx[l]).state = .lost → (s.line.ctx[l]).lossCount = 1 →
      ∃ t, exec (.lossCountExpiry l) s = .next t ∧
        t.line.ctx[l] =
          { s.line.ctx[l] with
            state := .vacant, lossCount := 0, autoScreener := none, reportPending := true
            shadowCount := (s.line.ctx[l]).shadowCount - 1 } ∧
        t.cue.returns[l] = CueReturn.clear ∧ (t.mix.returns[l]).cueIn.cur = 0 ∧ (t.mix.returns[l]).cueOut.cur = 0 ∧
        (t.mix.returns[l]).air = (s.mix.returns[l]).air ∧ (t.mix.returns[l]).hold = (s.mix.returns[l]).hold ∧
        (∀ j : Line, j ≠ l → t.line.ctx[j] = s.line.ctx[j] ∧ t.cue.returns[j] = s.cue.returns[j] ∧
          t.mix.returns[j] = s.mix.returns[j]) ∧
        t = { s with
              cmap := t.cmap, line := { s.line with ctx := t.line.ctx }, inst := t.inst
              cue := { s.cue with returns := t.cue.returns }, mix := { s.mix with returns := t.mix.returns } }) ∧
    ((s.line.ctx[l]).state = .shadow → (s.line.ctx[l]).shadowCount = 1 →
      ∃ t, exec (.shadowCountEnd l) s = .next t ∧
        t.line.ctx[l] =
          { s.line.ctx[l] with
            state := connectedState (s.line.ctx[l]).plan.role 0 (s.line.ctx[l]).autoScreener, shadowCount := 0
            reportPending := true } ∧
        ((t.line.ctx[l]).state = .hold ∨ (t.line.ctx[l]).state = .screen) ∧
        (∀ j : Line, j ≠ l → t.line.ctx[j] = s.line.ctx[j]) ∧
        t = { s with cmap := t.cmap, line := { s.line with ctx := t.line.ctx }, inst := t.inst })

/-- A SEEKING lane whose count reaches the lane-loss time is lost and marked, and every line it carries is delivered
DISCONNECTED, as the whole tick of the line: a connected one enters LOST with its loss count at the hold-off. The
lines of other lanes and their returns stand, and so does every block that the row does not reach. BLOCK_TICK itself
raises the seeking count of every SEEKING lane not taken ahead of it, where no apply is due, and marks the lane where
it becomes lost or ceases to be; a round begun at the tick may have taken that mark. -/
def Obligations.LaneLostTaken : Prop :=
  (∀ (s : State) (pins : BitVec 16) (follows first : Bool) (i : InLane),
      (s.intake.phase ≠ .ready ∨ s.inst.begun = true) →
    s.inst.lanes[i] = false → (s.lrx.lanes[i]).state = .seeking →
    ∃ t, exec (.blockTick pins ⟨follows, first⟩) s = .next t ∧
      let c := s.lrx.lanes[i]
      let n := min 65535 (c.seeking + 1)
      t.lrx.lanes[i] =
        { c with
          seeking := n, lostShown := decide (s.lrx.laneLoss ≤ n), statusPending := (t.lrx.lanes[i]).statusPending
          frameSeen := false, sideSample := Vector.replicate 8 none } ∧
      (t.report.round = s.report.round →
        ((t.lrx.lanes[i]).statusPending = true ↔
          c.statusPending = true ∨ c.lostShown ≠ decide (s.lrx.laneLoss ≤ n)))) ∧
  ∀ (s : State) (i : InLane), (s.lrx.lanes[i]).state = .seeking → (s.lrx.lanes[i]).seeking + 1 = s.lrx.laneLoss →
    s.lrx.laneLoss ≤ 65535 → (s.lrx.lanes[i]).lostShown = false → s.inst.lanes[i] = false →
    (∀ l : Line, s.inst.lines[l] = false) → (s.intake.phase ≠ .ready ∨ s.inst.begun = true) →
    (∀ l : Line, LineCtx.sound l s.line.ctx[l] = true) →
    ∃ t, exec (.laneLost i) s = .next t ∧
      t = { s with
            lrx :=
              { s.lrx with
                lanes :=
                  s.lrx.lanes.set i
                    { s.lrx.lanes[i] with seeking := s.lrx.laneLoss, lostShown := true, statusPending := true } }
            cmap := { s.cmap with records := t.cmap.records }
            line := { s.line with ctx := t.line.ctx }
            cue := { s.cue with returns := t.cue.returns }
            mix := { s.mix with returns := t.mix.returns }
            inst := t.inst } ∧
      (∀ l : Line, l.val / 8 = i.val →
        (t.line.ctx[l]).condition = .disconnected ∧ (t.line.ctx[l]).plan = (s.line.ctx[l]).plan ∧
        t.line.ctx[l] =
          lineTick (s.envAt t) s.line.ctx[l]
            { plan := none, delivery := some { condition := .disconnected, notify := false }, counted := true }
            s.scrn.arrivals ∧
        ((s.line.ctx[l]).state.connected = true → (t.line.ctx[l]).state = .lost ∧
          (t.line.ctx[l]).lossCount = s.line.lossHoldoff ∧ (t.line.ctx[l]).lostFrom = some (s.line.ctx[l]).state)) ∧
      ∀ l : Line, l.val / 8 ≠ i.val → t.line.ctx[l] = s.line.ctx[l] ∧ t.cmap.records[l] = s.cmap.records[l] ∧
        t.cue.returns[l] = s.cue.returns[l] ∧ t.mix.returns[l] = s.mix.returns[l]

/-- At each BLOCK_TICK the meter period counter rises by one, in every state of the engine, and at the report period
returns to 0 and sets the due mark; a round begun at the tick returns the counter to 0 where it carries a full report,
and clears the mark where it carries meters. PERIODIC_DUE, where the counter is one short of the period, takes that
event ahead of the BLOCK_TICK it belongs to, and this one then does not take it again: that is the model's (entry 2).
So is that a full report begun while DRAINING clears the mark (entry 34). Where an apply is due at the tick, the
period is the one after it, as APPLY gives it; where none is due, APPLY changes nothing. -/
def Obligations.PeriodicDueSet : Prop :=
  (∀ (s : State), s.report.meterCounter + 1 = s.report.period → s.inst.period = false →
      (s.intake.phase ≠ .ready ∨ s.inst.begun = true) →
    exec .periodicDue s =
      .next { s with report := { s.report with meterCounter := 0, due := true }, inst := { s.inst with period := true } }) ∧
  ∀ (v s : State) (pins : BitVec 16) (follows first : Bool), exec .apply v = .next s →
    ∃ t, exec (.blockTick pins ⟨follows, first⟩) v = .next t ∧
      let hit := s.inst.period = false ∧ s.report.period ≤ s.report.meterCounter + 1
      let count := if hit then 0 else if s.inst.period = true then s.report.meterCounter else s.report.meterCounter + 1
      (t.report.round = s.report.round →
        t.report.meterCounter = count ∧ (t.report.due = true ↔ s.report.due = true ∨ hit)) ∧
      ∀ r, s.report.round = none → t.report.round = some r →
        t.report.meterCounter = (if r.full = true then 0 else count) ∧
          (t.report.due = true ↔ (s.report.due = true ∨ hit) ∧ r.meters = false)

/-! ### The intake (chapters 4 and 6) -/

/-- At a BLOCK_TICK with INTAKE IDLE, the engine ACTIVE after the tick and the post word not 0, an intake is taken: the
pending bits become the taken set and the post word 0, staging and verdicts are emptied, the number rises and the
lowest taken section is at the fetch position. With INTAKE not IDLE, the engine STOPPED or DRAINING after the tick, or
the post word 0, the post word stands, and an IDLE INTAKE as well. (No read is outstanding while INTAKE is IDLE, as
the invariant of LINK says.) That the row INTAKE_TAKE takes the same ahead of its BLOCK_TICK, that its mark inst.take
keeps that BLOCK_TICK from taking again, and that the BLOCK_TICK takes the engine's start before the take, are the
model's (entries 2 and 26). -/
def Obligations.IntakeTaken : Prop :=
  let taken := fun s t : State =>
    t.link.post = 0 ∧ t.intake.phase = .fetching ∧ t.intake.taken = s.link.post ∧
      t.intake.number = s.intake.number + 1 ∧ t.intake.verdicts = [] ∧ t.intake.reportRequest = false ∧
      t.intake.staging = Staging.empty ∧ t.intake.head = none ∧ t.intake.record = none ∧
      ∃ p : Section, t.intake.position = some p ∧ s.link.post.getLsbD p.val = true ∧
        ∀ n < p.val, s.link.post.getLsbD n = false
  (∀ (s : State) (pins : BitVec 16) (follows first : Bool),
    let active := s.link.engine = .active ∨
      (s.link.engine = .stopped ∧ s.link.memEnable = true ∧ s.link.busMaster = true)
    ∃ t, exec (.blockTick pins ⟨follows, first⟩) s = .next t ∧
      (s.intake.phase = .idle → active → s.link.post ≠ 0 → s.inst.take = false → s.link.read = none → taken s t) ∧
      (s.intake.phase ≠ .idle ∨ ¬active ∨ s.link.post = 0 ∨ s.inst.take = true →
        t.link.post = s.link.post ∧ (s.intake.phase = .idle → s.link.read = none → t.intake = s.intake))) ∧
  ∀ s : State,
    (s.intake.phase = .idle → s.link.engine = .active → s.link.post ≠ 0 → s.inst.take = false →
      ∃ t, exec .intakeTake s = .next t ∧
        t = { s with intake := t.intake, link := { s.link with post := 0 }, inst := { s.inst with take := true } } ∧
        taken s t) ∧
    (s.intake.phase ≠ .idle ∨ s.link.engine ≠ .active ∨ s.link.post = 0 ∨ s.inst.take = true →
      exec .intakeTake s = .next s)

/-- The fetch of a section 0 to 30 begins: outside the plan window it ends with verdict WINDOW, edition 0, no field and
one miss, with no read; inside, the read of its edition head is issued, two bytes at offset 0 of the section, or,
while bus mastering is not permitted, ends at once with FETCH_FAULT; a read issued after a part of the tick now being
taken is marked, so that this tick is none of those since its issue (entry 36). Section 31 sets the report request
mark and is ACCEPTED without a read. A fetch that has ended moves on to the next taken section, or to READY. No
applied record changes. -/
def Obligations.SectionFetched : Prop :=
  ∀ (s : State) (sec : Section), s.intake.phase = .fetching → s.link.read = none → s.intake.position = some sec →
    let entry := fun v : Verdict => (⟨sec, v, 0, none, s.intake.number⟩ : VerdictEntry)
    let inside := insideWindow s.link.planBase s.link.planEnd (s.link.planBase.toNat + sec.val * 512) 512
    (sec.val < 31 → ∃ t, exec .sectionFetch s = .next t ∧ t = { s with intake := t.intake, link := t.link } ∧
      (inside = false → t.link = ({ s.link with miss := s.link.miss + 1 } : Link).raise 0x20000000 ∧
        s.intake.endsFetch t.intake sec (entry .window) ∧ t.intake.staging = s.intake.staging) ∧
      (inside = true → s.link.busMaster = true →
        t.intake = s.intake ∧
        t.link =
          { s.link with
            read := some { id := s.link.nextRead, step := .head, address := s.link.planBase.toNat + sec.val * 512,
                           length := 2, age := 0
                           late := decide ({ s.inst with roundOpen := false } ≠ Instant.none) }
            nextRead := s.link.nextRead + 1 }) ∧
      (inside = true → s.link.busMaster = false → s.intake.head = none →
        t.link = s.link ∧ s.intake.endsFetch t.intake sec (entry .fetchFault) ∧
          t.intake.staging = s.intake.staging)) ∧
    (sec.val = 31 → exec .sectionFetch s =
      .next { s with intake := { s.intake with
        phase := .ready, position := none, reportRequest := true
        verdicts := s.intake.verdicts ++ [entry .accepted] } })

/-- The head read that returns its two bytes is kept as the head value and the record read is issued, from offset 2 of the
section, as many bytes as the section's record has; the record read that returns the record's bytes is kept and the
tail read is issued, two bytes at offset 510. Each is marked where a part of the tick now being taken has been taken
(entry 36). -/
def Obligations.ReadsFollow : Prop :=
  ∀ (s : State) (sec : Section) (r : PlanRead) (bytes : List Byte), s.intake.position = some sec →
    s.link.read = some r → s.link.busMaster = true → bytes.length = r.length →
    let base := s.link.planBase.toNat + sec.val * 512
    let late := decide ({ s.inst with roundOpen := false } ≠ Instant.none)
    (r.step = .head → ∀ a b, bytes = [a, b] →
      exec (.readCompletion r.id (.data bytes)) s =
        .next { s with
          intake := { s.intake with head := some (b ++ a) }
          link := { s.link with
            read := some { id := s.link.nextRead, step := .record, address := base + 2,
                           length := sectionRecordBytes sec, age := 0, late := late }
            nextRead := s.link.nextRead + 1 } }) ∧
    (r.step = .record →
      exec (.readCompletion r.id (.data bytes)) s =
        .next { s with
          intake := { s.intake with record := some bytes }
          link := { s.link with
            read := some { id := s.link.nextRead, step := .tail, address := base + 510, length := 2, age := 0
                           late := late }
            nextRead := s.link.nextRead + 1 } })

/-- The tail read of a section whose editions differ ends its fetch with TORN, the head as the edition seen and no field,
and the record is discarded; with equal editions the record goes on to the field checks: the first bad field ends it with
RANGE, and with none the record is staged, each field as its bytes give it and each setting clamped to its range, and
ACCEPTED with the first field so altered. The fetch then moves on to the next taken section, or to READY
after the last. Nothing applied changes. -/
def Obligations.SectionJudged : Prop :=
  ∀ (s : State) (sec : Section) (r : PlanRead) (a b : Byte) (head : BitVec 16) (body : List Byte),
    s.intake.position = some sec → s.link.read = some r → r.step = .tail → r.length = 2 →
    s.intake.head = some head → s.intake.record = some body →
    ∃ t, exec (.readCompletion r.id (.data [a, b])) s = .next t ∧
      t = { s with intake := t.intake, link := { s.link with read := none } } ∧
      let entry := fun (v : Verdict) (f : Option Nat) =>
        (⟨sec, v, head, f, s.intake.number⟩ : VerdictEntry)
      (head ≠ b ++ a →
        s.intake.endsFetch t.intake sec (entry .torn none) ∧ t.intake.staging = s.intake.staging) ∧
      (head = b ++ a → ∀ f < sectionFields sec, sectionFieldKnown sec body f = false →
        (∀ e < f, sectionFieldKnown sec body e = true) →
        s.intake.endsFetch t.intake sec (entry .range (some f)) ∧ t.intake.staging = s.intake.staging) ∧
      (head = b ++ a → (∀ f < sectionFields sec, sectionFieldKnown sec body f = true) →
        ∃ altered : Option Nat,
          (∀ f, altered = some f → sectionAltered sec body f ∧ ∀ e < f, ¬sectionAltered sec body e) ∧
          (altered = none → ∀ f, ¬sectionAltered sec body f) ∧
          s.intake.endsFetch t.intake sec (entry .accepted altered) ∧
          s.intake.staging.joined t.intake.staging sec body)

/-- A read that ends in error or poisoned, and a read that has seen three block ticks at the fourth, end the section's
fetch with FETCH_FAULT and the head value, or 0 without one, and the fetch moves on to the next taken section, or to
READY after the last. So does a head read or a record read that returns its data while bus mastering is not permitted,
with the head value, the one just read among them: the read that would follow is not issued. Data of another length than
the read asked for count as an error, which is the model's (entry 15). A completion for any other read changes nothing but the list of reads given up. BLOCK_TICK
itself counts the ticks of the read outstanding, and takes its timeout at the fourth after its issue: a read issued
after a part of the tick was taken does not count that tick (entry 36). The row that takes the timeout ahead of
BLOCK_TICK leaves the model's mark that a part of the tick has been taken (entry 2). -/
def Obligations.ReadFails : Prop :=
  ∀ (s : State) (sec : Section) (r : PlanRead), s.intake.position = some sec → s.link.read = some r →
    let faulted := fun t : State =>
      t.intake.staging = s.intake.staging ∧ s.intake.endsFetch t.intake sec
        { sec := sec, verdict := .fetchFault, edition := s.intake.head.getD 0, field := none,
          number := s.intake.number }
    (∃ t, exec (.readCompletion r.id .error) s = .next t ∧ faulted t ∧
      t = { s with intake := t.intake, link := { s.link with read := none } }) ∧
    (∃ t, exec (.readCompletion r.id .poisoned) s = .next t ∧ faulted t ∧
      t = { s with intake := t.intake, link := { s.link with read := none } }) ∧
    (∀ bytes : List Byte, bytes.length ≠ r.length →
      ∃ t, exec (.readCompletion r.id (.data bytes)) s = .next t ∧ faulted t ∧
        t = { s with intake := t.intake, link := { s.link with read := none } }) ∧
    (s.link.busMaster = false → ∀ bytes : List Byte, bytes.length = r.length →
      (r.step = .record → ∃ t, exec (.readCompletion r.id (.data bytes)) s = .next t ∧ faulted t ∧
        t = { s with intake := t.intake, link := { s.link with read := none } }) ∧
      (r.step = .head → ∀ a b, bytes = [a, b] →
        ∃ t, exec (.readCompletion r.id (.data bytes)) s = .next t ∧
          t = { s with intake := t.intake, link := { s.link with read := none } } ∧
          t.intake.staging = s.intake.staging ∧
          s.intake.endsFetch t.intake sec
            { sec := sec, verdict := .fetchFault, edition := b ++ a, field := none, number := s.intake.number })) ∧
    (r.late = false → r.age = 3 → ∃ t, exec .readTimeout s = .next t ∧ faulted t ∧
      t = { s with intake := t.intake, link := { s.link with read := none, stale := r.id :: s.link.stale }
                   inst := { s.inst with other := true } }) ∧
    (r.late = true ∨ r.age < 3 → exec .readTimeout s = .next s) ∧
    (s.intake.phase = .fetching → ∀ pins follows first, ∃ t, exec (.blockTick pins ⟨follows, first⟩) s = .next t ∧
      (r.late = true → t.link.read = some { r with late := false } ∧ t.link.stale = s.link.stale ∧
        t.intake = s.intake) ∧
      (r.late = false → r.age < 3 → t.link.read = some { r with age := r.age + 1 } ∧ t.link.stale = s.link.stale ∧
        t.intake = s.intake) ∧
      (r.late = false → r.age = 3 → t.link.read = none ∧ t.link.stale = r.id :: s.link.stale ∧ faulted t)) ∧
    ∀ n x, n ≠ r.id →
      exec (.readCompletion n x) s = .next { s with link := { s.link with stale := s.link.stale.erase n } }

/-- The apply: every staged record goes to its owner, the line plan records but for those the capacity check refuses,
whose verdicts become GROUP_FULL with field 0 and whose lines keep their records. A setup that changes the enable
takes its lane to OFF, SEEKING or RUNNING; one that changes the clocking alone takes an input lane to SEEKING and
empties an output lane's buffer. A replaced route restarts from its key, an amended or kept one keeps its activity and
hold count, an invalidated one is IDLE. The settle records of a lane that is not LOCKED after the tick are clear and a new
code table clears every delivered mark, before the tick's settle check. What is not staged stands. An apply that carries line
plan records sets the role counts. Every line has its tick with the record admitted for it and with what CMAP
delivers, the depth, the lengths and the tables read as they stand after the apply. An input lane not restarted loses
its lock by a missing sync, counts while SEEKING, and otherwise stands. The return of a line that enters VACANT loses
its cue; every other ramp, peak, clip total and cue return stands, and so do lane hold and what REPORT and INTAKE hold
besides. The phase is APPLYING, staging is empty, and REPORT has the entries. APPLY changes nothing in
another phase, nor where a part of the tick was taken before INTAKE was READY; such a BLOCK_TICK leaves INTAKE READY for
the next tick. Which parts those are is the model's (entry 3). A BLOCK_TICK that takes the apply itself gives the
same, but for the flags that a round begun at it clears, and the keys and routes that it then samples. That an
invalidated entry keeps its other fields is the model's (entry 22), and so are APPLY ahead of its BLOCK_TICK (entry
2), a lost lock's last sample that leaves nothing (entry 8), the run and seeking count of 0 in OFF (entry 27), the values
presented and last good samples that a change of width alone keeps (entry 35), and the silent frame's side code (entry
33). -/
def Obligations.ApplyHandsOver : Prop :=
  let restarts := fun held applied : LaneSetup =>
    applied.enabled ≠ held.enabled ∨ (applied.enabled = true ∧ applied.clocking ≠ held.clocking)
  (∀ s : State,
    (s.inst.begun = true ↔ (∃ k : Key, s.inst.keys[k] = true) ∨ (∃ r : Route, s.inst.holds[r] = true) ∨
      (∃ l : Line, s.inst.lines[l] = true) ∨ s.inst.laneLost = true ∨ s.inst.period = true ∨ s.inst.take = true) ∧
    (s.intake.phase ≠ .ready ∨ s.inst.begun = true → exec .apply s = .next s) ∧
    (s.intake.phase = .ready → s.inst.begun = true → s.link.read = none → ∀ pins follows first,
      ∃ u, exec (.blockTick pins ⟨follows, first⟩) s = .next u ∧ u.intake = s.intake ∧ u.inst.begun = false)) ∧
  ∀ s : State, s.intake.phase = .ready → s.inst.begun = false →
    let g := s.intake.staging
    ∃ t, exec .apply s = .next t ∧
      t.ref = s.ref ∧ t.link = s.link ∧ t.hostMem = s.hostMem ∧ t.pending = s.pending ∧
      t.intake = { s.intake with phase := .applying, staging := Staging.empty, verdicts := t.intake.verdicts } ∧
      t.report = { s.report with verdicts := t.report.verdicts, period := t.report.period } ∧
      t.mix = { s.mix with sources := t.mix.sources, holdFeed := t.mix.holdFeed, mainBlocks := t.mix.mainBlocks,
                           cueBlocks := t.mix.cueBlocks, returns := t.mix.returns } ∧
      (∀ i : Source, t.mix.sources[i] = { s.mix.sources[i] with airCode := (t.mix.sources[i]).airCode }) ∧
      (∀ l : Line,
        let vacated := (t.line.ctx[l]).state = .vacant ∧ (s.line.ctx[l]).state ≠ .vacant
        (¬vacated → t.mix.returns[l] = s.mix.returns[l] ∧ t.cue.returns[l] = s.cue.returns[l]) ∧
        (vacated → t.cue.returns[l] = CueReturn.clear ∧
          t.mix.returns[l] =
            { s.mix.returns[l] with cueIn := (t.mix.returns[l]).cueIn, cueOut := (t.mix.returns[l]).cueOut } ∧
          (t.mix.returns[l]).cueIn.cur = 0 ∧ (t.mix.returns[l]).cueIn.target = 0 ∧
          (t.mix.returns[l]).cueOut.cur = 0 ∧ (t.mix.returns[l]).cueOut.target = 0)) ∧
      t.lrx = { s.lrx with lanes := t.lrx.lanes, laneLoss := t.lrx.laneLoss } ∧
      t.ltx = { s.ltx with lanes := t.ltx.lanes } ∧
      t.inst = { s.inst with lanes := t.inst.lanes, lines := t.inst.lines, replaced := t.inst.replaced } ∧
      t.intake.phase = .applying ∧ t.intake.staging = Staging.empty ∧ t.intake.number = s.intake.number ∧
      t.report.verdicts = t.intake.verdicts ∧
      t.intake.verdicts = s.intake.verdicts.map (fun v =>
        if (s.applyRefused.any fun l => l.val = v.sec.val) = true then
          { v with verdict := .groupFull, field := some 0 }
        else v) ∧
      (∀ l : Line, (t.line.ctx[l]).plan =
        match g.lines[l] with
        | none => (s.line.ctx[l]).plan
        | some p => if l ∈ s.applyRefused then (s.line.ctx[l]).plan else p) ∧
      ((∃ l : Line, (g.lines[l]).isSome = true) → ∀ i : Group,
        t.scrn.roleCounts[i] = roleCount (Vector.ofFn fun l => (t.line.ctx[l]).plan.role) i) ∧
      ((∀ l : Line, g.lines[l] = none) → t.scrn.roleCounts = s.scrn.roleCounts) ∧
      (∀ i : Source, (t.mix.sources[i]).airCode =
        match g.sources with
        | none => (s.mix.sources[i]).airCode
        | some tab => tab.airCodes[i]) ∧
      t.mix.holdFeed = (g.sources.map (·.holdFeed)).getD s.mix.holdFeed ∧
      t.scrn.table = g.screening.getD s.scrn.table ∧ t.cmap.table = g.codes.getD s.cmap.table ∧
      t.line.dumpDepth = (g.studio.map (·.dumpDepth)).getD s.line.dumpDepth ∧
      (∀ k : Key, t.cue.keys[k] =
        match g.studio with
        | none => s.cue.keys[k]
        | some st => { s.cue.keys[k] with soft := st.softKeys[k] }) ∧
      t.timing = g.timing.getD s.timing ∧
      (∀ i : InLane, (t.lrx.lanes[i]).setup =
        match g.lanes with
        | none => (s.lrx.lanes[i]).setup
        | some p => p.inputs[i]) ∧
      (∀ o : OutLane, (t.ltx.lanes[o]).setup =
        match g.lanes with
        | none => (s.ltx.lanes[o]).setup
        | some p => p.outputs[o]) ∧
      (∀ i : InLane,
        let c := s.lrx.lanes[i]
        let c' := t.lrx.lanes[i]
        let restarted := restarts c.setup c'.setup
        let missing := c.state = .locked ∧ c'.setup.clocking = .slave ∧ c.frameSeen = false ∧ s.inst.lanes[i] = false
        let seeking := { c with
          setup := c'.setup, state := .seeking, run := 0, seeking := 0, lostShown := c'.lostShown, buffer := []
          mode := .refilling, shown := Shown.silent, frameSeen := false, readDone := false, statusPending := true }
        let lost := c'.state = .seeking ∧ t.lrx.laneLoss ≤ c'.seeking
        (c'.lostShown = true ↔ lost) ∧
        (restarted → c' = if c'.setup.enabled = true then seeking else { seeking with state := .off }) ∧
        (¬restarted → missing → c' = { seeking with syncLosses := min 65535 (c.syncLosses + 1) }) ∧
        (¬restarted → ¬missing →
          c' =
            { c with
              setup := c'.setup, lostShown := c'.lostShown, statusPending := c'.statusPending
              seeking :=
                if c.state = .seeking ∧ s.inst.lanes[i] = false then min 65535 (c.seeking + 1) else c.seeking } ∧
          (c'.statusPending = true ↔ c.statusPending = true ∨ c'.lostShown ≠ c.lostShown))) ∧
      (let base := fun l : Line =>
         let held := s.cmap.records[l]
         if (t.lrx.lanes[lineLane l]).state ≠ .locked then
           ({ last := none, count := 0, delivered := false } : SettleRec)
         else if g.codes.isSome = true then { held with delivered := false }
         else held
       let input : Vector LineInput 24 := Vector.ofFn fun l =>
         { plan := if l ∈ s.applyRefused then none else g.lines[l], delivery := s.deliveredAt t (base l) l
           counted := true }
       (∀ l : Line, t.cmap.records[l] = (base l).settled (s.sampleAt t l) t.cmap.settle) ∧
       t.scrn.arrivals = arrivalsTick s.line.ctx input s.scrn.arrivals ∧
       ∀ l : Line, t.line.ctx[l] = (linesTick (s.envAt t) s.line.ctx input s.scrn.arrivals)[l]) ∧
      (∀ o : OutLane, (t.ltx.lanes[o]).setup.enabled ≠ (s.ltx.lanes[o]).setup.enabled →
        t.ltx.lanes[o] =
          { s.ltx.lanes[o] with
            setup := (t.ltx.lanes[o]).setup, running := (t.ltx.lanes[o]).setup.enabled, buffer := [], mode := .refilling
            previous := SlotWords.silent, statusPending := true
            sent := if (t.ltx.lanes[o]).setup.enabled = true then (s.ltx.lanes[o]).sent else none }) ∧
      (∀ o : OutLane, (t.ltx.lanes[o]).setup.enabled = (s.ltx.lanes[o]).setup.enabled →
        (¬restarts (s.ltx.lanes[o]).setup (t.ltx.lanes[o]).setup →
          t.ltx.lanes[o] = { s.ltx.lanes[o] with setup := (t.ltx.lanes[o]).setup }) ∧
        (restarts (s.ltx.lanes[o]).setup (t.ltx.lanes[o]).setup →
          t.ltx.lanes[o] =
            { s.ltx.lanes[o] with
              setup := (t.ltx.lanes[o]).setup, buffer := [], mode := .refilling, previous := SlotWords.silent })) ∧
      (∀ r : Route,
        let x := s.cue.routes[r]
        (g.routes = none → t.cue.routes[r] = x ∧ t.inst.replaced[r] = s.inst.replaced[r]) ∧
        ∀ tab, g.routes = some tab →
          let n := tab[r]
          let same := x.entry.valid = true ∧ n.talker = x.entry.talker ∧ n.key = x.entry.key ∧
            n.target = x.entry.target ∧ n.priority = x.entry.priority ∧ n.mode = x.entry.mode
          (t.inst.replaced[r] = true ↔ s.inst.replaced[r] = true ∨ (n.valid = true ∧ ¬same)) ∧
          (n.valid = true → same → t.cue.routes[r] = { x with entry := n }) ∧
          (n.valid = true → ¬same →
            t.cue.routes[r] =
              { entry := n, holdCount := 0
                activity := if n.mode = .momentary ∧ (s.cue.keys[n.key]).down = true then .active else .idle }) ∧
          (n.valid = false → x.entry.valid = true →
            t.cue.routes[r] = { entry := { x.entry with valid := false }, activity := .idle, holdCount := 0 }) ∧
          (n.valid = false → x.entry.valid = false → t.cue.routes[r] = { x with entry := n })) ∧
      (s.link.read = none → ∀ pins follows first, ∃ u, exec (.blockTick pins ⟨follows, first⟩) s = .next u ∧
        u.intake = t.intake ∧ u.scrn = t.scrn ∧ u.cmap = t.cmap ∧ u.timing = t.timing ∧
        u.mix.holdFeed = t.mix.holdFeed ∧ (∀ i : Source, (u.mix.sources[i]).airCode = (t.mix.sources[i]).airCode) ∧
        u.line = { t.line with ctx := u.line.ctx } ∧
        (∀ l : Line, u.line.ctx[l] = { t.line.ctx[l] with reportPending := (u.line.ctx[l]).reportPending }) ∧
        (∀ k : Key, (u.cue.keys[k]).soft = (t.cue.keys[k]).soft) ∧
        (∀ r : Route, (u.cue.routes[r]).entry = (t.cue.routes[r]).entry) ∧
        (∀ i : InLane, u.lrx.lanes[i] =
          { t.lrx.lanes[i] with
            statusPending := (u.lrx.lanes[i]).statusPending, frameSeen := false
            sideSample := Vector.replicate 8 none }) ∧
        (∀ o : OutLane, u.ltx.lanes[o] = { t.ltx.lanes[o] with statusPending := (u.ltx.lanes[o]).statusPending }) ∧
        (u.report.round = s.report.round → u.report.verdicts = t.report.verdicts ∧
          (∀ l : Line, (u.line.ctx[l]).reportPending = (t.line.ctx[l]).reportPending) ∧
          (∀ i : InLane, (u.lrx.lanes[i]).statusPending = (t.lrx.lanes[i]).statusPending) ∧
          ∀ o : OutLane, (u.ltx.lanes[o]).statusPending = (t.ltx.lanes[o]).statusPending))

/-- The capacity check admits no group past eight, and refuses no arrival for which there is room. From held roles with at
most eight in each group and counts that say so, the roles after the apply, with every refused line keeping its own, have
at most eight in each group; a line is refused only as an arrival at a group, and only where that group is left with
eight. Arrivals at a group are taken in ascending line number: where one is refused, so is every higher one, and of two
staged alone, with one place left, the lower line is admitted and the higher refused. The apply checks the roles that the
lines hold, the roles staged and the role counts. -/
def Obligations.CapacityHeld : Prop :=
  (∀ s : State, s.applyRefused = refusedLines
    { held := Vector.ofFn fun l => (s.line.ctx[l]).plan.role
      staged := Vector.ofFn fun l => (s.intake.staging.lines[l]).map fun p => p.role
      counts := s.scrn.roleCounts }) ∧
  (∀ (i : CapacityInput) (a b : Line) (g : Group), a < b →
    i.staged[a] = some (.confer g) → i.held[a] ≠ .confer g → i.staged[b] = some (.confer g) → i.held[b] ≠ .confer g →
    (a ∈ refusedLines i → b ∈ refusedLines i) ∧
      (i.counts[g] = 7 → (∀ l : Line, l ≠ a → l ≠ b → i.staged[l] = none) → refusedLines i = [b])) ∧
  ∀ i : CapacityInput, (∀ g : Group, i.counts[g] = roleCount i.held g) → (∀ g : Group, roleCount i.held g ≤ 8) →
    let roles : Vector Role 24 := Vector.ofFn fun l =>
      match i.staged[l] with
      | none => i.held[l]
      | some r => if l ∈ refusedLines i then i.held[l] else r
    (∀ g : Group, roleCount roles g ≤ 8) ∧
      ∀ l ∈ refusedLines i, ∃ g, i.staged[l] = some (.confer g) ∧ i.held[l] ≠ .confer g ∧ roleCount roles g = 8

/-- The partner set staged from the six entries of a record: 0 to 3 distinct lines, none the record's own, and exactly the
lines that an entry names while fewer than three lines have been kept from the entries before it. -/
def Obligations.PartnersKept : Prop :=
  ∀ (own : Line) (b : List Byte),
    let entries := partnerEntries b
    let kept := (linePlanOf own b).partners
    entries.length = 6 ∧ kept.length ≤ 3 ∧ kept.Nodup ∧ own ∉ kept ∧
      (∀ n l, l ∈ keptPartners own (entries.take n) ↔
        l ≠ own ∧ ∃ i < n, entries.getD i none = some l ∧ (keptPartners own (entries.take i)).length < 3) ∧
      ∀ l, l ∈ kept ↔ l ∈ keptPartners own (entries.take 6)

/-! ### Report rounds and records (chapter 7) -/

/-- A round begun at a block tick. While the engine is ACTIVE it takes all the work: the verdict entries, a
full report, a periodic write, and every flagged lane and line. While DRAINING it takes the verdict entries and a full
report alone. It carries the part state and the meters with a full report or a periodic write, every lane with either,
every line with a full report; each record is the snapshot of what it shows, and a lane record is marked as a state
change by its lane's flag. It clears the flags of the lanes and lines it carries, the due mark and the request that it
takes, returns the meter period counter to 0 with a full report, and with meters restarts every peak and takes every
clip total. The records stand in the order of their writing, each once: verdict entries, the part state, lanes, lines,
meters, each kind in ascending number. Without work, or while the engine is STOPPED, none begins. BLOCK_TICK begins the
round of its tick itself where none is in progress, with the work there is after the tick's events, which are those of
the same tick with a round in progress; with the snapshots before the events of lines and lanes, the flags that count are
those from before the tick, and a line or lane it carries has its flag set again exactly where an event of the tick sets
it. (BlockTickCounts says what its records of lines, lanes and the part show.) That ROUND_BEGIN comes after the BLOCK_TICK it belongs
to, and that the command says which order is taken, are the model's (entry 2), and so is that a full report begun while
DRAINING clears a set due mark (entry 34). -/
def Obligations.RoundBegun : Prop :=
  (∀ s : State, s.report.round = none → s.inst = { Instant.none with roundOpen := true } →
    let lane := lanePending s
    let line := fun l : Line => (s.line.ctx[l]).reportPending
    (s.link.engine = .stopped ∨ ¬s.roundWork lane line → exec .roundBegin s = .next s) ∧
    (s.link.engine ≠ .stopped → s.roundWork lane line →
      ∃ t r, exec .roundBegin s = .next t ∧ t.report.round = some r ∧ r.takes s t lane line ∧
        (∀ x ∈ r.todo, x.kind = .part → x.body = partBody s s.report.blockCount) ∧
        (∀ x ∈ r.todo, ∀ e, x.kind = .lane e → x.body = laneBody s e) ∧
        (∀ x ∈ r.todo, ∀ l : Line, x.kind = .line l →
          x.body = lineBody l s.line.ctx[l] (s.cue.returns[l]).winner s.report.blockCount) ∧
        s.flaggedAfter t lane line (fun _ => false) (fun _ => false) ∧
        t = { s with
              mix := t.mix, line := { s.line with ctx := t.line.ctx }, lrx := { s.lrx with lanes := t.lrx.lanes }
              ltx := { s.ltx with lanes := t.ltx.lanes }, report := t.report, inst := Instant.none })) ∧
  ∀ (s t u e : State) (pins : BitVec 16) (follows first : Bool) (busy : Round), s.report.round = none →
    exec (.blockTick pins ⟨follows, first⟩) s = .next t →
    exec (.blockTick pins ⟨follows, first⟩) { s with report := { s.report with round := some busy } } = .next u →
    exec (.blockTick pins ⟨follows, first⟩) { s.unflagged with report := { s.report with round := some busy } } = .next e →
    let lane := lanePending (if first = true then s else u)
    let line := fun l : Line => ((if first = true then s else u).line.ctx[l]).reportPending
    (t.link.engine = .stopped ∨ ¬u.roundWork lane line →
      t = { u with report := { u.report with round := none }, inst := t.inst }) ∧
    (t.link.engine ≠ .stopped → u.roundWork lane line →
      ∃ r, t.report.round = some r ∧ r.takes u t lane line ∧
        u.flaggedAfter t lane line (fun x => first && lanePending e x) (fun l => first && (e.line.ctx[l]).reportPending) ∧
        t = { u with
              mix := t.mix, line := { u.line with ctx := t.line.ctx }, lrx := { u.lrx with lanes := t.lrx.lanes }
              ltx := { u.ltx with lanes := t.ltx.lanes }, report := t.report, inst := t.inst })

/-- Every record of a round fills its place in the report area: its stamp head, its contents and its stamp tail are
exactly the record's size, and its place lies within the 8 KiB of the area. The contents of each kind of record hold
its fields, least significant byte first, at the offsets that section 9.4 gives, with 255 or 65535 for NONE, and 0 in
the bytes left. -/
def Obligations.RecordSizes : Prop :=
  ∀ (s : State) (w : Work) (stamp : BitVec 16), ∀ x ∈ roundRecords s w,
    let u8 := fun n : Nat => ((recordContents x stamp).getD (n - 2) 0).toNat
    let u16 := fun n : Nat => u8 n + 256 * u8 (n + 1)
    let u32 := fun n : Nat => u16 n + 65536 * u16 (n + 2)
    let zero := fun first last : Nat => ∀ n, first ≤ n → n ≤ last → u8 n = 0
    let state : LineState → Nat := fun c =>
      match c with
      | .vacant => 0 | .parked => 1 | .screen => 2 | .hold => 3 | .shadow => 4 | .air => 5 | .confer => 6 | .lost => 7
    (recordContents x stamp).length + 4 = x.kind.size ∧ x.kind.offset + x.kind.size ≤ 8192 ∧
    (x.kind = .part →
      u16 2 = stamp.toNat ∧ u32 4 = s.report.blockCount.toNat ∧ u16 8 = s.intake.number.toNat ∧
      u8 10 = (match s.link.engine with | .stopped => 0 | .active => 1 | .draining => 2) ∧
      u8 11 = (if s.ref.locked = true then 1 else 0) ∧ u8 12 = s.scrn.arrivals.toNat ∧ zero 13 29) ∧
    (∀ sec : Section, x.kind = .verdict sec → ∃ v ∈ w.verdicts, v.sec = sec ∧
      u8 2 = sec.val ∧ u16 4 = v.edition.toNat ∧ u16 8 = v.number.toNat ∧ zero 10 13 ∧
      u8 3 = (match v.verdict with
        | .accepted => 0 | .window => 1 | .fetchFault => 2 | .torn => 3 | .range => 4 | .groupFull => 5) ∧
      u16 6 = (match v.field with | none => 65535 | some f => f % 65536)) ∧
    (∀ l : Line, x.kind = .line l →
      let c := s.line.ctx[l]
      u8 2 = l.val ∧ u8 3 = state c.state ∧
      (∀ p, c.state = .screen → c.position = some p → u8 4 = p.val) ∧
      (∀ g, c.state = .confer → c.plan.role = .confer g → u8 4 = g.val) ∧
      (c.state ≠ .screen → c.state ≠ .confer → u8 4 = 0) ∧
      (u8 5, u8 6) = (match c.plan.role with
        | .off => (0, 0) | .auto => (1, 0) | .screen p => (2, p.val) | .hold => (3, 0) | .air => (4, 0)
        | .confer g => (5, g.val)) ∧
      u8 7 = (match c.condition with | .connected => 1 | .disconnected => 2 | .alerting => 3) ∧
      u32 8 = s.report.blockCount.toNat ∧ u16 12 = c.lossCount % 65536 ∧ u16 14 = c.shadowCount % 65536 ∧
      u8 16 = (match c.lostFrom with | none => 255 | some from' => state from') ∧
      u8 17 = (match c.autoScreener with | none => 255 | some p => p.val) ∧
      u16 18 = (match c.arrivalNumber with | none => 65535 | some n => n.toNat) ∧
      u8 20 = (match (s.cue.returns[l]).winner with | none => 255 | some r => r.val) ∧
      u8 21 = c.plan.threshold.val ∧ u8 22 = c.plan.levels.voice.val ∧ u8 23 = c.plan.levels.ret.val ∧
      u8 24 = c.plan.levels.conferAir.val ∧ u8 25 = c.plan.levels.hold.val ∧ u8 26 = c.plan.levels.bed.val ∧
      u8 27 = c.plan.levels.duck.val ∧
      (∀ i < 3, u8 (28 + i) = (match c.plan.partners[i]? with | none => 255 | some j => j.val)) ∧ zero 31 61) ∧
    (∀ i : Fin 48, x.kind = .meter i →
      (∀ k : Line, i.val = k.val → u32 2 = (s.mix.contribs[k]).peak % 4294967296 ∧
        u32 6 = (s.mix.returns[k]).peak % 4294967296 ∧ u32 10 = (s.mix.returns[k]).clip.toNat) ∧
      (∀ y : Source, i.val = 24 + y.val → u32 2 = (s.mix.sources[y]).peak % 4294967296 ∧ zero 6 13) ∧
      ∀ o : Slot, i.val = 40 + o.val → zero 2 5 ∧ u32 6 = (s.mix.outputs[o]).peak % 4294967296 ∧
        u32 10 = (s.mix.outputs[o]).clip.toNat) ∧
    ∀ e : Fin 9, x.kind = .lane e →
      (∀ i : InLane, e.val = i.val →
        let c := s.lrx.lanes[i]
        let slave := c.setup.clocking = .slave
        u8 2 = (match c.state with | .off => 0 | .seeking => 1 | .locked => 2) ∧
        u8 3 = (if c.state = .seeking ∧ c.lostShown = true then 1 else 0) ∧
        u16 4 = (if slave then c.overruns % 65536 else 0) ∧ u16 6 = (if slave then c.underruns % 65536 else 0) ∧
        u16 8 = c.syncLosses % 65536 ∧ u16 10 = c.parityRepeats % 65536 ∧
        u8 12 = (if c.state = .locked ∧ slave then c.buffer.length % 256 else 0)) ∧
      (∀ o : OutLane, e.val = 5 + o.val →
        let c := s.ltx.lanes[o]
        let slave := c.setup.clocking = .slave
        u8 2 = (if c.running = true then 1 else 0) ∧ u8 3 = 0 ∧
        u16 4 = (if slave then c.overruns % 65536 else 0) ∧ u16 6 = (if slave then c.underruns % 65536 else 0) ∧
        zero 8 11 ∧ u8 12 = (if slave then c.buffer.length % 256 else 0)) ∧
      u8 13 = 0

/-- A record begun inside the report window with bus mastering permitted takes the next report sequence as its stamp, and
the parts sent with it, its head or its head and contents, lie at its place, with no byte changed elsewhere. A record
outside the window, or begun without bus mastering, is missed: no byte, no stamp, one miss and notice MISS, no notice
of its own, and the round goes on without it. What follows its completion follows a miss too: the end of the verdict
writes and of a full report, REPORT where another meter record was written, CLIP, the end of the round and of a drain.
Which parts are sent with the begin is the command's operand (entry 17). -/
def Obligations.RecordBegun : Prop :=
  ∀ (s : State) (sent : PartSent) (r : Round) (x : RoundRecord) (rest : List RoundRecord),
    s.report.round = some r → r.current = none → r.todo = x :: rest →
    (s.link.busMaster = true → recordInside s.link x.kind = true →
      ∃ t, exec (.recordWriteBegin sent) s = .next t ∧
        t = { s with hostMem := t.hostMem, report := t.report } ∧
        t.report =
          { s.report with
            seq := s.report.seq + 1
            round := some { r with todo := rest,
                                   current := some { item := x, stamp := s.report.seq + 1, sent := sent } } } ∧
        (let a := s.link.reportBase.toNat + x.kind.offset
         let body := recordContents x (s.report.seq + 1)
         memoryRead t.hostMem a = some ((s.report.seq + 1).extractLsb' 0 8) ∧
         memoryRead t.hostMem (a + 1) = some ((s.report.seq + 1).extractLsb' 8 8) ∧
         (sent = .contents → ∀ i, i < body.length → memoryRead t.hostMem (a + 2 + i) = some (body.getD i 0)) ∧
         ∀ n, n < a ∨ (match sent with | .head => a + 2 | .contents => a + 2 + body.length) ≤ n →
           memoryRead t.hostMem n = memoryRead s.hostMem n)) ∧
    ((s.link.busMaster = false ∨ recordInside s.link x.kind = false) →
      ∃ t, exec (.recordWriteBegin sent) s = .next t ∧ s.recordEnds t r x rest false ∧
        t = { s with intake := t.intake, report := t.report, link := t.link })

/-- A record under way is completed: the parts not yet sent, its contents and stamp tail, or its tail alone, lie at its
place, with no byte changed elsewhere, no stamp spent and no miss counted. Its notices follow: its line's for a line
status record, LANE for a state-change lane record, REPORT and, where a clip total advanced, CLIP with the last meter
record, INTAKE with the last verdict entry or, for an intake with a report request, with the last record of its full
report. With INTAKE the phase returns to IDLE; with the last verdict entry of an intake with a report request the full
report is asked for. The round ends with its last record, and a DRAINING engine stops with DRAINED when no work is left.
Which parts are sent by this command, rather than with the begin of the record, is that command's operand (entry 17). -/
def Obligations.RecordWhole : Prop :=
  ∀ (s : State) (r : Round) (u : Underway), s.report.round = some r → r.current = some u →
    (recordContents u.item u.stamp).length + 4 = u.item.kind.size →
    ∃ t, exec .recordWriteComplete s = .next t ∧
      t = { s with hostMem := t.hostMem, intake := t.intake, report := t.report, link := t.link } ∧
      (let a := s.link.reportBase.toNat + u.item.kind.offset
       let z := a + u.item.kind.size
       let body := recordContents u.item u.stamp
       (u.sent = .head → ∀ i, i < body.length → memoryRead t.hostMem (a + 2 + i) = some (body.getD i 0)) ∧
       memoryRead t.hostMem (z - 2) = some (u.stamp.extractLsb' 0 8) ∧
       memoryRead t.hostMem (z - 1) = some (u.stamp.extractLsb' 8 8) ∧
       ∀ n, n < (match u.sent with | .head => a + 2 | .contents => z - 2) ∨ z ≤ n →
         memoryRead t.hostMem n = memoryRead s.hostMem n) ∧
      s.recordEnds t r u.item r.todo true

/-! ### Invariants that every step keeps -/

/-- The state after a power-on reset meets every invariant below. -/
def Obligations.ResetSound : Prop :=
  State.reset.linesSound ∧ State.reset.rampsSound ∧ State.reset.vacantSound ∧ State.reset.cueSound ∧
    State.reset.lanesSound ∧ State.reset.linkSound ∧ State.reset.rolesSound

/-- Every step keeps the lines and the settings sound: a connected line stands in the connected state of its role and
counts and has condition CONNECTED, a loss count runs exactly while LOST, no count exceeds 65535, no line in AIR, HOLD or
SCREEN has a shadow count, and every partner set and timing value is within its range. -/
def Obligations.StepKeepsLines : Prop :=
  ∀ s t : State, s.linesSound → step s = .next t → t.linesSound

/-- Every step keeps every ramp sound: within its span, and at its target when at rest. -/
def Obligations.StepKeepsRamps : Prop :=
  ∀ s t : State, s.rampsSound → step s = .next t → t.rampsSound

/-- Every step keeps role counts true: the count of each group is the number of lines whose applied role is CONFER of that
group, and is at most eight. -/
def Obligations.StepKeepsRoleCounts : Prop :=
  ∀ s t : State, s.rolesSound → step s = .next t → t.rolesSound

/-- Every step keeps the keys and routes sound: run counts at most 3, a hold count exactly while HOLDING, an invalid route
IDLE, no MOMENTARY route LATCHED and no LATCH route ACTIVE; and every step keeps the return of a VACANT line without cue,
its cue multipliers at rest at 0. -/
def Obligations.StepKeepsCue : Prop :=
  (∀ s t : State, s.cueSound → step s = .next t → t.cueSound) ∧
    ∀ s t : State, s.vacantSound → step s = .next t → t.vacantSound

/-- Every step keeps every lane sound: OFF exactly while not enabled, LOCKED exactly with a sync run of 4, at most four
frames buffered, and counts stopped at 65535. -/
def Obligations.StepKeepsLanes : Prop :=
  ∀ s t : State, s.lanesSound → step s = .next t → t.lanesSound

/-- Every step keeps LINK, INTAKE and REPORT sound: host memory in canonical form, windows whole multiples of 4 KiB, no
work in flight while STOPPED and some while DRAINING, a read outstanding only while FETCHING, one report owed to the
intake at a time and only while APPLYING, verdict entries in ascending section number, and no empty round. -/
def Obligations.StepKeepsLink : Prop :=
  ∀ s t : State, s.linkSound → step s = .next t → t.linkSound
end

