-- ==== Sys2Proof/Laws/Memory.lean ====
section
/-! SUPPORT. Host memory: every write keeps the canonical form, and a read after a write gives the byte written, or what
was there before. -/

namespace Sys2Proof.Machine

/-- The head of a canonical memory lies below every address of its tail, which is canonical. -/
theorem memoryWf_cons {c : Host.Cell} {m : List Host.Cell} (h : memoryWf (c :: m) = true) :
    memoryWf m = true ∧ ∀ d ∈ m, c.1 < d.1 := by
  induction m generalizing c with
  | nil => simp [memoryWf]
  | cons d rest ih =>
    simp only [memoryWf, Bool.and_eq_true, decide_eq_true_eq] at h
    refine ⟨h.2, ?_⟩
    intro x hx
    rcases List.mem_cons.1 hx with rfl | hx
    · exact h.1
    · exact lt_trans h.1 ((ih h.2).2 x hx)

/-- A cell below every address of a canonical memory extends it. -/
theorem memoryWf_of_lt {c : Host.Cell} {m : List Host.Cell} (h : memoryWf m = true) (hc : ∀ d ∈ m, c.1 < d.1) :
    memoryWf (c :: m) = true := by
  cases m with
  | nil => rfl
  | cons d rest =>
    simp only [memoryWf, Bool.and_eq_true, decide_eq_true_eq]
    exact ⟨hc d (by simp), h⟩

/-- The addresses after a write are those before it and the one written. -/
theorem memoryWrite_mem {m : List Host.Cell} {a : Nat} {b : Byte} {d : Host.Cell} (h : d ∈ memoryWrite m a b) :
    d.1 = a ∨ d ∈ m := by
  induction m with
  | nil => simp only [memoryWrite, List.mem_singleton] at h; simp [h]
  | cons c rest ih =>
    simp only [memoryWrite] at h
    split at h
    · rcases List.mem_cons.1 h with rfl | h
      · exact .inl rfl
      · exact .inr h
    · split at h
      · rcases List.mem_cons.1 h with rfl | h
        · exact .inl rfl
        · exact .inr (List.mem_cons_of_mem _ h)
      · rcases List.mem_cons.1 h with rfl | h
        · exact .inr (by simp)
        · exact (ih h).imp id (List.mem_cons_of_mem _)

/-- A write keeps the canonical form. -/
theorem memoryWrite_wf {m : List Host.Cell} (h : memoryWf m = true) (a : Nat) (b : Byte) :
    memoryWf (memoryWrite m a b) = true := by
  induction m with
  | nil => rfl
  | cons c rest ih =>
    have hc := memoryWf_cons h
    simp only [memoryWrite]
    split
    next hlt =>
      refine memoryWf_of_lt h fun d hd => ?_
      rcases List.mem_cons.1 hd with rfl | hd
      · exact hlt
      · exact lt_trans hlt (hc.2 d hd)
    next hlt =>
      split
      next heq =>
        refine memoryWf_of_lt hc.1 fun d hd => ?_
        simpa [heq] using hc.2 d hd
      next hne =>
        refine memoryWf_of_lt (ih hc.1) fun d hd => ?_
        rcases memoryWrite_mem hd with hd | hd
        · omega
        · exact hc.2 d hd

/-- Writing bytes keeps the canonical form. -/
theorem memoryWriteBytes_wf (bs : List Byte) {m : List Host.Cell} (h : memoryWf m = true) (a : Nat) :
    memoryWf (memoryWriteBytes m a bs) = true := by
  induction bs generalizing m a with
  | nil => exact h
  | cons b rest ih => exact ih (memoryWrite_wf h a b) (a + 1)

/-- A read of the address written gives the byte written. -/
theorem memoryRead_write_same (m : List Host.Cell) (a : Nat) (b : Byte) :
    memoryRead (memoryWrite m a b) a = some b := by
  induction m with
  | nil => simp [memoryWrite, memoryRead]
  | cons c rest ih =>
    simp only [memoryWrite]
    split
    · simp [memoryRead]
    · split
      · simp [memoryRead]
      next hne =>
        have : (c.1 == a) = false := by simpa using fun h => hne h.symm
        simpa [memoryRead, List.find?_cons, this] using ih

/-- A read of any other address gives what it gave before. -/
theorem memoryRead_write_other (m : List Host.Cell) {a x : Nat} (h : x ≠ a) (b : Byte) :
    memoryRead (memoryWrite m a b) x = memoryRead m x := by
  have ha : (a == x) = false := by simpa using Ne.symm h
  induction m with
  | nil => simp [memoryWrite, memoryRead, ha]
  | cons c rest ih =>
    simp only [memoryWrite]
    split
    · simp [memoryRead, List.find?_cons, ha]
    · split
      next heq =>
        have hc : (c.1 == x) = false := by simpa [← heq] using Ne.symm h
        simp [memoryRead, ha, hc]
      · simp only [memoryRead, List.find?_cons] at ih ⊢
        split
        · rfl
        · exact ih

/-- A read outside the bytes written gives what it gave before. -/
theorem memoryRead_writeBytes_outside (bs : List Byte) (m : List Host.Cell) (a x : Nat)
    (h : x < a ∨ a + bs.length ≤ x) : memoryRead (memoryWriteBytes m a bs) x = memoryRead m x := by
  induction bs generalizing m a with
  | nil => rfl
  | cons b rest ih =>
    simp only [List.length_cons] at h
    simp only [memoryWriteBytes]
    rw [ih _ _ (by omega), memoryRead_write_other m (by omega)]

/-- A read inside the bytes written gives the byte written there. -/
theorem memoryRead_writeBytes_inside (bs : List Byte) (m : List Host.Cell) (a i : Nat) (h : i < bs.length) :
    memoryRead (memoryWriteBytes m a bs) (a + i) = some bs[i] := by
  induction bs generalizing m a i with
  | nil => simp at h
  | cons b rest ih =>
    simp only [memoryWriteBytes]
    cases i with
    | zero =>
      rw [memoryRead_writeBytes_outside _ _ _ _ (by omega)]
      exact memoryRead_write_same m a b
    | succ i =>
      have h' : i < rest.length := by simpa using h
      have := ih (memoryWrite m a b) (a + 1) i h'
      rw [show a + (i + 1) = a + 1 + i by omega]
      simpa using this

end Sys2Proof.Machine
end

