-- ==== Sys2Proof/Laws/State.lean ====
section
/-! SUPPORT. Which fields of State each named update leaves: one lemma for each update and each field, so that no later
proof unfolds a record update. -/

namespace Sys2Proof.Machine

variable (s : State)

@[simp] theorem State.raise_mix (b : Word32) : (s.raise b).mix = s.mix := rfl
@[simp] theorem State.raise_line (b : Word32) : (s.raise b).line = s.line := rfl
@[simp] theorem State.raise_scrn (b : Word32) : (s.raise b).scrn = s.scrn := rfl
@[simp] theorem State.raise_cue (b : Word32) : (s.raise b).cue = s.cue := rfl
@[simp] theorem State.raise_lrx (b : Word32) : (s.raise b).lrx = s.lrx := rfl
@[simp] theorem State.raise_ltx (b : Word32) : (s.raise b).ltx = s.ltx := rfl
@[simp] theorem State.raise_cmap (b : Word32) : (s.raise b).cmap = s.cmap := rfl
@[simp] theorem State.raise_ref (b : Word32) : (s.raise b).ref = s.ref := rfl
@[simp] theorem State.raise_intake (b : Word32) : (s.raise b).intake = s.intake := rfl
@[simp] theorem State.raise_report (b : Word32) : (s.raise b).report = s.report := rfl
@[simp] theorem State.raise_hostMem (b : Word32) : (s.raise b).hostMem = s.hostMem := rfl
@[simp] theorem State.raise_inst (b : Word32) : (s.raise b).inst = s.inst := rfl
@[simp] theorem State.raise_pending (b : Word32) : (s.raise b).pending = s.pending := rfl

@[simp] theorem State.countMiss_mix : (s.countMiss).mix = s.mix := rfl
@[simp] theorem State.countMiss_line : (s.countMiss).line = s.line := rfl
@[simp] theorem State.countMiss_scrn : (s.countMiss).scrn = s.scrn := rfl
@[simp] theorem State.countMiss_cue : (s.countMiss).cue = s.cue := rfl
@[simp] theorem State.countMiss_lrx : (s.countMiss).lrx = s.lrx := rfl
@[simp] theorem State.countMiss_ltx : (s.countMiss).ltx = s.ltx := rfl
@[simp] theorem State.countMiss_cmap : (s.countMiss).cmap = s.cmap := rfl
@[simp] theorem State.countMiss_ref : (s.countMiss).ref = s.ref := rfl
@[simp] theorem State.countMiss_intake : (s.countMiss).intake = s.intake := rfl
@[simp] theorem State.countMiss_report : (s.countMiss).report = s.report := rfl
@[simp] theorem State.countMiss_hostMem : (s.countMiss).hostMem = s.hostMem := rfl
@[simp] theorem State.countMiss_inst : (s.countMiss).inst = s.inst := rfl
@[simp] theorem State.countMiss_pending : (s.countMiss).pending = s.pending := rfl

@[simp] theorem State.setOutLane_mix (l : OutLane) (c : OutLaneCtx) : (s.setOutLane l c).mix = s.mix := rfl
@[simp] theorem State.setOutLane_line (l : OutLane) (c : OutLaneCtx) : (s.setOutLane l c).line = s.line := rfl
@[simp] theorem State.setOutLane_scrn (l : OutLane) (c : OutLaneCtx) : (s.setOutLane l c).scrn = s.scrn := rfl
@[simp] theorem State.setOutLane_cue (l : OutLane) (c : OutLaneCtx) : (s.setOutLane l c).cue = s.cue := rfl
@[simp] theorem State.setOutLane_lrx (l : OutLane) (c : OutLaneCtx) : (s.setOutLane l c).lrx = s.lrx := rfl
@[simp] theorem State.setOutLane_cmap (l : OutLane) (c : OutLaneCtx) : (s.setOutLane l c).cmap = s.cmap := rfl
@[simp] theorem State.setOutLane_ref (l : OutLane) (c : OutLaneCtx) : (s.setOutLane l c).ref = s.ref := rfl
@[simp] theorem State.setOutLane_intake (l : OutLane) (c : OutLaneCtx) : (s.setOutLane l c).intake = s.intake := rfl
@[simp] theorem State.setOutLane_report (l : OutLane) (c : OutLaneCtx) : (s.setOutLane l c).report = s.report := rfl
@[simp] theorem State.setOutLane_link (l : OutLane) (c : OutLaneCtx) : (s.setOutLane l c).link = s.link := rfl
@[simp] theorem State.setOutLane_hostMem (l : OutLane) (c : OutLaneCtx) : (s.setOutLane l c).hostMem = s.hostMem := rfl
@[simp] theorem State.setOutLane_inst (l : OutLane) (c : OutLaneCtx) : (s.setOutLane l c).inst = s.inst := rfl
@[simp] theorem State.setOutLane_pending (l : OutLane) (c : OutLaneCtx) : (s.setOutLane l c).pending = s.pending := rfl

@[simp] theorem State.setInLane_mix (l : InLane) (c : InLaneCtx) : (s.setInLane l c).mix = s.mix := rfl
@[simp] theorem State.setInLane_line (l : InLane) (c : InLaneCtx) : (s.setInLane l c).line = s.line := rfl
@[simp] theorem State.setInLane_scrn (l : InLane) (c : InLaneCtx) : (s.setInLane l c).scrn = s.scrn := rfl
@[simp] theorem State.setInLane_cue (l : InLane) (c : InLaneCtx) : (s.setInLane l c).cue = s.cue := rfl
@[simp] theorem State.setInLane_ltx (l : InLane) (c : InLaneCtx) : (s.setInLane l c).ltx = s.ltx := rfl
@[simp] theorem State.setInLane_cmap (l : InLane) (c : InLaneCtx) : (s.setInLane l c).cmap = s.cmap := rfl
@[simp] theorem State.setInLane_ref (l : InLane) (c : InLaneCtx) : (s.setInLane l c).ref = s.ref := rfl
@[simp] theorem State.setInLane_intake (l : InLane) (c : InLaneCtx) : (s.setInLane l c).intake = s.intake := rfl
@[simp] theorem State.setInLane_report (l : InLane) (c : InLaneCtx) : (s.setInLane l c).report = s.report := rfl
@[simp] theorem State.setInLane_link (l : InLane) (c : InLaneCtx) : (s.setInLane l c).link = s.link := rfl
@[simp] theorem State.setInLane_hostMem (l : InLane) (c : InLaneCtx) : (s.setInLane l c).hostMem = s.hostMem := rfl
@[simp] theorem State.setInLane_inst (l : InLane) (c : InLaneCtx) : (s.setInLane l c).inst = s.inst := rfl
@[simp] theorem State.setInLane_pending (l : InLane) (c : InLaneCtx) : (s.setInLane l c).pending = s.pending := rfl

@[simp] theorem State.setCue_mix (l : Line) (q : CueReturn) : (s.setCue l q).mix = s.mix := rfl
@[simp] theorem State.setCue_line (l : Line) (q : CueReturn) : (s.setCue l q).line = s.line := rfl
@[simp] theorem State.setCue_scrn (l : Line) (q : CueReturn) : (s.setCue l q).scrn = s.scrn := rfl
@[simp] theorem State.setCue_lrx (l : Line) (q : CueReturn) : (s.setCue l q).lrx = s.lrx := rfl
@[simp] theorem State.setCue_ltx (l : Line) (q : CueReturn) : (s.setCue l q).ltx = s.ltx := rfl
@[simp] theorem State.setCue_cmap (l : Line) (q : CueReturn) : (s.setCue l q).cmap = s.cmap := rfl
@[simp] theorem State.setCue_ref (l : Line) (q : CueReturn) : (s.setCue l q).ref = s.ref := rfl
@[simp] theorem State.setCue_intake (l : Line) (q : CueReturn) : (s.setCue l q).intake = s.intake := rfl
@[simp] theorem State.setCue_report (l : Line) (q : CueReturn) : (s.setCue l q).report = s.report := rfl
@[simp] theorem State.setCue_link (l : Line) (q : CueReturn) : (s.setCue l q).link = s.link := rfl
@[simp] theorem State.setCue_hostMem (l : Line) (q : CueReturn) : (s.setCue l q).hostMem = s.hostMem := rfl
@[simp] theorem State.setCue_inst (l : Line) (q : CueReturn) : (s.setCue l q).inst = s.inst := rfl
@[simp] theorem State.setCue_pending (l : Line) (q : CueReturn) : (s.setCue l q).pending = s.pending := rfl

@[simp] theorem State.writeHold_mix (on : Bool) : (s.writeHold on).mix = s.mix := rfl
@[simp] theorem State.writeHold_line (on : Bool) : (s.writeHold on).line = s.line := rfl
@[simp] theorem State.writeHold_scrn (on : Bool) : (s.writeHold on).scrn = s.scrn := rfl
@[simp] theorem State.writeHold_cue (on : Bool) : (s.writeHold on).cue = s.cue := rfl
@[simp] theorem State.writeHold_lrx (on : Bool) : (s.writeHold on).lrx = s.lrx := rfl
@[simp] theorem State.writeHold_cmap (on : Bool) : (s.writeHold on).cmap = s.cmap := rfl
@[simp] theorem State.writeHold_ref (on : Bool) : (s.writeHold on).ref = s.ref := rfl
@[simp] theorem State.writeHold_intake (on : Bool) : (s.writeHold on).intake = s.intake := rfl
@[simp] theorem State.writeHold_report (on : Bool) : (s.writeHold on).report = s.report := rfl
@[simp] theorem State.writeHold_link (on : Bool) : (s.writeHold on).link = s.link := rfl
@[simp] theorem State.writeHold_hostMem (on : Bool) : (s.writeHold on).hostMem = s.hostMem := rfl
@[simp] theorem State.writeHold_inst (on : Bool) : (s.writeHold on).inst = s.inst := rfl
@[simp] theorem State.writeHold_pending (on : Bool) : (s.writeHold on).pending = s.pending := rfl

@[simp] theorem State.readLanes_mix : (s.readLanes).mix = s.mix := rfl
@[simp] theorem State.readLanes_line : (s.readLanes).line = s.line := rfl
@[simp] theorem State.readLanes_scrn : (s.readLanes).scrn = s.scrn := rfl
@[simp] theorem State.readLanes_cue : (s.readLanes).cue = s.cue := rfl
@[simp] theorem State.readLanes_ltx : (s.readLanes).ltx = s.ltx := rfl
@[simp] theorem State.readLanes_cmap : (s.readLanes).cmap = s.cmap := rfl
@[simp] theorem State.readLanes_ref : (s.readLanes).ref = s.ref := rfl
@[simp] theorem State.readLanes_intake : (s.readLanes).intake = s.intake := rfl
@[simp] theorem State.readLanes_report : (s.readLanes).report = s.report := rfl
@[simp] theorem State.readLanes_link : (s.readLanes).link = s.link := rfl
@[simp] theorem State.readLanes_hostMem : (s.readLanes).hostMem = s.hostMem := rfl
@[simp] theorem State.readLanes_inst : (s.readLanes).inst = s.inst := rfl
@[simp] theorem State.readLanes_pending : (s.readLanes).pending = s.pending := rfl

@[simp] theorem State.emit_line (o : Outputs) : (s.emit o).line = s.line := by
  unfold State.emit; rfl
@[simp] theorem State.emit_scrn (o : Outputs) : (s.emit o).scrn = s.scrn := by
  unfold State.emit; rfl
@[simp] theorem State.emit_cue (o : Outputs) : (s.emit o).cue = s.cue := by
  unfold State.emit; rfl
@[simp] theorem State.emit_cmap (o : Outputs) : (s.emit o).cmap = s.cmap := by
  unfold State.emit; rfl
@[simp] theorem State.emit_ref (o : Outputs) : (s.emit o).ref = s.ref := by
  unfold State.emit; rfl
@[simp] theorem State.emit_intake (o : Outputs) : (s.emit o).intake = s.intake := by
  unfold State.emit; rfl
@[simp] theorem State.emit_report (o : Outputs) : (s.emit o).report = s.report := by
  unfold State.emit; rfl
@[simp] theorem State.emit_link (o : Outputs) : (s.emit o).link = s.link := by
  unfold State.emit; rfl
@[simp] theorem State.emit_hostMem (o : Outputs) : (s.emit o).hostMem = s.hostMem := by
  unfold State.emit; rfl
@[simp] theorem State.emit_inst (o : Outputs) : (s.emit o).inst = s.inst := by
  unfold State.emit; rfl
@[simp] theorem State.emit_pending (o : Outputs) : (s.emit o).pending = s.pending := by
  unfold State.emit; rfl

@[simp] theorem State.takePost_mix : (s.takePost).mix = s.mix := rfl
@[simp] theorem State.takePost_line : (s.takePost).line = s.line := rfl
@[simp] theorem State.takePost_scrn : (s.takePost).scrn = s.scrn := rfl
@[simp] theorem State.takePost_cue : (s.takePost).cue = s.cue := rfl
@[simp] theorem State.takePost_lrx : (s.takePost).lrx = s.lrx := rfl
@[simp] theorem State.takePost_ltx : (s.takePost).ltx = s.ltx := rfl
@[simp] theorem State.takePost_cmap : (s.takePost).cmap = s.cmap := rfl
@[simp] theorem State.takePost_ref : (s.takePost).ref = s.ref := rfl
@[simp] theorem State.takePost_report : (s.takePost).report = s.report := rfl
@[simp] theorem State.takePost_hostMem : (s.takePost).hostMem = s.hostMem := rfl
@[simp] theorem State.takePost_inst : (s.takePost).inst = s.inst := rfl
@[simp] theorem State.takePost_pending : (s.takePost).pending = s.pending := rfl

@[simp] theorem State.fetchFault_mix (sec : Section) : (s.fetchFault sec).mix = s.mix := rfl
@[simp] theorem State.fetchFault_line (sec : Section) : (s.fetchFault sec).line = s.line := rfl
@[simp] theorem State.fetchFault_scrn (sec : Section) : (s.fetchFault sec).scrn = s.scrn := rfl
@[simp] theorem State.fetchFault_cue (sec : Section) : (s.fetchFault sec).cue = s.cue := rfl
@[simp] theorem State.fetchFault_lrx (sec : Section) : (s.fetchFault sec).lrx = s.lrx := rfl
@[simp] theorem State.fetchFault_ltx (sec : Section) : (s.fetchFault sec).ltx = s.ltx := rfl
@[simp] theorem State.fetchFault_cmap (sec : Section) : (s.fetchFault sec).cmap = s.cmap := rfl
@[simp] theorem State.fetchFault_ref (sec : Section) : (s.fetchFault sec).ref = s.ref := rfl
@[simp] theorem State.fetchFault_report (sec : Section) : (s.fetchFault sec).report = s.report := rfl
@[simp] theorem State.fetchFault_link (sec : Section) : (s.fetchFault sec).link = s.link := rfl
@[simp] theorem State.fetchFault_hostMem (sec : Section) : (s.fetchFault sec).hostMem = s.hostMem := rfl
@[simp] theorem State.fetchFault_inst (sec : Section) : (s.fetchFault sec).inst = s.inst := rfl
@[simp] theorem State.fetchFault_pending (sec : Section) : (s.fetchFault sec).pending = s.pending := rfl

@[simp] theorem State.handOver_ref : (s.handOver).ref = s.ref := by
  unfold State.handOver; rfl
@[simp] theorem State.handOver_link : (s.handOver).link = s.link := by
  unfold State.handOver; rfl
@[simp] theorem State.handOver_hostMem : (s.handOver).hostMem = s.hostMem := by
  unfold State.handOver; rfl
@[simp] theorem State.handOver_pending : (s.handOver).pending = s.pending := by
  unfold State.handOver; rfl

@[simp] theorem State.linesMoved_mix (p : Vector (Option LinePlan) 24) (d : Int) : (s.linesMoved p d).mix = s.mix := by
  unfold State.linesMoved; rfl
@[simp] theorem State.linesMoved_cue (p : Vector (Option LinePlan) 24) (d : Int) : (s.linesMoved p d).cue = s.cue := by
  unfold State.linesMoved; rfl
@[simp] theorem State.linesMoved_ltx (p : Vector (Option LinePlan) 24) (d : Int) : (s.linesMoved p d).ltx = s.ltx := by
  unfold State.linesMoved; rfl
@[simp] theorem State.linesMoved_ref (p : Vector (Option LinePlan) 24) (d : Int) : (s.linesMoved p d).ref = s.ref := by
  unfold State.linesMoved; rfl
@[simp] theorem State.linesMoved_intake (p : Vector (Option LinePlan) 24) (d : Int) : (s.linesMoved p d).intake = s.intake := by
  unfold State.linesMoved; rfl
@[simp] theorem State.linesMoved_report (p : Vector (Option LinePlan) 24) (d : Int) : (s.linesMoved p d).report = s.report := by
  unfold State.linesMoved; rfl
@[simp] theorem State.linesMoved_link (p : Vector (Option LinePlan) 24) (d : Int) : (s.linesMoved p d).link = s.link := by
  unfold State.linesMoved; rfl
@[simp] theorem State.linesMoved_hostMem (p : Vector (Option LinePlan) 24) (d : Int) : (s.linesMoved p d).hostMem = s.hostMem := by
  unfold State.linesMoved; rfl
@[simp] theorem State.linesMoved_pending (p : Vector (Option LinePlan) 24) (d : Int) : (s.linesMoved p d).pending = s.pending := by
  unfold State.linesMoved; rfl

@[simp] theorem State.lineMoved_mix (l : Line) : (s.lineMoved l).mix = s.mix := by
  unfold State.lineMoved; rfl
@[simp] theorem State.lineMoved_cue (l : Line) : (s.lineMoved l).cue = s.cue := by
  unfold State.lineMoved; rfl
@[simp] theorem State.lineMoved_lrx (l : Line) : (s.lineMoved l).lrx = s.lrx := by
  unfold State.lineMoved; rfl
@[simp] theorem State.lineMoved_ltx (l : Line) : (s.lineMoved l).ltx = s.ltx := by
  unfold State.lineMoved; rfl
@[simp] theorem State.lineMoved_ref (l : Line) : (s.lineMoved l).ref = s.ref := by
  unfold State.lineMoved; rfl
@[simp] theorem State.lineMoved_intake (l : Line) : (s.lineMoved l).intake = s.intake := by
  unfold State.lineMoved; rfl
@[simp] theorem State.lineMoved_report (l : Line) : (s.lineMoved l).report = s.report := by
  unfold State.lineMoved; rfl
@[simp] theorem State.lineMoved_link (l : Line) : (s.lineMoved l).link = s.link := by
  unfold State.lineMoved; rfl
@[simp] theorem State.lineMoved_hostMem (l : Line) : (s.lineMoved l).hostMem = s.hostMem := by
  unfold State.lineMoved; rfl
@[simp] theorem State.lineMoved_pending (l : Line) : (s.lineMoved l).pending = s.pending := by
  unfold State.lineMoved; rfl

@[simp] theorem State.vacate_line (old : Vector LineCtx 24) : (s.vacate old).line = s.line := by
  unfold State.vacate; rfl
@[simp] theorem State.vacate_scrn (old : Vector LineCtx 24) : (s.vacate old).scrn = s.scrn := by
  unfold State.vacate; rfl
@[simp] theorem State.vacate_lrx (old : Vector LineCtx 24) : (s.vacate old).lrx = s.lrx := by
  unfold State.vacate; rfl
@[simp] theorem State.vacate_ltx (old : Vector LineCtx 24) : (s.vacate old).ltx = s.ltx := by
  unfold State.vacate; rfl
@[simp] theorem State.vacate_cmap (old : Vector LineCtx 24) : (s.vacate old).cmap = s.cmap := by
  unfold State.vacate; rfl
@[simp] theorem State.vacate_ref (old : Vector LineCtx 24) : (s.vacate old).ref = s.ref := by
  unfold State.vacate; rfl
@[simp] theorem State.vacate_intake (old : Vector LineCtx 24) : (s.vacate old).intake = s.intake := by
  unfold State.vacate; rfl
@[simp] theorem State.vacate_report (old : Vector LineCtx 24) : (s.vacate old).report = s.report := by
  unfold State.vacate; rfl
@[simp] theorem State.vacate_link (old : Vector LineCtx 24) : (s.vacate old).link = s.link := by
  unfold State.vacate; rfl
@[simp] theorem State.vacate_hostMem (old : Vector LineCtx 24) : (s.vacate old).hostMem = s.hostMem := by
  unfold State.vacate; rfl
@[simp] theorem State.vacate_inst (old : Vector LineCtx 24) : (s.vacate old).inst = s.inst := by
  unfold State.vacate; rfl
@[simp] theorem State.vacate_pending (old : Vector LineCtx 24) : (s.vacate old).pending = s.pending := by
  unfold State.vacate; rfl

@[simp] theorem State.linePhase_ltx (p : Vector (Option LinePlan) 24) (d : Int) : (s.linePhase p d).ltx = s.ltx := by
  unfold State.linePhase; simp only [State.vacate_ltx, State.linesMoved_ltx]
@[simp] theorem State.linePhase_ref (p : Vector (Option LinePlan) 24) (d : Int) : (s.linePhase p d).ref = s.ref := by
  unfold State.linePhase; simp only [State.vacate_ref, State.linesMoved_ref]
@[simp] theorem State.linePhase_intake (p : Vector (Option LinePlan) 24) (d : Int) : (s.linePhase p d).intake = s.intake := by
  unfold State.linePhase; simp only [State.vacate_intake, State.linesMoved_intake]
@[simp] theorem State.linePhase_report (p : Vector (Option LinePlan) 24) (d : Int) : (s.linePhase p d).report = s.report := by
  unfold State.linePhase; simp only [State.vacate_report, State.linesMoved_report]
@[simp] theorem State.linePhase_link (p : Vector (Option LinePlan) 24) (d : Int) : (s.linePhase p d).link = s.link := by
  unfold State.linePhase; simp only [State.vacate_link, State.linesMoved_link]
@[simp] theorem State.linePhase_hostMem (p : Vector (Option LinePlan) 24) (d : Int) : (s.linePhase p d).hostMem = s.hostMem := by
  unfold State.linePhase; simp only [State.vacate_hostMem, State.linesMoved_hostMem]
@[simp] theorem State.linePhase_pending (p : Vector (Option LinePlan) 24) (d : Int) : (s.linePhase p d).pending = s.pending := by
  unfold State.linePhase; simp only [State.vacate_pending, State.linesMoved_pending]

@[simp] theorem State.tickLine_lrx (l : Line) : (s.tickLine l).lrx = s.lrx := by
  unfold State.tickLine; simp only [State.vacate_lrx, State.lineMoved_lrx]
@[simp] theorem State.tickLine_ltx (l : Line) : (s.tickLine l).ltx = s.ltx := by
  unfold State.tickLine; simp only [State.vacate_ltx, State.lineMoved_ltx]
@[simp] theorem State.tickLine_ref (l : Line) : (s.tickLine l).ref = s.ref := by
  unfold State.tickLine; simp only [State.vacate_ref, State.lineMoved_ref]
@[simp] theorem State.tickLine_intake (l : Line) : (s.tickLine l).intake = s.intake := by
  unfold State.tickLine; simp only [State.vacate_intake, State.lineMoved_intake]
@[simp] theorem State.tickLine_report (l : Line) : (s.tickLine l).report = s.report := by
  unfold State.tickLine; simp only [State.vacate_report, State.lineMoved_report]
@[simp] theorem State.tickLine_link (l : Line) : (s.tickLine l).link = s.link := by
  unfold State.tickLine; simp only [State.vacate_link, State.lineMoved_link]
@[simp] theorem State.tickLine_hostMem (l : Line) : (s.tickLine l).hostMem = s.hostMem := by
  unfold State.tickLine; simp only [State.vacate_hostMem, State.lineMoved_hostMem]
@[simp] theorem State.tickLine_pending (l : Line) : (s.tickLine l).pending = s.pending := by
  unfold State.tickLine; simp only [State.vacate_pending, State.lineMoved_pending]

@[simp] theorem State.tickLane_mix (i : InLane) : (s.tickLane i).mix = s.mix := rfl
@[simp] theorem State.tickLane_line (i : InLane) : (s.tickLane i).line = s.line := rfl
@[simp] theorem State.tickLane_scrn (i : InLane) : (s.tickLane i).scrn = s.scrn := rfl
@[simp] theorem State.tickLane_cue (i : InLane) : (s.tickLane i).cue = s.cue := rfl
@[simp] theorem State.tickLane_ltx (i : InLane) : (s.tickLane i).ltx = s.ltx := rfl
@[simp] theorem State.tickLane_cmap (i : InLane) : (s.tickLane i).cmap = s.cmap := rfl
@[simp] theorem State.tickLane_ref (i : InLane) : (s.tickLane i).ref = s.ref := rfl
@[simp] theorem State.tickLane_intake (i : InLane) : (s.tickLane i).intake = s.intake := rfl
@[simp] theorem State.tickLane_report (i : InLane) : (s.tickLane i).report = s.report := rfl
@[simp] theorem State.tickLane_link (i : InLane) : (s.tickLane i).link = s.link := rfl
@[simp] theorem State.tickLane_hostMem (i : InLane) : (s.tickLane i).hostMem = s.hostMem := rfl
@[simp] theorem State.tickLane_pending (i : InLane) : (s.tickLane i).pending = s.pending := rfl

@[simp] theorem State.countRoles_mix : (s.countRoles).mix = s.mix := rfl
@[simp] theorem State.countRoles_line : (s.countRoles).line = s.line := rfl
@[simp] theorem State.countRoles_cue : (s.countRoles).cue = s.cue := rfl
@[simp] theorem State.countRoles_lrx : (s.countRoles).lrx = s.lrx := rfl
@[simp] theorem State.countRoles_ltx : (s.countRoles).ltx = s.ltx := rfl
@[simp] theorem State.countRoles_cmap : (s.countRoles).cmap = s.cmap := rfl
@[simp] theorem State.countRoles_ref : (s.countRoles).ref = s.ref := rfl
@[simp] theorem State.countRoles_intake : (s.countRoles).intake = s.intake := rfl
@[simp] theorem State.countRoles_report : (s.countRoles).report = s.report := rfl
@[simp] theorem State.countRoles_link : (s.countRoles).link = s.link := rfl
@[simp] theorem State.countRoles_hostMem : (s.countRoles).hostMem = s.hostMem := rfl
@[simp] theorem State.countRoles_inst : (s.countRoles).inst = s.inst := rfl
@[simp] theorem State.countRoles_pending : (s.countRoles).pending = s.pending := rfl

@[simp] theorem State.countBlock_mix : (s.countBlock).mix = s.mix := rfl
@[simp] theorem State.countBlock_line : (s.countBlock).line = s.line := rfl
@[simp] theorem State.countBlock_scrn : (s.countBlock).scrn = s.scrn := rfl
@[simp] theorem State.countBlock_cue : (s.countBlock).cue = s.cue := rfl
@[simp] theorem State.countBlock_lrx : (s.countBlock).lrx = s.lrx := rfl
@[simp] theorem State.countBlock_ltx : (s.countBlock).ltx = s.ltx := rfl
@[simp] theorem State.countBlock_cmap : (s.countBlock).cmap = s.cmap := rfl
@[simp] theorem State.countBlock_ref : (s.countBlock).ref = s.ref := rfl
@[simp] theorem State.countBlock_intake : (s.countBlock).intake = s.intake := rfl
@[simp] theorem State.countBlock_link : (s.countBlock).link = s.link := rfl
@[simp] theorem State.countBlock_hostMem : (s.countBlock).hostMem = s.hostMem := rfl
@[simp] theorem State.countBlock_inst : (s.countBlock).inst = s.inst := rfl
@[simp] theorem State.countBlock_pending : (s.countBlock).pending = s.pending := rfl

@[simp] theorem State.keyPhase_mix (pins : BitVec 16) : (s.keyPhase pins).mix = s.mix := by
  unfold State.keyPhase; rfl
@[simp] theorem State.keyPhase_line (pins : BitVec 16) : (s.keyPhase pins).line = s.line := by
  unfold State.keyPhase; rfl
@[simp] theorem State.keyPhase_scrn (pins : BitVec 16) : (s.keyPhase pins).scrn = s.scrn := by
  unfold State.keyPhase; rfl
@[simp] theorem State.keyPhase_lrx (pins : BitVec 16) : (s.keyPhase pins).lrx = s.lrx := by
  unfold State.keyPhase; rfl
@[simp] theorem State.keyPhase_ltx (pins : BitVec 16) : (s.keyPhase pins).ltx = s.ltx := by
  unfold State.keyPhase; rfl
@[simp] theorem State.keyPhase_cmap (pins : BitVec 16) : (s.keyPhase pins).cmap = s.cmap := by
  unfold State.keyPhase; rfl
@[simp] theorem State.keyPhase_ref (pins : BitVec 16) : (s.keyPhase pins).ref = s.ref := by
  unfold State.keyPhase; rfl
@[simp] theorem State.keyPhase_intake (pins : BitVec 16) : (s.keyPhase pins).intake = s.intake := by
  unfold State.keyPhase; rfl
@[simp] theorem State.keyPhase_report (pins : BitVec 16) : (s.keyPhase pins).report = s.report := by
  unfold State.keyPhase; rfl
@[simp] theorem State.keyPhase_link (pins : BitVec 16) : (s.keyPhase pins).link = s.link := by
  unfold State.keyPhase; rfl
@[simp] theorem State.keyPhase_hostMem (pins : BitVec 16) : (s.keyPhase pins).hostMem = s.hostMem := by
  unfold State.keyPhase; rfl
@[simp] theorem State.keyPhase_inst (pins : BitVec 16) : (s.keyPhase pins).inst = s.inst := by
  unfold State.keyPhase; rfl
@[simp] theorem State.keyPhase_pending (pins : BitVec 16) : (s.keyPhase pins).pending = s.pending := by
  unfold State.keyPhase; rfl

@[simp] theorem State.cuePhase_mix : (s.cuePhase).mix = s.mix := by
  unfold State.cuePhase; rfl
@[simp] theorem State.cuePhase_line : (s.cuePhase).line = s.line := by
  unfold State.cuePhase; rfl
@[simp] theorem State.cuePhase_scrn : (s.cuePhase).scrn = s.scrn := by
  unfold State.cuePhase; rfl
@[simp] theorem State.cuePhase_lrx : (s.cuePhase).lrx = s.lrx := by
  unfold State.cuePhase; rfl
@[simp] theorem State.cuePhase_ltx : (s.cuePhase).ltx = s.ltx := by
  unfold State.cuePhase; rfl
@[simp] theorem State.cuePhase_cmap : (s.cuePhase).cmap = s.cmap := by
  unfold State.cuePhase; rfl
@[simp] theorem State.cuePhase_ref : (s.cuePhase).ref = s.ref := by
  unfold State.cuePhase; rfl
@[simp] theorem State.cuePhase_intake : (s.cuePhase).intake = s.intake := by
  unfold State.cuePhase; rfl
@[simp] theorem State.cuePhase_report : (s.cuePhase).report = s.report := by
  unfold State.cuePhase; rfl
@[simp] theorem State.cuePhase_link : (s.cuePhase).link = s.link := by
  unfold State.cuePhase; rfl
@[simp] theorem State.cuePhase_hostMem : (s.cuePhase).hostMem = s.hostMem := by
  unfold State.cuePhase; rfl
@[simp] theorem State.cuePhase_inst : (s.cuePhase).inst = s.inst := by
  unfold State.cuePhase; rfl
@[simp] theorem State.cuePhase_pending : (s.cuePhase).pending = s.pending := by
  unfold State.cuePhase; rfl

@[simp] theorem State.mixPhase_line : (s.mixPhase).line = s.line := by
  unfold State.mixPhase; rfl
@[simp] theorem State.mixPhase_scrn : (s.mixPhase).scrn = s.scrn := by
  unfold State.mixPhase; rfl
@[simp] theorem State.mixPhase_cue : (s.mixPhase).cue = s.cue := by
  unfold State.mixPhase; rfl
@[simp] theorem State.mixPhase_lrx : (s.mixPhase).lrx = s.lrx := by
  unfold State.mixPhase; rfl
@[simp] theorem State.mixPhase_ltx : (s.mixPhase).ltx = s.ltx := by
  unfold State.mixPhase; rfl
@[simp] theorem State.mixPhase_cmap : (s.mixPhase).cmap = s.cmap := by
  unfold State.mixPhase; rfl
@[simp] theorem State.mixPhase_ref : (s.mixPhase).ref = s.ref := by
  unfold State.mixPhase; rfl
@[simp] theorem State.mixPhase_intake : (s.mixPhase).intake = s.intake := by
  unfold State.mixPhase; rfl
@[simp] theorem State.mixPhase_report : (s.mixPhase).report = s.report := by
  unfold State.mixPhase; rfl
@[simp] theorem State.mixPhase_link : (s.mixPhase).link = s.link := by
  unfold State.mixPhase; rfl
@[simp] theorem State.mixPhase_hostMem : (s.mixPhase).hostMem = s.hostMem := by
  unfold State.mixPhase; rfl
@[simp] theorem State.mixPhase_inst : (s.mixPhase).inst = s.inst := by
  unfold State.mixPhase; rfl
@[simp] theorem State.mixPhase_pending : (s.mixPhase).pending = s.pending := by
  unfold State.mixPhase; rfl

@[simp] theorem State.endTick_mix (roundOpen : Bool) : (s.endTick roundOpen).mix = s.mix := rfl
@[simp] theorem State.endTick_line (roundOpen : Bool) : (s.endTick roundOpen).line = s.line := rfl
@[simp] theorem State.endTick_scrn (roundOpen : Bool) : (s.endTick roundOpen).scrn = s.scrn := rfl
@[simp] theorem State.endTick_cue (roundOpen : Bool) : (s.endTick roundOpen).cue = s.cue := rfl
@[simp] theorem State.endTick_ltx (roundOpen : Bool) : (s.endTick roundOpen).ltx = s.ltx := rfl
@[simp] theorem State.endTick_cmap (roundOpen : Bool) : (s.endTick roundOpen).cmap = s.cmap := rfl
@[simp] theorem State.endTick_ref (roundOpen : Bool) : (s.endTick roundOpen).ref = s.ref := rfl
@[simp] theorem State.endTick_intake (roundOpen : Bool) : (s.endTick roundOpen).intake = s.intake := rfl
@[simp] theorem State.endTick_report (roundOpen : Bool) : (s.endTick roundOpen).report = s.report := rfl
@[simp] theorem State.endTick_link (roundOpen : Bool) : (s.endTick roundOpen).link = s.link := rfl
@[simp] theorem State.endTick_hostMem (roundOpen : Bool) : (s.endTick roundOpen).hostMem = s.hostMem := rfl
@[simp] theorem State.endTick_pending (roundOpen : Bool) : (s.endTick roundOpen).pending = s.pending := rfl

@[simp] theorem State.markOther_mix : (s.markOther).mix = s.mix := rfl
@[simp] theorem State.markOther_line : (s.markOther).line = s.line := rfl
@[simp] theorem State.markOther_scrn : (s.markOther).scrn = s.scrn := rfl
@[simp] theorem State.markOther_cue : (s.markOther).cue = s.cue := rfl
@[simp] theorem State.markOther_lrx : (s.markOther).lrx = s.lrx := rfl
@[simp] theorem State.markOther_ltx : (s.markOther).ltx = s.ltx := rfl
@[simp] theorem State.markOther_cmap : (s.markOther).cmap = s.cmap := rfl
@[simp] theorem State.markOther_ref : (s.markOther).ref = s.ref := rfl
@[simp] theorem State.markOther_intake : (s.markOther).intake = s.intake := rfl
@[simp] theorem State.markOther_report : (s.markOther).report = s.report := rfl
@[simp] theorem State.markOther_link : (s.markOther).link = s.link := rfl
@[simp] theorem State.markOther_hostMem : (s.markOther).hostMem = s.hostMem := rfl
@[simp] theorem State.markOther_pending : (s.markOther).pending = s.pending := rfl

@[simp] theorem State.takeKey_mix (k : Key) (e : KeyEvent) : (s.takeKey k e).mix = s.mix := rfl
@[simp] theorem State.takeKey_line (k : Key) (e : KeyEvent) : (s.takeKey k e).line = s.line := rfl
@[simp] theorem State.takeKey_scrn (k : Key) (e : KeyEvent) : (s.takeKey k e).scrn = s.scrn := rfl
@[simp] theorem State.takeKey_lrx (k : Key) (e : KeyEvent) : (s.takeKey k e).lrx = s.lrx := rfl
@[simp] theorem State.takeKey_ltx (k : Key) (e : KeyEvent) : (s.takeKey k e).ltx = s.ltx := rfl
@[simp] theorem State.takeKey_cmap (k : Key) (e : KeyEvent) : (s.takeKey k e).cmap = s.cmap := rfl
@[simp] theorem State.takeKey_ref (k : Key) (e : KeyEvent) : (s.takeKey k e).ref = s.ref := rfl
@[simp] theorem State.takeKey_intake (k : Key) (e : KeyEvent) : (s.takeKey k e).intake = s.intake := rfl
@[simp] theorem State.takeKey_report (k : Key) (e : KeyEvent) : (s.takeKey k e).report = s.report := rfl
@[simp] theorem State.takeKey_link (k : Key) (e : KeyEvent) : (s.takeKey k e).link = s.link := rfl
@[simp] theorem State.takeKey_hostMem (k : Key) (e : KeyEvent) : (s.takeKey k e).hostMem = s.hostMem := rfl
@[simp] theorem State.takeKey_pending (k : Key) (e : KeyEvent) : (s.takeKey k e).pending = s.pending := rfl

@[simp] theorem State.expireRoute_mix (r : Route) : (s.expireRoute r).mix = s.mix := rfl
@[simp] theorem State.expireRoute_line (r : Route) : (s.expireRoute r).line = s.line := rfl
@[simp] theorem State.expireRoute_scrn (r : Route) : (s.expireRoute r).scrn = s.scrn := rfl
@[simp] theorem State.expireRoute_lrx (r : Route) : (s.expireRoute r).lrx = s.lrx := rfl
@[simp] theorem State.expireRoute_ltx (r : Route) : (s.expireRoute r).ltx = s.ltx := rfl
@[simp] theorem State.expireRoute_cmap (r : Route) : (s.expireRoute r).cmap = s.cmap := rfl
@[simp] theorem State.expireRoute_ref (r : Route) : (s.expireRoute r).ref = s.ref := rfl
@[simp] theorem State.expireRoute_intake (r : Route) : (s.expireRoute r).intake = s.intake := rfl
@[simp] theorem State.expireRoute_report (r : Route) : (s.expireRoute r).report = s.report := rfl
@[simp] theorem State.expireRoute_link (r : Route) : (s.expireRoute r).link = s.link := rfl
@[simp] theorem State.expireRoute_hostMem (r : Route) : (s.expireRoute r).hostMem = s.hostMem := rfl
@[simp] theorem State.expireRoute_pending (r : Route) : (s.expireRoute r).pending = s.pending := rfl

@[simp] theorem State.switchMember_line (l : Line) : (s.switchMember l).line = s.line := rfl
@[simp] theorem State.switchMember_scrn (l : Line) : (s.switchMember l).scrn = s.scrn := rfl
@[simp] theorem State.switchMember_cue (l : Line) : (s.switchMember l).cue = s.cue := rfl
@[simp] theorem State.switchMember_lrx (l : Line) : (s.switchMember l).lrx = s.lrx := rfl
@[simp] theorem State.switchMember_ltx (l : Line) : (s.switchMember l).ltx = s.ltx := rfl
@[simp] theorem State.switchMember_cmap (l : Line) : (s.switchMember l).cmap = s.cmap := rfl
@[simp] theorem State.switchMember_ref (l : Line) : (s.switchMember l).ref = s.ref := rfl
@[simp] theorem State.switchMember_intake (l : Line) : (s.switchMember l).intake = s.intake := rfl
@[simp] theorem State.switchMember_report (l : Line) : (s.switchMember l).report = s.report := rfl
@[simp] theorem State.switchMember_link (l : Line) : (s.switchMember l).link = s.link := rfl
@[simp] theorem State.switchMember_hostMem (l : Line) : (s.switchMember l).hostMem = s.hostMem := rfl
@[simp] theorem State.switchMember_pending (l : Line) : (s.switchMember l).pending = s.pending := rfl

@[simp] theorem State.switchTerm_line (l : Line) : (s.switchTerm l).line = s.line := rfl
@[simp] theorem State.switchTerm_scrn (l : Line) : (s.switchTerm l).scrn = s.scrn := rfl
@[simp] theorem State.switchTerm_cue (l : Line) : (s.switchTerm l).cue = s.cue := rfl
@[simp] theorem State.switchTerm_lrx (l : Line) : (s.switchTerm l).lrx = s.lrx := rfl
@[simp] theorem State.switchTerm_ltx (l : Line) : (s.switchTerm l).ltx = s.ltx := rfl
@[simp] theorem State.switchTerm_cmap (l : Line) : (s.switchTerm l).cmap = s.cmap := rfl
@[simp] theorem State.switchTerm_ref (l : Line) : (s.switchTerm l).ref = s.ref := rfl
@[simp] theorem State.switchTerm_intake (l : Line) : (s.switchTerm l).intake = s.intake := rfl
@[simp] theorem State.switchTerm_report (l : Line) : (s.switchTerm l).report = s.report := rfl
@[simp] theorem State.switchTerm_link (l : Line) : (s.switchTerm l).link = s.link := rfl
@[simp] theorem State.switchTerm_hostMem (l : Line) : (s.switchTerm l).hostMem = s.hostMem := rfl
@[simp] theorem State.switchTerm_pending (l : Line) : (s.switchTerm l).pending = s.pending := rfl

@[simp] theorem State.seekLane_mix (l : InLane) (p : Nat) (w : Word32) : (s.seekLane l p w).mix = s.mix := rfl
@[simp] theorem State.seekLane_line (l : InLane) (p : Nat) (w : Word32) : (s.seekLane l p w).line = s.line := rfl
@[simp] theorem State.seekLane_scrn (l : InLane) (p : Nat) (w : Word32) : (s.seekLane l p w).scrn = s.scrn := rfl
@[simp] theorem State.seekLane_cue (l : InLane) (p : Nat) (w : Word32) : (s.seekLane l p w).cue = s.cue := rfl
@[simp] theorem State.seekLane_ltx (l : InLane) (p : Nat) (w : Word32) : (s.seekLane l p w).ltx = s.ltx := rfl
@[simp] theorem State.seekLane_ref (l : InLane) (p : Nat) (w : Word32) : (s.seekLane l p w).ref = s.ref := rfl
@[simp] theorem State.seekLane_intake (l : InLane) (p : Nat) (w : Word32) : (s.seekLane l p w).intake = s.intake := rfl
@[simp] theorem State.seekLane_report (l : InLane) (p : Nat) (w : Word32) : (s.seekLane l p w).report = s.report := rfl
@[simp] theorem State.seekLane_link (l : InLane) (p : Nat) (w : Word32) : (s.seekLane l p w).link = s.link := rfl
@[simp] theorem State.seekLane_hostMem (l : InLane) (p : Nat) (w : Word32) : (s.seekLane l p w).hostMem = s.hostMem := rfl
@[simp] theorem State.seekLane_inst (l : InLane) (p : Nat) (w : Word32) : (s.seekLane l p w).inst = s.inst := rfl
@[simp] theorem State.seekLane_pending (l : InLane) (p : Nat) (w : Word32) : (s.seekLane l p w).pending = s.pending := rfl

@[simp] theorem State.loseLock_mix (l : InLane) (c : LockLoss) : (s.loseLock l c).mix = s.mix := rfl
@[simp] theorem State.loseLock_line (l : InLane) (c : LockLoss) : (s.loseLock l c).line = s.line := rfl
@[simp] theorem State.loseLock_scrn (l : InLane) (c : LockLoss) : (s.loseLock l c).scrn = s.scrn := rfl
@[simp] theorem State.loseLock_cue (l : InLane) (c : LockLoss) : (s.loseLock l c).cue = s.cue := rfl
@[simp] theorem State.loseLock_ltx (l : InLane) (c : LockLoss) : (s.loseLock l c).ltx = s.ltx := rfl
@[simp] theorem State.loseLock_ref (l : InLane) (c : LockLoss) : (s.loseLock l c).ref = s.ref := rfl
@[simp] theorem State.loseLock_intake (l : InLane) (c : LockLoss) : (s.loseLock l c).intake = s.intake := rfl
@[simp] theorem State.loseLock_report (l : InLane) (c : LockLoss) : (s.loseLock l c).report = s.report := rfl
@[simp] theorem State.loseLock_link (l : InLane) (c : LockLoss) : (s.loseLock l c).link = s.link := rfl
@[simp] theorem State.loseLock_hostMem (l : InLane) (c : LockLoss) : (s.loseLock l c).hostMem = s.hostMem := rfl
@[simp] theorem State.loseLock_pending (l : InLane) (c : LockLoss) : (s.loseLock l c).pending = s.pending := rfl

@[simp] theorem State.unflagged_mix : (s.unflagged).mix = s.mix := by
  unfold State.unflagged; rfl
@[simp] theorem State.unflagged_scrn : (s.unflagged).scrn = s.scrn := by
  unfold State.unflagged; rfl
@[simp] theorem State.unflagged_cue : (s.unflagged).cue = s.cue := by
  unfold State.unflagged; rfl
@[simp] theorem State.unflagged_cmap : (s.unflagged).cmap = s.cmap := by
  unfold State.unflagged; rfl
@[simp] theorem State.unflagged_ref : (s.unflagged).ref = s.ref := by
  unfold State.unflagged; rfl
@[simp] theorem State.unflagged_intake : (s.unflagged).intake = s.intake := by
  unfold State.unflagged; rfl
@[simp] theorem State.unflagged_report : (s.unflagged).report = s.report := by
  unfold State.unflagged; rfl
@[simp] theorem State.unflagged_link : (s.unflagged).link = s.link := by
  unfold State.unflagged; rfl
@[simp] theorem State.unflagged_hostMem : (s.unflagged).hostMem = s.hostMem := by
  unfold State.unflagged; rfl
@[simp] theorem State.unflagged_inst : (s.unflagged).inst = s.inst := by
  unfold State.unflagged; rfl
@[simp] theorem State.unflagged_pending : (s.unflagged).pending = s.pending := by
  unfold State.unflagged; rfl

/-- A snapshot taken before the events of a tick shows a line's context before its events, where it has any, and else as it
stands after the tick (R51, R134). -/
theorem State.seenBefore_ctx (t : State) (e : ReportFlags) (l : Line) :
    (s.seenBefore t e).line.ctx[l] = if e.lines l = true then (t.line.ctx[l]).beforeEvents else s.line.ctx[l] := by
  unfold State.seenBefore; simp
@[simp] theorem State.seenBefore_mix (t : State) (e : ReportFlags) : (s.seenBefore t e).mix = s.mix := by
  unfold State.seenBefore; rfl
@[simp] theorem State.seenBefore_scrn (t : State) (e : ReportFlags) : (s.seenBefore t e).scrn = s.scrn := by
  unfold State.seenBefore; rfl
@[simp] theorem State.seenBefore_cue (t : State) (e : ReportFlags) : (s.seenBefore t e).cue = s.cue := by
  unfold State.seenBefore; rfl
@[simp] theorem State.seenBefore_cmap (t : State) (e : ReportFlags) : (s.seenBefore t e).cmap = s.cmap := by
  unfold State.seenBefore; rfl
@[simp] theorem State.seenBefore_ref (t : State) (e : ReportFlags) : (s.seenBefore t e).ref = s.ref := by
  unfold State.seenBefore; rfl
@[simp] theorem State.seenBefore_intake (t : State) (e : ReportFlags) : (s.seenBefore t e).intake = s.intake := by
  unfold State.seenBefore; rfl
@[simp] theorem State.seenBefore_report (t : State) (e : ReportFlags) : (s.seenBefore t e).report = s.report := by
  unfold State.seenBefore; rfl
@[simp] theorem State.seenBefore_link (t : State) (e : ReportFlags) : (s.seenBefore t e).link = s.link := by
  unfold State.seenBefore; rfl
@[simp] theorem State.seenBefore_hostMem (t : State) (e : ReportFlags) : (s.seenBefore t e).hostMem = s.hostMem := by
  unfold State.seenBefore; rfl
@[simp] theorem State.seenBefore_inst (t : State) (e : ReportFlags) : (s.seenBefore t e).inst = s.inst := by
  unfold State.seenBefore; rfl
@[simp] theorem State.seenBefore_pending (t : State) (e : ReportFlags) : (s.seenBefore t e).pending = s.pending := by
  unfold State.seenBefore; rfl

@[simp] theorem State.startRound_scrn (seen : State) (left : ReportFlags) (w : Work) : (s.startRound seen left w).scrn = s.scrn := by
  unfold State.startRound; rfl
@[simp] theorem State.startRound_cue (seen : State) (left : ReportFlags) (w : Work) : (s.startRound seen left w).cue = s.cue := by
  unfold State.startRound; rfl
@[simp] theorem State.startRound_cmap (seen : State) (left : ReportFlags) (w : Work) : (s.startRound seen left w).cmap = s.cmap := by
  unfold State.startRound; rfl
@[simp] theorem State.startRound_ref (seen : State) (left : ReportFlags) (w : Work) : (s.startRound seen left w).ref = s.ref := by
  unfold State.startRound; rfl
@[simp] theorem State.startRound_intake (seen : State) (left : ReportFlags) (w : Work) : (s.startRound seen left w).intake = s.intake := by
  unfold State.startRound; rfl
@[simp] theorem State.startRound_link (seen : State) (left : ReportFlags) (w : Work) : (s.startRound seen left w).link = s.link := by
  unfold State.startRound; rfl
@[simp] theorem State.startRound_hostMem (seen : State) (left : ReportFlags) (w : Work) : (s.startRound seen left w).hostMem = s.hostMem := by
  unfold State.startRound; rfl
@[simp] theorem State.startRound_inst (seen : State) (left : ReportFlags) (w : Work) : (s.startRound seen left w).inst = s.inst := by
  unfold State.startRound; rfl
@[simp] theorem State.startRound_pending (seen : State) (left : ReportFlags) (w : Work) : (s.startRound seen left w).pending = s.pending := by
  unfold State.startRound; rfl

@[simp] theorem State.intakeDone_mix : (s.intakeDone).mix = s.mix := rfl
@[simp] theorem State.intakeDone_line : (s.intakeDone).line = s.line := rfl
@[simp] theorem State.intakeDone_scrn : (s.intakeDone).scrn = s.scrn := rfl
@[simp] theorem State.intakeDone_cue : (s.intakeDone).cue = s.cue := rfl
@[simp] theorem State.intakeDone_lrx : (s.intakeDone).lrx = s.lrx := rfl
@[simp] theorem State.intakeDone_ltx : (s.intakeDone).ltx = s.ltx := rfl
@[simp] theorem State.intakeDone_cmap : (s.intakeDone).cmap = s.cmap := rfl
@[simp] theorem State.intakeDone_ref : (s.intakeDone).ref = s.ref := rfl
@[simp] theorem State.intakeDone_report : (s.intakeDone).report = s.report := rfl
@[simp] theorem State.intakeDone_hostMem : (s.intakeDone).hostMem = s.hostMem := rfl
@[simp] theorem State.intakeDone_inst : (s.intakeDone).inst = s.inst := rfl
@[simp] theorem State.intakeDone_pending : (s.intakeDone).pending = s.pending := rfl

@[simp] theorem State.sendHead_mix (i : RoundRecord) (t : BitVec 16) : (s.sendHead i t).mix = s.mix := rfl
@[simp] theorem State.sendHead_line (i : RoundRecord) (t : BitVec 16) : (s.sendHead i t).line = s.line := rfl
@[simp] theorem State.sendHead_scrn (i : RoundRecord) (t : BitVec 16) : (s.sendHead i t).scrn = s.scrn := rfl
@[simp] theorem State.sendHead_cue (i : RoundRecord) (t : BitVec 16) : (s.sendHead i t).cue = s.cue := rfl
@[simp] theorem State.sendHead_lrx (i : RoundRecord) (t : BitVec 16) : (s.sendHead i t).lrx = s.lrx := rfl
@[simp] theorem State.sendHead_ltx (i : RoundRecord) (t : BitVec 16) : (s.sendHead i t).ltx = s.ltx := rfl
@[simp] theorem State.sendHead_cmap (i : RoundRecord) (t : BitVec 16) : (s.sendHead i t).cmap = s.cmap := rfl
@[simp] theorem State.sendHead_ref (i : RoundRecord) (t : BitVec 16) : (s.sendHead i t).ref = s.ref := rfl
@[simp] theorem State.sendHead_intake (i : RoundRecord) (t : BitVec 16) : (s.sendHead i t).intake = s.intake := rfl
@[simp] theorem State.sendHead_report (i : RoundRecord) (t : BitVec 16) : (s.sendHead i t).report = s.report := rfl
@[simp] theorem State.sendHead_link (i : RoundRecord) (t : BitVec 16) : (s.sendHead i t).link = s.link := rfl
@[simp] theorem State.sendHead_inst (i : RoundRecord) (t : BitVec 16) : (s.sendHead i t).inst = s.inst := rfl
@[simp] theorem State.sendHead_pending (i : RoundRecord) (t : BitVec 16) : (s.sendHead i t).pending = s.pending := rfl

@[simp] theorem State.sendContents_mix (i : RoundRecord) (t : BitVec 16) : (s.sendContents i t).mix = s.mix := rfl
@[simp] theorem State.sendContents_line (i : RoundRecord) (t : BitVec 16) : (s.sendContents i t).line = s.line := rfl
@[simp] theorem State.sendContents_scrn (i : RoundRecord) (t : BitVec 16) : (s.sendContents i t).scrn = s.scrn := rfl
@[simp] theorem State.sendContents_cue (i : RoundRecord) (t : BitVec 16) : (s.sendContents i t).cue = s.cue := rfl
@[simp] theorem State.sendContents_lrx (i : RoundRecord) (t : BitVec 16) : (s.sendContents i t).lrx = s.lrx := rfl
@[simp] theorem State.sendContents_ltx (i : RoundRecord) (t : BitVec 16) : (s.sendContents i t).ltx = s.ltx := rfl
@[simp] theorem State.sendContents_cmap (i : RoundRecord) (t : BitVec 16) : (s.sendContents i t).cmap = s.cmap := rfl
@[simp] theorem State.sendContents_ref (i : RoundRecord) (t : BitVec 16) : (s.sendContents i t).ref = s.ref := rfl
@[simp] theorem State.sendContents_intake (i : RoundRecord) (t : BitVec 16) : (s.sendContents i t).intake = s.intake := rfl
@[simp] theorem State.sendContents_report (i : RoundRecord) (t : BitVec 16) : (s.sendContents i t).report = s.report := rfl
@[simp] theorem State.sendContents_link (i : RoundRecord) (t : BitVec 16) : (s.sendContents i t).link = s.link := rfl
@[simp] theorem State.sendContents_inst (i : RoundRecord) (t : BitVec 16) : (s.sendContents i t).inst = s.inst := rfl
@[simp] theorem State.sendContents_pending (i : RoundRecord) (t : BitVec 16) : (s.sendContents i t).pending = s.pending := rfl

@[simp] theorem State.sendTail_mix (i : RoundRecord) (t : BitVec 16) : (s.sendTail i t).mix = s.mix := rfl
@[simp] theorem State.sendTail_line (i : RoundRecord) (t : BitVec 16) : (s.sendTail i t).line = s.line := rfl
@[simp] theorem State.sendTail_scrn (i : RoundRecord) (t : BitVec 16) : (s.sendTail i t).scrn = s.scrn := rfl
@[simp] theorem State.sendTail_cue (i : RoundRecord) (t : BitVec 16) : (s.sendTail i t).cue = s.cue := rfl
@[simp] theorem State.sendTail_lrx (i : RoundRecord) (t : BitVec 16) : (s.sendTail i t).lrx = s.lrx := rfl
@[simp] theorem State.sendTail_ltx (i : RoundRecord) (t : BitVec 16) : (s.sendTail i t).ltx = s.ltx := rfl
@[simp] theorem State.sendTail_cmap (i : RoundRecord) (t : BitVec 16) : (s.sendTail i t).cmap = s.cmap := rfl
@[simp] theorem State.sendTail_ref (i : RoundRecord) (t : BitVec 16) : (s.sendTail i t).ref = s.ref := rfl
@[simp] theorem State.sendTail_intake (i : RoundRecord) (t : BitVec 16) : (s.sendTail i t).intake = s.intake := rfl
@[simp] theorem State.sendTail_report (i : RoundRecord) (t : BitVec 16) : (s.sendTail i t).report = s.report := rfl
@[simp] theorem State.sendTail_link (i : RoundRecord) (t : BitVec 16) : (s.sendTail i t).link = s.link := rfl
@[simp] theorem State.sendTail_inst (i : RoundRecord) (t : BitVec 16) : (s.sendTail i t).inst = s.inst := rfl
@[simp] theorem State.sendTail_pending (i : RoundRecord) (t : BitVec 16) : (s.sendTail i t).pending = s.pending := rfl

@[simp] theorem State.linkReset_mix : (s.linkReset).mix = s.mix := by
  unfold State.linkReset; rfl
@[simp] theorem State.linkReset_scrn : (s.linkReset).scrn = s.scrn := by
  unfold State.linkReset; rfl
@[simp] theorem State.linkReset_cue : (s.linkReset).cue = s.cue := by
  unfold State.linkReset; rfl
@[simp] theorem State.linkReset_cmap : (s.linkReset).cmap = s.cmap := by
  unfold State.linkReset; rfl
@[simp] theorem State.linkReset_ref : (s.linkReset).ref = s.ref := by
  unfold State.linkReset; rfl
@[simp] theorem State.linkReset_hostMem : (s.linkReset).hostMem = s.hostMem := by
  unfold State.linkReset; rfl
@[simp] theorem State.linkReset_inst : (s.linkReset).inst = s.inst := by
  unfold State.linkReset; rfl
@[simp] theorem State.linkReset_pending : (s.linkReset).pending = s.pending := by
  unfold State.linkReset; rfl

/-! ### What LINK keeps when a notice is set -/

variable (k : Link)

@[simp] theorem Link.sendMessage_placement (b : Option (Option Message)) : (k.sendMessage b).placement = k.placement := by
  unfold Link.sendMessage; split <;> rfl
@[simp] theorem Link.raise_placement (b : Word32) : (k.raise b).placement = k.placement := by
  unfold Link.raise; simp only []; split <;> simp
@[simp] theorem Link.sendMessage_busMaster (b : Option (Option Message)) : (k.sendMessage b).busMaster = k.busMaster := by
  unfold Link.sendMessage; split <;> rfl
@[simp] theorem Link.raise_busMaster (b : Word32) : (k.raise b).busMaster = k.busMaster := by
  unfold Link.raise; simp only []; split <;> simp
@[simp] theorem Link.sendMessage_msgEnabled (b : Option (Option Message)) : (k.sendMessage b).msgEnabled = k.msgEnabled := by
  unfold Link.sendMessage; split <;> rfl
@[simp] theorem Link.raise_msgEnabled (b : Word32) : (k.raise b).msgEnabled = k.msgEnabled := by
  unfold Link.raise; simp only []; split <;> simp
@[simp] theorem Link.sendMessage_msgAddress (b : Option (Option Message)) : (k.sendMessage b).msgAddress = k.msgAddress := by
  unfold Link.sendMessage; split <;> rfl
@[simp] theorem Link.raise_msgAddress (b : Word32) : (k.raise b).msgAddress = k.msgAddress := by
  unfold Link.raise; simp only []; split <;> simp
@[simp] theorem Link.sendMessage_msgData (b : Option (Option Message)) : (k.sendMessage b).msgData = k.msgData := by
  unfold Link.sendMessage; split <;> rfl
@[simp] theorem Link.raise_msgData (b : Word32) : (k.raise b).msgData = k.msgData := by
  unfold Link.raise; simp only []; split <;> simp
@[simp] theorem Link.sendMessage_planBase (b : Option (Option Message)) : (k.sendMessage b).planBase = k.planBase := by
  unfold Link.sendMessage; split <;> rfl
@[simp] theorem Link.raise_planBase (b : Word32) : (k.raise b).planBase = k.planBase := by
  unfold Link.raise; simp only []; split <;> simp
@[simp] theorem Link.sendMessage_planEnd (b : Option (Option Message)) : (k.sendMessage b).planEnd = k.planEnd := by
  unfold Link.sendMessage; split <;> rfl
@[simp] theorem Link.raise_planEnd (b : Word32) : (k.raise b).planEnd = k.planEnd := by
  unfold Link.raise; simp only []; split <;> simp
@[simp] theorem Link.sendMessage_reportBase (b : Option (Option Message)) : (k.sendMessage b).reportBase = k.reportBase := by
  unfold Link.sendMessage; split <;> rfl
@[simp] theorem Link.raise_reportBase (b : Word32) : (k.raise b).reportBase = k.reportBase := by
  unfold Link.raise; simp only []; split <;> simp
@[simp] theorem Link.sendMessage_reportEnd (b : Option (Option Message)) : (k.sendMessage b).reportEnd = k.reportEnd := by
  unfold Link.sendMessage; split <;> rfl
@[simp] theorem Link.raise_reportEnd (b : Word32) : (k.raise b).reportEnd = k.reportEnd := by
  unfold Link.raise; simp only []; split <;> simp
@[simp] theorem Link.sendMessage_post (b : Option (Option Message)) : (k.sendMessage b).post = k.post := by
  unfold Link.sendMessage; split <;> rfl
@[simp] theorem Link.raise_post (b : Word32) : (k.raise b).post = k.post := by
  unfold Link.raise; simp only []; split <;> simp
@[simp] theorem Link.sendMessage_mask (b : Option (Option Message)) : (k.sendMessage b).mask = k.mask := by
  unfold Link.sendMessage; split <;> rfl
@[simp] theorem Link.raise_mask (b : Word32) : (k.raise b).mask = k.mask := by
  unfold Link.raise; simp only []; split <;> simp
@[simp] theorem Link.sendMessage_miss (b : Option (Option Message)) : (k.sendMessage b).miss = k.miss := by
  unfold Link.sendMessage; split <;> rfl
@[simp] theorem Link.raise_miss (b : Word32) : (k.raise b).miss = k.miss := by
  unfold Link.raise; simp only []; split <;> simp
@[simp] theorem Link.sendMessage_memEnable (b : Option (Option Message)) : (k.sendMessage b).memEnable = k.memEnable := by
  unfold Link.sendMessage; split <;> rfl
@[simp] theorem Link.raise_memEnable (b : Word32) : (k.raise b).memEnable = k.memEnable := by
  unfold Link.raise; simp only []; split <;> simp
@[simp] theorem Link.sendMessage_engine (b : Option (Option Message)) : (k.sendMessage b).engine = k.engine := by
  unfold Link.sendMessage; split <;> rfl
@[simp] theorem Link.raise_engine (b : Word32) : (k.raise b).engine = k.engine := by
  unfold Link.raise; simp only []; split <;> simp
@[simp] theorem Link.sendMessage_read (b : Option (Option Message)) : (k.sendMessage b).read = k.read := by
  unfold Link.sendMessage; split <;> rfl
@[simp] theorem Link.raise_read (b : Word32) : (k.raise b).read = k.read := by
  unfold Link.raise; simp only []; split <;> simp
@[simp] theorem Link.sendMessage_stale (b : Option (Option Message)) : (k.sendMessage b).stale = k.stale := by
  unfold Link.sendMessage; split <;> rfl
@[simp] theorem Link.raise_stale (b : Word32) : (k.raise b).stale = k.stale := by
  unfold Link.raise; simp only []; split <;> simp
@[simp] theorem Link.sendMessage_nextRead (b : Option (Option Message)) : (k.sendMessage b).nextRead = k.nextRead := by
  unfold Link.sendMessage; split <;> rfl
@[simp] theorem Link.raise_nextRead (b : Word32) : (k.raise b).nextRead = k.nextRead := by
  unfold Link.raise; simp only []; split <;> simp
@[simp] theorem Link.sendMessage_notice (b : Option (Option Message)) : (k.sendMessage b).notice = k.notice := by
  unfold Link.sendMessage; split <;> rfl
@[simp] theorem Link.raise_notice (b : Word32) : (k.raise b).notice = k.notice ||| b := by
  unfold Link.raise; simp only []; split <;> simp

/-! ### What LINK keeps when it answers a host write -/

@[simp] theorem Link.answerWrite_placement (e : Bool) : (k.answerWrite e).placement = k.placement := by
  unfold Link.answerWrite Link.afterJointWrite Link.afterHostWrite; split <;> split <;> simp
@[simp] theorem Link.answerWrite_busMaster (e : Bool) : (k.answerWrite e).busMaster = k.busMaster := by
  unfold Link.answerWrite Link.afterJointWrite Link.afterHostWrite; split <;> split <;> simp
@[simp] theorem Link.answerWrite_msgEnabled (e : Bool) : (k.answerWrite e).msgEnabled = k.msgEnabled := by
  unfold Link.answerWrite Link.afterJointWrite Link.afterHostWrite; split <;> split <;> simp
@[simp] theorem Link.answerWrite_msgAddress (e : Bool) : (k.answerWrite e).msgAddress = k.msgAddress := by
  unfold Link.answerWrite Link.afterJointWrite Link.afterHostWrite; split <;> split <;> simp
@[simp] theorem Link.answerWrite_msgData (e : Bool) : (k.answerWrite e).msgData = k.msgData := by
  unfold Link.answerWrite Link.afterJointWrite Link.afterHostWrite; split <;> split <;> simp
@[simp] theorem Link.answerWrite_planBase (e : Bool) : (k.answerWrite e).planBase = k.planBase := by
  unfold Link.answerWrite Link.afterJointWrite Link.afterHostWrite; split <;> split <;> simp
@[simp] theorem Link.answerWrite_planEnd (e : Bool) : (k.answerWrite e).planEnd = k.planEnd := by
  unfold Link.answerWrite Link.afterJointWrite Link.afterHostWrite; split <;> split <;> simp
@[simp] theorem Link.answerWrite_reportBase (e : Bool) : (k.answerWrite e).reportBase = k.reportBase := by
  unfold Link.answerWrite Link.afterJointWrite Link.afterHostWrite; split <;> split <;> simp
@[simp] theorem Link.answerWrite_reportEnd (e : Bool) : (k.answerWrite e).reportEnd = k.reportEnd := by
  unfold Link.answerWrite Link.afterJointWrite Link.afterHostWrite; split <;> split <;> simp
@[simp] theorem Link.answerWrite_post (e : Bool) : (k.answerWrite e).post = k.post := by
  unfold Link.answerWrite Link.afterJointWrite Link.afterHostWrite; split <;> split <;> simp
@[simp] theorem Link.answerWrite_mask (e : Bool) : (k.answerWrite e).mask = k.mask := by
  unfold Link.answerWrite Link.afterJointWrite Link.afterHostWrite; split <;> split <;> simp
@[simp] theorem Link.answerWrite_miss (e : Bool) : (k.answerWrite e).miss = k.miss := by
  unfold Link.answerWrite Link.afterJointWrite Link.afterHostWrite; split <;> split <;> simp
@[simp] theorem Link.answerWrite_memEnable (e : Bool) : (k.answerWrite e).memEnable = k.memEnable := by
  unfold Link.answerWrite Link.afterJointWrite Link.afterHostWrite; split <;> split <;> simp
@[simp] theorem Link.answerWrite_engine (e : Bool) : (k.answerWrite e).engine = k.engine := by
  unfold Link.answerWrite Link.afterJointWrite Link.afterHostWrite; split <;> split <;> simp
@[simp] theorem Link.answerWrite_read (e : Bool) : (k.answerWrite e).read = k.read := by
  unfold Link.answerWrite Link.afterJointWrite Link.afterHostWrite; split <;> split <;> simp
@[simp] theorem Link.answerWrite_stale (e : Bool) : (k.answerWrite e).stale = k.stale := by
  unfold Link.answerWrite Link.afterJointWrite Link.afterHostWrite; split <;> split <;> simp
@[simp] theorem Link.answerWrite_nextRead (e : Bool) : (k.answerWrite e).nextRead = k.nextRead := by
  unfold Link.answerWrite Link.afterJointWrite Link.afterHostWrite; split <;> split <;> simp
@[simp] theorem Link.answerWrite_notice (e : Bool) : (k.answerWrite e).notice = k.notice := by
  unfold Link.answerWrite Link.afterJointWrite Link.afterHostWrite; split <;> split <;> simp

end Sys2Proof.Machine
end

