-- ==== Sys2Proof/Laws/Operations.lean ====
section
/-! SUPPORT. For each shared operation, what it can do, said once: the cases of its answer, and the fields it leaves. -/

namespace Sys2Proof.Machine

/-! ### Notices and the engine (R144, R146, R158) -/

/-- A notice set changes its bit, and the count and content of messages alone. -/
theorem Link.raise_eq (k : Link) (b : Word32) :
    k.raise b =
      { k with notice := k.notice ||| b, messages := (k.raise b).messages, lastMessage := (k.raise b).lastMessage
               beforeEvent := (k.raise b).beforeEvent } := by
  unfold Link.raise Link.sendMessage
  simp only []
  split <;> (try split) <;> rfl

/-- A host write answered changes the count and content of messages alone. -/
theorem Link.answerWrite_eq (k : Link) (e : Bool) :
    k.answerWrite e =
      { k with messages := (k.answerWrite e).messages, lastMessage := (k.answerWrite e).lastMessage
               beforeEvent := (k.answerWrite e).beforeEvent } := by
  unfold Link.answerWrite Link.afterJointWrite Link.afterHostWrite Link.sendMessage
  split <;> split <;> (try split) <;> rfl

/-- The drain check leaves the state, or ends a drain with no work left. -/
theorem State.drainCheck_cases (s : State) :
    (s.drainCheck = s ∧ ¬(s.link.engine = .draining ∧ s.workInFlight = false)) ∨
      (s.link.engine = .draining ∧ s.workInFlight = false ∧
        s.drainCheck = { s with link := ({ s.link with engine := .stopped } : Link).raise noticeDrained }) := by
  unfold State.drainCheck
  split
  next h =>
    simp only [Bool.and_eq_true, decide_eq_true_eq, Bool.not_eq_true'] at h
    exact .inr ⟨h.1, h.2, rfl⟩
  next h =>
    simp only [Bool.and_eq_true, decide_eq_true_eq, Bool.not_eq_true'] at h
    exact .inl ⟨rfl, h⟩

@[simp] theorem State.drainCheck_mix (s : State) : s.drainCheck.mix = s.mix := by
  unfold State.drainCheck; split <;> rfl
@[simp] theorem State.drainCheck_line (s : State) : s.drainCheck.line = s.line := by
  unfold State.drainCheck; split <;> rfl
@[simp] theorem State.drainCheck_scrn (s : State) : s.drainCheck.scrn = s.scrn := by
  unfold State.drainCheck; split <;> rfl
@[simp] theorem State.drainCheck_cue (s : State) : s.drainCheck.cue = s.cue := by
  unfold State.drainCheck; split <;> rfl
@[simp] theorem State.drainCheck_lrx (s : State) : s.drainCheck.lrx = s.lrx := by
  unfold State.drainCheck; split <;> rfl
@[simp] theorem State.drainCheck_ltx (s : State) : s.drainCheck.ltx = s.ltx := by
  unfold State.drainCheck; split <;> rfl
@[simp] theorem State.drainCheck_cmap (s : State) : s.drainCheck.cmap = s.cmap := by
  unfold State.drainCheck; split <;> rfl
@[simp] theorem State.drainCheck_ref (s : State) : s.drainCheck.ref = s.ref := by
  unfold State.drainCheck; split <;> rfl
@[simp] theorem State.drainCheck_hostMem (s : State) : s.drainCheck.hostMem = s.hostMem := by
  unfold State.drainCheck; split <;> rfl
@[simp] theorem State.drainCheck_inst (s : State) : s.drainCheck.inst = s.inst := by
  unfold State.drainCheck; split <;> rfl
@[simp] theorem State.drainCheck_pending (s : State) : s.drainCheck.pending = s.pending := by
  unfold State.drainCheck; split <;> rfl
@[simp] theorem State.drainCheck_intake (s : State) : s.drainCheck.intake = s.intake := by
  unfold State.drainCheck; split <;> rfl
@[simp] theorem State.drainCheck_report (s : State) : s.drainCheck.report = s.report := by
  unfold State.drainCheck; split <;> rfl

@[simp] theorem State.clearEnable_mix (s : State) : s.clearEnable.mix = s.mix := by
  unfold State.clearEnable; simp only []; split <;> simp
@[simp] theorem State.clearEnable_line (s : State) : s.clearEnable.line = s.line := by
  unfold State.clearEnable; simp only []; split <;> simp
@[simp] theorem State.clearEnable_scrn (s : State) : s.clearEnable.scrn = s.scrn := by
  unfold State.clearEnable; simp only []; split <;> simp
@[simp] theorem State.clearEnable_cue (s : State) : s.clearEnable.cue = s.cue := by
  unfold State.clearEnable; simp only []; split <;> simp
@[simp] theorem State.clearEnable_lrx (s : State) : s.clearEnable.lrx = s.lrx := by
  unfold State.clearEnable; simp only []; split <;> simp
@[simp] theorem State.clearEnable_ltx (s : State) : s.clearEnable.ltx = s.ltx := by
  unfold State.clearEnable; simp only []; split <;> simp
@[simp] theorem State.clearEnable_cmap (s : State) : s.clearEnable.cmap = s.cmap := by
  unfold State.clearEnable; simp only []; split <;> simp
@[simp] theorem State.clearEnable_ref (s : State) : s.clearEnable.ref = s.ref := by
  unfold State.clearEnable; simp only []; split <;> simp
@[simp] theorem State.clearEnable_hostMem (s : State) : s.clearEnable.hostMem = s.hostMem := by
  unfold State.clearEnable; simp only []; split <;> simp
@[simp] theorem State.clearEnable_inst (s : State) : s.clearEnable.inst = s.inst := by
  unfold State.clearEnable; simp only []; split <;> simp
@[simp] theorem State.clearEnable_pending (s : State) : s.clearEnable.pending = s.pending := by
  unfold State.clearEnable; simp only []; split <;> simp
@[simp] theorem State.clearEnable_intake (s : State) : s.clearEnable.intake = s.intake := by
  unfold State.clearEnable; simp only []; split <;> simp
@[simp] theorem State.clearEnable_report (s : State) : s.clearEnable.report = s.report := by
  unfold State.clearEnable; simp only []; split <;> simp

/-- Memory enable is 0 after it is cleared. -/
theorem State.clearEnable_memEnable (s : State) : s.clearEnable.link.memEnable = false := by
  unfold State.clearEnable State.drainCheck
  simp only []
  split <;> (try split) <;> simp

/-! ### A write at an offset of the register window (R150) -/

/-- A write of one word is a soft reset, or changes LINK and lane hold alone. -/
theorem State.writeWord_cases (s : State) (n : Nat) (v : Word32) :
    s.writeWord n v = s.softReset ∨
      s.writeWord n v = { s with link := (s.writeWord n v).link, ltx := (s.writeWord n v).ltx } := by
  unfold State.writeWord State.writeControl State.writeEnable State.writeHold State.clearEnable State.drainCheck
  split
  · split
    · exact .inl rfl
    · right; split <;> (try (simp only []; split <;> (try split))) <;> rfl
  · right; split <;> (try split) <;> (try split) <;> (try split) <;> rfl

@[simp] theorem State.writeWord_hostMem (s : State) (n : Nat) (v : Word32) : (s.writeWord n v).hostMem = s.hostMem := by
  rcases s.writeWord_cases n v with h | h <;> rw [h] <;> rfl
@[simp] theorem State.writeWord_pending (s : State) (n : Nat) (v : Word32) : (s.writeWord n v).pending = s.pending := by
  rcases s.writeWord_cases n v with h | h <;> rw [h] <;> rfl

/-! ### The end of a record (R132, R139 to R141, R145) -/

@[simp] theorem State.recordNotice_mix (s : State) (r : RoundRecord) (w : Bool) :
    (s.recordNotice r w).mix = s.mix := by
  unfold State.recordNotice; split <;> (try rfl); split <;> (try rfl); split <;> rfl
@[simp] theorem State.recordNotice_line (s : State) (r : RoundRecord) (w : Bool) :
    (s.recordNotice r w).line = s.line := by
  unfold State.recordNotice; split <;> (try rfl); split <;> (try rfl); split <;> rfl
@[simp] theorem State.recordNotice_scrn (s : State) (r : RoundRecord) (w : Bool) :
    (s.recordNotice r w).scrn = s.scrn := by
  unfold State.recordNotice; split <;> (try rfl); split <;> (try rfl); split <;> rfl
@[simp] theorem State.recordNotice_cue (s : State) (r : RoundRecord) (w : Bool) :
    (s.recordNotice r w).cue = s.cue := by
  unfold State.recordNotice; split <;> (try rfl); split <;> (try rfl); split <;> rfl
@[simp] theorem State.recordNotice_lrx (s : State) (r : RoundRecord) (w : Bool) :
    (s.recordNotice r w).lrx = s.lrx := by
  unfold State.recordNotice; split <;> (try rfl); split <;> (try rfl); split <;> rfl
@[simp] theorem State.recordNotice_ltx (s : State) (r : RoundRecord) (w : Bool) :
    (s.recordNotice r w).ltx = s.ltx := by
  unfold State.recordNotice; split <;> (try rfl); split <;> (try rfl); split <;> rfl
@[simp] theorem State.recordNotice_cmap (s : State) (r : RoundRecord) (w : Bool) :
    (s.recordNotice r w).cmap = s.cmap := by
  unfold State.recordNotice; split <;> (try rfl); split <;> (try rfl); split <;> rfl
@[simp] theorem State.recordNotice_ref (s : State) (r : RoundRecord) (w : Bool) :
    (s.recordNotice r w).ref = s.ref := by
  unfold State.recordNotice; split <;> (try rfl); split <;> (try rfl); split <;> rfl
@[simp] theorem State.recordNotice_hostMem (s : State) (r : RoundRecord) (w : Bool) :
    (s.recordNotice r w).hostMem = s.hostMem := by
  unfold State.recordNotice; split <;> (try rfl); split <;> (try rfl); split <;> rfl
@[simp] theorem State.recordNotice_inst (s : State) (r : RoundRecord) (w : Bool) :
    (s.recordNotice r w).inst = s.inst := by
  unfold State.recordNotice; split <;> (try rfl); split <;> (try rfl); split <;> rfl
@[simp] theorem State.recordNotice_pending (s : State) (r : RoundRecord) (w : Bool) :
    (s.recordNotice r w).pending = s.pending := by
  unfold State.recordNotice; split <;> (try rfl); split <;> (try rfl); split <;> rfl
@[simp] theorem State.recordNotice_intake (s : State) (r : RoundRecord) (w : Bool) :
    (s.recordNotice r w).intake = s.intake := by
  unfold State.recordNotice; split <;> (try rfl); split <;> (try rfl); split <;> rfl
@[simp] theorem State.recordNotice_report (s : State) (r : RoundRecord) (w : Bool) :
    (s.recordNotice r w).report = s.report := by
  unfold State.recordNotice; split <;> (try rfl); split <;> (try rfl); split <;> rfl
@[simp] theorem State.verdictsDone_mix (s : State) : s.verdictsDone.mix = s.mix := by
  unfold State.verdictsDone; split <;> rfl
@[simp] theorem State.verdictsDone_line (s : State) : s.verdictsDone.line = s.line := by
  unfold State.verdictsDone; split <;> rfl
@[simp] theorem State.verdictsDone_scrn (s : State) : s.verdictsDone.scrn = s.scrn := by
  unfold State.verdictsDone; split <;> rfl
@[simp] theorem State.verdictsDone_cue (s : State) : s.verdictsDone.cue = s.cue := by
  unfold State.verdictsDone; split <;> rfl
@[simp] theorem State.verdictsDone_lrx (s : State) : s.verdictsDone.lrx = s.lrx := by
  unfold State.verdictsDone; split <;> rfl
@[simp] theorem State.verdictsDone_ltx (s : State) : s.verdictsDone.ltx = s.ltx := by
  unfold State.verdictsDone; split <;> rfl
@[simp] theorem State.verdictsDone_cmap (s : State) : s.verdictsDone.cmap = s.cmap := by
  unfold State.verdictsDone; split <;> rfl
@[simp] theorem State.verdictsDone_ref (s : State) : s.verdictsDone.ref = s.ref := by
  unfold State.verdictsDone; split <;> rfl
@[simp] theorem State.verdictsDone_hostMem (s : State) : s.verdictsDone.hostMem = s.hostMem := by
  unfold State.verdictsDone; split <;> rfl
@[simp] theorem State.verdictsDone_inst (s : State) : s.verdictsDone.inst = s.inst := by
  unfold State.verdictsDone; split <;> rfl
@[simp] theorem State.verdictsDone_pending (s : State) : s.verdictsDone.pending = s.pending := by
  unfold State.verdictsDone; split <;> rfl
@[simp] theorem State.metersComplete_mix (s : State) (r : Round) : (s.metersComplete r).mix = s.mix := by
  unfold State.metersComplete; simp only []; split <;> split <;> rfl
@[simp] theorem State.metersComplete_line (s : State) (r : Round) : (s.metersComplete r).line = s.line := by
  unfold State.metersComplete; simp only []; split <;> split <;> rfl
@[simp] theorem State.metersComplete_scrn (s : State) (r : Round) : (s.metersComplete r).scrn = s.scrn := by
  unfold State.metersComplete; simp only []; split <;> split <;> rfl
@[simp] theorem State.metersComplete_cue (s : State) (r : Round) : (s.metersComplete r).cue = s.cue := by
  unfold State.metersComplete; simp only []; split <;> split <;> rfl
@[simp] theorem State.metersComplete_lrx (s : State) (r : Round) : (s.metersComplete r).lrx = s.lrx := by
  unfold State.metersComplete; simp only []; split <;> split <;> rfl
@[simp] theorem State.metersComplete_ltx (s : State) (r : Round) : (s.metersComplete r).ltx = s.ltx := by
  unfold State.metersComplete; simp only []; split <;> split <;> rfl
@[simp] theorem State.metersComplete_cmap (s : State) (r : Round) : (s.metersComplete r).cmap = s.cmap := by
  unfold State.metersComplete; simp only []; split <;> split <;> rfl
@[simp] theorem State.metersComplete_ref (s : State) (r : Round) : (s.metersComplete r).ref = s.ref := by
  unfold State.metersComplete; simp only []; split <;> split <;> rfl
@[simp] theorem State.metersComplete_hostMem (s : State) (r : Round) : (s.metersComplete r).hostMem = s.hostMem := by
  unfold State.metersComplete; simp only []; split <;> split <;> rfl
@[simp] theorem State.metersComplete_inst (s : State) (r : Round) : (s.metersComplete r).inst = s.inst := by
  unfold State.metersComplete; simp only []; split <;> split <;> rfl
@[simp] theorem State.metersComplete_pending (s : State) (r : Round) : (s.metersComplete r).pending = s.pending := by
  unfold State.metersComplete; simp only []; split <;> split <;> rfl
@[simp] theorem State.metersComplete_intake (s : State) (r : Round) : (s.metersComplete r).intake = s.intake := by
  unfold State.metersComplete; simp only []; split <;> split <;> rfl
@[simp] theorem State.roundEnd_mix (s : State) (r : Round) : (s.roundEnd r).mix = s.mix := by
  unfold State.roundEnd; simp only []; split <;> (try split) <;> rfl
@[simp] theorem State.roundEnd_line (s : State) (r : Round) : (s.roundEnd r).line = s.line := by
  unfold State.roundEnd; simp only []; split <;> (try split) <;> rfl
@[simp] theorem State.roundEnd_scrn (s : State) (r : Round) : (s.roundEnd r).scrn = s.scrn := by
  unfold State.roundEnd; simp only []; split <;> (try split) <;> rfl
@[simp] theorem State.roundEnd_cue (s : State) (r : Round) : (s.roundEnd r).cue = s.cue := by
  unfold State.roundEnd; simp only []; split <;> (try split) <;> rfl
@[simp] theorem State.roundEnd_lrx (s : State) (r : Round) : (s.roundEnd r).lrx = s.lrx := by
  unfold State.roundEnd; simp only []; split <;> (try split) <;> rfl
@[simp] theorem State.roundEnd_ltx (s : State) (r : Round) : (s.roundEnd r).ltx = s.ltx := by
  unfold State.roundEnd; simp only []; split <;> (try split) <;> rfl
@[simp] theorem State.roundEnd_cmap (s : State) (r : Round) : (s.roundEnd r).cmap = s.cmap := by
  unfold State.roundEnd; simp only []; split <;> (try split) <;> rfl
@[simp] theorem State.roundEnd_ref (s : State) (r : Round) : (s.roundEnd r).ref = s.ref := by
  unfold State.roundEnd; simp only []; split <;> (try split) <;> rfl
@[simp] theorem State.roundEnd_hostMem (s : State) (r : Round) : (s.roundEnd r).hostMem = s.hostMem := by
  unfold State.roundEnd; simp only []; split <;> (try split) <;> rfl
@[simp] theorem State.roundEnd_inst (s : State) (r : Round) : (s.roundEnd r).inst = s.inst := by
  unfold State.roundEnd; simp only []; split <;> (try split) <;> rfl
@[simp] theorem State.roundEnd_pending (s : State) (r : Round) : (s.roundEnd r).pending = s.pending := by
  unfold State.roundEnd; simp only []; split <;> (try split) <;> rfl

/-! The end of a record reaches INTAKE, REPORT and LINK alone. -/

@[simp] theorem State.finishRecord_mix (s : State) (r : Round) (i : RoundRecord) (w : Bool) :
    (s.finishRecord r i w).mix = s.mix := by
  unfold State.finishRecord; simp only []; split <;> split <;> simp
@[simp] theorem State.finishRecord_line (s : State) (r : Round) (i : RoundRecord) (w : Bool) :
    (s.finishRecord r i w).line = s.line := by
  unfold State.finishRecord; simp only []; split <;> split <;> simp
@[simp] theorem State.finishRecord_scrn (s : State) (r : Round) (i : RoundRecord) (w : Bool) :
    (s.finishRecord r i w).scrn = s.scrn := by
  unfold State.finishRecord; simp only []; split <;> split <;> simp
@[simp] theorem State.finishRecord_cue (s : State) (r : Round) (i : RoundRecord) (w : Bool) :
    (s.finishRecord r i w).cue = s.cue := by
  unfold State.finishRecord; simp only []; split <;> split <;> simp
@[simp] theorem State.finishRecord_lrx (s : State) (r : Round) (i : RoundRecord) (w : Bool) :
    (s.finishRecord r i w).lrx = s.lrx := by
  unfold State.finishRecord; simp only []; split <;> split <;> simp
@[simp] theorem State.finishRecord_ltx (s : State) (r : Round) (i : RoundRecord) (w : Bool) :
    (s.finishRecord r i w).ltx = s.ltx := by
  unfold State.finishRecord; simp only []; split <;> split <;> simp
@[simp] theorem State.finishRecord_cmap (s : State) (r : Round) (i : RoundRecord) (w : Bool) :
    (s.finishRecord r i w).cmap = s.cmap := by
  unfold State.finishRecord; simp only []; split <;> split <;> simp
@[simp] theorem State.finishRecord_ref (s : State) (r : Round) (i : RoundRecord) (w : Bool) :
    (s.finishRecord r i w).ref = s.ref := by
  unfold State.finishRecord; simp only []; split <;> split <;> simp
@[simp] theorem State.finishRecord_hostMem (s : State) (r : Round) (i : RoundRecord) (w : Bool) :
    (s.finishRecord r i w).hostMem = s.hostMem := by
  unfold State.finishRecord; simp only []; split <;> split <;> simp
@[simp] theorem State.finishRecord_inst (s : State) (r : Round) (i : RoundRecord) (w : Bool) :
    (s.finishRecord r i w).inst = s.inst := by
  unfold State.finishRecord; simp only []; split <;> split <;> simp
@[simp] theorem State.finishRecord_pending (s : State) (r : Round) (i : RoundRecord) (w : Bool) :
    (s.finishRecord r i w).pending = s.pending := by
  unfold State.finishRecord; simp only []; split <;> split <;> simp

/-! ### Reads and fetches (R112 to R115) -/

@[simp] theorem State.issueRead_mix (s : State) (c : Section) (p : ReadStep) : (s.issueRead c p).mix = s.mix := by
  unfold State.issueRead; split <;> rfl
@[simp] theorem State.issueRead_line (s : State) (c : Section) (p : ReadStep) : (s.issueRead c p).line = s.line := by
  unfold State.issueRead; split <;> rfl
@[simp] theorem State.issueRead_scrn (s : State) (c : Section) (p : ReadStep) : (s.issueRead c p).scrn = s.scrn := by
  unfold State.issueRead; split <;> rfl
@[simp] theorem State.issueRead_cue (s : State) (c : Section) (p : ReadStep) : (s.issueRead c p).cue = s.cue := by
  unfold State.issueRead; split <;> rfl
@[simp] theorem State.issueRead_lrx (s : State) (c : Section) (p : ReadStep) : (s.issueRead c p).lrx = s.lrx := by
  unfold State.issueRead; split <;> rfl
@[simp] theorem State.issueRead_ltx (s : State) (c : Section) (p : ReadStep) : (s.issueRead c p).ltx = s.ltx := by
  unfold State.issueRead; split <;> rfl
@[simp] theorem State.issueRead_cmap (s : State) (c : Section) (p : ReadStep) : (s.issueRead c p).cmap = s.cmap := by
  unfold State.issueRead; split <;> rfl
@[simp] theorem State.issueRead_ref (s : State) (c : Section) (p : ReadStep) : (s.issueRead c p).ref = s.ref := by
  unfold State.issueRead; split <;> rfl
@[simp] theorem State.issueRead_hostMem (s : State) (c : Section) (p : ReadStep) : (s.issueRead c p).hostMem = s.hostMem := by
  unfold State.issueRead; split <;> rfl
@[simp] theorem State.issueRead_inst (s : State) (c : Section) (p : ReadStep) : (s.issueRead c p).inst = s.inst := by
  unfold State.issueRead; split <;> rfl
@[simp] theorem State.issueRead_pending (s : State) (c : Section) (p : ReadStep) : (s.issueRead c p).pending = s.pending := by
  unfold State.issueRead; split <;> rfl
@[simp] theorem State.issueRead_report (s : State) (c : Section) (p : ReadStep) : (s.issueRead c p).report = s.report := by
  unfold State.issueRead; split <;> rfl
@[simp] theorem State.beginFetch_mix (s : State) (c : Section) : (s.beginFetch c).mix = s.mix := by
  unfold State.beginFetch; split <;> (try rfl); split <;> (try rfl); simp
@[simp] theorem State.beginFetch_line (s : State) (c : Section) : (s.beginFetch c).line = s.line := by
  unfold State.beginFetch; split <;> (try rfl); split <;> (try rfl); simp
@[simp] theorem State.beginFetch_scrn (s : State) (c : Section) : (s.beginFetch c).scrn = s.scrn := by
  unfold State.beginFetch; split <;> (try rfl); split <;> (try rfl); simp
@[simp] theorem State.beginFetch_cue (s : State) (c : Section) : (s.beginFetch c).cue = s.cue := by
  unfold State.beginFetch; split <;> (try rfl); split <;> (try rfl); simp
@[simp] theorem State.beginFetch_lrx (s : State) (c : Section) : (s.beginFetch c).lrx = s.lrx := by
  unfold State.beginFetch; split <;> (try rfl); split <;> (try rfl); simp
@[simp] theorem State.beginFetch_ltx (s : State) (c : Section) : (s.beginFetch c).ltx = s.ltx := by
  unfold State.beginFetch; split <;> (try rfl); split <;> (try rfl); simp
@[simp] theorem State.beginFetch_cmap (s : State) (c : Section) : (s.beginFetch c).cmap = s.cmap := by
  unfold State.beginFetch; split <;> (try rfl); split <;> (try rfl); simp
@[simp] theorem State.beginFetch_ref (s : State) (c : Section) : (s.beginFetch c).ref = s.ref := by
  unfold State.beginFetch; split <;> (try rfl); split <;> (try rfl); simp
@[simp] theorem State.beginFetch_hostMem (s : State) (c : Section) : (s.beginFetch c).hostMem = s.hostMem := by
  unfold State.beginFetch; split <;> (try rfl); split <;> (try rfl); simp
@[simp] theorem State.beginFetch_inst (s : State) (c : Section) : (s.beginFetch c).inst = s.inst := by
  unfold State.beginFetch; split <;> (try rfl); split <;> (try rfl); simp
@[simp] theorem State.beginFetch_pending (s : State) (c : Section) : (s.beginFetch c).pending = s.pending := by
  unfold State.beginFetch; split <;> (try rfl); split <;> (try rfl); simp
@[simp] theorem State.beginFetch_report (s : State) (c : Section) : (s.beginFetch c).report = s.report := by
  unfold State.beginFetch; split <;> (try rfl); split <;> (try rfl); simp
@[simp] theorem State.readDone_mix (s : State) (c : Section) (p : ReadStep) (b : List Byte) :
    (s.readDone c p b).mix = s.mix := by
  unfold State.readDone; split <;> simp
@[simp] theorem State.readDone_line (s : State) (c : Section) (p : ReadStep) (b : List Byte) :
    (s.readDone c p b).line = s.line := by
  unfold State.readDone; split <;> simp
@[simp] theorem State.readDone_scrn (s : State) (c : Section) (p : ReadStep) (b : List Byte) :
    (s.readDone c p b).scrn = s.scrn := by
  unfold State.readDone; split <;> simp
@[simp] theorem State.readDone_cue (s : State) (c : Section) (p : ReadStep) (b : List Byte) :
    (s.readDone c p b).cue = s.cue := by
  unfold State.readDone; split <;> simp
@[simp] theorem State.readDone_lrx (s : State) (c : Section) (p : ReadStep) (b : List Byte) :
    (s.readDone c p b).lrx = s.lrx := by
  unfold State.readDone; split <;> simp
@[simp] theorem State.readDone_ltx (s : State) (c : Section) (p : ReadStep) (b : List Byte) :
    (s.readDone c p b).ltx = s.ltx := by
  unfold State.readDone; split <;> simp
@[simp] theorem State.readDone_cmap (s : State) (c : Section) (p : ReadStep) (b : List Byte) :
    (s.readDone c p b).cmap = s.cmap := by
  unfold State.readDone; split <;> simp
@[simp] theorem State.readDone_ref (s : State) (c : Section) (p : ReadStep) (b : List Byte) :
    (s.readDone c p b).ref = s.ref := by
  unfold State.readDone; split <;> simp
@[simp] theorem State.readDone_hostMem (s : State) (c : Section) (p : ReadStep) (b : List Byte) :
    (s.readDone c p b).hostMem = s.hostMem := by
  unfold State.readDone; split <;> simp
@[simp] theorem State.readDone_inst (s : State) (c : Section) (p : ReadStep) (b : List Byte) :
    (s.readDone c p b).inst = s.inst := by
  unfold State.readDone; split <;> simp
@[simp] theorem State.readDone_pending (s : State) (c : Section) (p : ReadStep) (b : List Byte) :
    (s.readDone c p b).pending = s.pending := by
  unfold State.readDone; split <;> simp
@[simp] theorem State.readDone_report (s : State) (c : Section) (p : ReadStep) (b : List Byte) :
    (s.readDone c p b).report = s.report := by
  unfold State.readDone; split <;> simp
@[simp] theorem State.completeRead_mix (s : State) (r : PlanRead) (x : ReadResult) :
    (s.completeRead r x).mix = s.mix := by
  unfold State.completeRead; simp only []; split <;> (try rfl); split <;> simp
@[simp] theorem State.completeRead_line (s : State) (r : PlanRead) (x : ReadResult) :
    (s.completeRead r x).line = s.line := by
  unfold State.completeRead; simp only []; split <;> (try rfl); split <;> simp
@[simp] theorem State.completeRead_scrn (s : State) (r : PlanRead) (x : ReadResult) :
    (s.completeRead r x).scrn = s.scrn := by
  unfold State.completeRead; simp only []; split <;> (try rfl); split <;> simp
@[simp] theorem State.completeRead_cue (s : State) (r : PlanRead) (x : ReadResult) :
    (s.completeRead r x).cue = s.cue := by
  unfold State.completeRead; simp only []; split <;> (try rfl); split <;> simp
@[simp] theorem State.completeRead_lrx (s : State) (r : PlanRead) (x : ReadResult) :
    (s.completeRead r x).lrx = s.lrx := by
  unfold State.completeRead; simp only []; split <;> (try rfl); split <;> simp
@[simp] theorem State.completeRead_ltx (s : State) (r : PlanRead) (x : ReadResult) :
    (s.completeRead r x).ltx = s.ltx := by
  unfold State.completeRead; simp only []; split <;> (try rfl); split <;> simp
@[simp] theorem State.completeRead_cmap (s : State) (r : PlanRead) (x : ReadResult) :
    (s.completeRead r x).cmap = s.cmap := by
  unfold State.completeRead; simp only []; split <;> (try rfl); split <;> simp
@[simp] theorem State.completeRead_ref (s : State) (r : PlanRead) (x : ReadResult) :
    (s.completeRead r x).ref = s.ref := by
  unfold State.completeRead; simp only []; split <;> (try rfl); split <;> simp
@[simp] theorem State.completeRead_hostMem (s : State) (r : PlanRead) (x : ReadResult) :
    (s.completeRead r x).hostMem = s.hostMem := by
  unfold State.completeRead; simp only []; split <;> (try rfl); split <;> simp
@[simp] theorem State.completeRead_inst (s : State) (r : PlanRead) (x : ReadResult) :
    (s.completeRead r x).inst = s.inst := by
  unfold State.completeRead; simp only []; split <;> (try rfl); split <;> simp
@[simp] theorem State.completeRead_pending (s : State) (r : PlanRead) (x : ReadResult) :
    (s.completeRead r x).pending = s.pending := by
  unfold State.completeRead; simp only []; split <;> (try rfl); split <;> simp
@[simp] theorem State.completeRead_report (s : State) (r : PlanRead) (x : ReadResult) :
    (s.completeRead r x).report = s.report := by
  unfold State.completeRead; simp only []; split <;> (try rfl); split <;> simp
@[simp] theorem State.timeoutRead_mix (s : State) : s.timeoutRead.mix = s.mix := by
  unfold State.timeoutRead; simp only []; split <;> rfl
@[simp] theorem State.timeoutRead_line (s : State) : s.timeoutRead.line = s.line := by
  unfold State.timeoutRead; simp only []; split <;> rfl
@[simp] theorem State.timeoutRead_scrn (s : State) : s.timeoutRead.scrn = s.scrn := by
  unfold State.timeoutRead; simp only []; split <;> rfl
@[simp] theorem State.timeoutRead_cue (s : State) : s.timeoutRead.cue = s.cue := by
  unfold State.timeoutRead; simp only []; split <;> rfl
@[simp] theorem State.timeoutRead_lrx (s : State) : s.timeoutRead.lrx = s.lrx := by
  unfold State.timeoutRead; simp only []; split <;> rfl
@[simp] theorem State.timeoutRead_ltx (s : State) : s.timeoutRead.ltx = s.ltx := by
  unfold State.timeoutRead; simp only []; split <;> rfl
@[simp] theorem State.timeoutRead_cmap (s : State) : s.timeoutRead.cmap = s.cmap := by
  unfold State.timeoutRead; simp only []; split <;> rfl
@[simp] theorem State.timeoutRead_ref (s : State) : s.timeoutRead.ref = s.ref := by
  unfold State.timeoutRead; simp only []; split <;> rfl
@[simp] theorem State.timeoutRead_hostMem (s : State) : s.timeoutRead.hostMem = s.hostMem := by
  unfold State.timeoutRead; simp only []; split <;> rfl
@[simp] theorem State.timeoutRead_inst (s : State) : s.timeoutRead.inst = s.inst := by
  unfold State.timeoutRead; simp only []; split <;> rfl
@[simp] theorem State.timeoutRead_pending (s : State) : s.timeoutRead.pending = s.pending := by
  unfold State.timeoutRead; simp only []; split <;> rfl
@[simp] theorem State.timeoutRead_report (s : State) : s.timeoutRead.report = s.report := by
  unfold State.timeoutRead; simp only []; split <;> rfl
@[simp] theorem State.readTick_mix (s : State) : s.readTick.mix = s.mix := by
  unfold State.readTick; split <;> (try rfl); split <;> simp
@[simp] theorem State.readTick_line (s : State) : s.readTick.line = s.line := by
  unfold State.readTick; split <;> (try rfl); split <;> simp
@[simp] theorem State.readTick_scrn (s : State) : s.readTick.scrn = s.scrn := by
  unfold State.readTick; split <;> (try rfl); split <;> simp
@[simp] theorem State.readTick_cue (s : State) : s.readTick.cue = s.cue := by
  unfold State.readTick; split <;> (try rfl); split <;> simp
@[simp] theorem State.readTick_lrx (s : State) : s.readTick.lrx = s.lrx := by
  unfold State.readTick; split <;> (try rfl); split <;> simp
@[simp] theorem State.readTick_ltx (s : State) : s.readTick.ltx = s.ltx := by
  unfold State.readTick; split <;> (try rfl); split <;> simp
@[simp] theorem State.readTick_cmap (s : State) : s.readTick.cmap = s.cmap := by
  unfold State.readTick; split <;> (try rfl); split <;> simp
@[simp] theorem State.readTick_ref (s : State) : s.readTick.ref = s.ref := by
  unfold State.readTick; split <;> (try rfl); split <;> simp
@[simp] theorem State.readTick_hostMem (s : State) : s.readTick.hostMem = s.hostMem := by
  unfold State.readTick; split <;> (try rfl); split <;> simp
@[simp] theorem State.readTick_inst (s : State) : s.readTick.inst = s.inst := by
  unfold State.readTick; split <;> (try rfl); split <;> simp
@[simp] theorem State.readTick_pending (s : State) : s.readTick.pending = s.pending := by
  unfold State.readTick; split <;> (try rfl); split <;> simp
@[simp] theorem State.readTick_report (s : State) : s.readTick.report = s.report := by
  unfold State.readTick; split <;> (try rfl); split <;> simp

@[simp] theorem PlanRead.counted_id (r : PlanRead) : r.counted.id = r.id := rfl
@[simp] theorem PlanRead.counted_step (r : PlanRead) : r.counted.step = r.step := rfl
@[simp] theorem PlanRead.counted_address (r : PlanRead) : r.counted.address = r.address := rfl
@[simp] theorem PlanRead.counted_length (r : PlanRead) : r.counted.length = r.length := rfl
@[simp] theorem PlanRead.counted_late (r : PlanRead) : r.counted.late = false := rfl
@[simp] theorem PlanRead.counted_age (r : PlanRead) : r.counted.age = if r.late then r.age else r.age + 1 := rfl

/-- What a block tick does with the read outstanding: nothing without one; its timeout at the fourth tick after its issue;
the count of the tick at any other. -/
theorem State.readTick_cases (s : State) :
    (s.link.read = none ∧ s.readTick = s) ∨
      ∃ r, s.link.read = some r ∧
        ((r.times = true ∧ s.readTick = s.timeoutRead) ∨
          (r.times = false ∧ s.readTick = { s with link := { s.link with read := some r.counted } })) := by
  unfold State.readTick
  split
  · exact .inl ⟨‹_›, rfl⟩
  · rename_i r h
    refine .inr ⟨r, h, ?_⟩
    split
    · exact .inl ⟨‹_›, rfl⟩
    · rename_i early
      exact .inr ⟨Bool.eq_false_iff.mpr early, rfl⟩

/-! ### Ramps (R17, R18, R20) -/

/-- One sample leaves a ramp at rest, or moves its position by one. -/
theorem Ramp.advance_cases (r : Ramp) :
    (r.atRest = true ∧ r.advance = r) ∨
      (r.atRest = false ∧ r.advance = { r with pos := r.pos + 1, cur := r.valueAt (r.pos + 1) }) := by
  unfold Ramp.advance
  cases h : r.atRest <;> simp

/-- A recomputed target leaves the ramp, stops it, or starts a fresh one. -/
theorem Ramp.retarget_cases (r : Ramp) (t : Int) (len : Nat) :
    (t = r.target ∧ r.retarget t len = r) ∨
      (t ≠ r.target ∧ t = r.cur ∧ r.retarget t len = r.stopAt t) ∨
      (t ≠ r.target ∧ t ≠ r.cur ∧ r.retarget t len = r.begin t len) := by
  unfold Ramp.retarget
  split
  · exact .inl ⟨by assumption, rfl⟩
  · split
    · exact .inr (.inl ⟨by assumption, by assumption, rfl⟩)
    · exact .inr (.inr ⟨by assumption, by assumption, rfl⟩)

/-- No retargeting moves the multiplier itself. -/
theorem Ramp.retarget_cur (r : Ramp) (t : Int) (len : Nat) : (r.retarget t len).cur = r.cur := by
  rcases r.retarget_cases t len with ⟨_, h⟩ | ⟨_, hc, h⟩ | ⟨_, _, h⟩ <;> rw [h]
  · simp [Ramp.stopAt, hc]
  · rfl

/-! ### Elastic buffers (R92, R93, R97) -/

/-- An arrival leaves at most four frames. -/
theorem bufferArrive_length (b : List SlotWords) (f : SlotWords) (h : b.length ≤ 4) :
    (bufferArrive b f).length ≤ 4 := by
  unfold bufferArrive
  split
  · simp only [List.length_append, List.length_singleton, Config.bufferFrames] at *; omega
  · simp only [List.length_tail]; omega

/-! ### Lines (R68) -/

/-- Entry into VACANT touches the returns' cue alone: the lines stand. -/
@[simp] theorem State.linePhase_ctx (s : State) (p : Vector (Option LinePlan) 24) (d : Int) :
    (s.linePhase p d).line = (s.linesMoved p d).line := by
  unfold State.linePhase; simp only [State.vacate_line]

@[simp] theorem State.tickLine_ctx (s : State) (l : Line) : (s.tickLine l).line = (s.lineMoved l).line := by
  unfold State.tickLine; simp only [State.vacate_line]

/-! ### The side-code sample over a loss of lock (R89, R99, R100) -/

@[simp] theorem InLaneCtx.emptied_sideSample (c : InLaneCtx) : c.emptied.sideSample = c.sideSample := rfl
@[simp] theorem InLaneCtx.enterSeeking_sideSample (c : InLaneCtx) : c.enterSeeking.sideSample = c.sideSample := rfl
@[simp] theorem InLaneCtx.loseLock_sideSample (c : InLaneCtx) : c.loseLock.sideSample = c.sideSample := rfl

/-- Nothing that a tick does to a lane before its end reaches the side codes it kept. -/
theorem InLaneCtx.tick_sideSample (c : InLaneCtx) (laneLoss : Nat) (taken : Bool) :
    (c.tick laneLoss taken).sideSample = c.sideSample := by
  unfold InLaneCtx.tick InLaneCtx.seekTick InLaneCtx.showLost
  split
  · rfl
  · split
    · rfl
    · split <;> rfl

/-- A word that locks a lane leaves no side code from before the lock to be sampled (R100). -/
theorem InLaneCtx.seek_locked_sideSample (c : InLaneCtx) (p : Nat) (w : Word32) (h : c.locksAt p w = true) :
    (c.seek p w).state = .locked ∧ (c.seek p w).sideSample = Vector.replicate 8 none := by
  simp only [InLaneCtx.locksAt, Bool.and_eq_true, decide_eq_true_eq] at h
  obtain ⟨⟨⟨hs, hr⟩, he⟩, hw⟩ := h
  simp [InLaneCtx.seek, InLaneCtx.looksAt, InLaneCtx.syncFound, InLaneCtx.enterLocked, hs, hr, he, hw]

/-- A word of a lane's stream clears the settle records of the lane's lines exactly where it locks the lane (R100). -/
theorem State.seekLane_record (s : State) (i : InLane) (p : Nat) (w : Word32) (l : Line) :
    (s.seekLane i p w).cmap.records[l] =
      if (s.lrx.lanes[i]).locksAt p w = true ∧ lineLane l = i then SettleRec.clear else s.cmap.records[l] := by
  have h : ∀ b : Bool, (if b = true then s.cmap.clearLane i else s.cmap).records[l] =
      if b = true ∧ lineLane l = i then SettleRec.clear else s.cmap.records[l] := by
    intro b
    cases b <;> simp [Cmap.clearLane]
  exact h _

/-- A settle record with a sample applied is the one that section 5.6 gives. -/
theorem SettleRec.sampled_withSample (r : SettleRec) (sample : Option (BitVec 6)) :
    r.sampled sample = r.withSample sample := by
  cases sample <;> rfl

/-- A LOCKED lane's line takes the sample that the lane kept (R99). -/
@[simp] theorem settleSampled_locked (m : Cmap) (after : InLaneCtx) (l : Line) (h : after.state = .locked) :
    settleSampled m after l = (m.records[l]).sampled after.sideSample[lineSlot l] := by
  unfold settleSampled; exact if_pos h

/-- The records of a lane that is not LOCKED after a tick are clear (R89, R100). -/
@[simp] theorem settleSampled_cleared (m : Cmap) (after : InLaneCtx) (l : Line) (h : after.state ≠ .locked) :
    settleSampled m after l = SettleRec.clear := by
  unfold settleSampled; exact if_neg h

/-- A SEEKING lane that is not lost delivers its lines nothing: they keep their conditions (R102). -/
theorem lineDelivery_seeking (m : Cmap) (after : InLaneCtx) (laneLoss : Nat) (l : Line) (h : after.state = .seeking)
    (hl : after.seeking < laneLoss) : lineDelivery m after laneLoss l = none := by
  have hd : after.disconnects laneLoss = false := by
    simp [InLaneCtx.disconnects, InLaneCtx.isLost, h, Nat.not_le.mpr hl]
  unfold lineDelivery
  rw [hd, settleSampled_cleared m after l (by simp [h])]
  rfl

/-- The delivery of a settled code is the entry of the table that section 5.6 gives. -/
theorem settledDelivery_entry (table : Vector CodeEntry 64) (r : SettleRec) (settle : Nat) (code : BitVec 6)
    (h : r.last = some code) :
    settledDelivery table r settle =
      if r.count < settle ∨ r.delivered = true then none
      else (table[code.toFin].condition).map fun d => { condition := d, notify := table[code.toFin].notify } := by
  rcases r with ⟨last, count, delivered⟩
  subst h
  unfold settledDelivery SettleRec.settles
  simp only [Option.isSome_some, Option.bind_some, Bool.true_and]
  by_cases hc : settle ≤ count
  · cases delivered <;> simp only [hc, Nat.not_lt.mpr hc, decide_true, Bool.not_true, Bool.not_false, Bool.and_true,
      Bool.and_false, if_true, if_false, or_true, or_false, Bool.false_eq_true]
  · simp only [hc, Nat.not_le.mp hc, decide_false, Bool.false_and, true_or, if_true, if_false, Bool.false_eq_true]

/-- The settle check after a sample is the one that section 5.6 gives. -/
theorem SettleRec.check_settled (r : SettleRec) (sample : Option (BitVec 6)) (settle : Nat) :
    (r.sampled sample).check settle = r.settled sample settle := by
  rw [SettleRec.sampled_withSample]
  unfold SettleRec.check SettleRec.settles SettleRec.settled
  generalize r.withSample sample = x
  rcases x with ⟨last, count, delivered⟩
  cases last <;> cases delivered <;> by_cases h : settle ≤ count <;> simp [h]

end Sys2Proof.Machine
end

