-- ==== Sys2Proof/Laws/Ticks.lean ====
section
/-! SUPPORT. What a block tick and a sample leave: host memory and the queue, and the blocks they do not reach. -/

namespace Sys2Proof.Machine

variable (s : State)

@[simp] theorem State.takeTick_hostMem : (s.takeTick).hostMem = s.hostMem := by
  unfold State.takeTick; split <;> rfl
@[simp] theorem State.takeTick_pending : (s.takeTick).pending = s.pending := by
  unfold State.takeTick; split <;> rfl
@[simp] theorem State.takeTick_mix : (s.takeTick).mix = s.mix := by
  unfold State.takeTick; split <;> rfl
@[simp] theorem State.takeTick_line : (s.takeTick).line = s.line := by
  unfold State.takeTick; split <;> rfl
@[simp] theorem State.takeTick_scrn : (s.takeTick).scrn = s.scrn := by
  unfold State.takeTick; split <;> rfl
@[simp] theorem State.takeTick_cue : (s.takeTick).cue = s.cue := by
  unfold State.takeTick; split <;> rfl
@[simp] theorem State.takeTick_lrx : (s.takeTick).lrx = s.lrx := by
  unfold State.takeTick; split <;> rfl
@[simp] theorem State.takeTick_ltx : (s.takeTick).ltx = s.ltx := by
  unfold State.takeTick; split <;> rfl
@[simp] theorem State.takeTick_cmap : (s.takeTick).cmap = s.cmap := by
  unfold State.takeTick; split <;> rfl
@[simp] theorem State.takeTick_ref : (s.takeTick).ref = s.ref := by
  unfold State.takeTick; split <;> rfl
@[simp] theorem State.takeTick_report : (s.takeTick).report = s.report := by
  unfold State.takeTick; split <;> rfl
@[simp] theorem State.takeTick_inst : (s.takeTick).inst = s.inst := by
  unfold State.takeTick; split <;> rfl

@[simp] theorem State.takePhase_hostMem : (s.takePhase).hostMem = s.hostMem := by
  unfold State.takePhase; split <;> simp
@[simp] theorem State.takePhase_pending : (s.takePhase).pending = s.pending := by
  unfold State.takePhase; split <;> simp
@[simp] theorem State.takePhase_mix : (s.takePhase).mix = s.mix := by
  unfold State.takePhase; split <;> simp
@[simp] theorem State.takePhase_line : (s.takePhase).line = s.line := by
  unfold State.takePhase; split <;> simp
@[simp] theorem State.takePhase_scrn : (s.takePhase).scrn = s.scrn := by
  unfold State.takePhase; split <;> simp
@[simp] theorem State.takePhase_cue : (s.takePhase).cue = s.cue := by
  unfold State.takePhase; split <;> simp
@[simp] theorem State.takePhase_lrx : (s.takePhase).lrx = s.lrx := by
  unfold State.takePhase; split <;> simp
@[simp] theorem State.takePhase_ltx : (s.takePhase).ltx = s.ltx := by
  unfold State.takePhase; split <;> simp
@[simp] theorem State.takePhase_cmap : (s.takePhase).cmap = s.cmap := by
  unfold State.takePhase; split <;> simp
@[simp] theorem State.takePhase_ref : (s.takePhase).ref = s.ref := by
  unfold State.takePhase; split <;> simp
@[simp] theorem State.takePhase_report : (s.takePhase).report = s.report := by
  unfold State.takePhase; split <;> simp
@[simp] theorem State.takePhase_inst : (s.takePhase).inst = s.inst := by
  unfold State.takePhase; split <;> simp

@[simp] theorem State.applyTick_hostMem : (s.applyTick).hostMem = s.hostMem := by
  unfold State.applyTick; simp only []; split <;> simp
@[simp] theorem State.applyTick_pending : (s.applyTick).pending = s.pending := by
  unfold State.applyTick; simp only []; split <;> simp
@[simp] theorem State.applyTick_ref : (s.applyTick).ref = s.ref := by
  unfold State.applyTick; simp only []; split <;> simp
@[simp] theorem State.applyTick_link : (s.applyTick).link = s.link := by
  unfold State.applyTick; simp only []; split <;> simp

@[simp] theorem State.linePart_hostMem : (s.linePart).hostMem = s.hostMem := by
  unfold State.linePart; split <;> simp
@[simp] theorem State.linePart_pending : (s.linePart).pending = s.pending := by
  unfold State.linePart; split <;> simp
@[simp] theorem State.linePart_ref : (s.linePart).ref = s.ref := by
  unfold State.linePart; split <;> simp
@[simp] theorem State.linePart_link : (s.linePart).link = s.link := by
  unfold State.linePart; split <;> simp

@[simp] theorem State.periodPhase_hostMem : (s.periodPhase).hostMem = s.hostMem := by
  unfold State.periodPhase; split <;> rfl
@[simp] theorem State.periodPhase_pending : (s.periodPhase).pending = s.pending := by
  unfold State.periodPhase; split <;> rfl
@[simp] theorem State.periodPhase_mix : (s.periodPhase).mix = s.mix := by
  unfold State.periodPhase; split <;> rfl
@[simp] theorem State.periodPhase_line : (s.periodPhase).line = s.line := by
  unfold State.periodPhase; split <;> rfl
@[simp] theorem State.periodPhase_scrn : (s.periodPhase).scrn = s.scrn := by
  unfold State.periodPhase; split <;> rfl
@[simp] theorem State.periodPhase_cue : (s.periodPhase).cue = s.cue := by
  unfold State.periodPhase; split <;> rfl
@[simp] theorem State.periodPhase_lrx : (s.periodPhase).lrx = s.lrx := by
  unfold State.periodPhase; split <;> rfl
@[simp] theorem State.periodPhase_ltx : (s.periodPhase).ltx = s.ltx := by
  unfold State.periodPhase; split <;> rfl
@[simp] theorem State.periodPhase_cmap : (s.periodPhase).cmap = s.cmap := by
  unfold State.periodPhase; split <;> rfl
@[simp] theorem State.periodPhase_ref : (s.periodPhase).ref = s.ref := by
  unfold State.periodPhase; split <;> rfl
@[simp] theorem State.periodPhase_intake : (s.periodPhase).intake = s.intake := by
  unfold State.periodPhase; split <;> rfl
@[simp] theorem State.periodPhase_link : (s.periodPhase).link = s.link := by
  unfold State.periodPhase; split <;> rfl
@[simp] theorem State.periodPhase_inst : (s.periodPhase).inst = s.inst := by
  unfold State.periodPhase; split <;> rfl

@[simp] theorem State.audioTick_hostMem (pins : BitVec 16) : (s.audioTick pins).hostMem = s.hostMem := by
  unfold State.audioTick; simp
@[simp] theorem State.audioTick_pending (pins : BitVec 16) : (s.audioTick pins).pending = s.pending := by
  unfold State.audioTick; simp
@[simp] theorem State.audioTick_ref (pins : BitVec 16) : (s.audioTick pins).ref = s.ref := by
  unfold State.audioTick; simp

@[simp] theorem State.setRef_hostMem (r : RefMonitor) : (s.setRef r).hostMem = s.hostMem := by
  unfold State.setRef; split <;> rfl
@[simp] theorem State.setRef_pending (r : RefMonitor) : (s.setRef r).pending = s.pending := by
  unfold State.setRef; split <;> rfl
@[simp] theorem State.setRef_mix (r : RefMonitor) : (s.setRef r).mix = s.mix := by
  unfold State.setRef; split <;> rfl
@[simp] theorem State.setRef_line (r : RefMonitor) : (s.setRef r).line = s.line := by
  unfold State.setRef; split <;> rfl
@[simp] theorem State.setRef_scrn (r : RefMonitor) : (s.setRef r).scrn = s.scrn := by
  unfold State.setRef; split <;> rfl
@[simp] theorem State.setRef_cue (r : RefMonitor) : (s.setRef r).cue = s.cue := by
  unfold State.setRef; split <;> rfl
@[simp] theorem State.setRef_lrx (r : RefMonitor) : (s.setRef r).lrx = s.lrx := by
  unfold State.setRef; split <;> rfl
@[simp] theorem State.setRef_ltx (r : RefMonitor) : (s.setRef r).ltx = s.ltx := by
  unfold State.setRef; split <;> rfl
@[simp] theorem State.setRef_cmap (r : RefMonitor) : (s.setRef r).cmap = s.cmap := by
  unfold State.setRef; split <;> rfl
@[simp] theorem State.setRef_intake (r : RefMonitor) : (s.setRef r).intake = s.intake := by
  unfold State.setRef; split <;> rfl
@[simp] theorem State.setRef_report (r : RefMonitor) : (s.setRef r).report = s.report := by
  unfold State.setRef; split <;> rfl
@[simp] theorem State.setRef_inst (r : RefMonitor) : (s.setRef r).inst = s.inst := by
  unfold State.setRef; split <;> rfl

@[simp] theorem State.tickEvents_hostMem (pins : BitVec 16) (follows : Bool) : (s.tickEvents pins follows).hostMem = s.hostMem := by
  unfold State.tickEvents; simp
@[simp] theorem State.tickEvents_pending (pins : BitVec 16) (follows : Bool) : (s.tickEvents pins follows).pending = s.pending := by
  unfold State.tickEvents; simp

@[simp] theorem State.lookRound_hostMem (seen : State) (left : ReportFlags) : (s.lookRound seen left).hostMem = s.hostMem := by
  unfold State.lookRound; split <;> simp
@[simp] theorem State.lookRound_pending (seen : State) (left : ReportFlags) : (s.lookRound seen left).pending = s.pending := by
  unfold State.lookRound; split <;> simp
@[simp] theorem State.lookRound_scrn (seen : State) (left : ReportFlags) : (s.lookRound seen left).scrn = s.scrn := by
  unfold State.lookRound; split <;> simp
@[simp] theorem State.lookRound_cue (seen : State) (left : ReportFlags) : (s.lookRound seen left).cue = s.cue := by
  unfold State.lookRound; split <;> simp
@[simp] theorem State.lookRound_cmap (seen : State) (left : ReportFlags) : (s.lookRound seen left).cmap = s.cmap := by
  unfold State.lookRound; split <;> simp
@[simp] theorem State.lookRound_ref (seen : State) (left : ReportFlags) : (s.lookRound seen left).ref = s.ref := by
  unfold State.lookRound; split <;> simp
@[simp] theorem State.lookRound_intake (seen : State) (left : ReportFlags) : (s.lookRound seen left).intake = s.intake := by
  unfold State.lookRound; split <;> simp
@[simp] theorem State.lookRound_link (seen : State) (left : ReportFlags) : (s.lookRound seen left).link = s.link := by
  unfold State.lookRound; split <;> simp
@[simp] theorem State.lookRound_inst (seen : State) (left : ReportFlags) : (s.lookRound seen left).inst = s.inst := by
  unfold State.lookRound; split <;> simp

@[simp] theorem State.roundTick_hostMem : (s.roundTick).hostMem = s.hostMem := by
  unfold State.roundTick; simp
@[simp] theorem State.roundTick_pending : (s.roundTick).pending = s.pending := by
  unfold State.roundTick; simp
@[simp] theorem State.roundTick_scrn : (s.roundTick).scrn = s.scrn := by
  unfold State.roundTick; simp
@[simp] theorem State.roundTick_cue : (s.roundTick).cue = s.cue := by
  unfold State.roundTick; simp
@[simp] theorem State.roundTick_cmap : (s.roundTick).cmap = s.cmap := by
  unfold State.roundTick; simp
@[simp] theorem State.roundTick_ref : (s.roundTick).ref = s.ref := by
  unfold State.roundTick; simp
@[simp] theorem State.roundTick_intake : (s.roundTick).intake = s.intake := by
  unfold State.roundTick; simp
@[simp] theorem State.roundTick_link : (s.roundTick).link = s.link := by
  unfold State.roundTick; simp
@[simp] theorem State.roundTick_inst : (s.roundTick).inst = s.inst := by
  unfold State.roundTick; simp

@[simp] theorem State.roundPhase_hostMem (t : State) (pins : BitVec 16) (snapFirst : Bool) : (s.roundPhase t pins snapFirst).hostMem = s.hostMem := by
  unfold State.roundPhase; simp
@[simp] theorem State.roundPhase_pending (t : State) (pins : BitVec 16) (snapFirst : Bool) : (s.roundPhase t pins snapFirst).pending = s.pending := by
  unfold State.roundPhase; simp
@[simp] theorem State.roundPhase_scrn (t : State) (pins : BitVec 16) (snapFirst : Bool) : (s.roundPhase t pins snapFirst).scrn = s.scrn := by
  unfold State.roundPhase; simp
@[simp] theorem State.roundPhase_cue (t : State) (pins : BitVec 16) (snapFirst : Bool) : (s.roundPhase t pins snapFirst).cue = s.cue := by
  unfold State.roundPhase; simp
@[simp] theorem State.roundPhase_cmap (t : State) (pins : BitVec 16) (snapFirst : Bool) : (s.roundPhase t pins snapFirst).cmap = s.cmap := by
  unfold State.roundPhase; simp
@[simp] theorem State.roundPhase_ref (t : State) (pins : BitVec 16) (snapFirst : Bool) : (s.roundPhase t pins snapFirst).ref = s.ref := by
  unfold State.roundPhase; simp
@[simp] theorem State.roundPhase_intake (t : State) (pins : BitVec 16) (snapFirst : Bool) : (s.roundPhase t pins snapFirst).intake = s.intake := by
  unfold State.roundPhase; simp
@[simp] theorem State.roundPhase_link (t : State) (pins : BitVec 16) (snapFirst : Bool) : (s.roundPhase t pins snapFirst).link = s.link := by
  unfold State.roundPhase; simp
@[simp] theorem State.roundPhase_inst (t : State) (pins : BitVec 16) (snapFirst : Bool) : (s.roundPhase t pins snapFirst).inst = s.inst := by
  unfold State.roundPhase; simp

@[simp] theorem State.blockTick_hostMem (pins : BitVec 16) (follows snapFirst : Bool) : (s.blockTick pins follows snapFirst).hostMem = s.hostMem := by
  unfold State.blockTick; simp
@[simp] theorem State.blockTick_pending (pins : BitVec 16) (follows snapFirst : Bool) : (s.blockTick pins follows snapFirst).pending = s.pending := by
  unfold State.blockTick; simp

@[simp] theorem State.inSample_line : (s.inSample).line = s.line := by
  rfl
@[simp] theorem State.inSample_scrn : (s.inSample).scrn = s.scrn := by
  rfl
@[simp] theorem State.inSample_cue : (s.inSample).cue = s.cue := by
  rfl
@[simp] theorem State.inSample_ltx : (s.inSample).ltx = s.ltx := by
  rfl
@[simp] theorem State.inSample_cmap : (s.inSample).cmap = s.cmap := by
  rfl
@[simp] theorem State.inSample_ref : (s.inSample).ref = s.ref := by
  rfl
@[simp] theorem State.inSample_intake : (s.inSample).intake = s.intake := by
  rfl
@[simp] theorem State.inSample_report : (s.inSample).report = s.report := by
  rfl
@[simp] theorem State.inSample_link : (s.inSample).link = s.link := by
  rfl
@[simp] theorem State.inSample_hostMem : (s.inSample).hostMem = s.hostMem := by
  rfl
@[simp] theorem State.inSample_pending : (s.inSample).pending = s.pending := by
  rfl
@[simp] theorem State.inSample_inst : (s.inSample).inst = s.inst := by
  rfl

@[simp] theorem State.takeSample_line : (s.takeSample).line = s.line := by
  unfold State.takeSample; simp
@[simp] theorem State.takeSample_scrn : (s.takeSample).scrn = s.scrn := by
  unfold State.takeSample; simp
@[simp] theorem State.takeSample_cue : (s.takeSample).cue = s.cue := by
  unfold State.takeSample; simp
@[simp] theorem State.takeSample_cmap : (s.takeSample).cmap = s.cmap := by
  unfold State.takeSample; simp
@[simp] theorem State.takeSample_ref : (s.takeSample).ref = s.ref := by
  unfold State.takeSample; simp
@[simp] theorem State.takeSample_intake : (s.takeSample).intake = s.intake := by
  unfold State.takeSample; simp
@[simp] theorem State.takeSample_report : (s.takeSample).report = s.report := by
  unfold State.takeSample; simp
@[simp] theorem State.takeSample_link : (s.takeSample).link = s.link := by
  unfold State.takeSample; simp
@[simp] theorem State.takeSample_hostMem : (s.takeSample).hostMem = s.hostMem := by
  unfold State.takeSample; simp
@[simp] theorem State.takeSample_pending : (s.takeSample).pending = s.pending := by
  unfold State.takeSample; simp

@[simp] theorem State.tickLineOnce_ltx (l : Line) : (s.tickLineOnce l).ltx = s.ltx := by
  unfold State.tickLineOnce; split <;> simp
@[simp] theorem State.tickLineOnce_ref (l : Line) : (s.tickLineOnce l).ref = s.ref := by
  unfold State.tickLineOnce; split <;> simp
@[simp] theorem State.tickLineOnce_intake (l : Line) : (s.tickLineOnce l).intake = s.intake := by
  unfold State.tickLineOnce; split <;> simp
@[simp] theorem State.tickLineOnce_report (l : Line) : (s.tickLineOnce l).report = s.report := by
  unfold State.tickLineOnce; split <;> simp
@[simp] theorem State.tickLineOnce_link (l : Line) : (s.tickLineOnce l).link = s.link := by
  unfold State.tickLineOnce; split <;> simp
@[simp] theorem State.tickLineOnce_hostMem (l : Line) : (s.tickLineOnce l).hostMem = s.hostMem := by
  unfold State.tickLineOnce; split <;> simp
@[simp] theorem State.tickLineOnce_pending (l : Line) : (s.tickLineOnce l).pending = s.pending := by
  unfold State.tickLineOnce; split <;> simp
@[simp] theorem State.tickLineOnce_lrx (l : Line) : (s.tickLineOnce l).lrx = s.lrx := by
  unfold State.tickLineOnce; split <;> simp

/-- What taking one line leaves, taking several leaves. -/
theorem State.foldl_tickLine_of {α : Type} (f : State → α) (h : ∀ s l, f (State.tickLine s l) = f s) (ls : List Line) :
    f (ls.foldl State.tickLine s) = f s := by
  induction ls generalizing s with
  | nil => rfl
  | cons l ls ih => rw [List.foldl_cons, ih, h]

@[simp] theorem State.tickLineInOrder_ltx (l : Line) : (s.tickLineInOrder l).ltx = s.ltx := by
  unfold State.tickLineInOrder; rw [State.tickLine_ltx, State.foldl_tickLine_of s State.ltx State.tickLine_ltx]
@[simp] theorem State.tickLineInOrder_ref (l : Line) : (s.tickLineInOrder l).ref = s.ref := by
  unfold State.tickLineInOrder; rw [State.tickLine_ref, State.foldl_tickLine_of s State.ref State.tickLine_ref]
@[simp] theorem State.tickLineInOrder_intake (l : Line) : (s.tickLineInOrder l).intake = s.intake := by
  unfold State.tickLineInOrder; rw [State.tickLine_intake, State.foldl_tickLine_of s State.intake State.tickLine_intake]
@[simp] theorem State.tickLineInOrder_report (l : Line) : (s.tickLineInOrder l).report = s.report := by
  unfold State.tickLineInOrder; rw [State.tickLine_report, State.foldl_tickLine_of s State.report State.tickLine_report]
@[simp] theorem State.tickLineInOrder_link (l : Line) : (s.tickLineInOrder l).link = s.link := by
  unfold State.tickLineInOrder; rw [State.tickLine_link, State.foldl_tickLine_of s State.link State.tickLine_link]
@[simp] theorem State.tickLineInOrder_hostMem (l : Line) : (s.tickLineInOrder l).hostMem = s.hostMem := by
  unfold State.tickLineInOrder; rw [State.tickLine_hostMem, State.foldl_tickLine_of s State.hostMem State.tickLine_hostMem]
@[simp] theorem State.tickLineInOrder_pending (l : Line) : (s.tickLineInOrder l).pending = s.pending := by
  unfold State.tickLineInOrder; rw [State.tickLine_pending, State.foldl_tickLine_of s State.pending State.tickLine_pending]
@[simp] theorem State.tickLineInOrder_lrx (l : Line) : (s.tickLineInOrder l).lrx = s.lrx := by
  unfold State.tickLineInOrder; rw [State.tickLine_lrx, State.foldl_tickLine_of s State.lrx State.tickLine_lrx]

@[simp] theorem State.withdraw_mix : (s.withdraw).mix = s.mix := by
  unfold State.withdraw State.missUnderway State.missRecord; split <;> (try split) <;> simp
@[simp] theorem State.withdraw_line : (s.withdraw).line = s.line := by
  unfold State.withdraw State.missUnderway State.missRecord; split <;> (try split) <;> simp
@[simp] theorem State.withdraw_scrn : (s.withdraw).scrn = s.scrn := by
  unfold State.withdraw State.missUnderway State.missRecord; split <;> (try split) <;> simp
@[simp] theorem State.withdraw_cue : (s.withdraw).cue = s.cue := by
  unfold State.withdraw State.missUnderway State.missRecord; split <;> (try split) <;> simp
@[simp] theorem State.withdraw_lrx : (s.withdraw).lrx = s.lrx := by
  unfold State.withdraw State.missUnderway State.missRecord; split <;> (try split) <;> simp
@[simp] theorem State.withdraw_ltx : (s.withdraw).ltx = s.ltx := by
  unfold State.withdraw State.missUnderway State.missRecord; split <;> (try split) <;> simp
@[simp] theorem State.withdraw_cmap : (s.withdraw).cmap = s.cmap := by
  unfold State.withdraw State.missUnderway State.missRecord; split <;> (try split) <;> simp
@[simp] theorem State.withdraw_ref : (s.withdraw).ref = s.ref := by
  unfold State.withdraw State.missUnderway State.missRecord; split <;> (try split) <;> simp
@[simp] theorem State.withdraw_hostMem : (s.withdraw).hostMem = s.hostMem := by
  unfold State.withdraw State.missUnderway State.missRecord; split <;> (try split) <;> simp
@[simp] theorem State.withdraw_pending : (s.withdraw).pending = s.pending := by
  unfold State.withdraw State.missUnderway State.missRecord; split <;> (try split) <;> simp
@[simp] theorem State.withdraw_inst : (s.withdraw).inst = s.inst := by
  unfold State.withdraw State.missUnderway State.missRecord; split <;> (try split) <;> simp

/-- Nothing of the next tick has been taken at the end of one. -/
@[simp] theorem State.endTick_inst (o : Bool) : (s.endTick o).inst = { Instant.none with roundOpen := o } := rfl
@[simp] theorem State.markOther_inst : s.markOther.inst = { s.inst with other := true } := rfl
/-- A sample clears the marks of the instant of the tick before it. -/
@[simp] theorem State.takeSample_inst : s.takeSample.inst = s.inst.sampled := rfl

/-- The block count rises by one at every tick, and nothing but a tick moves it (R133). -/
theorem State.linePart_blockCount : s.linePart.report.blockCount = s.report.blockCount := by
  unfold State.linePart
  split
  · unfold State.applyTick
    simp only []
    split <;> simp [State.handOver, Report.applied]
  · simp

end Sys2Proof.Machine
end

