-- ==== Sys2Proof/Tests/Slice0.lean ====
section
/-! SUPPORT. Tests: every expected value is a worked example or a table of the manual, or is calculated by hand from the
rule its docstring names. -/

namespace Sys2Proof.Tests

open Sys2Proof.Machine

set_option maxRecDepth 100000

/-! ### Helpers -/

/-- The state a command leads to from a state, the same state where it leads to none. -/
def after (s : State) (c : Instr) : State :=
  match exec c s with
  | .next t => t
  | .fault _ => s
  | .refused _ => s

/-- The state after several commands. -/
def run (s : State) (cs : List Instr) : State := cs.foldl after s

/-- A state with its register window placed. -/
def placedAt (base : Word64) (s : State) : State :=
  { s with link := { s.link with placement := some base } }

/-- The state after a power-on reset with one line context replaced. -/
def withLine (l : Line) (c : LineCtx) : State :=
  { State.reset with line := { State.reset.line with ctx := State.reset.line.ctx.set l c } }

/-- The state after a power-on reset with one input lane replaced. -/
def withLane (i : InLane) (c : InLaneCtx) : State :=
  { State.reset with lrx := { State.reset.lrx with lanes := State.reset.lrx.lanes.set i c } }

/-- A lane enabled with this clocking, LOCKED. -/
def lockedLane (clocking : Clocking) : InLaneCtx :=
  { InLaneCtx.reset with setup := { enabled := true, clocking := clocking, width := .wide }, state := .locked, run := 4 }

/-- A connected line in the state its role gives. -/
def connectedLine (role : Role) (shadow : Nat) : LineCtx :=
  { LineCtx.reset with
    plan := { LinePlan.default with role := role }, condition := .connected, shadowCount := shadow
    state := connectedState role shadow none }

/-- A state whose link has this memory engine state and bus mastering permitted, the register window placed, both windows
wide open. -/
def withEngine (e : Engine) (s : State) : State :=
  { s with
    link := { s.link with placement := some 0x90000000, engine := e, memEnable := true, busMaster := true,
                          planBase := 0x10000, planEnd := 0x20000, reportBase := 0x40000, reportEnd := 0x50000 } }

/-! ### Well-formedness: an ill-formed term for each check -/

/-- A write R150 does not ignore is no IGNORED_REGISTER_WRITE. -/
theorem test_wf_refuses_write : Instr.wellFormed (.ignoredRegisterWrite 0x00C .four 0) = false := by decide
/-- An unaligned write of eight bytes covers the word MCTL whole, and is no ignored one. -/
theorem test_wf_refuses_covering : Instr.wellFormed (.ignoredRegisterWrite 0x001 .eight 0) = false := by decide
/-- A plan read asks for at most the 508 bytes between the editions (R107). -/
theorem test_wf_refuses_long_read :
    Instr.wellFormed (.readCompletion 0 (.data (List.replicate 509 0))) = false := by decide
/-- The ignored writes of R150: MID, an offset past the registers, and writes narrower than 32 bits wherever they fall. -/
theorem test_wf_accepts_ignored :
    (Instr.wellFormed (.ignoredRegisterWrite 0x000 .four 0) && Instr.wellFormed (.ignoredRegisterWrite 0x040 .eight 0)
      && Instr.wellFormed (.ignoredRegisterWrite 0x00D .one 0) && Instr.wellFormed (.ignoredRegisterWrite 0x00D .two 0)
      && Instr.wellFormed (.ignoredRegisterWrite 0x00D .three 0)) = true := by decide

/-! ### Host writes (R150, R152, R171) -/

/-- MCTL 0x3: memory enable 1, lane hold on (R171). -/
theorem test_write_mctl : hostWrite 0x004 .four 3 = [.memoryEnable true, .laneHold true] := by decide
/-- MCTL with bit 2: a soft reset, whose other fields are not taken (R152). -/
theorem test_write_soft_reset : hostWrite 0x004 .four 7 = [.softReset] := by decide
/-- The high half of MPWB (R171). -/
theorem test_write_window_half : hostWrite 0x024 .four 1 = [.windowRegisterWrite .planBase (.high 1)] := by decide
/-- A 64-bit write over MNOTE and MMASK is two writes, the lower address first (R150). -/
theorem test_write_pair :
    hostWrite 0x010 .eight 0x00000002_00000001 = [.noticeClear ⟨1, false⟩, .noticeMaskWrite ⟨2, false⟩] := by decide

/-! ### Gains (R1, R2, R15) -/

/-- m(c) is the nearest integer to 2^23 × 10^((c − 200)/40): (2m − 1)^40 ≤ 2^960 × 10^(c − 200) < (2m + 1)^40, with the
negative powers multiplied out (R1). -/
def gainNearest (c : Nat) : Bool :=
  let m := gainTable.getD c 0
  let up := if 200 ≤ c then 10 ^ (c - 200) else 1
  let down := if 200 ≤ c then 1 else 10 ^ (200 - c)
  decide ((2 * m - 1) ^ 40 * down ≤ (2 ^ 240) ^ 4 * up) && decide ((2 ^ 240) ^ 4 * up < (2 * m + 1) ^ 40 * down)

/-- Every multiplier from code 1 to 255 is rounded as R1 says. -/
theorem test_gain_table : ((List.range 255).all fun i => gainNearest (i + 1)) = true := by decide
/-- The selected values of R1. -/
theorem test_gain_values :
    (mult 0, mult 1, mult 80, mult 120, mult 160, mult 200, mult 240) =
      (0, 89, 8389, 83886, 838861, 8388608, 83886080) := by decide
/-- Halves round toward plus infinity (R2). -/
theorem test_scale_halves : (scale 1 4194304, scale (-1) 4194304) = (1, 0) := by decide
/-- Case 1 and Case 3 (section 1.9). -/
theorem test_scale_cases : (scale (-2500000) 838861, scale 2750000 838861) = (-250000, 275000) := by decide
/-- The ducked multiplier of Case 3. -/
theorem test_ducked : ducked 8388608 838861 = 838861 := by decide

/-! ### Ramps (R17, R18, R20) -/

/-- A ramp of Case 4: the air term's multiplier from unity to 838,861 over 48 samples. -/
def duckRamp : Ramp := { cur := 8388608, start := 8388608, target := 838861, len := 48, pos := 0 }

/-- The air multipliers of Case 4 at n = 1, 24, 47 and 48. -/
theorem test_ramp_case4 :
    (duckRamp.valueAt 1, duckRamp.valueAt 24, duckRamp.valueAt 47, duckRamp.valueAt 48) =
      (8231322, 4613735, 996148, 838861) := by decide
/-- Asked back to the value at which it stands, a ramp stops at once (R18). -/
theorem test_ramp_stops : (duckRamp.advance.retarget 8231322 192).atRest = true := by decide
/-- Case 6: a conference changes group. The index waits for the ramp to 0. -/
theorem test_group_ramp_waits :
    let g : GroupRamp := { ramp := { cur := 8388608, start := 0, target := 8388608, len := 192, pos := 192 }, index := 1,
                           pending := none }
    let g1 := g.retarget (some (2, 8388608)) 192
    (g1.index, g1.pending, g1.ramp.target) = (1, some 2, 0) := by decide

/-! ### The return equation: Cases 1, 2 and 5 -/

/-- MIX at rest with these air codes of sources 0, and lines 3, 4 and 7 in the air bus at these voice codes. -/
def caseMix (stem v3 v4 v7 : GainCode) : Mix :=
  let fixed : Int → Ramp := fun g => { cur := g, start := g, target := g, len := 192, pos := 192 }
  let unityTerm : ReturnCtx := { Mix.reset.returns[0] with air := fixed 8388608 }
  { Mix.reset with
    sources := Mix.reset.sources.set 0 { airCode := stem, air := fixed (mult stem), peak := 0 }
    contribs :=
      ((Mix.reset.contribs.set 3 { Mix.reset.contribs[0] with air := fixed (mult v3) }).set 4
        { Mix.reset.contribs[0] with air := fixed (mult v4) }).set 7
        { Mix.reset.contribs[0] with air := fixed (mult v7) }
    returns := Vector.replicate 24 unityTerm }

/-- The inputs of source 0 and of lines 3, 4 and 7. -/
def caseInputs (stem x3 x4 x7 : Int) : Inputs :=
  { lines := (((Vector.replicate 24 0).set 3 x3).set 4 x4).set 7 x7, sources := (Vector.replicate 16 0).set 0 stem }

/-- Case 1: exact cancellation. -/
theorem test_case1 :
    let m := caseMix 200 200 0 160
    let x := caseInputs 3000000 1000000 0 (-2500000)
    (airBus m x, callerBus m x, airTerm m x 3 [], airTerm m x 7 []) = (3750000, 750000, 2750000, 4000000) := by decide
/-- Case 2: saturation acts on the output copy alone. -/
theorem test_case2 :
    let m := caseMix 240 200 0 160
    let x := caseInputs 1000000 1000000 0 (-2500000)
    (airBus m x, airTerm m x 3 [], airTerm m x 7 [], clampSample 9750000) =
      (10750000, 9750000, 11000000, 8388607) := by decide
/-- Case 5: partners. -/
theorem test_case5 :
    let m := caseMix 200 200 200 160
    let x := caseInputs 3000000 1000000 600000 (-2500000)
    (airTerm m x 3 [4], airTerm m x 4 [], airTerm m x 7 []) = (2750000, 3750000, 4600000) := by decide

/-- The 96th sample after line 1 leaves SCREEN, position 0, for AIR (section 11.4): the hold and screener terms of its
return ramp out, the screener term on the talker of the position that the line has left. -/
theorem test_role_leaves_screen :
    let fixed : Int → Ramp := fun g => { cur := g, start := g, target := g, len := 192, pos := 192 }
    let t : ScreeningTable :=
      { Scrn.reset.table with
        positions := Scrn.reset.table.positions.set 0 { talker := some 10, selected := some 1, level := 200 } }
    let r := { Mix.reset.returns[1] with hold := fixed 838861, screener := fixed 8388608, position := some 0 }
    let u := r.tick Mix.reset t 1
      { LineCtx.reset with plan := { LinePlan.default with role := .air }, state := .air, condition := .connected }
      CueReturn.clear Cue.reset.routes
    let at96 := fun x : Ramp => ((List.range 96).foldl (fun y _ => y.advance) x).cur
    let x := { (caseInputs 0 0 0 0) with sources := (Vector.replicate 16 0).set 10 400000 }
    (scale (3400000 - 400000) (at96 u.air), scale 1200000 (at96 u.hold),
      scale (talkerInput x (screenerTalker t u.position)) (at96 u.screener)) = (1500000, 60000, 200000) := by decide
/-- The end of a ramp to 0 takes the pending group ahead of the tick, which takes the switch anew with the length its duck
kind gives (R19): the cue length of 96 samples where it has become DUCK. -/
theorem test_switch_length :
    let s0 := withLine 1 (connectedLine (.confer 2) 0)
    let g : GroupRamp := { GroupRamp.rest with index := 1, pending := some 2 }
    let s := { s0 with
      lrx := { s0.lrx with lanes := s0.lrx.lanes.set 0 (lockedLane .master) }
      cue := { s0.cue with
        keys := s0.cue.keys.set 2 { soft := false, down := true, run := 0 }
        routes := s0.cue.routes.set 4
          { entry := { valid := true, talker := 12, key := 2, target := .all, priority := 3, cueCode := 200, hold := 31,
                       mode := .momentary }
            activity := .active, holdCount := 0 } }
      mix := { s0.mix with returns := s0.mix.returns.set 1 { s0.mix.returns[1] with group := g } } }
    let t := run s [.rampEnd (.groupTerm 1), .blockTick 4 ⟨false, false⟩]
    ((t.mix.returns[1]).duck, (t.mix.returns[1]).group.index, (t.mix.returns[1]).group.pending,
      (t.mix.returns[1]).group.ramp.len) = (.duck, 2, none, 96) := by decide

/-! ### Keys, routes and cue (chapter 3) -/

/-- The bounce of R53: raw DOWN, DOWN, UP, DOWN, DOWN, DOWN, DOWN. -/
theorem test_debounce :
    let k : KeyCtx := { soft := false, down := false, run := 0 }
    ([true, true, false, true, true, true].foldl keySample k,
      [true, true, false, true, true, true, true].foldl keySample k) =
      ({ k with run := 3 }, { k with down := true }) := by decide

/-- Route 4 of section 11.2. -/
def producer : RouteEntry :=
  { valid := true, talker := 12, key := 2, target := .air, priority := 3, cueCode := 200, hold := 31, mode := .momentary }
/-- Route 9 of section 11.2. -/
def presenter : RouteEntry :=
  { valid := true, talker := 13, key := 5, target := .line 1, priority := 6, cueCode := 200, hold := 0, mode := .latch }

/-- A momentary route let go holds its hold value (R56); a latch route with hold 0 goes straight to IDLE (R57). -/
theorem test_route_events :
    ((({ entry := producer, activity := .active, holdCount := 0 } : RouteCtx).event .release).holdCount,
      (({ entry := presenter, activity := .latched, holdCount := 0 } : RouteCtx).event .press).activity) =
      (31, .idle) := by decide
/-- Two routes claiming line 1 in AIR: the presenter wins on priority, and interrupts at threshold 5 (section 3.9). -/
theorem test_arbitration :
    let idle : RouteCtx := { entry := RouteEntry.reset, activity := .idle, holdCount := 0 }
    let routes := ((Vector.replicate 32 idle).set 4 { entry := producer, activity := .active, holdCount := 0 }).set 9
      { entry := presenter, activity := .latched, holdCount := 0 }
    (arbitrate routes 1 (connectedLine .air 0), arbitrate routes 3 (connectedLine .air 0), duckKind routes (some 9) 5,
      duckKind routes (some 4) 5) = (some 9, some 4, .interrupt, .duck) := by decide
/-- A press of key 2 taken by the tick: the route is ACTIVE and wins the return of line 1 in AIR (R53, R63). -/
theorem test_key_press_wins :
    let s0 := withLine 1 (connectedLine .air 0)
    let lane := lockedLane .master
    let s1 := { s0 with
      lrx := { s0.lrx with lanes := s0.lrx.lanes.set 0 lane }
      cue := { s0.cue with
        keys := s0.cue.keys.set 2 { soft := false, down := false, run := 3 }
        routes := s0.cue.routes.set 4 { entry := producer, activity := .idle, holdCount := 0 } } }
    let t := after s1 (.blockTick 4 ⟨false, false⟩)
    ((t.cue.routes[4]).activity, (t.cue.returns[1]).winner, (t.cue.returns[1]).duck,
      (t.mix.returns[1]).cueIn.target) = (.active, some 4, .duck, 8388608) := by decide
/-- The same press taken by its own row, and the tick after it (entry 2). -/
theorem test_key_press_row :
    let s := { State.reset with cue := { State.reset.cue with
      keys := State.reset.cue.keys.set 2 { soft := false, down := false, run := 3 }
      routes := State.reset.cue.routes.set 4 { entry := producer, activity := .idle, holdCount := 0 } } }
    ((run s [.keyPress 2, .blockTick 4 ⟨false, false⟩]).cue.routes[4],
      (run s [.keyPress 2, .blockTick 4 ⟨false, false⟩]).cue.keys[2]) =
      ((run s [.blockTick 4 ⟨false, false⟩]).cue.routes[4], (run s [.blockTick 4 ⟨false, false⟩]).cue.keys[2]) := by decide
/-- A release at a slow tick: its count is not decreased at that tick (R58). -/
theorem test_key_release_slow :
    let s := { State.reset with
      report := { State.reset.report with blockCount := 15 }
      cue := { State.reset.cue with
        keys := State.reset.cue.keys.set 2 { soft := false, down := true, run := 3 }
        routes := State.reset.cue.routes.set 4 { entry := producer, activity := .active, holdCount := 0 } } }
    (((run s [.keyRelease 2, .blockTick 0 ⟨false, false⟩]).cue.routes[4]).holdCount,
      ((after s (.blockTick 0 ⟨false, false⟩)).cue.routes[4]).holdCount) = (31, 31) := by decide
/-- A hold count of 1 ends at the slow tick (R58). -/
theorem test_hold_expiry :
    let s := { State.reset with
      report := { State.reset.report with blockCount := 15 }
      cue := { State.reset.cue with
        routes := State.reset.cue.routes.set 4 { entry := producer, activity := .holding, holdCount := 1 } } }
    (((after s (.holdCountExpiry 4)).cue.routes[4]).activity,
      ((after s (.blockTick 0 ⟨false, false⟩)).cue.routes[4]).activity) =
      (.idle, .idle) := by decide
/-- A change of winner makes the old winner outgoing with the talker it had (R65). -/
theorem test_winner_change :
    let idle : RouteCtx := { entry := RouteEntry.reset, activity := .idle, holdCount := 0 }
    let routes := ((Vector.replicate 32 idle).set 4 { entry := producer, activity := .active, holdCount := 0 }).set 9
      { entry := presenter, activity := .latched, holdCount := 0 }
    let q := { CueReturn.clear with winner := some 4, talker := some 12, duck := .duck }
    let t := q.tick (connectedLine .air 0) (some 9) routes (Vector.replicate 32 false) false
    (t.winner, t.outgoing, t.outTalker, t.isNew, t.cut) = (some 9, some 4, some 12, true, false) := by decide
/-- The end of a fade clears the outgoing route (R67). -/
theorem test_fade_end :
    let q := { CueReturn.clear with outgoing := some 4, outTalker := some 12 }
    let s := State.setCue (withLine 1 (connectedLine .air 0)) 1 q
    ((after s (.outgoingFadeEnd 1)).cue.returns[1]).outgoing = none := by decide

/-! ### Lines (chapter 2), with the traces of sections 2.7 and 11.6 -/

/-- A dump during shadow (section 2.7): delta −1,200 and the tick's decrease take 1,501 to 300. -/
theorem test_shadow_dump :
    let e : LineEnv := { delta := -1200, shadowStart := 1300, holdoff := 3000, table := Scrn.reset.table }
    let i : LineInput := { plan := none, delivery := none, counted := true }
    ((lineTick e (connectedLine .hold 1501) i 0).shadowCount, (lineTick e (connectedLine .hold 0) i 0).shadowCount,
      (lineTick e (connectedLine .hold 300) i 0).state) = (300, 0, .hold) := by decide
/-- A role change out of AIR starts the count and enters SHADOW, without delta or decrease (R44, R47, R49). -/
theorem test_leaves_air :
    let e : LineEnv := { delta := -1200, shadowStart := 1300, holdoff := 3000, table := Scrn.reset.table }
    let i : LineInput := { plan := some { LinePlan.default with role := .hold }, delivery := none, counted := true }
    let t := lineTick e (connectedLine .air 0) i 0
    (t.state, t.shadowCount, t.reportPending) = (.shadow, 1300, true) := by decide
/-- A delivery and a role change at one tick (R46): a line in HOLD given role AIR as it is lost starts no count. -/
theorem test_lost_with_apply :
    let e : LineEnv := { delta := 0, shadowStart := 2500, holdoff := 3000, table := Scrn.reset.table }
    let i : LineInput :=
      { plan := some { LinePlan.default with role := .air }, delivery := some laneDelivery, counted := true }
    let t := lineTick e (connectedLine .hold 0) i 0
    (t.state, t.shadowCount, t.lossCount, t.lostFrom, t.plan.role) = (.lost, 0, 3000, some .hold, .air) := by decide
/-- A LOST line's count of 1 ends at the tick, by either row (R41). -/
theorem test_loss_expiry :
    let c := { connectedLine (.screen 0) 0 with
               state := .lost, condition := .disconnected, lossCount := 1, lostFrom := some .screen }
    (((after (withLine 2 c) (.lossCountExpiry 2)).line.ctx[2]).state,
      ((after (withLine 2 c) (.blockTick 0 ⟨false, false⟩)).line.ctx[2]).lostFrom) = (.vacant, some .screen) := by decide
/-- A shadow count of 1 ends at the tick, and its line enters HOLD (R48). -/
theorem test_shadow_end :
    let s := { withLine 2 (connectedLine .hold 1) with
               lrx := { State.reset.lrx with lanes := State.reset.lrx.lanes.set 0 (lockedLane .master) } }
    (((after s (.shadowCountEnd 2)).line.ctx[2]).state, ((after s (.blockTick 0 ⟨false, false⟩)).line.ctx[2]).state) =
      (.hold, .hold) := by decide
/-- Four arrivals spread (section 4.2): lines 2, 6 and 15 read 254, 255 and 0. -/
theorem test_spread :
    let t : ScreeningTable :=
      { positions := #v[{ talker := some 10, selected := some 15, level := 200 },
                        { talker := none, selected := none, level := 200 },
                        { talker := some 11, selected := none, level := 200 }]
        spreadBits := 2
        spread := ((((Vector.replicate 16 none).set 0 (some 0)).set 1 (some 1)).set 2 (some 0)) }
    (arrivalAnswer t 254, arrivalAnswer t 255, arrivalAnswer t 0, arrivalAnswer t 1) =
      (some 0, none, some 0, none) := by decide
/-- Lines 4 and 9 arrive at one tick with the counter at 17 (R39). -/
theorem test_arrival_order :
    let auto := { LineCtx.reset with plan := { LinePlan.default with role := .auto } }
    let ctx := ((Vector.replicate 24 LineCtx.reset).set 4 auto).set 9 auto
    let e : LineEnv := { delta := 0, shadowStart := 0, holdoff := 3000, table := Scrn.reset.table }
    let i : LineInput :=
      { plan := none, delivery := some { condition := .connected, notify := false }, counted := true }
    let t := linesTick e ctx (Vector.replicate 24 i) 17
    ((t[4]).arrivalNumber, (t[9]).arrivalNumber, arrivalsTick ctx (Vector.replicate 24 i) 17) =
      (some 17, some 18, 19) := by decide

/-- Lines 4 and 9, AUTO and VACANT, each one sample short of settling code 1, with the arrival counter at 17. -/
def twoArrivals : State :=
  let auto := { LineCtx.reset with plan := { LinePlan.default with role := .auto } }
  let c := { lockedLane .master with sideSample := Vector.replicate 8 (some 1) }
  let due : SettleRec := { last := some 1, count := 3, delivered := false }
  { State.reset with
    line := { State.reset.line with ctx := (State.reset.line.ctx.set 4 auto).set 9 auto }
    lrx := { State.reset.lrx with lanes := (State.reset.lrx.lanes.set 0 c).set 1 c }
    cmap := { State.reset.cmap with records := (State.reset.cmap.records.set 4 due).set 9 due }
    scrn := { State.reset.scrn with arrivals := 17 } }

/-- The same two arrivals with line 9's taken ahead by CODE_SETTLE: line 4 is still served first (R39, R77). -/
theorem test_arrival_order_row :
    let t := run twoArrivals [.codeSettle 9, .blockTick 0 ⟨false, false⟩]
    ((t.line.ctx[4]).arrivalNumber, (t.line.ctx[9]).arrivalNumber, t.scrn.arrivals) =
      (some 17, some 18, 19) := by decide

/-! ### The capacity check (section 4.4) -/

/-- Roles held: CONFER(g) for the lines of a list, HOLD otherwise. -/
def heldRoles (l1 l2 : List Line) (g1 g2 : Group) : Vector Role 24 :=
  Vector.ofFn fun l => if l1.contains l then .confer g1 else if l2.contains l then .confer g2 else .hold

/-- The check on held roles, with the counts they give. -/
def checkRoles (held : Vector Role 24) (staged : List (Line × Role)) : List Line :=
  refusedLines
    { held := held, staged := staged.foldl (fun v p => v.set p.1 (some p.2)) (Vector.replicate 24 none)
      counts := Vector.ofFn (roleCount held) }

/-- Order of admission: lines 11 and 17 take the two places, line 22 is refused. -/
theorem test_capacity_order :
    checkRoles (heldRoles [0, 1, 2, 3, 4, 5] [] 0 1) [(22, .confer 0), (11, .confer 0), (17, .confer 0)] = [22] := by
  decide
/-- An exchange between full groups is admitted. -/
theorem test_capacity_exchange :
    checkRoles (heldRoles [3, 0, 1, 2, 4, 5, 6, 7] [9, 10, 11, 12, 13, 14, 15, 16] 1 2)
      [(3, .confer 2), (9, .confer 1)] = [] := by decide
/-- A withdrawn departure: both are refused. -/
theorem test_capacity_withdrawn :
    checkRoles (heldRoles [4, 0, 1, 2, 3, 5, 6, 7] [9, 10, 11, 12, 13, 14, 15, 16] 1 2)
      [(4, .confer 2), (20, .confer 1)] = [4, 20] := by decide

/-! ### Slot words, lanes and buffers (chapter 5) -/

/-- The sync word holds sixteen ones, so it is no slot word with correct parity (R165). -/
theorem test_sync_parity : parityOk Config.syncWord = false := by decide
/-- A slot word written out: audio −2, side code 5, valid 1: 0xFFFFFE in bits 31..8, 0x14 + 2 below; 23 + 2 + 1 = 26
ones, so the parity bit is 1 (R165). -/
theorem test_slot_word : makeSlot (-2) 5 true = 0xFFFFFE17 := by decide
/-- The fields read back, and the word with a bit changed fails its parity (R86). -/
theorem test_slot_fields :
    (slotAudio .wide 0xFFFFFE17, slotAudio .narrow 0xFFFFFE17, slotCode 0xFFFFFE17, slotValid 0xFFFFFE17,
      parityOk 0xFFFFFE16) = (-2, -256, 5, true, false) := by decide
/-- The conversions of R95 at width NARROW. -/
theorem test_narrow :
    (convertOut .narrow 1000, convertOut .narrow (-128), convertOut .narrow (-129), convertOut .narrow 8388607,
      convertOut .narrow (-8388608)) = (1024, 0, -256, 8388352, -8388608) := by decide

/-- A frame whose eight slots carry this audio, valid, side code 1. -/
def frameOf (v : Int) : SlotWords := Vector.replicate 8 (makeSlot v 1 true)

/-- The buffer trace of section 11.8: the arrival of F5 finds four, and F1 goes with it. -/
theorem test_overrun :
    let c := { lockedLane .slave with buffer := [frameOf 1, frameOf 2, frameOf 3, frameOf 4], mode := .flowing }
    let t := (withLane 1 c)
    (((after t (.elasticArrival 1 (frameOf 5))).lrx.lanes[1]).buffer,
      ((after t (.elasticArrival 1 (frameOf 5))).lrx.lanes[1]).overruns) =
      ([frameOf 2, frameOf 3, frameOf 4], 1) := by decide
/-- An underrun enters REFILLING and is counted once; two arrivals later a read takes the oldest (section 5.3). -/
theorem test_underrun :
    let c := { lockedLane .slave with mode := .flowing }
    let t := c.readBuffer
    let u := ((t.readBuffer.arrive (frameOf 7)).readBuffer.arrive (frameOf 8)).readBuffer
    ((t.underruns, t.mode, u.underruns), u.mode, decide (u.buffer = [frameOf 8]), u.shown.audio[0]) =
      ((1, .refilling, 1), .flowing, true, 7) := by decide
/-- One read a sample: ELASTIC_READ, then the SAMPLE it belongs to, take one frame (R93). -/
theorem test_elastic_read :
    let c := { lockedLane .slave with buffer := [frameOf 1, frameOf 2], mode := .flowing }
    ((run (withLane 1 c) [.elasticRead 1, .sample]).lrx.lanes[1]).buffer = [frameOf 2] := by decide
/-- A damaged slot word repeats the last good sample and counts once (R90). -/
theorem test_parity_repeat :
    let c := { lockedLane .master with lastGood := Vector.replicate 8 77 }
    let t := (after (withLane 3 c) (.laneFrame 3 ((frameOf 9).set 4 0xFFFFFE16))).lrx.lanes[3]
    (t.shown.audio[4], t.shown.side[4], t.shown.audio[5], t.shown.side[5], t.parityRepeats) =
      (77, none, 9, some 1, 1) := by decide
/-- The fourth correct sync locks a lane (R88), and a wrong word returns the run to 0. -/
theorem test_lane_lock :
    let c := { InLaneCtx.reset with
               setup := { enabled := true, clocking := .slave, width := .wide }, state := .seeking, run := 3,
               expected := 864 }
    (((after (withLane 0 c) (.laneLock 0 864 0xE8E81717)).lrx.lanes[0]).state,
      ((after (withLane 0 c) (.seekingSync 0 864 0)).lrx.lanes[0]).run) = (.locked, 0) := by decide
/-- The first sync found in the hunt (R88). -/
theorem test_seeking_sync :
    let c := { InLaneCtx.reset with
               setup := { enabled := true, clocking := .slave, width := .wide }, state := .seeking }
    let t := (after (withLane 0 c) (.seekingSync 0 100 0xE8E81717)).lrx.lanes[0]
    (t.run, t.expected) = (1, 388) := by decide
/-- A wrong sync returns a LOCKED lane to SEEKING and counts (R89); the seeking count is 1 after the tick (R102). -/
theorem test_loss_of_lock :
    let t := run (withLane 0 (lockedLane .slave)) [.lossOfLock 0 (.wrongSync 0)]
    ((t.lrx.lanes[0]).state, (t.lrx.lanes[0]).syncLosses, ((after t (.blockTick 0 ⟨false, false⟩)).lrx.lanes[0]).seeking) =
      (.seeking, 1, 1) := by decide
/-- A lock lost before the block's last sample or after it: the records stand clear after the tick, and at a settle setting
of 1 no code is delivered from the SEEKING lane, whose line keeps its condition (R89, R99, R100, R102). -/
theorem test_loss_after_sample :
    let c := { lockedLane .master with shown := { Shown.silent with side := Vector.replicate 8 (some 1) } }
    let s := { withLane 0 c with
               cmap := { State.reset.cmap with
                         settle := 1
                         records := State.reset.cmap.records.set 1 { last := some 2, count := 3, delivered := true } } }
    let seen := fun t : State => (t.cmap.records[1], (t.line.ctx[1]).condition)
    (seen (run s [.sample, .blockTick 0 ⟨false, false⟩]),
      seen (run s [.sample, .lossOfLock 0 (.wrongSync 0), .blockTick 0 ⟨false, false⟩]),
      seen (run s [.lossOfLock 0 (.wrongSync 0), .sample, .blockTick 0 ⟨false, false⟩])) =
      (({ last := some 1, count := 1, delivered := true }, .connected), (SettleRec.clear, .disconnected),
        (SettleRec.clear, .disconnected)) := by decide
/-- After the lock that follows, every code settles afresh, with the lock before the tick of that sample or after it (R100):
nothing of the sample is left. -/
theorem test_relock_settles_afresh :
    let c := { lockedLane .master with shown := { Shown.silent with side := Vector.replicate 8 (some 1) } }
    let s := { withLane 0 c with cmap := { State.reset.cmap with settle := 1 } }
    let syncs : List Instr := [.seekingSync 0 0 0xE8E81717, .seekingSync 0 288 0xE8E81717,
      .seekingSync 0 576 0xE8E81717, .laneLock 0 864 0xE8E81717]
    let lost : List Instr := [.sample, .lossOfLock 0 (.wrongSync 0)]
    let tick : Instr := .blockTick 0 ⟨false, false⟩
    ((run s (lost ++ [tick] ++ syncs)).cmap.records[1], (run s (lost ++ syncs ++ [tick])).cmap.records[1]) =
      (SettleRec.clear, SettleRec.clear) := by decide
/-- A lane lost at the tick its count reaches 250 takes its lines into LOST (section 5.8). -/
theorem test_lane_lost :
    let c := { lockedLane .slave with state := .seeking, run := 0, seeking := 249 }
    let s := { withLine 9 (connectedLine .air 0) with
               lrx := { State.reset.lrx with lanes := State.reset.lrx.lanes.set 1 c } }
    let s := { s with line := { s.line with dumpDepth := 2000 } }
    (((after s (.laneLost 1)).line.ctx[9]).shadowCount, ((after s (.blockTick 0 ⟨false, false⟩)).line.ctx[9]).lossCount,
      ((after s (.laneLost 1)).lrx.lanes[1]).lostShown) = (2500, 3000, true) := by decide
/-- The fourth equal sample settles code 1, and a VACANT line of role AIR enters AIR (R37, R100). -/
theorem test_code_settle :
    let c := { lockedLane .master with sideSample := Vector.replicate 8 (some 1) }
    let s := { withLine 1 { LineCtx.reset with plan := { LinePlan.default with role := .air } } with
               lrx := { State.reset.lrx with lanes := State.reset.lrx.lanes.set 0 c }
               cmap := { State.reset.cmap with
                         records := State.reset.cmap.records.set 1 { last := some 1, count := 3, delivered := false } } }
    (((after s (.codeSettle 1)).line.ctx[1]).state, ((after s (.blockTick 0 ⟨false, false⟩)).line.ctx[1]).state,
      ((after s (.blockTick 0 ⟨false, false⟩)).cmap.records[1]).delivered) = (.air, .air, true) := by decide

/-- Output lane 0 RUNNING with this clocking. -/
def runningLane (clocking : Clocking) : OutLaneCtx :=
  { OutLaneCtx.reset with setup := { enabled := true, clocking := clocking, width := .wide }, running := true }

/-- The state after a power-on reset with output lane 0 RUNNING. -/
def withOut (clocking : Clocking) : State :=
  { State.reset with ltx := { State.reset.ltx with lanes := State.reset.ltx.lanes.set 0 (runningLane clocking) } }

/-- A frame of eight equal slot words behind the sync word. -/
def frameOfWord (w : Word32) : FrameWords := (Vector.replicate 9 w).set 0 0xE8E81717

/-- Lane hold: slot words of 0 in bits 31..1 with parity 1 (R165); off, a VACANT line's silent return is valid. The sync
word goes first. -/
theorem test_sample_sends :
    (((after (withOut .master) .sample).ltx.lanes[0]).sent,
      ((run (placedAt 0 (withOut .master)) [.laneHold false, .sample]).ltx.lanes[0]).sent) =
      (some (frameOfWord 1), some (frameOfWord 2)) := by decide
/-- The bits of a frame: the sync word's first byte 0xE8, and slot 2's word from bit period 96, most significant bit first
(R86, R165). -/
theorem test_frame_bits :
    let bits := frameBits (frameWords ((Vector.replicate 8 0).set 2 0xA0000001))
    (bits.length, bits.take 8, (bits.drop 96).take 4, bits[127]?) =
      (288, [true, true, true, false, true, false, false, false], [true, false, true, false], some true) := by decide
/-- A SLAVE output lane's reads before two frames repeat the silent frame without a slip (R97). -/
theorem test_partner_read :
    let t := run (placedAt 0 (withOut .slave)) [.laneHold false, .sample, .partnerRead 0, .sample, .partnerRead 0]
    ((t.ltx.lanes[0]).underruns, (t.ltx.lanes[0]).sent, (t.ltx.lanes[0]).buffer.length) =
      (0, some (frameOfWord 2), 1) := by decide

/-! ### The reference monitor (R98) -/

/-- The 64th block locks; a lost reference unlocks, holds the clock and sets REF again. -/
theorem test_reference :
    let s := { State.reset with ref := { State.reset.ref with count := 63 } }
    ((after s .refLock).ref.locked, (after s (.blockTick 0 ⟨true, false⟩)).ref.locked, (after s .refLock).link.notice,
      (run s [.refLock, .refUnlock]).ref.clock) = (true, true, 0x80000000, .held) := by decide

/-! ### The register window, windows and notices (chapters 7 and 8) -/

/-- The effective ends of R153. -/
theorem test_effective_end :
    (effectiveEnd 0x80000 0x84000, effectiveEnd 0x80000 0x300000, effectiveEnd 0x80000 0x80000,
      effectiveEnd 0x200000 0x300000) = (0x84000, 0x180000, 0x80000, 0x300000) := by decide
/-- A base written in halves, low bits discarded (R153, R171); refused with REG_REFUSED while ACTIVE (R154). -/
theorem test_window_write :
    ((run (placedAt 0 State.reset)
        [.windowRegisterWrite .planBase (.low 0x23400FFF), .windowRegisterWrite .planBase (.high 1)]).link.planBase,
      (after (withEngine .active State.reset) (.windowRegisterWrite .planBase (.whole 0))).link.notice) =
      (0x123400000, 0x40000000) := by decide
/-- The reads of R171 after a power-on reset: MCTL 2, MSTA with lane hold alone, MMASK all ones. -/
theorem test_register_reads :
    (readRegister State.reset 0x004 .four, readRegister State.reset 0x008 .four, readRegister State.reset 0x014 .four,
      readRegister State.reset 0x040 .four) = (2, 0x20, 0xFFFFFFFF, 0) := by decide
/-- A read returns the addressed bytes of the words that contain them, whatever its alignment (R150): MMASK's last two and
a byte of the offset after it, and two bytes at an odd offset inside MMASK. -/
theorem test_narrow_reads :
    (readRegister State.reset 0x016 .three, readRegister State.reset 0x015 .two) = (0xFFFF, 0xFFFF) := by decide
/-- A post sets bits and leaves the others (R109); with the window unplaced no write reaches the part (R149). -/
theorem test_post :
    ((run (placedAt 0 State.reset) [.post 0x11, .post 0x01]).link.post, (after State.reset (.post 0x11)).link.post) =
      (0x11, 0) := by decide
/-- A host write that leaves the unmasked pending set non-empty sends a message (R146). -/
theorem test_mask_message :
    let s := { State.reset with
      link := { State.reset.link with placement := some 0, notice := 3, msgEnabled := true, busMaster := true } }
    ((after s (.noticeMaskWrite ⟨0xFFFFFFFE, false⟩)).link.messages,
      (run s [.noticeMaskWrite ⟨0, false⟩, .noticeClear ⟨3, false⟩]).link.messages) = (1, 1) := by decide
/-- A notice event and a host write at one instant, the event first: one message where the write leaves the set non-empty,
none where it clears the new notice too; alone at its instant, the write sends one of its own (R146). -/
theorem test_joint_message :
    let k := { State.reset.link with placement := some 0, mask := 0, msgEnabled := true, busMaster := true }
    let s := { State.reset with link := k.raise 0x80000000 }
    ((after s (.noticeClear ⟨1, true⟩)).link.messages, (after s (.noticeClear ⟨0x80000000, true⟩)).link.messages,
      (after s (.noticeClear ⟨1, false⟩)).link.messages) = (1, 0, 2) := by decide
/-- An ignored write changes nothing, a three-byte one over MMASK too; one that names MMASK whole replaces the mask. -/
theorem test_ignored_write :
    let s := placedAt 0 State.reset
    (decide ((after s (.ignoredRegisterWrite 0x018 .four 5)).link = s.link),
      decide ((after s (.ignoredRegisterWrite 0x014 .three 5)).link = s.link),
      (after s (.ignoredRegisterWrite 0x014 .four 5)).link.mask) = (true, true, 5) := by decide
/-- The window placed, mastering permitted, messages set (R149); accesses outside the window are not the part's. -/
theorem test_configuration :
    let t := run State.reset [.configurationAccess (.placeWindow (some 0x9000)),
      .configurationAccess .permitBusMastering, .configurationAccess (.setMessages true 7 8)]
    (registerOffset t.link 0x9004, t.link.busMaster, t.link.msgData) = (some 4, true, 8) ∧
      (t.readAt 0xA000 .four, t.readAt 0x9014 .four) = (none, some 0xFFFFFFFF) ∧
      (t.writeAt 0x900C .four 5, t.writeAt 0x8FFC .four 5) = ([.post 5], []) := by decide
/-- The enable is taken at the tick; clearing it with no work in flight reaches STOPPED at once with DRAINED (R158). -/
theorem test_engine :
    let s := { State.reset with link := { State.reset.link with placement := some 0, busMaster := true } }
    ((run s [.memoryEnable true]).link.engine, (run s [.memoryEnable true, .engineActive]).link.engine,
      (run s [.memoryEnable true, .engineActive, .memoryEnable false]).link.engine,
      (run s [.memoryEnable true, .engineActive, .memoryEnable false]).link.notice) =
      (.stopped, .active, .stopped, 0x10000000) := by decide
/-- Bus mastering withdrawn while ACTIVE with no work in flight: STOPPED with DRAINED (R158, R159). -/
theorem test_withdrawn :
    let t := after (withEngine .active State.reset) .busMasteringWithdrawn
    (t.link.engine, t.link.memEnable, t.link.busMaster, t.link.notice) = (.stopped, false, false, 0x10000000) := by decide

/-! ### Intake (chapter 6) -/

/-- INTAKE in FETCHING at a section, with its engine ACTIVE. -/
def fetchingAt (sec : Section) (taken : Word32) : State :=
  let s := withEngine .active State.reset
  { s with intake := { s.intake with phase := .fetching, taken := taken, position := some sec, number := 41 } }

/-- A line plan record of R167: role HOLD, the default levels, threshold 8, no partners. -/
def holdRecord : List Byte := [3, 0, 200, 200, 188, 200, 160, 176, 8, 255, 255, 255, 255, 255, 255]

/-- The take of R111: the bits, the number, the position. -/
theorem test_intake_take :
    let t := run (withEngine .active State.reset) [.post 0xB2000028, .intakeTake]
    (t.intake.phase, t.intake.taken, t.link.post, t.intake.number, t.intake.position) =
      (.fetching, 0xB2000028, 0, 1, some 3) := by decide
/-- A report request taken ahead of its BLOCK_TICK is READY by the fetch of section 31, and is applied at the first tick
after that: neither by APPLY at the tick of the take nor by its BLOCK_TICK, but by the next (R111, R112, R120). -/
theorem test_take_applied_next :
    let s := run (withEngine .active State.reset) [.post 0x80000000, .intakeTake, .sectionFetch]
    let tick : Instr := .blockTick 0 ⟨false, false⟩
    (s.intake.phase, (after s .apply).intake.phase, (after s tick).intake.phase, (run s [tick, .apply]).intake.phase,
      (run s [tick, tick]).intake.phase) = (.ready, .ready, .ready, .applying, .applying) := by decide
/-- A closed window: one miss and verdict WINDOW, with no read (R113). -/
theorem test_fetch_window :
    let s := fetchingAt 3 8
    let s := { s with link := { s.link with planEnd := 0 } }
    let t := after s .sectionFetch
    (t.link.read, t.link.miss, t.intake.phase, t.intake.verdicts.map (·.verdict)) =
      (none, 1, .ready, [.window]) := by decide
/-- The addresses and lengths of the three reads of section 3: its head, its record of 15 bytes, its tail (R107). -/
theorem test_fetch_addresses :
    let ask := fun s : State => s.link.read.map fun r => (r.address, r.length)
    let s := after (fetchingAt 3 8) .sectionFetch
    (ask s, ask (run s [.readCompletion 0 (.data [18, 0])]),
      ask (run s [.readCompletion 0 (.data [18, 0]), .readCompletion 1 (.data holdRecord)])) =
      (some (0x10600, 2), some (0x10602, 15), some (0x107FE, 2)) := by decide
/-- Head, record and tail read, and the record accepted with its edition (R107, R119; section 6.6, section 3). -/
theorem test_fetch_accepted :
    let t := run (fetchingAt 3 8)
      [.sectionFetch, .readCompletion 0 (.data [18, 0]), .readCompletion 1 (.data holdRecord),
        .readCompletion 2 (.data [18, 0])]
    (t.intake.phase, (t.intake.staging.lines[3]).map (·.role), t.intake.verdicts) =
      (.ready, some .hold, [{ sec := 3, verdict := .accepted, edition := 18, field := none, number := 41 }]) := by
  decide
/-- A torn section and a failed read (R114, R115). -/
theorem test_fetch_fails :
    let s := run (fetchingAt 5 0x20) [.sectionFetch, .readCompletion 0 (.data [7, 0])]
    ((run s [.readCompletion 1 (.data holdRecord), .readCompletion 2 (.data [8, 0])]).intake.verdicts.map
        fun v => (v.verdict, v.edition),
      (run s [.readCompletion 1 .poisoned]).intake.verdicts.map fun v => (v.verdict, v.edition)) =
      ([(.torn, 7)], [(.fetchFault, 7)]) := by decide
/-- A read times out at the fourth block tick after its issue (R114). -/
theorem test_read_timeout :
    let s := after (fetchingAt 5 0x20) .sectionFetch
    let t := run s [.blockTick 0 ⟨false, false⟩, .blockTick 0 ⟨false, false⟩, .blockTick 0 ⟨false, false⟩]
    (t.intake.phase, (after t .readTimeout).intake.phase, (after t (.blockTick 0 ⟨false, false⟩)).intake.phase) =
      (.fetching, .ready, .ready) := by decide
/-- A read issued after the take, or after a timeout, at a tick whose BLOCK_TICK is still to come does not count that tick:
its fourth is the fourth after (R111, R114). -/
theorem test_read_late :
    let tick : Instr := .blockTick 0 ⟨false, false⟩
    let first := run (withEngine .active State.reset) [.post 8, .intakeTake, .sectionFetch, tick]
    let second := run (fetchingAt 3 0x28) [.sectionFetch, tick, tick, tick, .readTimeout, .sectionFetch, tick]
    let ages := fun s : State => s.link.read.map fun r => (r.age, r.late)
    (ages first, ages (run first [tick, tick, tick]), ages (run first [tick, tick, tick, tick])) =
        (some (0, false), some (3, false), none) ∧
      (second.intake.position, ages second) = (some 5, some (0, false)) := by decide
/-- The partner lists of R118 for line 6, and the field index of section 9.3. -/
theorem test_partners :
    let list := [some 6, some 2, none, some 2, some 11, some 19]
    (ascending (keptPartners 6 list), ascending (keptPartners 6 [some 2, some 11, some 19, some 4, none, none]),
      (List.range 6).find? (droppedPartner 6 list)) = ([2, 11, 19], [2, 11, 19], some 0) := by decide
/-- Main ramp blocks 0 and 40 are clamped (R117, R167). -/
theorem test_timing_clamp :
    ((timingOf [0, 0, 2, 0, 184, 11, 244, 1, 4, 0, 250, 0, 100, 0]).mainBlocks,
      (timingOf [40, 0, 2, 0, 184, 11, 244, 1, 4, 0, 250, 0, 100, 0]).mainBlocks,
      firstAltered .timing [0, 0, 2, 0, 184, 11, 244, 1, 4, 0, 250, 0, 100, 0]) = (1, 16, some 0) := by decide
/-- An unknown target kind in entry 12 of the route table: field index 111 (section 6.6). -/
theorem test_range_index :
    firstBad .routes ((List.replicate 288 0).set 111 5) = some 111 := by decide
/-- The apply of section 6.6 at one tick: line 3 leaves AIR, line 9's running count takes delta −1,200. -/
theorem test_apply :
    let s0 := withEngine .active State.reset
    let s := { s0 with
      lrx := { s0.lrx with lanes := (s0.lrx.lanes.set 0 (lockedLane .master)).set 1 (lockedLane .master) }
      line := { s0.line with dumpDepth := 2000,
                             ctx := (s0.line.ctx.set 3 (connectedLine .air 0)).set 9 (connectedLine .hold 1698) }
      intake := { s0.intake with
        phase := .ready
        staging := { Staging.empty with
          lines := Staging.empty.lines.set 3 (some { LinePlan.default with role := .hold })
          studio := some { softKeys := Vector.replicate 16 false, dumpDepth := 800 } } } }
    let t := after s (.blockTick 0 ⟨false, false⟩)
    ((t.line.ctx[3]).state, (t.line.ctx[3]).shadowCount, (t.line.ctx[9]).shadowCount, t.line.dumpDepth,
      t.intake.phase) = (.shadow, 1300, 497, 800, .applying) := by decide

/-! ### Reports (chapter 7) -/

/-- The offsets of R130: verdict 5, line 9, meter 30, lane 1. -/
theorem test_record_offsets :
    (RecordKind.offset (.verdict 5), RecordKind.offset (.line 9), RecordKind.offset (.meter 30),
      RecordKind.offset (.lane 1)) = (0x150, 0x640, 0x11E0, 0x1810) := by decide
/-- Record sizes: the contents lie between two two-byte stamps (R130, R131, R169, R170). -/
theorem test_record_sizes :
    ((partBody State.reset 0).length, (lineBody 9 LineCtx.reset none 0).length, (meterBody Mix.reset 0).length,
      (inLaneBody InLaneCtx.reset).length) = (26, 60, 12, 12) := by decide

/-- A round with one line status record (line 9), sequence 822, engine ACTIVE. -/
def lineRound : State :=
  let s := withEngine .active State.reset
  { s with report := { s.report with
      seq := 822
      round := some { todo := [plainRecord (.line 9) (List.replicate 60 7)], current := none, full := false,
                      meters := false, metersDone := false, meterWritten := false, clips := Vector.replicate 32 0 } } }

/-- Head sent: the head holds the new stamp and nothing else is written (section 9.4). -/
theorem test_record_head :
    let t := after lineRound (.recordWriteBegin .head)
    (memoryRead t.hostMem 0x40640, memoryRead t.hostMem 0x40641, memoryRead t.hostMem 0x40642, t.report.seq) =
      (some 0x37, some 3, none, 823) := by decide
/-- The record whole: equal stamps, its notice, and the round over (R131, R139). -/
theorem test_record_whole :
    let t := run lineRound [.recordWriteBegin .head, .recordWriteComplete]
    (memoryRead t.hostMem 0x4067E, memoryRead t.hostMem 0x4067F, memoryRead t.hostMem 0x40642, t.link.notice,
      t.report.round) = (some 0x37, some 3, some 7, 0x200, none) := by decide
/-- A record outside the window is missed: no byte, no stamp, one miss, MISS (R132). -/
theorem test_record_missed :
    let s := { lineRound with link := { lineRound.link with reportEnd := 0 } }
    let t := after s (.recordWriteBegin .contents)
    (t.hostMem, t.report.seq, t.link.miss, t.link.notice) = ([], 822, 1, 0x20000000) := by decide
/-- A periodic round: the part state record, 9 lane and 48 meter records (R136). -/
theorem test_round_begin :
    let s := withEngine .active State.reset
    let s := { s with report := { s.report with due := true }, inst := { Instant.none with roundOpen := true } }
    let t := after s .roundBegin
    ((t.report.round.map (·.todo.length)), t.report.due) = (some 58, false) := by decide
/-- No round begins at a tick at which one was in progress, though it is completed before the next tick (R136, R137), nor at
a tick at which the engine was STOPPED, though it is enabled before the next tick (R142). -/
theorem test_round_moment :
    let flagged := fun s : State =>
      { s with line := { s.line with ctx := s.line.ctx.set 1 { LineCtx.reset with reportPending := true } } }
    let off := flagged (withEngine .stopped State.reset)
    (run (flagged lineRound) [.blockTick 0 ⟨false, false⟩, .recordWriteBegin .head, .recordWriteComplete,
        .roundBegin]).report.round = none ∧
      (run { off with link := { off.link with memEnable := false } } [.blockTick 0 ⟨false, false⟩, .memoryEnable true,
        .engineActive, .roundBegin]).report.round = none := by decide
/-- A code settles at the tick of a round of the line's own flag: the snapshot taken after the events shows AIR (5) and
clears the flag; taken before them it shows VACANT (0), and the event sets the flag again (R51, R136). -/
theorem test_round_order :
    let c := { lockedLane .master with sideSample := Vector.replicate 8 (some 1) }
    let l := { LineCtx.reset with plan := { LinePlan.default with role := .air }, reportPending := true }
    let s := withEngine .active (withLine 1 l)
    let s := { s with
      lrx := { s.lrx with lanes := s.lrx.lanes.set 0 c }
      cmap := { s.cmap with records := s.cmap.records.set 1 { last := some 1, count := 3, delivered := false } } }
    let shown := fun first : Bool =>
      let t := after s (.blockTick 0 ⟨false, first⟩)
      (t.report.round.bind fun r => (r.todo.find? fun x => x.kind = .line 1).map fun x => x.body.take 2,
        (t.line.ctx[1]).reportPending)
    (shown false, shown true) = ((some [1, 5], false), (some [1, 0], true)) := by decide
/-- An apply that changes line 1's voice code alone, and the clocking of an OFF lane, sets no flag: snapshots taken before the
tick's events show the new code, and the slips of a MASTER lane, as they stand after the tick (R33, R36, R103, R134). -/
theorem test_round_unmarked :
    let old := { LineCtx.reset with reportPending := true }
    let c0 := InLaneCtx.reset.setup
    let p := { LinePlan.default with levels := { LinePlan.default.levels with voice := 24 } }
    let c := { InLaneCtx.reset with
               setup := { c0 with clocking := .slave }, overruns := 7, statusPending := true }
    let s := withEngine .active (withLine 1 old)
    let s := { s with
      lrx := { s.lrx with lanes := s.lrx.lanes.set 0 c }
      intake := { s.intake with
        phase := .ready
        staging := { Staging.empty with
          lines := Staging.empty.lines.set 1 (some p)
          lanes := some { inputs := Vector.replicate 5 c0, outputs := Vector.replicate 4 c0 } } } }
    let shown := fun first : Bool =>
      let t := after s (.blockTick 0 ⟨false, first⟩)
      t.report.round.map fun r =>
        ((r.todo.find? fun x => x.kind = .line 1).map fun x => (x.body.drop 20).take 1,
          (r.todo.find? fun x => x.kind = .lane 0).map fun x => (x.body.drop 2).take 2)
    (shown true, shown true) = (shown false, some (some [24], some [0, 0])) := by decide
/-- The period of 100 blocks (R138). -/
theorem test_periodic_due :
    let s := { State.reset with report := { State.reset.report with meterCounter := 99 } }
    ((after s .periodicDue).report.due, (after s (.blockTick 0 ⟨false, false⟩)).report.due,
      (run s [.periodicDue, .blockTick 0 ⟨false, false⟩]).report.meterCounter) = (true, true, 0) := by decide

/-! ### Resets (R160 to R163) -/

/-- A soft reset keeps configuration space; a link reset does not, and keeps the lines (R161, R162). -/
theorem test_resets :
    let s := withEngine .active (withLine 1 (connectedLine .air 0))
    ((after s .softReset).link.busMaster, ((after s .softReset).line.ctx[1]).state,
      (after s .linkReset).link.busMaster, ((after s .linkReset).line.ctx[1]).state,
      (after s .powerOnReset).link.busMaster) = (true, .vacant, false, .air, false) := by decide
/-- A link reset in the middle of a line status record sets the line's flag again (R143). -/
theorem test_link_reset_flag :
    ((run lineRound [.recordWriteBegin .head, .linkReset]).line.ctx[9]).reportPending = true := by decide

/-! ### The step -/

/-- The step takes the command at the front and leaves the rest waiting. -/
theorem test_step :
    (match step { placedAt 0 State.reset with pending := [.post 1, .post 2] } with
      | .next t => (t.link.post, t.pending)
      | _ => (0, [])) = (1, [.post 2]) := by decide

/-! ### Witnesses: for each obligation with hypotheses, a state and operands that meet them together -/

/-- Two states the queue's rule is about. -/
theorem witness_StepTakesFront :
    ({ State.reset with pending := [.post 1, .sample] } : State).pending = .post 1 :: [.sample] ∧
      State.reset.pending = [] := by decide
/-- A command that leads on. -/
theorem witness_QueueUntouched : ∃ t, exec (.post 1) State.reset = .next t := ⟨_, rfl⟩
/-- The register window placed, with a plan read outstanding and with none. -/
theorem witness_PowerOnAndSoftReset :
    (placedAt 0 State.reset).link.placement.isSome = true ∧ (placedAt 0 State.reset).link.read = none ∧
      (after (fetchingAt 3 8) .sectionFetch).link.placement.isSome = true ∧
      (after (fetchingAt 3 8) .sectionFetch).link.read.isSome = true := by decide
/-- The register window placed. -/
theorem witness_PlainWrites : (placedAt 0 State.reset).link.placement.isSome = true := by decide

/-- A read outstanding and a round with one record under way, the engine ACTIVE. -/
def busyLink : State :=
  let s := after lineRound (.recordWriteBegin .head)
  { s with link := { s.link with read := some { id := 4, step := .head, address := 0x10600, length := 2, age := 3, late := false } } }

/-- A link reset with a read outstanding and a round in progress, and one with neither. -/
theorem witness_LinkResetReach :
    busyLink.link.read.isSome = true ∧ busyLink.report.round.isSome = true ∧
      State.reset.report.round = none := by decide
/-- A pending bit kept by a sample, and one taken. -/
theorem witness_PendingBitsStay :
    let s := after (withEngine .active State.reset) (.post 0x80000001)
    (∃ t, exec .sample s = .next t) ∧ (∃ t, exec .intakeTake s = .next t) ∧ s.link.post.getLsbD 31 = true :=
  ⟨⟨_, rfl⟩, ⟨_, rfl⟩, by decide⟩
/-- A link whose notice sends a message, and one whose notice is masked. -/
theorem witness_NoticesAndMessages :
    let k := { State.reset.link with msgEnabled := true, busMaster := true, mask := 0 }
    (k.notice &&& ~~~k.mask = 0 ∧ (k.notice ||| 1) &&& ~~~k.mask ≠ 0 ∧ k.msgEnabled = true ∧ k.busMaster = true) ∧
      (State.reset.link.notice ||| 1) &&& ~~~State.reset.link.mask = 0 ∧
      (placedAt 0 State.reset).link.placement.isSome = true ∧ (k.raise 1).beforeEvent = some none ∧
      (k.raise 1).notice &&& ~~~(k.raise 1).mask ≠ 0 ∧ k.beforeEvent = none := by decide
/-- The engine in each case of the statement. -/
theorem witness_MemoryEngineMoves :
    let a := withEngine .active State.reset
    let p := withEngine .stopped State.reset
    (a.link.placement.isSome = true ∧ p.link.engine ≠ .active ∧ a.link.engine = .active ∧ a.intake.phase = .idle ∧
        a.report.round = none) ∧
      (busyLink.link.engine = .active ∧ busyLink.report.round.isSome = true) ∧
      (p.link.engine = .stopped ∧ p.link.memEnable = true ∧ p.link.busMaster = true) ∧
      State.reset.link.memEnable = false := by decide
/-- A window write accepted, one refused, and a command while ACTIVE that is no reset. -/
theorem witness_WindowRegisters :
    (placedAt 0 State.reset).link.engine = .stopped ∧ (placedAt 0 State.reset).link.placement.isSome = true ∧
      (withEngine .active State.reset).link.engine ≠ .stopped ∧
      (∃ t, exec .sample (withEngine .active State.reset) = .next t) :=
  ⟨by decide, by decide, by decide, ⟨_, rfl⟩⟩
/-- A closed window and an open one, and the bytes at the open one's end. -/
theorem witness_EffectiveEnd :
    let base : Word64 := 0x80000
    base.toNat ≤ base.toNat ∧ base.toNat < (0x81000 : Word64).toNat ∧
      insideWindow base 0x81000 0x80FFF 1 = true ∧ insideWindow base 0x81000 0x81000 1 = false := by decide
/-- A window unplaced and one placed, an ignored write and one that is not, the addresses at both ends of the window; the last
word of it, and accesses on and off their alignment. -/
theorem witness_RegisterWindow :
    let base : Word64 := 0x9000
    State.reset.link.placement = none ∧ (placedAt base State.reset).link.placement = some base ∧
      ignoredWrite 0x03F .one = true ∧ ignoredWrite 0x03C .four = false ∧ AccessWidth.three.bytes < 4 ∧
      (base.toNat ≤ (0x9000 : Word64).toNat ∧ (0x9FFF : Word64).toNat < base.toNat + 4096) ∧
      (0x8FFF : Word64).toNat < base.toNat ∧ base.toNat + 4096 ≤ (0xA000 : Word64).toNat ∧
      (0x040 ≤ 0xFFC ∧ 0xFFC < 4096 ∧ 0xFFC % 4 = 0) ∧ (0x024 : BitVec 12).toNat % 4 = 0 ∧
      (0xFFF : BitVec 12).toNat % 4 ≠ 0 ∧ (0xFFF : BitVec 12).toNat + 0 < 4096 := by decide
/-- Bus mastering permitted or not, with a record under way, with a round between records, and with no round. -/
theorem witness_MasteringWithdrawn :
    (∃ r u, busyLink.report.round = some r ∧ r.current = some u) ∧ busyLink.link.busMaster = true ∧
      (∃ r, lineRound.report.round = some r ∧ r.current = none) ∧ lineRound.link.engine = .active ∧
      ((withEngine .active State.reset).report.round = none ∧ (withEngine .active State.reset).intake.phase = .idle) ∧
      (withEngine .stopped State.reset).link.engine ≠ .active ∧ State.reset.link.busMaster = false :=
  ⟨⟨_, _, rfl, rfl⟩, by decide, ⟨_, rfl, rfl⟩, by decide, by decide, by decide, by decide⟩
/-- A moving ramp at its start and one sample from its end, and one at rest. -/
theorem witness_RampLaw :
    duckRamp.sound = true ∧ duckRamp.pos < duckRamp.len ∧ Ramp.rest.sound = true ∧ Ramp.rest.len ≤ Ramp.rest.pos ∧
      ({ duckRamp with pos := 47, cur := 996148 } : Ramp).sound = true := by decide
/-- RUNNING output lanes of each clocking and one OFF, with lane hold on and off, a SLAVE buffer with room and one
without. -/
theorem witness_SampleSends :
    (∃ t, exec .sample (withOut .master) = .next t) ∧ (withOut .master).ltx.hold = true ∧
      (after (placedAt 0 (withOut .master)) (.laneHold false)).ltx.hold = false ∧
      ((withOut .master).ltx.lanes[0]).running = true ∧ ((withOut .master).ltx.lanes[1]).running = false ∧
      (runningLane .master).setup.clocking = .master ∧ (runningLane .slave).setup.clocking = .slave ∧
      (runningLane .slave).buffer.length < 4 ∧
      4 ≤ ({ runningLane .slave with buffer := List.replicate 4 (frameOf 1) } : OutLaneCtx).buffer.length :=
  ⟨⟨_, rfl⟩, by decide⟩
/-- Two sets of inputs that differ in the line's own sample and its partner's, and a line that a position hears. -/
theorem witness_OwnVoiceCancelled :
    let x := caseInputs 3 10 20 30
    let y := caseInputs 3 11 22 30
    let c := connectedLine (.screen 0) 0
    (c.state = .screen ∧ c.position = some 0 ∧ LineCtx.reset.state ≠ .screen) ∧
    ([4] : List Line).Nodup ∧ (3 : Line) ∉ ([4] : List Line) ∧ x.sources = y.sources ∧
      (∀ j : Line, j ≠ 3 → j ∉ ([4] : List Line) → x.lines[j] = y.lines[j]) ∧ x.lines[3] ≠ y.lines[3] := by decide
/-- The bits of the word whose audio is −256, whose side code is 33, not valid, with odd parity; and the table of section
5.4. -/
theorem test_slot_bits :
    (let w : Word32 := 0xFFFF0084
     (slotAudio .wide w, slotAudio .narrow w, slotCode w, slotValid w, parityOk w) = (-256, -256, 33, false, false)) ∧
      [1000, -128, -129, 8388607, -8388608].map (convertOut .narrow) = [1024, 0, -256, 8388352, -8388608] := by decide
/-- The ends of a sample's range. -/
theorem witness_SlotRoundTrip :
    (-8388608 : Int) ≤ -8388608 ∧ (-8388608 : Int) ≤ 8388607 ∧ slotAudio .wide (makeSlot (-8388608) 63 true) = -8388608 ∧
      slotAudio .wide (makeSlot 8388607 0 false) = 8388607 := by decide
/-- A group ramp at 0 that takes a new index, and one that waits. -/
theorem witness_GroupIndexMoves :
    let moving : GroupRamp := { ramp := { cur := 5, start := 0, target := 5, len := 48, pos := 48 }, index := 1,
                                pending := none }
    let leaving : Ramp := { cur := 0, start := 0, target := 7, len := 48, pos := 1 }
    (GroupRamp.rest.retarget (some (2, 7)) 48).index ≠ GroupRamp.rest.index ∧
      (GroupRamp.rest.ramp.cur = 0 ∧ GroupRamp.rest.ramp.len ≤ GroupRamp.rest.ramp.pos) ∧
      (leaving.cur = 0 ∧ leaving.target ≠ 0) ∧ (moving.retarget (some (2, 7)) 48).pending ≠ none ∧
      (some ((1 : Group), (7 : Int))).map Prod.fst = some moving.index := by decide
/-- LOCKED lanes of each clocking, with words of correct and wrong parity. -/
theorem witness_LaneFrameTaken :
    (lockedLane .master).state = .locked ∧ (lockedLane .master).setup.clocking = .master ∧
      (lockedLane .slave).setup.clocking ≠ .master ∧ parityOk 0xFFFFFE17 = true ∧ parityOk 0xFFFFFE16 = false := by decide
/-- The four cases of the table of section 5.3, and an arrival at three and at four frames. -/
theorem witness_ElasticBuffer :
    let empty := lockedLane .slave
    let two := { empty with buffer := [frameOf 1, frameOf 2] }
    let four := { empty with buffer := [frameOf 1, frameOf 2, frameOf 3, frameOf 4] }
    (empty.state = .locked ∧ empty.setup.clocking = .slave ∧ empty.readDone = false) ∧
      ({ empty with mode := .flowing } : InLaneCtx).buffer = [] ∧ (empty.mode = .refilling ∧ empty.buffer.length < 2) ∧
      (two.mode = .refilling ∧ two.buffer = [frameOf 1, frameOf 2]) ∧ two.buffer.tail ≠ [] ∧ 4 ≤ four.buffer.length ∧
      four.buffer.tail.length < 4 ∧ (lockedLane .master).setup.clocking ≠ .slave ∧
      ({ empty with readDone := true } : InLaneCtx).readDone = true := by decide
/-- A RUNNING SLAVE output lane in each case of the table, and lanes that are not. -/
theorem witness_PartnerReadTaken :
    let c := runningLane .slave
    (c.running = true ∧ c.setup.clocking = .slave) ∧ (c.mode = .refilling ∧ c.buffer.length < 2) ∧
      ({ c with mode := .flowing } : OutLaneCtx).buffer = [] ∧
      ({ c with buffer := [frameOf 1, frameOf 2] } : OutLaneCtx).buffer.tail ≠ [] ∧
      (runningLane .master).setup.clocking = .master ∧ OutLaneCtx.reset.running = false := by decide

/-- A SEEKING lane with this sync run, its next sync expected at 864. -/
def seekingLane (n : Nat) : InLaneCtx :=
  { InLaneCtx.reset with
    setup := { enabled := true, clocking := .slave, width := .wide }, state := .seeking, run := n, expected := 864 }

/-- A SEEKING lane in its hunt, in a run, and one sync from lock; a lane in a run at another position, and one not
SEEKING. -/
theorem witness_SeekingAndLock :
    ((seekingLane 2).run ≠ 0 ∧ (seekingLane 2).expected ≠ 100 ∧ (seekingLane 2).run ≠ 3 ∧
        InLaneCtx.reset.state ≠ .seeking) ∧
    ((seekingLane 0).state = .seeking ∧ (seekingLane 0).run = 0) ∧
      ((seekingLane 2).run < 3 ∧ (seekingLane 2).expected = 864) ∧
      ((seekingLane 3).run = 3 ∧ (seekingLane 3).expected = 864 ∧ (seekingLane 3).run ≤ 3) := by decide
/-- A LOCKED lane that meets a wrong word, and a LOCKED SLAVE lane without a frame, at a tick without an apply too. -/
theorem witness_LockLost :
    (lockedLane .slave).state = .locked ∧ (0 : Word32) ≠ 0xE8E81717 ∧ (lockedLane .slave).setup.clocking = .slave ∧
      (lockedLane .slave).frameSeen = false ∧ State.reset.intake.phase ≠ .ready ∧ State.reset.inst.lanes[0] = false := by
  decide
/-- A monitor one block from lock, one UNLOCKED and one LOCKED. -/
theorem witness_ReferenceLock :
    let s := { State.reset with ref := { State.reset.ref with count := 63 } }
    (s.ref.locked = false ∧ s.ref.failed = false ∧ s.ref.count = 63) ∧ (after s .refLock).ref.locked = true ∧
      State.reset.ref.count + 1 < 64 ∧ (after s .refUnlock).ref.failed = true := by decide
/-- The engine while STOPPED with the enable set and not, a round in progress, a tick that a round may follow, and the
engine ACTIVE with a flagged line, taken at the tick or not, whose record a round of the tick carries. -/
theorem witness_BlockTickCounts :
    let s := withEngine .stopped State.reset
    let a := withEngine .active (withLine 1 { connectedLine .air 0 with reportPending := true })
    let b := { a with inst := { a.inst with lines := a.inst.lines.set 1 true } }
    (State.reset.link.engine = .stopped ∧ State.reset.link.memEnable = false ∧ lineRound.report.round.isSome = true ∧
        (after (withEngine .active State.reset) (.blockTick 0 ⟨false, false⟩)).inst.roundOpen = true) ∧
      (b.inst.lines[1] = true ∧ LineCtx.sound 1 b.line.ctx[1] = true ∧
        ((after b (.blockTick 0 ⟨false, true⟩)).report.round.any fun r => r.todo.any fun x => x.kind = .line 1) = true) ∧
    (s.link.engine = .stopped ∧ s.link.memEnable = true ∧ s.link.busMaster = true) ∧ a.link.engine ≠ .stopped ∧
      a.report.round = none ∧ a.inst.lines[1] = false ∧
      (∀ first : Bool, ((after a (.blockTick 0 ⟨false, first⟩)).report.round.any fun r =>
        r.todo.any fun x => x.kind = .line 1) = true) ∧
      ((after a (.blockTick 0 ⟨false, true⟩)).line.ctx[1]).state ≠ (a.line.ctx[1]).state ∧
      ((after a (.blockTick 0 ⟨false, true⟩)).line.ctx[1]).reportPending = true ∧
      ((after { a with report := { a.report with due := true } } (.blockTick 0 ⟨false, true⟩)).report.round.any fun r =>
        (r.todo.any fun x => x.kind = .part) && r.todo.any fun x => x.kind = .lane 0) = true := by decide
/-- A key whose pin agrees with it, one that differs with run 2, and one with run 3, pressed or released; routes of both
modes on them, HOLDING with counts 1 and 2 at a slow tick, invalid, and replaced. -/
theorem witness_BlockTickKeys :
    let s0 := { State.reset with cue := { State.reset.cue with
      keys := ((State.reset.cue.keys.set 2 { soft := false, down := false, run := 3 }).set 3
        { soft := false, down := false, run := 2 }).set 5 { soft := false, down := true, run := 3 } } }
    let on := fun (e : RouteEntry) (a : Activity) (n : Nat) => ({ entry := e, activity := a, holdCount := n } : RouteCtx)
    let s := { s0 with
      report := { s0.report with blockCount := 15 }
      inst := { s0.inst with replaced := s0.inst.replaced.set 8 true }
      cue := { s0.cue with
        routes := (((((s0.cue.routes.set 1 (on producer .idle 0)).set 2 (on { producer with key := 5 } .active 0)).set 3
          (on { presenter with key := 2 } .latched 0)).set 4 (on { producer with key := 3 } .holding 1)).set 5
          (on { producer with key := 3 } .holding 2)).set 8 (on producer .idle 0) } }
    ((s.cue.routes[0]).entry.valid = false ∧ (s.cue.routes[1]).entry.mode = .momentary ∧
        (s.cue.routes[2]).activity = .active ∧ (s.cue.routes[3]).entry.mode = .latch ∧
        (s.report.blockCount + 1).toNat % 16 = 0 ∧ s.inst.holds[4] = false ∧ s.inst.replaced[8] = true ∧
        (s.cue.keys[5]).down = true ∧ (12 : BitVec 16).getLsbD 5 = false) ∧
    (∃ t, exec (.blockTick 12 ⟨false, false⟩) s = .next t) ∧ s.intake.phase ≠ .ready ∧ s.inst.keys[2] = false ∧
      (s.cue.keys[2]).run = 3 ∧ (s.cue.keys[3]).run < 3 ∧ (12 : BitVec 16).getLsbD 2 = true ∧
      (12 : BitVec 16).getLsbD 4 = false ∧ exec .apply s = .next s :=
  ⟨by decide, ⟨_, rfl⟩, by decide, by decide, by decide, by decide, by decide, by decide, rfl⟩

/-- A line in AIR on a LOCKED lane, with the producer's route ACTIVE. -/
def cuedLine : State :=
  let s := withLine 1 (connectedLine .air 0)
  { s with
    lrx := { s.lrx with lanes := s.lrx.lanes.set 0 (lockedLane .master) }
    cue := { s.cue with
      keys := s.cue.keys.set 2 { soft := false, down := true, run := 0 }
      routes := s.cue.routes.set 4 { entry := producer, activity := .active, holdCount := 0 } } }

/-- A LOST line with this loss count, delivered nothing: its lane is LOCKED and gives no side code. -/
def lostLine (n : Nat) : LineCtx :=
  { connectedLine (.screen 0) 0 with
    state := .lost, condition := .disconnected, lossCount := n, lostFrom := some .screen }

/-- After a tick, a return with a winner, one of a VACANT line, and one without a winner. -/
theorem witness_BlockTickArbitrates :
    let t := after cuedLine (.blockTick 4 ⟨false, false⟩)
    (t.line.ctx[1]).state ≠ .vacant ∧ (t.cue.returns[1]).winner = some 4 ∧ (t.line.ctx[2]).state = .vacant ∧
      ((after (withLine 1 (connectedLine .air 0)) (.blockTick 0 ⟨false, false⟩)).cue.returns[1]).winner = none := by decide
/-- Targets of each kind that cover a line, at its boundary: the line's own number and another, its group, AIR, a screener
position of a waiting line, and ALL. -/
theorem witness_BlockTickArbitrates_covering :
    let c := connectedLine (.screen 1) 0
    let g := connectedLine (.confer 2) 0
    let a := connectedLine .air 0
    [covers (.line 3) 3 c, covers (.line 4) 3 c, covers (.screening 1) 3 c, covers (.group 2) 3 g, covers .air 3 a,
      covers .all 3 (lostLine 1), covers .air 3 (lostLine 1), covers .all 3 LineCtx.reset] =
      [true, false, true, true, true, true, false, false] := by decide
/-- Lines of each row of the table of compositions after a tick: in SCREEN, selected and waiting, in HOLD, SHADOW and AIR, and
LOST from SCREEN; and gain codes at both ends. -/
theorem witness_BlockTickTargets_rows :
    let s := { State.reset with
      lrx := { State.reset.lrx with lanes := State.reset.lrx.lanes.set 0 (lockedLane .master) }
      line := { State.reset.line with
        ctx := (((((State.reset.line.ctx.set 1 (connectedLine (.screen 0) 0)).set 2 (connectedLine (.screen 0) 0)).set 3
          (connectedLine .hold 0)).set 4 (connectedLine .hold 9)).set 5 (connectedLine .air 0)).set 6 (lostLine 9) }
      scrn := { State.reset.scrn with
        table := { State.reset.scrn.table with
          positions := State.reset.scrn.table.positions.set 0 { talker := some 11, selected := some 1, level := 180 } } } }
    let t := after s (.blockTick 0 ⟨false, false⟩)
    let targets := fun k : Line =>
      let r := t.mix.returns[k]
      (r.air.target, r.hold.target, r.screener.target)
    ((t.line.ctx[1]).state = .screen ∧ (t.line.ctx[4]).state = .shadow ∧ (t.line.ctx[6]).state = .lost) ∧
      targets 1 = (0, mult 160, mult 180) ∧ targets 2 = (0, mult 200, 0) ∧ targets 3 = (0, mult 200, 0) ∧
      targets 4 = (mult 200, 0, 0) ∧ targets 5 = (mult 200, 0, 0) ∧ targets 6 = (0, mult 200, 0) ∧
      targets 7 = (0, 0, 0) ∧ (mult 0, mult 1, mult 255) = (0, 89, 198925244) := by decide
/-- After a tick, a line in CONFER whose membership and group term stand on its group, and one whose index waits. -/
theorem witness_BlockTickTargets :
    let s0 := withLine 1 (connectedLine (.confer 2) 0)
    let s := { s0 with lrx := { s0.lrx with lanes := s0.lrx.lanes.set 0 (lockedLane .master) } }
    let g : GroupRamp := { ramp := { cur := 5, start := 0, target := 5, len := 48, pos := 48 }, index := 1, pending := none }
    let u := { s with mix := { s.mix with
      contribs := s.mix.contribs.set 1 { s.mix.contribs[1] with group := g }
      returns := s.mix.returns.set 1 { s.mix.returns[1] with group := g } } }
    let t := after s (.blockTick 0 ⟨false, false⟩)
    let v := after u (.blockTick 0 ⟨false, false⟩)
    ((t.line.ctx[1]).state = .confer ∧ (t.line.ctx[1]).plan.role = .confer 2 ∧ (t.mix.contribs[1]).group.index = 2 ∧
        (t.mix.contribs[1]).group.ramp.target = 8388608 ∧ (t.mix.returns[1]).group.index = 2) ∧
      (v.mix.contribs[1]).group.index = 1 ∧ (v.mix.contribs[1]).group.pending = some 2 ∧
      (v.mix.returns[1]).group.pending = some 2 ∧ (v.mix.returns[1]).group.ramp.target = 0 := by decide

/-- Ticks at which a winner is displaced, takes a free return, stays, and lets go while an older route fades; and the end of
a fade. -/
theorem witness_CueCrossfade :
    let idle : RouteCtx := { entry := RouteEntry.reset, activity := .idle, holdCount := 0 }
    let both := (((Vector.replicate 32 idle).set 4 { entry := producer, activity := .active, holdCount := 0 }).set 9
      { entry := presenter, activity := .latched, holdCount := 0 } : Vector RouteCtx 32)
    let held := cuedLine.cue.keys.set 2 { soft := false, down := true, run := 0 }
    let onReturn := fun (q : CueReturn) (routes : Vector RouteCtx 32) =>
      { cuedLine with cue := { cuedLine.cue with
          keys := held, routes := routes, returns := cuedLine.cue.returns.set 1 q } }
    let producing := { CueReturn.clear with winner := some 4, talker := some 12, duck := .duck }
    let winner := fun s : State => ((after s (.blockTick 4 ⟨false, false⟩)).cue.returns[1]).winner
    cuedLine.inst.terms[1] = none ∧ cuedLine.intake.phase ≠ .ready ∧ ((after cuedLine (.blockTick 4 ⟨false, false⟩)).line.ctx[1]).state ≠ .vacant ∧
      winner cuedLine = some 4 ∧ winner (onReturn producing both) = some 9 ∧
      winner (onReturn producing cuedLine.cue.routes) = some 4 ∧
      winner (onReturn producing (Vector.replicate 32 idle)) = none ∧
      ((onReturn { CueReturn.clear with outgoing := some 4, outTalker := some 12 } both).cue.returns[1]).outgoing.isSome =
        true := by decide

/-- An apply that replaces a winner's route by another one on a key held down, due at the tick. -/
def replacingApply : State :=
  { cuedLine with
    cue := { cuedLine.cue with
      keys := cuedLine.cue.keys.set 2 { soft := false, down := true, run := 0 }
      returns := cuedLine.cue.returns.set 1 { CueReturn.clear with winner := some 4, talker := some 12, duck := .duck } }
    intake := { cuedLine.intake with
      phase := .ready
      staging := { Staging.empty with
        routes := some
          (Vector.ofFn fun r => if r = 4 then { producer with talker := 3 } else (cuedLine.cue.routes[r]).entry) } } }

/-- The routes replaced at a tick are those of the apply that BLOCK_TICK takes: the route restarts from its key, and the
winner that it was goes out with the talker it had (R60, R64, R65). -/
theorem witness_CueCrossfade_apply :
    let a := after replacingApply .apply
    let t := after replacingApply (.blockTick 4 ⟨false, false⟩)
    (replacingApply.inst.begun = false ∧ a.inst.replaced[4] = true ∧ (a.cue.routes[4]).entry.talker = 3) ∧
      (t.cue.routes[4]).activity = .active ∧ (t.cue.returns[1]).winner = some 4 ∧
      (t.cue.returns[1]).talker = some 3 ∧ (t.cue.returns[1]).outgoing = some 4 ∧
      (t.cue.returns[1]).outTalker = some 12 := by decide

/-- A state with line 2 as given, its lane LOCKED. -/
def onLane (c : LineCtx) : State :=
  let s := withLine 2 c
  { s with lrx := { s.lrx with lanes := s.lrx.lanes.set 0 (lockedLane .master) } }
/-- A ducked line whose loss count ends: it is VACANT after the tick with duck kind NONE, and its hold term ramps out from
where it stands over the main length, 192 samples (R19, R68). -/
theorem test_vacant_ramp :
    let r := State.reset.mix.returns[2]
    let s := onLane (lostLine 1)
    let hold : Ramp := { cur := 500, start := 500, target := 500, len := 192, pos := 192 }
    let s := { s with mix := { s.mix with returns := s.mix.returns.set 2 { r with duck := .duck, hold := hold } } }
    let t := after s (.blockTick 0 ⟨false, false⟩)
    ((t.line.ctx[2]).state, (t.mix.returns[2]).duck, (t.mix.returns[2]).hold) =
      (.vacant, .none, { cur := 500, start := 500, target := 0, len := 192, pos := 0 }) := by decide
/-- Multipliers at a tick at which their target stays, comes to where they stand, and changes: a membership of a line that
enters AIR; and a group multiplier that takes its group at the tick, or took it ahead of it. -/
theorem witness_CueCrossfade_moves :
    let s := onLane (connectedLine .air 0)
    let b := s.mix.contribs[2]
    let stands : Ramp := { cur := mult 200, start := 0, target := 7, len := 192, pos := 5 }
    let u := { s with mix := { s.mix with contribs := s.mix.contribs.set 2 { b with air := stands } } }
    let c := onLane (connectedLine (.confer 2) 0)
    let v := after c (.blockTick 0 ⟨false, false⟩)
    ((after s (.blockTick 0 ⟨false, false⟩)).mix.contribs[2]).air =
        { cur := 0, start := 0, target := mult 200, len := 192, pos := 0 } ∧
      ((after s (.blockTick 0 ⟨false, false⟩)).mix.contribs[3]).air.target = (s.mix.contribs[3]).air.target ∧
      ((after u (.blockTick 0 ⟨false, false⟩)).mix.contribs[2]).air.target = (u.mix.contribs[2]).air.cur ∧
      (c.inst.members[2] = none ∧ (v.mix.contribs[2]).group.index ≠ (c.mix.contribs[2]).group.index) ∧
      (let w := run c [.blockTick 0 ⟨false, false⟩]
       let g := { (w.mix.contribs[2]).group with ramp := (c.mix.contribs[2]).group.ramp, pending := some 3 }
       let w := { w with mix := { w.mix with contribs := w.mix.contribs.set 2 { w.mix.contribs[2] with group := g } } }
       (after w (.rampEnd (.lineGroup 2))).inst.members[2] ≠ none) := by decide

/-- Lines with each count at its boundary, delivered nothing at the tick. -/
theorem witness_BlockTickLineCounts :
    (∃ t, exec (.blockTick 0 ⟨false, false⟩) (onLane (lostLine 1)) = .next t) ∧ (onLane (lostLine 1)).delivery 2 = none ∧
      (onLane (lostLine 1)).intake.phase ≠ .ready ∧ (onLane (lostLine 1)).inst.lines[2] = false ∧
      LineCtx.sound 2 (lostLine 1) = true ∧ LineCtx.sound 2 (lostLine 2) = true ∧
      LineCtx.sound 2 (connectedLine .hold 1) = true ∧ (connectedLine .hold 1).state = .shadow ∧
      LineCtx.sound 2 (connectedLine .hold 2) = true ∧ LineCtx.sound 2 (connectedLine .air 0) = true ∧
      (onLane (connectedLine .hold 1)).delivery 2 = none :=
  ⟨⟨_, rfl⟩, by decide⟩
/-- A tick that takes no apply: INTAKE not READY, or READY after a part of the tick was taken; a line taken at it and one not;
an entry of the spread table that names an enabled position, one that names a disabled one, and one that names none. -/
theorem witness_LossAndReconnection_tick :
    let s := { State.reset with inst := { Instant.none with lines := Instant.none.lines.set 1 true } }
    let table : ScreeningTable :=
      { positions := State.reset.scrn.table.positions.set 0 { talker := some 11, selected := none, level := 200 }
        spreadBits := 2, spread := ((Vector.replicate 16 none).set 1 (some 0)).set 2 (some 1) }
    (∃ t, exec (.blockTick 0 ⟨false, false⟩) s = .next t) ∧ s.intake.phase ≠ .ready ∧ s.inst.begun = true ∧
      s.inst.lines[1] = true ∧ s.inst.lines[2] = false ∧
      ((1 : Fin 16).val = (5 : BitVec 8).toNat % 2 ^ table.spreadBits ∧ table.spread[(1 : Fin 16)] = some 0 ∧
        (table.positions[(0 : Position)]).talker ≠ none ∧ (table.positions[(1 : Position)]).talker = none ∧
        table.spread[(3 : Fin 16)] = none) :=
  ⟨⟨_, rfl⟩, by decide⟩
/-- Connected lines in AIR and in SHADOW, LOST lines with loss counts 1 and 2, a VACANT line, and a running shadow count
under a change of depth. -/
theorem witness_LossAndReconnection :
    (LineCtx.sound 2 (connectedLine .air 0) = true ∧ (connectedLine .air 0).state = .air ∧
        (connectedLine .air 0).state.connected = true) ∧
      (LineCtx.sound 2 (connectedLine .hold 1) = true ∧ (connectedLine .hold 1).state.connected = true ∧
        (connectedLine .hold 1).shadowCount ≠ 0) ∧
      (LineCtx.sound 2 (lostLine 1) = true ∧ (lostLine 1).state = .lost) ∧ LineCtx.sound 2 (lostLine 2) = true ∧
      (LineCtx.sound 2 LineCtx.reset = true ∧ LineCtx.reset.state = .vacant ∧
        LineCtx.reset.state.connected = false) ∧
      laneDelivery.condition ≠ .connected ∧ (State.reset.lineEnv (-1)).delta ≠ 0 := by decide
/-- A LOST line on an OFF lane, delivered DISCONNECTED at every tick, counts its hold-off down and becomes VACANT; a repeated
delivery that carries notify marks the line (R29, R41, R102). -/
theorem witness_LossAndReconnection_repeated :
    let s := withLine 2 { lostLine 2 with reportPending := false }
    let t := after s (.blockTick 0 ⟨false, false⟩)
    let again : LineInput := { plan := none, delivery := some { condition := .disconnected, notify := true }, counted := true }
    let c := lineTick (s.lineEnv 0) s.line.ctx[2] again 0
    (LineCtx.sound 2 s.line.ctx[2] = true ∧ (s.lineEnv 0).delta = 0 ∧ s.delivery 2 = some laneDelivery) ∧
      (t.line.ctx[2]).lossCount = 1 ∧ (t.line.ctx[2]).reportPending = false ∧
      ((after t (.blockTick 0 ⟨false, false⟩)).line.ctx[2]).state = .vacant ∧ c.lossCount = 1 ∧
      c.reportPending = true := by decide
/-- Keys due for a press and for a release, with a MOMENTARY and a LATCH route on them. -/
theorem witness_KeyEventsTaken :
    let s := { cuedLine with cue := { cuedLine.cue with
      keys := (cuedLine.cue.keys.set 2 { soft := false, down := true, run := 3 }).set 5
        { soft := false, down := false, run := 3 }
      routes := cuedLine.cue.routes.set 9 { entry := presenter, activity := .latched, holdCount := 0 } } }
    ((s.cue.keys[2]).run = 3 ∧ (s.cue.keys[2]).down = true ∧ (s.cue.keys[2]).soft = false) ∧
      ((s.cue.keys[5]).run = 3 ∧ (s.cue.keys[5]).down = false) ∧ s.inst.keys[2] = false ∧ s.inst.keys[5] = false ∧
      s.intake.phase ≠ .ready ∧ (s.cue.routes[4]).entry.key = 2 ∧ (s.cue.routes[4]).activity = .active ∧
      (s.cue.routes[9]).entry.key = 5 ∧ (s.cue.routes[9]).activity = .latched ∧ s.inst.replaced[9] = false := by decide
/-- A hold count of 1 at the 16th tick, and a fade at its end. -/
theorem witness_CueEnds :
    let s := { State.reset with
      report := { State.reset.report with blockCount := 15 }
      cue := { State.reset.cue with
        routes := State.reset.cue.routes.set 4 { entry := producer, activity := .holding, holdCount := 1 }
        returns := State.reset.cue.returns.set 1 { CueReturn.clear with outgoing := some 4, outTalker := some 12 } } }
    ((s.cue.routes[4]).entry.valid = true ∧ (s.cue.routes[4]).activity = .holding ∧ (s.cue.routes[4]).holdCount = 1 ∧
        (s.report.blockCount + 1).toNat % 16 = 0 ∧ s.inst.holds[4] = false ∧ s.inst.replaced[4] = false ∧
        s.intake.phase ≠ .ready) ∧
      ((s.cue.returns[1]).outgoing.isSome = true ∧ (s.mix.returns[1]).cueOut.cur = 0 ∧
        (s.mix.returns[1]).cueOut.len ≤ (s.mix.returns[1]).cueOut.pos) := by decide
/-- A ramp one sample from its end, and a membership and a group term at rest at 0 with a group pending, of a line in that
group. -/
theorem witness_RampEnds :
    let s := { State.reset with mix := State.reset.mix.setRamp { duckRamp with pos := 47, cur := 996148 } (.airTerm 3) }
    let g : GroupRamp := { GroupRamp.rest with index := 1, pending := some 2 }
    let c := connectedLine (.confer 2) 0
    (g.ramp.cur = 0 ∧ g.ramp.len ≤ g.ramp.pos ∧ g.pending.isSome = true ∧ State.reset.intake.phase ≠ .ready ∧
        c.state = .confer ∧ c.plan.role = .confer 2 ∧ LineCtx.reset.state ≠ .confer ∧
        groupTermWant .none c (composition Scrn.reset.table 1 c) = some (2, 8388608) ∧
        groupTermWant .none LineCtx.reset (composition Scrn.reset.table 1 LineCtx.reset) = none) ∧
      (s.mix.ramp (.airTerm 3)).pos + 1 = (s.mix.ramp (.airTerm 3)).len ∧
      ((after s (.rampEnd (.airTerm 3))).mix.ramp (.airTerm 3)).cur = 838861 := by decide
/-- Codes that settle at the default settle count of 4: one of a line that takes an arrival with a lower line's before it,
and one of a line that takes none; and after a tick a lane that is OFF, and one that has lost its lock at it. -/
theorem witness_CodeSettles :
    let s := twoArrivals
    (((after State.reset (.blockTick 0 ⟨false, false⟩)).lrx.lanes[0]).state = .off ∧
        ((after (withLane 0 (lockedLane .slave)) (.blockTick 0 ⟨false, false⟩)).lrx.lanes[0]).state = .seeking ∧
        ((after (withLane 0 (lockedLane .slave)) (.blockTick 0 ⟨false, false⟩)).lrx.lanes[0]).seeking < 250 ∧
        ((after s (.blockTick 0 ⟨false, false⟩)).cmap.records[4]).delivered = true) ∧
    let due := fun l : Line => (s.lrx.lanes[lineLane l]).state = .locked ∧
      (s.lrx.lanes[lineLane l]).setup.clocking = .master ∧
      (s.lrx.lanes[lineLane l]).sideSample[lineSlot l] = some 1 ∧ (s.cmap.records[l]).last = some 1 ∧
      (s.cmap.records[l]).delivered = false ∧ s.cmap.settle ≤ (s.cmap.records[l]).count + 1 ∧ s.cmap.settle ≤ 16 ∧
      s.inst.lines[l] = false ∧ s.intake.phase ≠ .ready
    due 9 ∧ due 4 ∧ (s.cmap.table[(1 : BitVec 6).toFin]).condition = some .connected ∧
      (∀ l ∈ [(4 : Line), 9], (s.line.ctx[l]).state = .vacant ∧ (s.line.ctx[l]).plan.role = .auto ∧
        (s.line.ctx[l]).condition ≠ .connected) ∧
      (s.delivery 4).map (·.condition) = some .connected := by decide
/-- A loss count and a shadow count at 1, delivered nothing. -/
theorem witness_LineCountsEnd :
    (LineCtx.sound 2 (onLane (lostLine 1)).line.ctx[2] = true ∧ (onLane (lostLine 1)).delivery 2 = none ∧
        (onLane (lostLine 1)).inst.lines[2] = false ∧ ((onLane (lostLine 1)).line.ctx[2]).state = .lost ∧
        ((onLane (lostLine 1)).line.ctx[2]).lossCount = 1) ∧
      (LineCtx.sound 2 (onLane (connectedLine .hold 1)).line.ctx[2] = true ∧
        (onLane (connectedLine .hold 1)).delivery 2 = none ∧
        ((onLane (connectedLine .hold 1)).line.ctx[2]).state = .shadow ∧
        ((onLane (connectedLine .hold 1)).line.ctx[2]).shadowCount = 1 ∧
        (onLane (connectedLine .hold 1)).intake.phase ≠ .ready) := by decide
/-- A SEEKING lane at a count of 249, with a line in AIR on it. -/
theorem witness_LaneLostTaken :
    let s := { withLine 9 (connectedLine .air 0) with
               lrx := { State.reset.lrx with
                        lanes := State.reset.lrx.lanes.set 1 { seekingLane 0 with seeking := 249 } } }
    (s.lrx.lanes[1]).state = .seeking ∧ (s.lrx.lanes[1]).seeking + 1 = s.lrx.laneLoss ∧ s.lrx.laneLoss ≤ 65535 ∧
      (s.lrx.lanes[1]).lostShown = false ∧ s.inst.lanes[1] = false ∧ (∀ l : Line, s.inst.lines[l] = false) ∧
      s.intake.phase ≠ .ready ∧ ∀ l : Line, LineCtx.sound l s.line.ctx[l] = true := by decide
/-- The meter period counter one short of the default period, the engine STOPPED or ACTIVE, so that a round begins at the
tick or none does, and a counter that rises. -/
theorem witness_PeriodicDueSet :
    let s := { State.reset with report := { State.reset.report with meterCounter := 99 } }
    s.report.meterCounter + 1 = s.report.period ∧ s.inst.period = false ∧ s.intake.phase ≠ .ready ∧
      (after s (.blockTick 0 ⟨false, false⟩)).report.round = s.report.round ∧
      (after (withEngine .active s) (.blockTick 0 ⟨false, false⟩)).report.round.isSome = true ∧
      State.reset.report.meterCounter + 1 < State.reset.report.period ∧ (after s .apply).report.period = 100 := by decide
/-- A post word to take, with section 31 alone, the engine ACTIVE or started by the tick. -/
theorem witness_IntakeTaken :
    let s := after (withEngine .active State.reset) (.post 0x80000000)
    let p := after (withEngine .stopped State.reset) (.post 0x80000000)
    (s.intake.phase = .idle ∧ s.link.engine = .active ∧ s.link.post ≠ 0 ∧ s.inst.take = false ∧ s.link.read = none) ∧
      (p.link.engine = .stopped ∧ p.link.memEnable = true ∧ p.link.busMaster = true) ∧
      (after s (.blockTick 0 ⟨false, false⟩)).intake.phase = .fetching ∧
      (after p (.blockTick 0 ⟨false, false⟩)).intake.taken = 0x80000000 := by decide
/-- Nothing to take: INTAKE not IDLE, the engine STOPPED for want of the enable and DRAINING, the post word 0, and a take
made ahead of the tick; by the row and at BLOCK_TICK the post word stands. -/
theorem witness_IntakeTaken_stands :
    let posted := fun s : State => after s (.post 1)
    let off := withEngine .stopped State.reset
    let cases : List State :=
      [posted (fetchingAt 3 8), posted { off with link := { off.link with memEnable := false } },
        posted (withEngine .draining State.reset), withEngine .active State.reset,
        posted { withEngine .active State.reset with inst := { Instant.none with take := true } }]
    (cases.map fun s => (s.intake.phase, s.link.engine, s.link.post, s.inst.take)) =
        [(.fetching, .active, 1, false), (.idle, .stopped, 1, false), (.idle, .draining, 1, false),
          (.idle, .active, 0, false), (.idle, .active, 1, true)] ∧
      ∀ s ∈ cases, (after s .intakeTake).link.post = s.link.post ∧
        (after s (.blockTick 0 ⟨false, false⟩)).link.post = s.link.post := by decide
/-- Sections 30 and 31 at the fetch position, section 30 inside the plan window and outside it. -/
theorem witness_SectionFetched :
    let s := fetchingAt 30 0x40000000
    let v := { s with link := { s.link with planEnd := 0x13000 } }
    (s.intake.phase = .fetching ∧ s.link.read = none ∧ s.intake.position = some 30 ∧ s.intake.head = none ∧
        insideWindow s.link.planBase s.link.planEnd (s.link.planBase.toNat + 30 * 512) 512 = true ∧
        s.link.busMaster = true) ∧
      insideWindow v.link.planBase v.link.planEnd (v.link.planBase.toNat + 30 * 512) 512 = false ∧
      (fetchingAt 31 0x80000000).intake.position = some 31 := by decide

/-- Section 3 with its head read, or its record read too, and the next read outstanding. -/
def readingAt (n : Nat) : State :=
  run (fetchingAt 3 8)
    ([.sectionFetch, .readCompletion 0 (.data [18, 0]), .readCompletion 1 (.data holdRecord)].take n)

/-- The head read and the record read outstanding. -/
theorem witness_ReadsFollow :
    ((readingAt 1).intake.position = some 3 ∧
        (readingAt 1).link.read = some { id := 0, step := .head, address := 0x10600, length := 2, age := 0, late := false } ∧
        (readingAt 1).link.busMaster = true) ∧
      ((readingAt 2).intake.position = some 3 ∧
        (readingAt 2).link.read = some { id := 1, step := .record, address := 0x10602, length := 15, age := 0, late := false } ∧
        holdRecord.length = 15) := by decide
/-- The table of section 9.3: an unknown target kind is refused at field 111 of section 25 and a spread entry at field 13 of
section 27, and an altered main ramp length is field 0 of section 29. -/
theorem test_section_fields :
    let table := (List.replicate 288 (0 : Byte)).set 111 5
    let screening := (List.replicate 26 (255 : Byte)).set 13 3
    ((List.range (sectionFields 25)).find? (fun f => !sectionFieldKnown 25 table f),
        (List.range (sectionFields 27)).find? fun f => !sectionFieldKnown 27 screening f) = (some 111, some 13) ∧
      sectionAltered 29 (List.replicate 14 0) 0 ∧ sectionByte table 113 = 5 := by
  refine ⟨by decide, .inr (.inr ⟨rfl, ?_⟩), by decide⟩
  decide
/-- The list of R118 for line 6: entries 1, 4 and 5 are kept, and entry 0 is the first that is dropped and not NONE. -/
theorem test_partners_kept :
    let record := holdRecord.take 9 ++ [6, 2, 255, 2, 11, 19]
    keepsPartners 6 record (fun i => i = 1 || i = 4 || i = 5) ∧ sectionAltered 6 record 9 := by
  have kept : keepsPartners 6 (holdRecord.take 9 ++ [6, 2, 255, 2, 11, 19]) (fun i => i = 1 || i = 4 || i = 5) := by
    unfold keepsPartners
    decide
  exact ⟨kept, .inl ⟨6, _, 0, rfl, kept, rfl, by decide, rfl⟩⟩
/-- The tail read outstanding, with a good record, one with a bad first field and one with a bad last field. -/
theorem witness_SectionJudged :
    (readingAt 3).intake.position = some 3 ∧
      (readingAt 3).link.read = some { id := 2, step := .tail, address := 0x107FE, length := 2, age := 0, late := false } ∧
      (readingAt 3).intake.head = some 18 ∧ (readingAt 3).intake.record = some holdRecord ∧
      (∀ f < sectionFields 3, sectionFieldKnown 3 holdRecord f = true) ∧
      sectionFieldKnown 3 (holdRecord.set 0 6) 0 = false ∧ sectionFieldKnown 3 (holdRecord.set 14 24) 14 = false ∧
      ∀ f < 14, sectionFieldKnown 3 (holdRecord.set 14 24) f = true := by decide
/-- A read outstanding at age 0 and at age 3, and one issued after the take of its tick; a head read and a record read while
bus mastering is withdrawn. -/
theorem witness_ReadFails :
    (let off := fun n : Nat => after (readingAt n) .busMasteringWithdrawn
     ((off 1).link.busMaster = false ∧ (off 1).link.read = (readingAt 1).link.read ∧
        (off 2).link.read = (readingAt 2).link.read ∧ (off 2).intake.position = some 3) ∧
      ((after (off 1) (.readCompletion 0 (.data [18, 0]))).intake.verdicts.map fun v => (v.verdict, v.edition)) =
        [(.fetchFault, 18)] ∧
      ((after (readingAt 2) (.readCompletion 1 (.data [18, 0]))).intake.verdicts.map fun v => (v.verdict, v.edition)) =
        [(.fetchFault, 18)]) ∧
    (readingAt 1).intake.position = some 3 ∧ (readingAt 1).intake.phase = .fetching ∧
      (readingAt 1).link.read = some { id := 0, step := .head, address := 0x10600, length := 2, age := 0, late := false } ∧
      (run (readingAt 1) [.blockTick 0 ⟨false, false⟩, .blockTick 0 ⟨false, false⟩, .blockTick 0 ⟨false, false⟩]).link.read =
        some { id := 0, step := .head, address := 0x10600, length := 2, age := 3, late := false } ∧
      (run (withEngine .active State.reset) [.post 8, .intakeTake, .sectionFetch]).link.read =
        some { id := 0, step := .head, address := 0x10600, length := 2, age := 0, late := true } := by decide
/-- An intake READY at a tick of which nothing has been taken. -/
theorem witness_ApplyHandsOver :
    let s := after (readingAt 3) (.readCompletion 2 (.data [18, 0]))
    s.intake.phase = .ready ∧ s.inst.begun = false ∧ (s.intake.staging.lines[3]).isSome = true ∧ s.link.read = none := by
  decide
/-- A phase other than READY, and an intake READY at a tick of which each of the parts was taken before. -/
theorem witness_ApplyHandsOver_late :
    let s := after (readingAt 3) (.readCompletion 2 (.data [18, 0]))
    let i := s.inst
    State.reset.intake.phase ≠ .ready ∧ s.link.read = none ∧
      ∀ j ∈ [{ i with keys := i.keys.set 2 true }, { i with holds := i.holds.set 4 true },
          { i with lines := i.lines.set 9 true }, { i with laneLost := true }, { i with period := true },
          { i with take := true }],
        j.begun = true ∧ (after { s with inst := j } .apply).intake.phase = .ready := by decide
/-- An apply that changes the dump depth with a line leaving AIR and one in SHADOW: what every line is given stands as after
it (R47, R49; the shadow margin is 500). -/
theorem witness_ApplyHandsOver_lines :
    let s0 := { State.reset with
      lrx := { State.reset.lrx with lanes := State.reset.lrx.lanes.set 0 (lockedLane .master) }
      line := { State.reset.line with
        ctx := (State.reset.line.ctx.set 3 (connectedLine .air 0)).set 4 (connectedLine .hold 100) } }
    let s := { s0 with
      intake := { s0.intake with
        phase := .ready
        staging := { Staging.empty with
          lines := Staging.empty.lines.set 3 (some { LinePlan.default with role := .hold })
          studio := some { softKeys := Vector.replicate 16 false, dumpDepth := 2000 } } } }
    let t := after s .apply
    (s.inst.begun = false ∧ (s.envAt t).delta = 2000 ∧ (s.envAt t).shadowStart = 2500) ∧
      (t.line.ctx[3]).shadowCount = 2500 ∧ (t.line.ctx[4]).shadowCount = 2099 := by decide
/-- A staged route table with an entry invalidated, one replaced, one amended and one invalid throughout; and staged lane
setups that enable a lane, disable one, change the clocking of an input and of an output lane, and keep one. -/
theorem witness_ApplyHandsOver_tables :
    let s := { cuedLine with
      cue := { cuedLine.cue with
        routes := cuedLine.cue.routes.set 9 { entry := presenter, activity := .latched, holdCount := 0 } } }
    let routes := (((s.cue.routes.map (·.entry)).set 4 RouteEntry.reset).set 5 producer).set 9 { presenter with hold := 7 }
    let inputs : Vector LaneSetup 5 := (Vector.replicate 5 LaneSetup.reset).set 1 (lockedLane .master).setup
    ((s.cue.routes[4]).entry.valid = true ∧ (s.cue.routes[5]).entry.valid = false ∧
        replaces (s.cue.routes[5]).entry producer = true ∧ replaces (s.cue.routes[9]).entry { presenter with hold := 7 } =
          false ∧ (s.cue.keys[producer.key]).down = true ∧ routes.size = 32) ∧
      setupRestarts (s.lrx.lanes[0]).setup inputs[0] = true ∧ setupRestarts (s.lrx.lanes[1]).setup inputs[1] = true ∧
      setupRestarts (s.lrx.lanes[2]).setup inputs[2] = false ∧
      setupRestarts (runningLane .master).setup (runningLane .slave).setup = true ∧
      (runningLane .master).setup.enabled = (runningLane .slave).setup.enabled := by decide
/-- At an apply that stages no lane setup a lane without a frame loses its lock, one SEEKING counts and one LOCKED stands
(R89, R102, R121); lane hold and the ramps stand. -/
theorem witness_ApplyHandsOver_lanes :
    let s0 := withLane 0 (lockedLane .slave)
    let s := { s0 with
      lrx := { s0.lrx with lanes := (s0.lrx.lanes.set 1 (seekingLane 2)).set 2 (lockedLane .master) }
      intake := { s0.intake with phase := .ready } }
    let t := after s .apply
    s.inst.begun = false ∧ (t.lrx.lanes[0]).state = .seeking ∧ (t.lrx.lanes[0]).syncLosses = 1 ∧
      (t.lrx.lanes[1]).seeking = 1 ∧ (t.lrx.lanes[1]).run = 2 ∧ t.lrx.lanes[2] = s.lrx.lanes[2] ∧
      t.ltx.hold = true := by decide
/-- A full group with an arrival staged at it. -/
theorem witness_CapacityHeld :
    let held := heldRoles [0, 1, 2, 3, 4, 5, 6, 7] [] 0 1
    let i : CapacityInput :=
      { held := held, staged := (Vector.replicate 24 none).set 22 (some (.confer 0))
        counts := Vector.ofFn (roleCount held) }
    (∀ g : Group, i.counts[g] = roleCount i.held g) ∧ (∀ g : Group, roleCount i.held g ≤ 8) ∧
      refusedLines i = [22] := by decide
/-- Two arrivals at a group of seven, and two at a full group. -/
theorem witness_CapacityHeld_order :
    let held := fun n : Nat => heldRoles ((List.finRange 24).take n) [] 0 1
    let i : CapacityInput :=
      { held := held 7, staged := ((Vector.replicate 24 none).set 22 (some (.confer 0))).set 11 (some (.confer 0))
        counts := Vector.ofFn (roleCount (held 7)) }
    let j := { i with held := held 8, counts := Vector.ofFn (roleCount (held 8)) }
    (i.staged[11] = some (.confer 0) ∧ i.held[11] ≠ .confer 0 ∧ i.staged[22] = some (.confer 0) ∧
        i.held[22] ≠ .confer 0 ∧ i.counts[(0 : Group)] = 7 ∧ ∀ l : Line, l ≠ 11 → l ≠ 22 → i.staged[l] = none) ∧
      refusedLines j = [11, 22] := by decide
/-- A tick that begins a round of a periodic write, in either order, and one that finds no work. -/
theorem witness_RoundBegun_tick :
    let busy : Round := { todo := [], current := none, full := false, meters := false, metersDone := false,
                          meterWritten := false, clips := Vector.replicate 32 0 }
    let q := withEngine .active State.reset
    let a := { q with report := { q.report with due := true } }
    a.report.round = none ∧
      (∀ first : Bool, (∃ t, exec (.blockTick 0 ⟨false, first⟩) a = .next t) ∧
        (∃ u, exec (.blockTick 0 ⟨false, first⟩) { a with report := { a.report with round := some busy } } = .next u) ∧
        ∃ e, exec (.blockTick 0 ⟨false, first⟩) { a.unflagged with report := { a.report with round := some busy } } =
          .next e) ∧
      (after a (.blockTick 0 ⟨false, true⟩)).report.round.isSome = true ∧
      (after a (.blockTick 0 ⟨false, false⟩)).link.engine ≠ .stopped ∧
      (after q (.blockTick 0 ⟨false, false⟩)).report.round = none :=
  ⟨rfl, fun _ => ⟨⟨_, rfl⟩, ⟨_, rfl⟩, ⟨_, rfl⟩⟩, by decide, by decide, by decide⟩
/-- Work while ACTIVE, verdicts or a full report while DRAINING, and no round while STOPPED. -/
theorem witness_RoundBegun :
    let opened := fun s : State => { s with inst := { Instant.none with roundOpen := true } }
    let a := opened { withEngine .active State.reset with report := { State.reset.report with due := true } }
    let v : VerdictEntry := { sec := 3, verdict := .window, edition := 0, field := none, number := 1 }
    let d := opened { withEngine .draining State.reset with
      report := { State.reset.report with verdicts := [v, { v with sec := 31 }] } }
    let f := opened { withEngine .draining State.reset with report := { State.reset.report with fullRequest := true } }
    (a.report.round = none ∧ a.inst = { Instant.none with roundOpen := true } ∧ a.link.engine = .active ∧
        a.report.due = true) ∧
      (d.link.engine = .draining ∧ d.report.verdicts ≠ [] ∧ d.report.verdicts.Pairwise (fun a b => a.sec < b.sec) ∧
        d.report.fullRequest = false ∧ d.report.round = none) ∧
      (f.link.engine ≠ .stopped ∧ f.report.fullRequest = true) ∧ State.reset.link.engine = .stopped := by decide
/-- Records of a round of each kind, the last of each. -/
theorem witness_RecordSizes :
    let v : VerdictEntry := { sec := 31, verdict := .window, edition := 0, field := none, number := 1 }
    let kinds := (roundRecords State.reset { Work.nothing with verdicts := [v], full := true }).map (·.kind)
    ∀ k ∈ ([.verdict 31, .part, .lane 0, .lane 8, .line 23, .meter 23, .meter 39, .meter 47] : List RecordKind),
      k ∈ kinds := by decide
/-- A record inside the report window, one outside it, and one begun without bus mastering. -/
theorem witness_RecordBegun :
    (∃ r x, lineRound.report.round = some r ∧ r.current = none ∧ r.todo = [x] ∧ lineRound.link.busMaster = true ∧
        recordInside lineRound.link x.kind = true) ∧
      recordInside { lineRound.link with reportEnd := 0 } (.line 9) = false ∧
      (after lineRound .busMasteringWithdrawn).link.busMaster = false :=
  ⟨⟨_, _, rfl, rfl, rfl, rfl, by decide⟩, by decide, by decide⟩
/-- The last records of a round missed, the engine DRAINING: a verdict entry of an intake without a report request, and the
last meter record of a full report of which another was written, in which a clip total has advanced. -/
theorem witness_RecordBegun_last :
    let v : VerdictEntry := { sec := 3, verdict := .accepted, edition := 0, field := none, number := 1 }
    let missed := fun (k : RecordKind) (body : List Byte) (full : Bool) =>
      let s := withEngine .draining State.reset
      after { s with
        link := { s.link with reportEnd := 0 }
        intake := { s.intake with phase := .applying }
        report := { s.report with
          round := some
            { todo := [plainRecord k body], current := none, full := full, meters := full, metersDone := false
              meterWritten := true, clips := Vector.replicate 32 1 } } } (.recordWriteBegin .head)
    ((missed (.verdict 3) (verdictBody v) false).link.notice,
      (missed (.meter 47) (meterBody Mix.reset 47) true).link.notice) = (0x31000000, 0x3D000000) := by decide
/-- A record under way whose head alone has been sent, and one whose contents have been sent too. -/
theorem witness_RecordWhole :
    ∀ sent : PartSent, ∃ r u, (after lineRound (.recordWriteBegin sent)).report.round = some r ∧ r.current = some u ∧
      u.sent = sent ∧ (recordContents u.item u.stamp).length + 4 = u.item.kind.size := by
  intro sent
  cases sent <;> exact ⟨_, _, rfl, rfl, rfl, by decide⟩
/-- Records under way that are the last of their round, the engine DRAINING: a verdict entry of an intake without a report
request and of one with it, and the last meter record of a full report in which a clip total has advanced. -/
theorem witness_RecordWhole_last :
    let v : VerdictEntry := { sec := 3, verdict := .accepted, edition := 0, field := none, number := 1 }
    let last := fun (k : RecordKind) (body : List Byte) (asked full : Bool) =>
      let s := withEngine .draining State.reset
      { s with
        intake := { s.intake with phase := .applying, reportRequest := asked }
        report := { s.report with
          round := some
            { todo := [], current := some { item := plainRecord k body, stamp := 1, sent := .contents }, full := full
              meters := full, metersDone := false, meterWritten := true, clips := Vector.replicate 32 1 } } }
    let t := fun (k : RecordKind) (body : List Byte) (asked full : Bool) =>
      after (last k body asked full) .recordWriteComplete
    (verdictBody v).length + 4 = (RecordKind.verdict 3).size ∧
      (meterBody Mix.reset 47).length + 4 = (RecordKind.meter 47).size ∧
      ((t (.verdict 3) (verdictBody v) false false).link.notice,
        (t (.verdict 3) (verdictBody v) true false).report.fullRequest,
        (t (.meter 47) (meterBody Mix.reset 47) true true).link.notice) =
        (0x11000000, true, 0x1D000000) := by decide

/-- A state with a queue that every invariant of the block allows. -/
def waiting : State := { State.reset with pending := [.sample, .blockTick 4 ⟨true, false⟩] }

/-- The settings of that state are within their ranges. -/
theorem waiting_settings : waiting.settingsSound := ⟨by decide, by decide, by decide, by decide, by decide, by decide⟩
/-- The ramps of that state are sound. -/
theorem waiting_ramps (i : RampId) : (waiting.mix.ramp i).sound = true := by
  cases i with
  | sourceAir x => revert x; decide
  | lineAir x => revert x; decide
  | lineGroup x => revert x; decide
  | airTerm x => revert x; decide
  | groupTerm x => revert x; decide
  | holdTerm x => revert x; decide
  | screenerTerm x => revert x; decide
  | cueIn x => revert x; decide
  | cueOut x => revert x; decide
/-- A state that meets each invariant, and a step from it. -/
theorem witness_StepKeeps :
    waiting.linesSound ∧ waiting.rampsSound ∧ waiting.vacantSound ∧ waiting.cueSound ∧ waiting.lanesSound ∧
      waiting.linkSound ∧ waiting.rolesSound ∧ ∃ t, step waiting = .next t :=
  ⟨⟨by decide, waiting_settings⟩, ⟨waiting_ramps, waiting_settings⟩, fun l => by revert l; decide, ⟨by decide, by decide⟩,
    ⟨by decide, by decide⟩,
    ⟨by decide, by decide, ⟨by decide, by decide⟩, ⟨by decide, by decide, by decide, .nil, .nil, fun p h => by cases h⟩,
      fun r h => by cases h⟩,
    fun g => by revert g; decide, ⟨_, rfl⟩⟩

end Sys2Proof.Tests
end

