-- ==== Sys2Proof/Proofs/Ramps.lean ====
section
/-! PROOFS. The law of the ramps (R17): what a sample does to each ramp of MIX, the span of a ramp, and its end. -/

namespace Sys2Proof.Machine

/-! ### One ramp -/

theorem Ramp.atRest_iff (r : Ramp) : r.atRest = true ↔ r.len ≤ r.pos := by
  simp [Ramp.atRest]

theorem Ramp.sound_iff (r : Ramp) :
    r.sound = true ↔
      r.pos ≤ r.len ∧ (r.len ≤ r.pos → r.cur = r.target) ∧
        min r.start r.target ≤ r.cur ∧ r.cur ≤ max r.start r.target := by
  simp [Ramp.sound, Ramp.atRest, and_assoc, imp_iff_not_or]

@[simp] theorem Ramp.valueAt_zero (r : Ramp) : r.valueAt 0 = r.start := by
  simp [Ramp.valueAt]

/-- The formula at n = L is the target itself, with nothing truncated. -/
theorem Ramp.valueAt_len (r : Ramp) (h : 0 < r.len) : r.valueAt r.len = r.target := by
  unfold Ramp.valueAt
  rw [Int.mul_tdiv_cancel _ (by omega)]
  omega

/-- A rising ramp never falls: truncation keeps the order of the quotients. -/
theorem Ramp.valueAt_mono (r : Ramp) (h : 0 < r.len) (up : r.start ≤ r.target) : Monotone r.valueAt := by
  intro m n le
  have prod : (r.target - r.start) * m ≤ (r.target - r.start) * n :=
    mul_le_mul_of_nonneg_left (by exact_mod_cast le) (by omega)
  exact Int.add_le_add_left (Int.tdiv_le_tdiv (by exact_mod_cast h) prod) _

/-- A falling ramp never rises. -/
theorem Ramp.valueAt_anti (r : Ramp) (h : 0 < r.len) (down : r.target ≤ r.start) : Antitone r.valueAt := by
  intro m n le
  have prod : (r.target - r.start) * n ≤ (r.target - r.start) * m :=
    mul_le_mul_of_nonpos_left (by exact_mod_cast le) (by omega)
  exact Int.add_le_add_left (Int.tdiv_le_tdiv (by exact_mod_cast h) prod) _

/-- Every value of the formula lies between those at its two ends, which are the start and the target. -/
theorem Ramp.valueAt_mem_span (r : Ramp) (n : Nat) (h : 0 < r.len) (le : n ≤ r.len) :
    min r.start r.target ≤ r.valueAt n ∧ r.valueAt n ≤ max r.start r.target := by
  rcases le_total r.start r.target with up | down
  · have lower := r.valueAt_mono h up n.zero_le
    have upper := r.valueAt_mono h up le
    rw [valueAt_zero] at lower
    rw [r.valueAt_len h] at upper
    omega
  · have upper := r.valueAt_anti h down n.zero_le
    have lower := r.valueAt_anti h down le
    rw [valueAt_zero] at upper
    rw [r.valueAt_len h] at lower
    omega

/-! ### One sample -/

theorem Ramp.advance_atRest (r : Ramp) (h : r.len ≤ r.pos) : r.advance = r :=
  if_pos (r.atRest_iff.mpr h)

theorem Ramp.advance_moving (r : Ramp) (h : r.pos < r.len) :
    r.advance = { r with pos := r.pos + 1, cur := r.valueAt (r.pos + 1) } :=
  if_neg fun rest => absurd (r.atRest_iff.mp rest) (by omega)

@[simp] theorem Ramp.advance_start (r : Ramp) : r.advance.start = r.start := by
  rcases r.advance_cases with ⟨_, h⟩ | ⟨_, h⟩ <;> rw [h]
@[simp] theorem Ramp.advance_target (r : Ramp) : r.advance.target = r.target := by
  rcases r.advance_cases with ⟨_, h⟩ | ⟨_, h⟩ <;> rw [h]
@[simp] theorem Ramp.advance_len (r : Ramp) : r.advance.len = r.len := by
  rcases r.advance_cases with ⟨_, h⟩ | ⟨_, h⟩ <;> rw [h]

/-- The position counts samples and stops at the length. -/
theorem Ramp.advance_pos (r : Ramp) (h : r.pos ≤ r.len) : r.advance.pos = min (r.pos + 1) r.len := by
  rcases h.lt_or_eq with moving | rest
  · rw [r.advance_moving moving]
    exact (min_eq_left moving).symm
  · rw [r.advance_atRest rest.ge]
    omega

theorem Ramp.advance_sound (r : Ramp) (h : r.sound = true) : r.advance.sound = true := by
  rcases lt_or_ge r.pos r.len with moving | rest
  · have span := r.valueAt_mem_span (r.pos + 1) (by omega) moving
    have ends : r.len ≤ r.pos + 1 → r.valueAt (r.pos + 1) = r.target := fun last => by
      rw [show r.pos + 1 = r.len by omega, r.valueAt_len (by omega)]
    rw [r.advance_moving moving, Ramp.sound_iff]
    exact ⟨moving, ends, span⟩
  · rwa [r.advance_atRest rest]

/-! ### Several samples -/

/-- What one sample leaves, several leave. -/
theorem Ramp.advance_iterate_of {α : Type} (f : Ramp → α) (h : ∀ r : Ramp, f r.advance = f r) (r : Ramp) (n : Nat) :
    f (Ramp.advance^[n] r) = f r :=
  congrFun (Function.iterate_invariant (funext h) n) r

@[simp] theorem Ramp.advance_iterate_start (r : Ramp) (n : Nat) : (Ramp.advance^[n] r).start = r.start :=
  advance_iterate_of Ramp.start advance_start r n
@[simp] theorem Ramp.advance_iterate_target (r : Ramp) (n : Nat) : (Ramp.advance^[n] r).target = r.target :=
  advance_iterate_of Ramp.target advance_target r n
@[simp] theorem Ramp.advance_iterate_len (r : Ramp) (n : Nat) : (Ramp.advance^[n] r).len = r.len :=
  advance_iterate_of Ramp.len advance_len r n

theorem Ramp.advance_iterate_sound (r : Ramp) (h : r.sound = true) (n : Nat) : (Ramp.advance^[n] r).sound = true :=
  Function.Iterate.rec (fun x : Ramp => x.sound = true) h Ramp.advance_sound n

theorem Ramp.advance_iterate_pos (r : Ramp) (h : r.pos ≤ r.len) (n : Nat) :
    (Ramp.advance^[n] r).pos = min (r.pos + n) r.len := by
  induction n with
  | zero => exact (min_eq_left h).symm
  | succ n ih =>
    have inLen : (Ramp.advance^[n] r).pos ≤ (Ramp.advance^[n] r).len := by
      rw [ih, advance_iterate_len]
      exact min_le_right ..
    rw [Function.iterate_succ_apply', Ramp.advance_pos _ inLen, ih, advance_iterate_len]
    omega

theorem Ramp.advance_iterate_mem_span (r : Ramp) (h : r.sound = true) (n : Nat) :
    min r.start r.target ≤ (Ramp.advance^[n] r).cur ∧ (Ramp.advance^[n] r).cur ≤ max r.start r.target := by
  obtain ⟨-, -, span⟩ := (Ramp.sound_iff _).mp (r.advance_iterate_sound h n)
  simpa only [advance_iterate_start, advance_iterate_target] using span

/-- After its last L − n samples a ramp is at rest at its target: its position is L, and a sound ramp there has no other
value. -/
theorem Ramp.advance_iterate_ends (r : Ramp) (h : r.sound = true) :
    (Ramp.advance^[r.len - r.pos] r).cur = r.target ∧ (Ramp.advance^[r.len - r.pos] r).atRest = true := by
  obtain ⟨inLen, -, -⟩ := r.sound_iff.mp h
  obtain ⟨-, ends, -⟩ := (Ramp.sound_iff _).mp (r.advance_iterate_sound h (r.len - r.pos))
  have rest : (Ramp.advance^[r.len - r.pos] r).len ≤ (Ramp.advance^[r.len - r.pos] r).pos := by
    rw [r.advance_iterate_pos inLen, advance_iterate_len]
    omega
  exact ⟨(ends rest).trans (r.advance_iterate_target _), (Ramp.atRest_iff _).mpr rest⟩

/-! ### The ramps of MIX -/

theorem Mix.advance_ramp (m : Mix) (i : RampId) : m.advance.ramp i = (m.ramp i).advance := by
  cases i <;> simp [Mix.advance, Mix.ramp, GroupRamp.advance]

/-- Peaks and clip totals alone are measured. -/
@[simp] theorem Mix.measure_ramp (m : Mix) (x : Inputs) (o : Outputs) (i : RampId) :
    (m.measure x o).ramp i = m.ramp i := by
  cases i <;> simp [Mix.measure, Mix.ramp]

theorem State.takeSample_ramp (s : State) (i : RampId) : s.takeSample.mix.ramp i = (s.mix.ramp i).advance :=
  (Mix.measure_ramp ..).trans (s.mix.advance_ramp i)

end Sys2Proof.Machine

open Sys2Proof Sys2Proof.Machine

/-- Settles O15: each ramp takes one position of the formula in a sample, and soundness, which every sample keeps, holds
the span and the end. -/
theorem rampLaw : Obligations.RampLaw := by
  unfold Obligations.RampLaw
  refine ⟨fun s => ⟨s.takeSample, rfl, fun i => ?_⟩,
    fun r h => ⟨r.advance_iterate_mem_span h, r.advance_iterate_ends h⟩⟩
  rw [s.takeSample_ramp i]
  exact ⟨rfl, (s.mix.ramp i).advance_atRest, (s.mix.ramp i).advance_moving⟩

end

