-- ==== Sys2Proof/Proofs/Arrivals.lean ====
section
/-! PROOFS. The arrivals of one tick (R38, R39): which lines take one, and the number each of them reads. -/

namespace Sys2Proof.Machine

/-! ### The moves of a delivery (R29, R37, R46) -/

theorem lineMove_eq_connect_iff (c : LineCtx) (i : LineInput) :
    lineMove c i = .connect ↔
      c.state = .vacant ∧ c.condition ≠ .connected ∧ ∃ d, i.delivery = some d ∧ d.condition = .connected := by
  unfold lineMove
  rcases i.delivery with _ | d
  · simp
  · by_cases arriving : d.condition = .connected
    · by_cases known : c.condition = .connected
      · simp [arriving, known]
      · cases c.state <;> simp [arriving, known, Ne.symm known]
    · by_cases same : d.condition = c.condition
      · simp [same]
      · cases c.state.connected <;> simp [arriving, same]

theorem lineMove_eq_stay_iff_of_connected (c : LineCtx) (i : LineInput) (h : c.state.connected = true) :
    lineMove c i = .stay ↔ ∀ d, i.delivery = some d → d.condition = .connected ∨ d.condition = c.condition := by
  unfold lineMove
  rcases i.delivery with _ | d
  · simp
  · by_cases arriving : d.condition = .connected
    · revert h
      cases c.state <;> simp [arriving, LineState.connected]
    · simp [arriving, h]

/-! ### The lines that take an arrival (R38, R45) -/

theorem takesArrival_iff_move (c : LineCtx) (i : LineInput) :
    takesArrival c i = true ↔
      (planAfter c i).role = .auto ∧
        (lineMove c i = .connect ∨
          (c.state.connected = true ∧ (planAfter c i).role ≠ c.plan.role ∧ lineMove c i = .stay)) := by
  unfold takesArrival roleChanged
  cases lineMove c i <;> simp

theorem takesArrival_iff (c : LineCtx) (i : LineInput) :
    takesArrival c i = true ↔
      (planAfter c i).role = .auto ∧
        ((c.state = .vacant ∧ c.condition ≠ .connected ∧ ∃ d, i.delivery = some d ∧ d.condition = .connected) ∨
          (c.state.connected = true ∧ (planAfter c i).role ≠ c.plan.role ∧
            ∀ d, i.delivery = some d → d.condition = .connected ∨ d.condition = c.condition)) := by
  rw [takesArrival_iff_move, lineMove_eq_connect_iff]
  refine and_congr_right fun _ => or_congr_right (and_congr_right fun connected => and_congr_right fun _ => ?_)
  exact lineMove_eq_stay_iff_of_connected c i connected

theorem lineTick_arrivalNumber_taken (e : LineEnv) (c : LineCtx) (i : LineInput) (n : BitVec 8)
    (h : takesArrival c i = true) : (lineTick e c i n).arrivalNumber = some n :=
  if_pos h

theorem lineTick_arrivalNumber_kept (e : LineEnv) (c : LineCtx) (i : LineInput) (n : BitVec 8)
    (h : ¬takesArrival c i = true) : (lineTick e c i n).arrivalNumber = c.arrivalNumber :=
  if_neg h

/-! ### The order of a tick's arrivals (R39) -/

section
variable (e : LineEnv) (ctx : Vector LineCtx 24) (input : Vector LineInput 24) (n : BitVec 8)

/-- The lines that take an arrival at a tick, in the order in which SCRN serves them. -/
def arrivalTakers : List Line := (List.finRange 24).filter fun l => takesArrival ctx[l] input[l]

theorem mem_arrivalTakers (l : Line) : l ∈ arrivalTakers ctx input ↔ takesArrival ctx[l] input[l] = true := by
  simp [arrivalTakers]

theorem arrivalsBelow_eq_countP (m : Nat) :
    arrivalsBelow ctx input m = (arrivalTakers ctx input).countP fun j => decide (j.val < m) := by
  rw [arrivalTakers, List.countP_filter, List.countP_eq_length_filter]
  rfl

/-- No line stands above them all, so the arrivals below 24 are those of the whole tick. -/
theorem arrivalsBelow_all : arrivalsBelow ctx input 24 = (arrivalTakers ctx input).length := by
  rw [arrivalsBelow_eq_countP, List.countP_eq_length]
  exact fun l _ => decide_eq_true l.isLt

theorem arrivalsTick_eq : arrivalsTick ctx input n = n + BitVec.ofNat 8 (arrivalTakers ctx input).length :=
  congrArg (n + BitVec.ofNat 8 ·) (arrivalsBelow_all ctx input)

/-- Every line has its own tick, with the counter advanced by the arrivals of the lines below it. -/
theorem linesTick_getElem (l : Line) :
    (linesTick e ctx input n)[l] =
      lineTick e ctx[l] input[l]
        (n + BitVec.ofNat 8 ((arrivalTakers ctx input).countP fun j => decide (j < l))) := by
  have own : (linesTick e ctx input n)[l] =
      lineTick e ctx[l] input[l] (n + BitVec.ofNat 8 (arrivalsBelow ctx input l.val)) := by
    simp [linesTick]
  rw [own, arrivalsBelow_eq_countP]
  rfl

end

end Sys2Proof.Machine

open Sys2Proof Sys2Proof.Machine

/-- Settles O34: every line's tick reads the counter advanced by the lower lines that take an arrival, and the move of
its delivery says whether it takes one itself. -/
theorem arrivalsInOrder : Obligations.ArrivalsInOrder := by
  unfold Obligations.ArrivalsInOrder
  intro e ctx input n takers
  have takes (l : Line) : l ∈ takers ↔ takesArrival ctx[l] input[l] = true := mem_arrivalTakers ctx input l
  have own (l : Line) : (linesTick e ctx input n)[l] =
      lineTick e ctx[l] input[l] (n + BitVec.ofNat 8 (takers.countP fun j => decide (j < l))) :=
    linesTick_getElem e ctx input n l
  refine ⟨fun l taker => ?_, fun l other => ?_, arrivalsTick_eq ctx input n, fun l => ⟨own l, ?_⟩⟩
  · rw [own l]
    exact lineTick_arrivalNumber_taken e _ _ _ ((takes l).mp taker)
  · rw [own l]
    exact lineTick_arrivalNumber_kept e _ _ _ (mt (takes l).mpr other)
  · exact (takes l).trans (takesArrival_iff ctx[l] input[l])

end

