-- ==== Sys2Proof/Proofs/Arbitration.lean ====
section
/-! PROOFS. Coverage and arbitration (R62, R63, R69): the winner of a return at a block tick, read from the lines and
routes as the tick leaves them. -/

namespace Sys2Proof.Machine

/-! ### Candidates (R62, R63) -/

theorem Activity.claiming_iff (a : Activity) : a.claiming = true ↔ a ≠ .idle := by
  cases a <;> simp [Activity.claiming]

theorem isCandidate_iff (r : RouteCtx) (k : Line) (c : LineCtx) :
    isCandidate r k c = true ↔ r.entry.valid = true ∧ r.activity ≠ .idle ∧ covers r.entry.target k c = true := by
  simp [isCandidate, Activity.claiming_iff, and_assoc]

/-! ### Arbitration (R63) -/

section
variable (routes : Vector RouteCtx 32) (k : Line) (c : LineCtx)

/-- The route is the winner among these: a candidate, above every other one in priority or, at its priority, in index. -/
def Wins (among : List Route) (w : Route) : Prop :=
  w ∈ among ∧ isCandidate routes[w] k c = true ∧
    ∀ r ∈ among, isCandidate routes[r] k c = true →
      routes[r].entry.priority < routes[w].entry.priority ∨
        (routes[r].entry.priority = routes[w].entry.priority ∧ w ≤ r)

/-- What arbitration among these routes may answer: their winner, or none where no one of them is a candidate. -/
def Arbitrated (among : List Route) : Option Route → Prop
  | none => ∀ r ∈ among, ¬isCandidate routes[r] k c = true
  | some w => Wins routes k c among w

/-- One more route, of a higher index than all before it, takes over where it is the first candidate or of a strictly
higher priority. -/
theorem arbitrated_betterRoute {among : List Route} {best : Option Route} {r : Route} (above : ∀ q ∈ among, q < r)
    (h : Arbitrated routes k c among best) :
    Arbitrated routes k c (among ++ [r]) (betterRoute routes k c best r) := by
  unfold betterRoute
  by_cases cand : isCandidate routes[r] k c = true
  · cases best with
    | none =>
      rw [if_pos cand]
      exact ⟨by simp, cand, List.forall_mem_append.mpr ⟨fun q before candq => absurd candq (h q before), by simp⟩⟩
    | some b =>
      obtain ⟨seen, candb, best⟩ := h
      by_cases higher : routes[b].entry.priority < routes[r].entry.priority
      · simp only [if_pos cand, if_pos higher]
        refine ⟨by simp, cand, List.forall_mem_append.mpr ⟨fun q before candq => .inl ?_, by simp⟩⟩
        obtain lower | ⟨same, -⟩ := best q before candq
        · exact lower.trans higher
        · exact same.trans_lt higher
      · simp only [if_pos cand, if_neg higher]
        refine ⟨by simp [seen], candb, List.forall_mem_append.mpr ⟨best, List.forall_mem_singleton.mpr fun _ => ?_⟩⟩
        exact (not_lt.mp higher).lt_or_eq.imp_right fun same => ⟨same, (above b seen).le⟩
  · rw [if_neg cand]
    cases best with
    | none => exact List.forall_mem_append.mpr ⟨h, List.forall_mem_singleton.mpr cand⟩
    | some b =>
      obtain ⟨seen, candb, best⟩ := h
      exact ⟨by simp [seen], candb,
        List.forall_mem_append.mpr ⟨best, List.forall_mem_singleton.mpr fun candr => absurd candr cand⟩⟩

theorem arbitrated_foldl {among : List Route} (sorted : among.Pairwise (· < ·)) :
    Arbitrated routes k c among (among.foldl (betterRoute routes k c) none) := by
  induction among using List.reverseRecOn with
  | nil => simp [Arbitrated]
  | append_singleton among r ih =>
    obtain ⟨before, -, above⟩ := List.pairwise_append.mp sorted
    rw [List.foldl_append]
    exact arbitrated_betterRoute routes k c (fun q hq => above q hq r (by simp)) (ih before)

theorem arbitrate_arbitrated : Arbitrated routes k c (List.finRange 32) (arbitrate routes k c) :=
  arbitrated_foldl routes k c (List.pairwise_lt_finRange 32)

variable {routes k c}

theorem not_isCandidate_of_arbitrate_none (h : arbitrate routes k c = none) (r : Route) :
    ¬isCandidate routes[r] k c = true := by
  have spec := arbitrate_arbitrated routes k c
  rw [h] at spec
  exact spec r (List.mem_finRange r)

theorem wins_of_arbitrate_some {w : Route} (h : arbitrate routes k c = some w) :
    Wins routes k c (List.finRange 32) w := by
  have spec := arbitrate_arbitrated routes k c
  rwa [h] at spec

end

/-! ### The cue state of a return after a tick (R64 to R69) -/

section
variable (q : CueReturn) (c : LineCtx) (named : Option Route) (routes : Vector RouteCtx 32) (replaced : Vector Bool 32)
  (faded : Bool)

theorem CueReturn.tick_vacant (h : c.state = .vacant) : q.tick c named routes replaced faded = CueReturn.clear :=
  if_pos h

@[simp] theorem CueReturn.fadeEnd_winner : (q.fadeEnd faded).winner = q.winner := by
  cases faded <;> rfl

theorem CueReturn.tick_winner (h : c.state ≠ .vacant) : (q.tick c named routes replaced faded).winner = named := by
  unfold CueReturn.tick
  rw [if_neg h]
  by_cases same : sameWinner q named replaced = true
  · rw [if_pos same]
    rw [sameWinner, Bool.and_eq_true, decide_eq_true_eq] at same
    obtain ⟨stays, -⟩ := same
    simp [stays]
  · cases q.winner <;> simp [same]

theorem CueReturn.tick_duck (h : c.state ≠ .vacant) :
    (q.tick c named routes replaced faded).duck = duckKind routes named c.plan.threshold := by
  unfold CueReturn.tick
  rw [if_neg h]
  by_cases same : sameWinner q named replaced = true
  · simp [same]
  · cases q.winner <;> simp [same]

end

/-! ### What the cue of a return reads of its line -/

@[simp] theorem arbitrate_reportPending (routes : Vector RouteCtx 32) (k : Line) (c : LineCtx) (pending : Bool) :
    arbitrate routes k { c with reportPending := pending } = arbitrate routes k c :=
  rfl

@[simp] theorem CueReturn.tick_reportPending (q : CueReturn) (c : LineCtx) (pending : Bool) (named : Option Route)
    (routes : Vector RouteCtx 32) (replaced : Vector Bool 32) (faded : Bool) :
    q.tick { c with reportPending := pending } named routes replaced faded = q.tick c named routes replaced faded :=
  rfl

/-! ### What a round leaves of a line (R136) -/

/-- A round changes report-pending flags alone. -/
theorem LineBlock.flag_ctx (b : LineBlock) (lines : List Line) (on : Line → Bool) (k : Line) :
    ∃ pending, (b.flag lines on).ctx[k] = { b.ctx[k] with reportPending := pending } := by
  by_cases carried : lines.contains k = true
  · exact ⟨on k, by simp_all [LineBlock.flag]⟩
  · exact ⟨(b.ctx[k]).reportPending, by simp_all [LineBlock.flag]⟩

theorem State.lookRound_lineCtx (s seen : State) (left : ReportFlags) (k : Line) :
    ∃ pending, (s.lookRound seen left).line.ctx[k] = { s.line.ctx[k] with reportPending := pending } := by
  unfold State.lookRound
  split
  · exact s.line.flag_ctx ..
  · exact ⟨_, rfl⟩

/-! ### Arbitration at a block tick (R63) -/

/-- The part at a block tick when its cue is due: lines and routes stand as the tick leaves them. -/
def State.beforeCue (s : State) (pins : BitVec 16) : State :=
  let s1 := { s with link := s.link.engineTick }
  s1.takePhase.countBlock.linePart.periodPhase.keyPhase pins

theorem State.audioTick_eq (s : State) (pins : BitVec 16) : s.audioTick pins = (s.beforeCue pins).cuePhase.mixPhase :=
  rfl

section
variable (s : State) (pins : BitVec 16) (follows first : Bool)

theorem State.tickEvents_line : (s.tickEvents pins follows).line = (s.beforeCue pins).line := by
  simp [State.tickEvents, State.audioTick_eq]

theorem State.blockTick_cue : (s.blockTick pins follows first).cue = (s.beforeCue pins).cuePhase.cue := by
  simp [State.blockTick, State.tickEvents, State.audioTick_eq]

theorem State.blockTick_lineCtx (k : Line) :
    ∃ pending, (s.blockTick pins follows first).line.ctx[k] =
      { (s.beforeCue pins).line.ctx[k] with reportPending := pending } := by
  rw [← s.tickEvents_line pins follows]
  exact State.lookRound_lineCtx ..

/-- Every return's arbitration is that of the lines and routes after the tick: it reads no report-pending flag, the one
thing of a line that the round of the tick still changes. -/
theorem State.blockTick_return (k : Line) :
    let t := s.blockTick pins follows first
    let v := s.beforeCue pins
    t.cue.returns[k] =
      (v.cue.returns[k]).tick t.line.ctx[k] (arbitrate t.cue.routes k t.line.ctx[k]) t.cue.routes v.inst.replaced
        (v.fadeEnded k) := by
  intro t v
  obtain ⟨pending, line⟩ := s.blockTick_lineCtx pins follows first k
  have cue : t.cue = v.cuePhase.cue := s.blockTick_cue pins follows first
  rw [cue, line, arbitrate_reportPending, CueReturn.tick_reportPending]
  simp [State.cuePhase, State.cueAfter, v]

end

end Sys2Proof.Machine

open Sys2Proof Sys2Proof.Machine

/-- Settles O29: the cue state of every return is the tick of the winner that arbitration names for the lines and routes
after the block tick. -/
theorem blockTickArbitrates : Obligations.BlockTickArbitrates := by
  unfold Obligations.BlockTickArbitrates
  intro s t pins follows first k h c position covered candidate
  have after : s.blockTick pins follows first = t := Host.Outcome.next.inj h
  obtain ⟨q, replaced, faded, own⟩ : ∃ q replaced faded,
      t.cue.returns[k] = CueReturn.tick q c (arbitrate t.cue.routes k c) t.cue.routes replaced faded := by
    subst after
    exact ⟨_, _, _, s.blockTick_return pins follows first k⟩
  have covered_iff (target : Target) : covered target ↔ covers target k c = true := by
    have same : position = c.position := rfl
    cases target <;> simp [covered, covers, same]
  have candidate_iff (r : Route) : candidate r ↔ isCandidate t.cue.routes[r] k c = true := by
    rw [isCandidate_iff, ← covered_iff]
  refine ⟨fun vacant => ?_, fun present => ?_⟩
  · rw [own, CueReturn.tick_vacant (h := vacant)]
    exact ⟨rfl, rfl, rfl⟩
  · rw [own, CueReturn.tick_winner (h := present), CueReturn.tick_duck (h := present)]
    refine ⟨fun free => ⟨fun r candr => ?_, ?_⟩, fun w named => ?_⟩
    · exact not_isCandidate_of_arbitrate_none free r ((candidate_iff r).mp candr)
    · rw [free, duckKind]
    · obtain ⟨-, candw, best⟩ := wins_of_arbitrate_some named
      refine ⟨(candidate_iff w).mpr candw, fun r candr => ?_, ?_⟩
      · exact best r (List.mem_finRange r) ((candidate_iff r).mp candr)
      · rw [named, duckKind]

end

