-- ==== Sys2Proof/Proofs/Partners.lean ====
section
/-! PROOFS. The partner set of a line plan record (R118): which entries of a list are kept, and what they leave. -/

namespace Sys2Proof.Machine

/-! ### One entry of a list -/

section
variable (own : Line) (entries : List (Option Line))

/-- Entry n is kept: it names a line and is not dropped. -/
def keepsEntry (n : Nat) : Bool := (entries.getD n none).isSome && !droppedPartner own entries n

theorem keepsEntry_iff (n : Nat) :
    keepsEntry own entries n = true ↔
      ∃ l, entries.getD n none = some l ∧ l ≠ own ∧ l ∉ keptPartners own (entries.take n) ∧
        (keptPartners own (entries.take n)).length < 3 := by
  unfold keepsEntry droppedPartner
  cases entries.getD n none with
  | none => simp
  | some l => simp [and_assoc]

theorem droppedPartner_iff (n : Nat) :
    droppedPartner own entries n = true ↔ entries.getD n none ≠ none ∧ keepsEntry own entries n = false := by
  cases named : entries.getD n none with
  | none => simp only [droppedPartner, named, ne_eq, not_true_eq_false, false_and, Bool.false_eq_true]
  | some l => simp only [keepsEntry, named, Option.isSome_some, Bool.true_and, Bool.not_eq_false', ne_eq,
      reduceCtorEq, not_false_eq_true, true_and]

theorem keptPartners_concat_none : keptPartners own (entries ++ [none]) = keptPartners own entries := by
  simp [keptPartners]

theorem keptPartners_concat_some (l : Line) :
    keptPartners own (entries ++ [some l]) =
      if l = own ∨ l ∈ keptPartners own entries ∨ 3 ≤ (keptPartners own entries).length then keptPartners own entries
      else keptPartners own entries ++ [l] := by
  simp [keptPartners, or_assoc]

/-- The lines kept grow by a kept entry's line, and by nothing else. -/
theorem keptPartners_take_succ (n : Nat) :
    keptPartners own (entries.take (n + 1)) =
      keptPartners own (entries.take n) ++
        if keepsEntry own entries n = true then (entries.getD n none).toList else [] := by
  rw [List.take_add_one]
  rcases entry : entries[n]? with _ | _ | l
  · simp [entry]
  · simp [entry, keptPartners_concat_none]
  · have named : entries.getD n none = some l := by simp [entry]
    have keeps : keepsEntry own entries n = true ↔
        ¬(l = own ∨ l ∈ keptPartners own (entries.take n) ∨ 3 ≤ (keptPartners own (entries.take n)).length) := by
      simp [keepsEntry_iff, entry]
    rw [Option.toList_some, keptPartners_concat_some, named, Option.toList_some]
    by_cases drop : l = own ∨ l ∈ keptPartners own (entries.take n) ∨ 3 ≤ (keptPartners own (entries.take n)).length
    · rw [if_pos drop, if_neg (mt keeps.mp (not_not_intro drop)), List.append_nil]
    · rw [if_neg drop, if_pos (keeps.mpr drop)]

/-! ### The lines kept -/

theorem mem_keptPartners_take_iff_kept (n : Nat) (l : Line) :
    l ∈ keptPartners own (entries.take n) ↔
      ∃ i < n, keepsEntry own entries i = true ∧ entries.getD i none = some l := by
  induction n with
  | zero => simp [keptPartners]
  | succ n ih =>
    rw [keptPartners_take_succ, List.mem_append, ih, Nat.exists_lt_succ_right]
    by_cases keeps : keepsEntry own entries n = true <;> simp [keeps]

theorem length_keptPartners_take (n : Nat) :
    (keptPartners own (entries.take n)).length = Nat.count (fun i => keepsEntry own entries i = true) n := by
  induction n with
  | zero => rfl
  | succ n ih =>
    rw [keptPartners_take_succ, List.length_append, ih, Nat.count_succ]
    by_cases keeps : keepsEntry own entries n = true
    · obtain ⟨l, named, -⟩ := (keepsEntry_iff own entries n).mp keeps
      simp only [if_pos keeps, named, Option.toList_some, List.length_singleton]
    · simp only [if_neg keeps, List.length_nil]

/-- The lines kept from any number of entries are at most three, distinct, and not the record's own. -/
theorem keptPartners_take_sound (n : Nat) :
    (keptPartners own (entries.take n)).length ≤ 3 ∧ (keptPartners own (entries.take n)).Nodup ∧
      own ∉ keptPartners own (entries.take n) := by
  induction n with
  | zero => simp [keptPartners]
  | succ n ih =>
    rw [keptPartners_take_succ]
    by_cases keeps : keepsEntry own entries n = true
    · obtain ⟨few, distinct, other⟩ := ih
      obtain ⟨l, named, notOwn, fresh, room⟩ := (keepsEntry_iff own entries n).mp keeps
      simp only [if_pos keeps, named, Option.toList_some, List.length_append, List.length_singleton]
      refine ⟨room, List.nodup_append.mpr ⟨distinct, List.nodup_singleton l, ?_⟩, ?_⟩
      · intro a seen b new same
        rw [List.mem_singleton] at new
        exact fresh (new ▸ same ▸ seen)
      · simp [other, Ne.symm notOwn]
    · simpa [keeps] using ih

/-- A line is kept exactly where an entry names it before three lines have been kept: one that an earlier entry kept is
among them already. -/
theorem mem_keptPartners_take (n : Nat) (l : Line) :
    l ∈ keptPartners own (entries.take n) ↔
      l ≠ own ∧ ∃ i < n, entries.getD i none = some l ∧ (keptPartners own (entries.take i)).length < 3 := by
  constructor
  · intro kept
    obtain ⟨i, before, keeps, named⟩ := (mem_keptPartners_take_iff_kept own entries n l).mp kept
    obtain ⟨k, namedToo, notOwn, -, room⟩ := (keepsEntry_iff own entries i).mp keeps
    obtain rfl : k = l := Option.some.inj (namedToo.symm.trans named)
    exact ⟨notOwn, i, before, named, room⟩
  · rintro ⟨notOwn, i, before, named, room⟩
    rw [mem_keptPartners_take_iff_kept]
    by_cases seen : l ∈ keptPartners own (entries.take i)
    · obtain ⟨j, earlier, keeps, namedJ⟩ := (mem_keptPartners_take_iff_kept own entries i l).mp seen
      exact ⟨j, earlier.trans before, keeps, namedJ⟩
    · exact ⟨i, before, (keepsEntry_iff own entries i).mpr ⟨l, named, notOwn, seen, room⟩, named⟩

end

/-! ### The set in ascending order (R27) -/

theorem mem_ascending (ls : List Line) (l : Line) : l ∈ ascending ls ↔ l ∈ ls := by
  simp [ascending]

theorem ascending_pairwise (ls : List Line) : (ascending ls).Pairwise (· < ·) :=
  (List.pairwise_lt_finRange 24).filter _

theorem ascending_nodup (ls : List Line) : (ascending ls).Nodup :=
  (List.nodup_finRange 24).filter _

theorem ascending_length_le (ls : List Line) : (ascending ls).length ≤ ls.length :=
  ((ascending_nodup ls).subperm fun l seen => (mem_ascending ls l).mp seen).length_le

/-! ### The entries of a record -/

@[simp] theorem partnerEntries_length (b : List Byte) : (partnerEntries b).length = 6 := by
  simp [partnerEntries]

theorem linePlanOf_partners (own : Line) (b : List Byte) :
    (linePlanOf own b).partners = ascending (keptPartners own ((partnerEntries b).take 6)) := by
  rw [List.take_of_length_le (partnerEntries_length b).le]
  rfl

end Sys2Proof.Machine

open Sys2Proof Sys2Proof.Machine

/-- Settles O49: the lines kept from the first entries of a list, ordered, are the set of all six. -/
theorem partnersKept : Obligations.PartnersKept := by
  unfold Obligations.PartnersKept
  intro own b entries kept
  have set : kept = ascending (keptPartners own (entries.take 6)) := linePlanOf_partners own b
  obtain ⟨few, -, other⟩ := keptPartners_take_sound own entries 6
  rw [set]
  exact ⟨partnerEntries_length b, (ascending_length_le _).trans few, ascending_nodup _,
    fun seen => other ((mem_ascending _ own).mp seen), mem_keptPartners_take own entries, mem_ascending _⟩

end

