-- ==== Sys2Proof/Proofs/Sections.lean ====
section
/-! PROOFS. The record of a plan section as its bytes give it (R106, R116 to R119, R166 to R168): the fields that are
refused, those that are altered, and what is staged. -/

namespace Sys2Proof.Machine

/-! ### Bytes and fields (R107, R164) -/

theorem byteAt_lt (b : List Byte) (i : Nat) : byteAt b i < 256 := (b.getD i 0).isLt

theorem wordAt_lt (b : List Byte) (i : Nat) : wordAt b i < 65536 := by
  have low := byteAt_lt b i
  have high := byteAt_lt b (i + 1)
  unfold wordAt
  omega

/-- The record begins at offset 2 of its section. -/
theorem sectionByte_eq (body : List Byte) {offset i : Nat} (h : offset = i + 2) :
    sectionByte body offset = byteAt body i := by
  subst h
  rfl

theorem sectionByte_before (body : List Byte) (f : Nat) : sectionByte body (1 + f) = byteAt body (f - 1) := by
  have same : 1 + f - 2 = f - 1 := by omega
  rw [sectionByte, byteAt, same]

theorem sectionWord_eq (body : List Byte) {offset i : Nat} (h : offset = i + 2) :
    sectionWord body offset = wordAt body i := by
  subst h
  rfl

theorem val_ofNat_of_lt {n v : Nat} [NeZero n] (h : v < n) : (Fin.ofNat n v).val = v := Nat.mod_eq_of_lt h

@[simp] theorem gainAt_val (b : List Byte) (i : Nat) : (gainAt b i).val = byteAt b i := val_ofNat_of_lt (byteAt_lt b i)

theorem optAt_eq_some_iff {n : Nat} [NeZero n] (small : n ≤ 255) {b : List Byte} {i : Nat}
    (known : badOpt n (byteAt b i) = false) (x : Fin n) : optAt n b i = some x ↔ byteAt b i = x.val := by
  have inRange : byteAt b i ≠ 255 → byteAt b i < n := by simpa [badOpt] using known
  unfold optAt
  by_cases absent : byteAt b i = 255
  · simp only [if_pos absent, reduceCtorEq, false_iff]
    omega
  · rw [if_neg absent, Option.some_inj, Fin.ext_iff, val_ofNat_of_lt (inRange absent)]

theorem optAt_eq_none_iff {n : Nat} [NeZero n] (b : List Byte) (i : Nat) : optAt n b i = none ↔ byteAt b i = 255 := by
  simp [optAt]

theorem sectionNames_optAt {n : Nat} [NeZero n] (small : n ≤ 255) {body : List Byte} {offset i : Nat}
    (place : offset = i + 2) (known : badOpt n (byteAt body i) = false) :
    sectionNames body (optAt n body i) offset := by
  unfold sectionNames
  rw [sectionByte_eq body place]
  cases held : optAt n body i with
  | none => exact (optAt_eq_none_iff body i).mp held
  | some x => exact (optAt_eq_some_iff small known x).mp held

/-! ### The kinds of the sections (R106) -/

theorem section_cases (sec : Section) :
    (∃ own : Line, sec.val = own.val) ∨ sec.val = 24 ∨ sec.val = 25 ∨ sec.val = 26 ∨ sec.val = 27 ∨ sec.val = 28 ∨
      sec.val = 29 ∨ sec.val = 30 ∨ sec.val = 31 := by
  by_cases line : sec.val < 24
  · exact .inl ⟨⟨sec.val, line⟩, rfl⟩
  · omega

section
variable {sec : Section}

theorem sectionKind_line {own : Line} (h : sec.val = own.val) : sectionKind sec = .line own := by
  unfold sectionKind
  rw [if_pos (h ▸ own.isLt), h]
  exact congrArg _ (Fin.ext (val_ofNat_of_lt own.isLt))

theorem sectionKind_sources (h : sec.val = 24) : sectionKind sec = .sources := by simp [sectionKind, h]
theorem sectionKind_routes (h : sec.val = 25) : sectionKind sec = .routes := by simp [sectionKind, h]
theorem sectionKind_codes (h : sec.val = 26) : sectionKind sec = .codes := by simp [sectionKind, h]
theorem sectionKind_screening (h : sec.val = 27) : sectionKind sec = .screening := by simp [sectionKind, h]
theorem sectionKind_studio (h : sec.val = 28) : sectionKind sec = .studio := by simp [sectionKind, h]
theorem sectionKind_timing (h : sec.val = 29) : sectionKind sec = .timing := by simp [sectionKind, h]
theorem sectionKind_lanes (h : sec.val = 30) : sectionKind sec = .lanes := by simp [sectionKind, h]
theorem sectionKind_request (h : sec.val = 31) : sectionKind sec = .request := by simp [sectionKind, h]

end

theorem fieldCount_sectionKind (sec : Section) : fieldCount (sectionKind sec) = sectionFields sec := by
  obtain ⟨own, h⟩ | h | h | h | h | h | h | h | h := section_cases sec
  · rw [sectionKind_line h]
    simp [fieldCount, sectionFields, h]
  all_goals simp [fieldCount, sectionFields, sectionKind, h]

/-! ### The field checks (R116) -/

theorem decide_lt_eq (n v : Nat) : decide (n < v) = !decide (v ≤ n) := by
  rw [← decide_not, decide_eq_decide, not_le]

theorem badOpt_succ_eq (n v : Nat) : badOpt (n + 1) v = !(decide (v ≤ n) || decide (v = 255)) := by
  by_cases absent : v = 255 <;> simp [badOpt, absent, Nat.succ_le_iff, decide_lt_eq]

section
variable {sec : Section} (body : List Byte) (f : Nat)

theorem badLineField_eq {own : Line} (h : sec.val = own.val) :
    badLineField body f = !sectionFieldKnown sec body f := by
  have line : sec.val < 24 := h ▸ own.isLt
  simp only [badLineField, sectionFieldKnown, if_pos line, sectionByte_eq body (Nat.add_comm 2 f), sectionByte_before]
  rcases f with _ | _ | f
  · simp [decide_lt_eq]
  · simp [decide_lt_eq]
  · by_cases gain : f + 2 < 8
    · have free : ¬9 ≤ f + 2 := by omega
      simp [gain, gain.ne, free]
    · by_cases threshold : f + 2 = 8
      · simp [threshold, decide_lt_eq]
      · have partner : 9 ≤ f + 2 := by omega
        simp [gain, threshold, partner, badOpt_succ_eq]

theorem badRouteField_eq (h : sec.val = 25) : badRouteField body f = !sectionFieldKnown sec body f := by
  simp only [badRouteField, sectionFieldKnown, h, sectionByte_eq body (Nat.add_comm 2 f), sectionByte_before]
  rcases f % 9 with _ | _ | _ | _ | _ | _ | _ | _ | _ | _ <;> simp [decide_lt_eq]

theorem badScreeningField_eq (h : sec.val = 27) : badScreeningField body f = !sectionFieldKnown sec body f := by
  simp only [badScreeningField, sectionFieldKnown, h, sectionByte_eq body (Nat.add_comm 2 f)]
  by_cases position : f < 9
  · simp only [if_pos position]
    rcases f % 3 with _ | _ | _ <;> simp [badOpt_succ_eq]
  · by_cases spread : f = 9 <;> simp [position, spread, badOpt_succ_eq]

end

/-- The fields that the check refuses are those whose bytes hold no value of their kind. -/
theorem badField_sectionKind (sec : Section) (body : List Byte) (f : Nat) :
    badField (sectionKind sec) body f = !sectionFieldKnown sec body f := by
  have field_byte : sectionByte body (2 + f) = byteAt body f := sectionByte_eq body (Nat.add_comm 2 f)
  obtain ⟨own, line⟩ | sources | routes | codes | screening | studio | timing | lanes | request := section_cases sec
  · rw [sectionKind_line line]
    exact badLineField_eq body f line
  · simp [sectionKind, sources, badField, sectionFieldKnown, field_byte, decide_lt_eq]
  · rw [sectionKind_routes routes]
    exact badRouteField_eq body f routes
  · by_cases even : f % 2 = 0 <;>
      simp [sectionKind, codes, badField, sectionFieldKnown, field_byte, even, decide_lt_eq]
  · rw [sectionKind_screening screening]
    exact badScreeningField_eq body f screening
  · simp [sectionKind, studio, badField, sectionFieldKnown]
  · simp [sectionKind, timing, badField, sectionFieldKnown]
  · simp [sectionKind, lanes, badField, sectionFieldKnown, field_byte, decide_lt_eq]
  · simp [sectionKind, request, badField, sectionFieldKnown]

end Sys2Proof.Machine
end

