-- ==== Sys2Proof/Proofs/Staged.lean ====
section
/-! PROOFS. What is staged of a record that the field checks pass (R117 to R119): its altered fields, and each record as
its bytes give it. -/

namespace Sys2Proof.Machine

/-- The field checks refuse nothing of a record (R116). -/
def fieldsPass (k : SectionKind) (body : List Byte) : Prop := ∀ f < fieldCount k, badField k body f = false

theorem fieldsPass_of_known {sec : Section} {body : List Byte}
    (known : ∀ f < sectionFields sec, sectionFieldKnown sec body f = true) : fieldsPass (sectionKind sec) body := by
  intro f inRecord
  rw [fieldCount_sectionKind] at inRecord
  rw [badField_sectionKind, known f inRecord, Bool.not_true]

/-! ### The partner entries (R118) -/

theorem partnerEntries_getD (body : List Byte) (i : Fin 6) :
    (partnerEntries body).getD i none = optAt 24 body (9 + i) := by
  simp [partnerEntries]

theorem partner_absent_iff (body : List Byte) (i : Fin 6) :
    (partnerEntries body).getD i none = none ↔ sectionByte body (11 + i) = 255 := by
  rw [partnerEntries_getD, sectionByte_eq body (i := 9 + i) (by omega)]
  exact optAt_eq_none_iff body (9 + i)

theorem keepsPartners_unique {own : Line} {body : List Byte} {kept other : Fin 6 → Bool}
    (h : keepsPartners own body kept) (h' : keepsPartners own body other) : kept = other := by
  funext i
  induction i using WellFoundedLT.induction with
  | ind i before =>
    have sameCount : (Finset.univ.filter fun j : Fin 6 => j < i ∧ kept j = true) =
        Finset.univ.filter fun j : Fin 6 => j < i ∧ other j = true :=
      Finset.filter_congr fun j _ => and_congr_right fun lower => by rw [before j lower]
    rw [Bool.eq_iff_iff, h i, h' i, sameCount]
    refine and_congr_right fun _ => and_congr_right fun _ => and_congr_left fun _ => ?_
    exact forall₂_congr fun j lower => by rw [before j lower]

theorem count_eq_card_lower (p : Nat → Prop) [DecidablePred p] {n : Nat} (i : Fin n) :
    Nat.count p i = (Finset.univ.filter fun j : Fin n => j < i ∧ p j).card := by
  rw [Nat.count_eq_card_filter_range, ← Finset.card_map Fin.valEmbedding]
  congr 1
  ext m
  simp only [Finset.mem_filter, Finset.mem_range, Finset.mem_map, Finset.mem_univ, true_and, Fin.valEmbedding_apply]
  constructor
  · rintro ⟨lower, holds⟩
    exact ⟨⟨m, lower.trans i.isLt⟩, ⟨lower, holds⟩, rfl⟩
  · rintro ⟨j, ⟨lower, holds⟩, rfl⟩
    exact ⟨lower, holds⟩

section
variable {own : Line} {body : List Byte} (pass : fieldsPass (.line own) body)
include pass

theorem fieldsPass_partner (i : Fin 6) : badOpt 24 (byteAt body (9 + i)) = false := by
  have field : 9 + i.val < 15 := by omega
  have later : ¬(9 + i.val = 0 ∨ 9 + i.val = 1 ∨ 9 + i.val < 8 ∨ 9 + i.val = 8) := by omega
  simp only [not_or] at later
  simpa [badField, badLineField, later] using pass (9 + i) field

theorem partner_named_iff (i : Fin 6) (l : Line) :
    (partnerEntries body).getD i none = some l ↔ sectionByte body (11 + i) = l.val := by
  rw [partnerEntries_getD, sectionByte_eq body (i := 9 + i) (by omega)]
  exact optAt_eq_some_iff (by decide) (fieldsPass_partner pass i) l

/-- The entries kept are those that R118 says. -/
theorem keepsPartners_keepsEntry : keepsPartners own body fun i => keepsEntry own (partnerEntries body) i := by
  intro i
  have room_iff := length_keptPartners_take own (partnerEntries body) i
  rw [count_eq_card_lower] at room_iff
  rw [keepsEntry_iff, room_iff]
  constructor
  · rintro ⟨l, named, notOwn, fresh, room⟩
    have entry := (partner_named_iff pass i l).mp named
    refine ⟨fun absent => absurd (entry.symm.trans absent) (by omega),
      fun same => notOwn (Fin.ext (entry.symm.trans same)), fun j lower keeps same => ?_, room⟩
    have namedToo := (partner_named_iff pass j l).mpr (same.trans entry)
    exact fresh ((mem_keptPartners_take_iff_kept own _ i l).mpr ⟨j, lower, keeps, namedToo⟩)
  · rintro ⟨present, notOwn, fresh, room⟩
    obtain ⟨l, named⟩ := Option.ne_none_iff_exists'.mp (mt (partner_absent_iff body i).mp present)
    have entry := (partner_named_iff pass i l).mp named
    refine ⟨l, named, fun same => notOwn (same ▸ entry), fun seen => ?_, room⟩
    obtain ⟨j, lower, keeps, namedToo⟩ := (mem_keptPartners_take_iff_kept own _ i l).mp seen
    have inList : j < 6 := lower.trans i.isLt
    exact fresh ⟨j, inList⟩ lower keeps (((partner_named_iff pass ⟨j, inList⟩ l).mp namedToo).trans entry.symm)

theorem mem_linePlanOf_partners (l : Line) :
    l ∈ (linePlanOf own body).partners ↔
      ∃ i : Fin 6, keepsEntry own (partnerEntries body) i = true ∧ sectionByte body (11 + i) = l.val := by
  rw [linePlanOf_partners, mem_ascending, mem_keptPartners_take_iff_kept]
  constructor
  · rintro ⟨i, inList, keeps, named⟩
    exact ⟨⟨i, inList⟩, keeps, (partner_named_iff pass ⟨i, inList⟩ l).mp named⟩
  · rintro ⟨i, keeps, entry⟩
    exact ⟨i, i.isLt, keeps, (partner_named_iff pass i l).mpr entry⟩

end

/-! ### The altered fields (R117 to R119) -/

section
variable {sec : Section} {body : List Byte}

theorem sectionAltered_line {own : Line} (h : sec.val = own.val) (pass : fieldsPass (.line own) body) (f : Nat) :
    sectionAltered sec body f ↔
      ∃ i : Fin 6, f = 9 + i.val ∧ sectionByte body (11 + i) ≠ 255 ∧
        keepsEntry own (partnerEntries body) i = false := by
  have line : sec.val < 24 := h ▸ own.isLt
  constructor
  · rintro (⟨other, kept, i, same, keeps, place, present, dropped⟩ | ⟨screening, -⟩ | ⟨timing, -⟩)
    · obtain rfl : other = own := Fin.ext (same.symm.trans h)
      rw [keepsPartners_unique keeps (keepsPartners_keepsEntry pass)] at dropped
      exact ⟨i, place, present, dropped⟩
    · omega
    · omega
  · rintro ⟨i, place, present, dropped⟩
    exact .inl ⟨own, _, i, h, keepsPartners_keepsEntry pass, place, present, dropped⟩

theorem alteredField_line {own : Line} (h : sec.val = own.val) (pass : fieldsPass (.line own) body) (f : Nat) :
    alteredField (.line own) body f = true ↔ sectionAltered sec body f := by
  rw [sectionAltered_line h pass]
  simp only [alteredField, Bool.and_eq_true, decide_eq_true_eq, droppedPartner_iff]
  constructor
  · rintro ⟨entry, present, dropped⟩
    have inList : f - 9 < 6 := by
      by_contra beyond
      exact present (List.getD_eq_default _ _ (by rw [partnerEntries_length]; omega))
    have named := mt (partner_absent_iff body ⟨f - 9, inList⟩).mpr present
    exact ⟨⟨f - 9, inList⟩, (Nat.add_sub_cancel' entry).symm, named, dropped⟩
  · rintro ⟨i, rfl, present, dropped⟩
    rw [Nat.add_sub_cancel_left]
    exact ⟨Nat.le_add_right 9 i, mt (partner_absent_iff body i).mp present, dropped⟩

theorem clampTo_ne_iff {low high : Nat} (h : low ≤ high) (v : Nat) : clampTo low high v ≠ v ↔ v < low ∨ high < v := by
  unfold clampTo
  omega

theorem sectionAltered_screening (h : sec.val = 27) (f : Nat) :
    sectionAltered sec body f ↔ f = 9 ∧ (byteAt body 9 < 1 ∨ 4 < byteAt body 9) := by
  have notLine (own : Line) : ¬27 = own.val := by omega
  simp [sectionAltered, h, notLine, sectionByte_eq body (Nat.add_comm 2 9)]

theorem alteredField_screening (h : sec.val = 27) (f : Nat) :
    alteredField .screening body f = true ↔ sectionAltered sec body f := by
  rw [sectionAltered_screening h, ← clampTo_ne_iff (by decide)]
  simp [alteredField]

theorem sectionAltered_timing (h : sec.val = 29) (f : Nat) :
    sectionAltered sec body f ↔
      f < 7 ∧ (wordAt body (2 * f) < (timingRange f).1 ∨ (timingRange f).2 < wordAt body (2 * f)) := by
  have notLine (own : Line) : ¬29 = own.val := by omega
  have word := wordAt_lt body (2 * f)
  by_cases inRecord : f < 7
  · simp only [sectionAltered, h, sectionWord_eq body (Nat.add_comm 2 (2 * f))]
    generalize wordAt body (2 * f) = v at word ⊢
    interval_cases f <;> simp [notLine, timingRange] <;> omega
  · have outside : f ≠ 0 ∧ f ≠ 1 ∧ f ≠ 2 ∧ f ≠ 4 ∧ f ≠ 5 ∧ f ≠ 6 := by omega
    simp [sectionAltered, h, notLine, inRecord, outside]

theorem timingRange_le (f : Nat) : (timingRange f).1 ≤ (timingRange f).2 := by
  unfold timingRange
  split <;> decide

theorem alteredField_timing (h : sec.val = 29) (f : Nat) :
    f < 7 ∧ alteredField .timing body f = true ↔ sectionAltered sec body f := by
  rw [sectionAltered_timing h, ← clampTo_ne_iff (timingRange_le f)]
  exact and_congr_right fun _ => decide_eq_true_iff

theorem not_sectionAltered (h : 24 ≤ sec.val) (notScreening : sec.val ≠ 27) (notTiming : sec.val ≠ 29) (f : Nat) :
    ¬sectionAltered sec body f := by
  rintro (⟨own, kept, i, same, -⟩ | ⟨screening, -⟩ | ⟨timing, -⟩)
  · omega
  · exact notScreening screening
  · exact notTiming timing

/-- The fields of a record that its staging alters are those that R117 to R119 say. -/
theorem alteredField_sectionKind (pass : fieldsPass (sectionKind sec) body) (f : Nat) :
    f < sectionFields sec ∧ alteredField (sectionKind sec) body f = true ↔ sectionAltered sec body f := by
  rw [← fieldCount_sectionKind]
  obtain ⟨own, line⟩ | sources | routes | codes | screening | studio | timing | lanes | request := section_cases sec
  · rw [sectionKind_line line] at pass ⊢
    rw [alteredField_line line pass, sectionAltered_line line pass, and_iff_right_iff_imp]
    rintro ⟨i, rfl, -⟩
    exact Nat.add_lt_add_left i.isLt 9
  · simp [sectionKind, sources, alteredField, not_sectionAltered]
  · simp [sectionKind, routes, alteredField, not_sectionAltered]
  · simp [sectionKind, codes, alteredField, not_sectionAltered]
  · rw [sectionKind_screening screening, alteredField_screening screening, sectionAltered_screening screening,
      and_iff_right_iff_imp]
    rintro ⟨rfl, -⟩
    decide
  · simp [sectionKind, studio, alteredField, not_sectionAltered]
  · rw [sectionKind_timing timing]
    exact alteredField_timing timing f
  · simp [sectionKind, lanes, alteredField, not_sectionAltered]
  · simp [sectionKind, request, alteredField, not_sectionAltered]

end

/-! ### The staged records (R106, R166 to R168) -/

section
variable {body : List Byte}

theorem sectionPlan_linePlanOf {own : Line} (pass : fieldsPass (.line own) body) :
    sectionPlan own body (linePlanOf own body) := by
  have arg : (byteAt body 0 = 2 → byteAt body 1 ≤ 2) ∧ (byteAt body 0 = 5 → byteAt body 1 ≤ 3) := by
    simpa [badField, badLineField] using pass 1 (by simp [fieldCount])
  have threshold : byteAt body 8 ≤ 8 := by simpa [badField, badLineField] using pass 8 (by simp [fieldCount])
  obtain ⟨position, group⟩ := arg
  refine ⟨fun h => ?_, fun h => ?_, fun h => ?_, fun h => ?_, fun h => ?_, fun h => ?_, gainAt_val body 2,
    gainAt_val body 3, gainAt_val body 4, gainAt_val body 5, gainAt_val body 6, gainAt_val body 7,
    val_ofNat_of_lt (Nat.lt_succ_of_le threshold), ascending_pairwise _, _, keepsPartners_keepsEntry pass,
    mem_linePlanOf_partners pass⟩
  all_goals rw [sectionByte_eq body (i := 0) rfl] at h
  · simp [linePlanOf, roleOf, h]
  · simp [linePlanOf, roleOf, h]
  · exact ⟨Fin.ofNat 3 (byteAt body 1), by simp [linePlanOf, roleOf, h],
      val_ofNat_of_lt (Nat.lt_succ_of_le (position h))⟩
  · simp [linePlanOf, roleOf, h]
  · simp [linePlanOf, roleOf, h]
  · exact ⟨Fin.ofNat 4 (byteAt body 1), by simp [linePlanOf, roleOf, h],
      val_ofNat_of_lt (Nat.lt_succ_of_le (group h))⟩

/-- The numbers of a route entry that the field checks pass (R116, R168). -/
theorem routeFields_known (pass : fieldsPass .routes body) (r : Route) :
    let v := fun c => byteAt body (9 * r.val + c)
    v 1 ≤ 15 ∧ v 2 ≤ 15 ∧ (v 3 = 0 → v 4 ≤ 23) ∧ (v 3 = 1 → v 4 ≤ 3) ∧ (v 3 = 3 → v 4 ≤ 2) ∧ v 5 ≤ 7 := by
  intro v
  have field (c : Nat) (inEntry : c < 9) : badRouteField body (9 * r.val + c) = false :=
    pass _ (by simp only [fieldCount]; omega)
  have number : ((v 3 = 0 → v 4 ≤ 23) ∧ (v 3 = 1 → v 4 ≤ 3)) ∧ (v 3 = 3 → v 4 ≤ 2) := by
    simpa [badRouteField, v] using field 4 (by decide)
  obtain ⟨⟨line, group⟩, position⟩ := number
  refine ⟨?_, ?_, line, group, position, ?_⟩
  · simpa [badRouteField] using field 1 (by decide)
  · simpa [badRouteField] using field 2 (by decide)
  · simpa [badRouteField] using field 5 (by decide)

theorem sectionRoute_routeEntryOf (pass : fieldsPass .routes body) (r : Route) :
    sectionRoute body (2 + 9 * r.val) (routeEntryOf body r.val) := by
  have place (c : Nat) : sectionByte body (2 + 9 * r.val + c) = byteAt body (9 * r.val + c) :=
    sectionByte_eq body (by omega)
  obtain ⟨talker, key, line, group, position, priority⟩ := routeFields_known pass r
  simp only [sectionRoute, place]
  refine ⟨decide_eq_true_iff, val_ofNat_of_lt (Nat.lt_succ_of_le talker), val_ofNat_of_lt (Nat.lt_succ_of_le key),
    fun h => ⟨Fin.ofNat 24 (byteAt body (9 * r.val + 4)), ?_, val_ofNat_of_lt (Nat.lt_succ_of_le (line h))⟩,
    fun h => ⟨Fin.ofNat 4 (byteAt body (9 * r.val + 4)), ?_, val_ofNat_of_lt (Nat.lt_succ_of_le (group h))⟩,
    fun h => ?_,
    fun h => ⟨Fin.ofNat 3 (byteAt body (9 * r.val + 4)), ?_, val_ofNat_of_lt (Nat.lt_succ_of_le (position h))⟩,
    fun h => ?_, val_ofNat_of_lt (Nat.lt_succ_of_le priority), val_ofNat_of_lt (byteAt_lt ..),
    val_ofNat_of_lt (byteAt_lt ..), rfl⟩
  all_goals simp [routeEntryOf, targetOf, h]

theorem sectionCode_codeEntryOf (e : Nat) :
    let c := sectionByte body (2 + 2 * e)
    let x := codeEntryOf body e
    (c = 0 → x.condition = none) ∧ (c = 1 → x.condition = some .connected) ∧
      (c = 2 → x.condition = some .disconnected) ∧ (c = 3 → x.condition = some .alerting) ∧
      (x.notify = true ↔ sectionByte body (3 + 2 * e) = 1) := by
  intro c x
  have code : c = byteAt body (2 * e) := sectionByte_eq body (by omega)
  have notify : sectionByte body (3 + 2 * e) = byteAt body (2 * e + 1) := sectionByte_eq body (by omega)
  rw [code, notify]
  refine ⟨fun h => ?_, fun h => ?_, fun h => ?_, fun h => ?_, decide_eq_true_iff⟩
  all_goals simp [x, codeEntryOf, conditionOf, h]

/-- The talkers, lines and positions that a screening table names are numbers or NONE (R116, R168). -/
theorem screeningFields_known (pass : fieldsPass .screening body) :
    (∀ p : Position, badOpt 16 (byteAt body (3 * p.val)) = false ∧ badOpt 24 (byteAt body (3 * p.val + 1)) = false) ∧
      ∀ e : Fin 16, badOpt 3 (byteAt body (10 + e.val)) = false := by
  have field (f : Nat) (inRecord : f < 26) : badScreeningField body f = false := pass f inRecord
  refine ⟨fun p => ⟨?_, ?_⟩, fun e => ?_⟩
  · have position : 3 * p.val < 9 := by omega
    simpa [badScreeningField, position] using field (3 * p.val) (by omega)
  · have position : 3 * p.val + 1 < 9 := by omega
    simpa [badScreeningField, position, Nat.mul_add_mod] using field (3 * p.val + 1) (by omega)
  · have spread : ¬10 + e.val < 9 ∧ ¬10 + e.val = 9 := by omega
    simpa [badScreeningField, spread] using field (10 + e.val) (by omega)

theorem timingOf_clamped :
    let clamped := fun low high offset : Nat => max low (min high (sectionWord body offset))
    timingOf body =
      { mainBlocks := clamped 1 16 2, cueBlocks := clamped 1 16 4, lossHoldoff := clamped 1 65535 6
        shadowMargin := sectionWord body 8, settle := clamped 1 16 10, laneLoss := clamped 1 65535 12
        reportPeriod := clamped 1 1000 14 } := by
  have margin : timingField body 3 = sectionWord body 8 := by
    have word := wordAt_lt body (2 * 3)
    rw [sectionWord_eq body (i := 2 * 3) rfl, timingField, timingRange, clampTo]
    omega
  intro clamped
  rw [timingOf, margin]
  rfl

theorem sectionSetup_laneSetupOf {offset e : Nat} (place : offset = 3 * e + 2) :
    sectionSetup body (laneSetupOf body e) offset := by
  unfold sectionSetup
  rw [sectionByte_eq body place, sectionByte_eq body (i := 3 * e + 1) (by omega),
    sectionByte_eq body (i := 3 * e + 2) (by omega)]
  exact ⟨decide_eq_true_iff, rfl, rfl⟩

end

theorem Staging.enter_joined (g : Staging) {sec : Section} {body : List Byte}
    (pass : fieldsPass (sectionKind sec) body) :
    g.joined (g.enter (sectionKind sec) body) sec body := by
  refine ⟨fun own h => ?_, fun h => ?_, fun h => ?_, fun h => ?_, fun h => ?_, fun h => ?_, fun h => ?_, fun h => ?_,
    fun h => ?_⟩
  · rw [sectionKind_line h] at pass ⊢
    exact ⟨_, rfl, sectionPlan_linePlanOf pass⟩
  · rw [sectionKind_sources h] at pass ⊢
    refine ⟨_, rfl, fun i => ?_, ?_⟩
    · simp [sourceTableOf, sectionByte_eq body (Nat.add_comm 2 i.val)]
    · have feed : byteAt body 16 ≤ 15 := by simpa [badField] using pass 16 (by decide)
      exact val_ofNat_of_lt (Nat.lt_succ_of_le feed)
  · rw [sectionKind_routes h] at pass ⊢
    refine ⟨_, rfl, fun r => ?_⟩
    simpa using sectionRoute_routeEntryOf pass r
  · rw [sectionKind_codes h]
    refine ⟨_, rfl, fun e => ?_⟩
    simpa using sectionCode_codeEntryOf e.val
  · rw [sectionKind_screening h] at pass ⊢
    obtain ⟨positions, spread⟩ := screeningFields_known pass
    refine ⟨_, rfl, rfl, fun p => ?_, fun e => ?_⟩
    · obtain ⟨talker, selected⟩ := positions p
      simp only [screeningTableOf, Fin.getElem_fin, Vector.getElem_ofFn, gainAt_val]
      exact ⟨sectionNames_optAt (by decide) (by omega) talker, sectionNames_optAt (by decide) (by omega) selected,
        (sectionByte_eq body (by omega)).symm⟩
    · simpa [screeningTableOf] using sectionNames_optAt (by decide) (by omega) (spread e)
  · rw [sectionKind_studio h]
    refine ⟨_, rfl, rfl, fun k => ?_⟩
    simp [studioStateOf, sectionByte_eq body (Nat.add_comm 2 k.val)]
  · rw [sectionKind_timing h, Staging.enter, timingOf_clamped]
  · rw [sectionKind_lanes h]
    refine ⟨_, rfl, fun i => ?_, fun o => ?_⟩
    · simpa [laneSetupsOf] using sectionSetup_laneSetupOf (by omega)
    · simpa [laneSetupsOf] using sectionSetup_laneSetupOf (by omega)
  · rw [sectionKind_request h]
    rfl

end Sys2Proof.Machine
end

