-- ==== Sys2Proof/Proofs/Judging.lean ====
section
/-! PROOFS. The judging of a section whose three reads have succeeded (R112, R115, R116, R119, R120): the verdict, the
record staged, and where the fetch moves on. -/

namespace Sys2Proof.Machine

/-! ### The end of a fetch (R112, R120) -/

theorem nextTaken_eq_none_iff (taken : Word32) (least : Nat) :
    nextTaken taken least = none ↔ ∀ n : Section, least ≤ n.val → taken.getLsbD n.val = false := by
  simp [nextTaken]

theorem nextTaken_eq_some_iff (taken : Word32) (least : Nat) (n : Section) :
    nextTaken taken least = some n ↔
      least ≤ n.val ∧ taken.getLsbD n.val = true ∧
        ∀ m : Section, least ≤ m.val → m < n → taken.getLsbD m.val = false := by
  rw [nextTaken, ← Fin.find?_eq_find?_finRange, Fin.find?_eq_some_iff]
  simp only [Bool.and_eq_true, decide_eq_true_eq, Bool.and_eq_false_imp, and_assoc]
  exact and_congr_right fun _ => and_congr_right fun _ => forall_congr' fun m => forall_comm

section
variable (i : Intake) (sec : Section) (v : Verdict) (edition : BitVec 16) (field : Option Nat)

@[simp] theorem Intake.close_staging : (i.close sec v edition field).staging = i.staging := by
  unfold Intake.close Intake.moveOn
  simp only []
  split
  · rfl
  · split <;> rfl

theorem Intake.close_last (last : nextTaken i.taken (sec.val + 1) = none) :
    i.close sec v edition field =
      { i.enter sec v edition field with head := none, record := none, phase := .ready, position := none } := by
  simp [Intake.close, Intake.moveOn, Intake.enter, last]

theorem Intake.close_next {n : Section} (next : nextTaken i.taken (sec.val + 1) = some n) :
    i.close sec v edition field =
      let t := { i.enter sec v edition field with head := none, record := none }
      if n = 31 then t.request else { t with position := some n } := by
  simp [Intake.close, Intake.moveOn, Intake.enter, next]

theorem Intake.close_endsFetch :
    i.endsFetch (i.close sec v edition field) sec
      { sec := sec, verdict := v, edition := edition, field := field, number := i.number } := by
  cases next : nextTaken i.taken (sec.val + 1) with
  | none =>
    have none_left := (nextTaken_eq_none_iff i.taken (sec.val + 1)).mp next
    rw [i.close_last sec v edition field next]
    refine ⟨rfl, rfl, rfl, rfl, fun _ => ⟨rfl, rfl, rfl, rfl⟩, fun n ⟨above, taken, _⟩ => ?_⟩
    exact (Bool.false_ne_true ((none_left n above).symm.trans taken)).elim
  | some n =>
    obtain ⟨above, taken, -⟩ := (nextTaken_eq_some_iff i.taken (sec.val + 1) n).mp next
    have only (m : Section) (h : sec < m ∧ i.taken.getLsbD m.val = true ∧
        ∀ k : Section, sec < k → k < m → i.taken.getLsbD k.val = false) : m = n :=
      Option.some.inj (((nextTaken_eq_some_iff i.taken (sec.val + 1) m).mpr h).symm.trans next)
    rw [i.close_next sec v edition field next]
    by_cases request : n = 31
    · subst request
      refine ⟨rfl, rfl, rfl, rfl, fun left => ?_, fun m h => ?_⟩
      · exact (Bool.false_ne_true ((left 31 above).symm.trans taken)).elim
      · obtain rfl := only m h
        exact ⟨fun fetched => absurd fetched (by decide), fun _ => ⟨rfl, rfl, rfl, rfl⟩⟩
    · have below : n.val ≠ 31 := fun h => request (Fin.ext h)
      simp only [if_neg request]
      refine ⟨rfl, rfl, rfl, rfl, fun left => ?_, fun m h => ?_⟩
      · exact (Bool.false_ne_true ((left n above).symm.trans taken)).elim
      · obtain rfl := only m h
        exact ⟨fun _ => ⟨rfl, rfl, rfl, rfl⟩, fun last => absurd last below⟩

end

/-! ### The first field refused and the first altered (R116, R119) -/

section
variable {sec : Section} {body : List Byte}

theorem firstBad_eq_some {f : Nat} (inRecord : f < sectionFields sec) (bad : sectionFieldKnown sec body f = false)
    (first : ∀ e < f, sectionFieldKnown sec body e = true) : firstBad (sectionKind sec) body = some f := by
  rw [firstBad, List.find?_range_eq_some, fieldCount_sectionKind]
  refine ⟨?_, List.mem_range.mpr inRecord, fun e before => ?_⟩
  · rw [badField_sectionKind, bad, Bool.not_false]
  · rw [badField_sectionKind, first e before, Bool.not_true, Bool.not_false]

theorem firstBad_eq_none {k : SectionKind} (pass : fieldsPass k body) : firstBad k body = none := by
  rw [firstBad, List.find?_range_eq_none]
  exact fun f inRecord => by rw [pass f inRecord, Bool.not_false]

theorem sectionAltered_of_firstAltered (pass : fieldsPass (sectionKind sec) body) {f : Nat}
    (h : firstAltered (sectionKind sec) body = some f) :
    sectionAltered sec body f ∧ ∀ e < f, ¬sectionAltered sec body e := by
  rw [firstAltered, List.find?_range_eq_some, List.mem_range, fieldCount_sectionKind] at h
  obtain ⟨altered, inRecord, first⟩ := h
  refine ⟨(alteredField_sectionKind pass f).mp ⟨inRecord, altered⟩, fun e before alteredE => ?_⟩
  obtain ⟨-, atE⟩ := (alteredField_sectionKind pass e).mpr alteredE
  simpa [atE] using first e before

theorem not_sectionAltered_of_firstAltered (pass : fieldsPass (sectionKind sec) body)
    (h : firstAltered (sectionKind sec) body = none) (f : Nat) : ¬sectionAltered sec body f := by
  rw [firstAltered, List.find?_range_eq_none, fieldCount_sectionKind] at h
  intro altered
  obtain ⟨inRecord, atF⟩ := (alteredField_sectionKind pass f).mpr altered
  simpa [atF] using h f inRecord

end

/-! ### The verdict (R115, R116, R119) -/

section
variable (i : Intake) {sec : Section} {tail head : BitVec 16} {body : List Byte}
  (heldHead : i.head = some head) (heldRecord : i.record = some body)
include heldHead

theorem Intake.judge_torn (differ : head ≠ tail) : i.judge sec tail = i.close sec .torn head none := by
  simp [Intake.judge, Intake.editionSeen, heldHead, differ]

include heldRecord

theorem Intake.judge_range (same : head = tail) {f : Nat} (bad : firstBad (sectionKind sec) body = some f) :
    i.judge sec tail = i.close sec .range head (some f) := by
  simp [Intake.judge, Intake.editionSeen, heldHead, heldRecord, same, bad]

theorem Intake.judge_accepted (same : head = tail) (pass : fieldsPass (sectionKind sec) body) :
    i.judge sec tail =
      ({ i with staging := i.staging.enter (sectionKind sec) body } : Intake).close sec .accepted head
        (firstAltered (sectionKind sec) body) := by
  simp [Intake.judge, Intake.editionSeen, heldHead, heldRecord, same, firstBad_eq_none pass]

end

/-! ### The tail read that returns (R107, R114) -/

/-- A stamp is held least significant byte first (R164). -/
theorem stampOf_pair (a b : Byte) : stampOf [a, b] = b ++ a := by
  have low := a.isLt
  have high := b.isLt
  have joined : (b ++ a).toNat = a.toNat + 256 * b.toNat := by
    rw [BitVec.toNat_append, ← Nat.shiftLeft_add_eq_or_of_lt low, Nat.shiftLeft_eq]
    omega
  refine BitVec.eq_of_toNat_eq (Eq.trans ?_ joined.symm)
  simp only [stampOf, wordAt, byteAt, List.getD_cons_zero, List.getD_cons_succ, BitVec.toNat_ofNat]
  omega

/-- The two bytes of a tail read judge the section, and nothing but INTAKE and the read changes. -/
theorem exec_readCompletion_tail {s : State} {sec : Section} {r : PlanRead} (a b : Byte)
    (position : s.intake.position = some sec) (read : s.link.read = some r) (step : r.step = .tail)
    (length : r.length = 2) :
    exec (.readCompletion r.id (.data [a, b])) s =
      .next { s with intake := s.intake.judge sec (b ++ a), link := { s.link with read := none } } := by
  rw [← stampOf_pair]
  simp [exec, execReadCompletion, State.completeRead, State.readDone, readData, position, read, step, length]

end Sys2Proof.Machine

open Sys2Proof Sys2Proof.Machine

/-- Settles O45: the tail read judges the section, and each of the three verdicts closes the fetch. -/
theorem sectionJudged : Obligations.SectionJudged := by
  unfold Obligations.SectionJudged
  intro s sec r a b head body position read step length heldHead heldRecord
  refine ⟨_, exec_readCompletion_tail a b position read step length, rfl, fun differ => ?_,
    fun same f inRecord bad first => ?_, fun same known => ?_⟩
  · simp only [s.intake.judge_torn heldHead differ]
    exact ⟨s.intake.close_endsFetch .., s.intake.close_staging ..⟩
  · simp only [s.intake.judge_range heldHead heldRecord same (firstBad_eq_some inRecord bad first)]
    exact ⟨s.intake.close_endsFetch .., s.intake.close_staging ..⟩
  · have pass := fieldsPass_of_known known
    simp only [s.intake.judge_accepted heldHead heldRecord same pass]
    refine ⟨_, fun f => sectionAltered_of_firstAltered pass, not_sectionAltered_of_firstAltered pass,
      Intake.close_endsFetch .., ?_⟩
    rw [Intake.close_staging]
    exact s.intake.staging.enter_joined pass

end

