-- ==== Sys2Proof/Proofs/WindowWrites.lean ====
section
/-! PROOFS. A write of a window register (R153, R154, R171): its value bit by bit, what it leaves of LINK, and its refusal
while the engine is not STOPPED. -/

namespace Sys2Proof.Machine

/-! ### The value written (R153, R171) -/

theorem windowMask_getLsbD (i : Nat) : (0xFFFFFFFFFFFFF000#64).getLsbD i = (decide (12 ≤ i) && decide (i < 64)) := by
  rw [show 0xFFFFFFFFFFFFF000#64 = BitVec.allOnes 64 <<< 12 by decide, BitVec.getLsbD_shiftLeft,
    BitVec.getLsbD_allOnes]
  grind

theorem alignedWindow_getLsbD (v : Word64) (i : Nat) :
    (alignedWindow v).getLsbD i = (decide (12 ≤ i) && v.getLsbD i) := by
  have top : v.getLsbD i = true → i < 64 := BitVec.lt_of_getLsbD
  rw [alignedWindow, BitVec.getLsbD_and, windowMask_getLsbD]
  grind

/-- The bits of a window register's value before its low 12 are discarded: those written, and those that stood in the half
that a 32-bit write does not reach. -/
def windowBit (old : Word64) (i : Nat) : WindowData → Bool
  | .whole v => v.getLsbD i
  | .low v => if i < 32 then v.getLsbD i else old.getLsbD i
  | .high v => if i < 32 then old.getLsbD i else v.getLsbD (i - 32)

theorem windowValue_getLsbD (old : Word64) (data : WindowData) (i : Nat) :
    (windowValue old data).getLsbD i = (decide (12 ≤ i) && windowBit old i data) := by
  cases data with
  | whole v => exact alignedWindow_getLsbD v i
  | low v =>
    have top : old.getLsbD i = true → i < 64 := BitVec.lt_of_getLsbD
    simp only [windowValue, windowBit, alignedWindow_getLsbD, BitVec.getLsbD_append, BitVec.getLsbD_extractLsb']
    grind
  | high v =>
    simp only [windowValue, windowBit, alignedWindow_getLsbD, BitVec.getLsbD_append, BitVec.getLsbD_extractLsb']
    grind

/-! ### A window register set -/

theorem Link.setWindow_window (k : Link) (r : WindowReg) (v : Word64) :
    (k.setWindow r v).window = Function.update k.window r v := by
  funext q
  cases r <;> cases q <;> rfl

/-- Setting a window register reaches the four window registers alone. -/
theorem Link.setWindow_eq (k : Link) (r : WindowReg) (v : Word64) :
    k.setWindow r v =
      { k with planBase := (k.setWindow r v).planBase, planEnd := (k.setWindow r v).planEnd
               reportBase := (k.setWindow r v).reportBase, reportEnd := (k.setWindow r v).reportEnd } := by
  cases r <;> rfl

theorem Link.setWindow_engine (k : Link) (r : WindowReg) (v : Word64) :
    (k.setWindow r v).engine = k.engine := by
  cases r <;> rfl

/-! ### A window register written (R154) -/

theorem Link.writeWindow_stopped {k : Link} (stopped : k.engine = .stopped) (r : WindowReg) (data : WindowData) :
    k.writeWindow r data = k.setWindow r (windowValue (k.window r) data) :=
  if_pos stopped

theorem Link.writeWindow_running {k : Link} (running : k.engine ≠ .stopped) (r : WindowReg) (data : WindowData) :
    k.writeWindow r data = k.raise noticeRefused :=
  if_neg running

theorem Link.writeWindow_engine (k : Link) (r : WindowReg) (data : WindowData) :
    (k.writeWindow r data).engine = k.engine := by
  by_cases stopped : k.engine = .stopped
  · rw [k.writeWindow_stopped stopped, setWindow_engine]
  · rw [k.writeWindow_running stopped, raise_engine]

theorem exec_windowRegisterWrite {s : State} (placed : s.link.placement.isSome = true) (r : WindowReg)
    (data : WindowData) :
    exec (.windowRegisterWrite r data) s = .next { s with link := s.link.writeWindow r data } :=
  congrArg Host.Outcome.next (if_pos placed)

end Sys2Proof.Machine
end

