-- ==== Sys2Proof/Proofs/WindowFrame.lean ====
section
/-! PROOFS. What leaves the window registers (R154): every operation but a reset and a window register's own write, as
one lemma each over the four registers together. -/

namespace Sys2Proof.Machine

/-! ### LINK -/

section
variable (k : Link)

@[simp] theorem Link.raise_window (b : Word32) : (k.raise b).window = k.window := by
  rw [k.raise_eq]; rfl
@[simp] theorem Link.answerWrite_window (e : Bool) : (k.answerWrite e).window = k.window := by
  rw [k.answerWrite_eq]; rfl
@[simp] theorem Link.countMiss_window : k.countMiss.window = k.window := raise_window ..
@[simp] theorem Link.writePost_window (bits : Word32) : (k.writePost bits).window = k.window := rfl
@[simp] theorem Link.writeNotice_window (bits : Word32) (e : Bool) : (k.writeNotice bits e).window = k.window :=
  answerWrite_window ..
@[simp] theorem Link.writeMask_window (mask : Word32) (e : Bool) : (k.writeMask mask e).window = k.window :=
  answerWrite_window ..
@[simp] theorem Link.dropRead_window : k.dropRead.window = k.window := by
  unfold Link.dropRead; split <;> rfl
@[simp] theorem Link.engineTick_window : k.engineTick.window = k.window := by
  unfold Link.engineTick; split <;> rfl
@[simp] theorem Link.configure_window (a : ConfigAccess) : (k.configure a).window = k.window := by
  cases a <;> rfl

theorem Link.writeWindow_window {k : Link} (running : k.engine ≠ .stopped) (r : WindowReg) (data : WindowData) :
    (k.writeWindow r data).window = k.window := by
  rw [k.writeWindow_running running, raise_window]

end

/-! ### Notices and the engine -/

section
variable (s : State)

@[simp] theorem State.raise_window (b : Word32) : (s.raise b).link.window = s.link.window := s.link.raise_window b
@[simp] theorem State.countMiss_window : s.countMiss.link.window = s.link.window := s.link.countMiss_window

@[simp] theorem State.drainCheck_window : s.drainCheck.link.window = s.link.window := by
  rcases s.drainCheck_cases with ⟨same, -⟩ | ⟨-, -, ends⟩
  · rw [same]
  · rw [ends]; exact Link.raise_window ..

@[simp] theorem State.clearEnable_window : s.clearEnable.link.window = s.link.window := by
  unfold State.clearEnable
  simp only []
  split
  · exact State.drainCheck_window _
  · rfl

@[simp] theorem State.writeEnable_window (on : Bool) : (s.writeEnable on).link.window = s.link.window := by
  cases on
  · exact s.clearEnable_window
  · rfl

@[simp] theorem State.setRef_window (r : RefMonitor) : (s.setRef r).link.window = s.link.window := by
  unfold State.setRef
  split
  · rfl
  · exact State.raise_window ..

/-! ### Records (R132, R139 to R141, R145, R159) -/

@[simp] theorem State.recordNotice_window (i : RoundRecord) (written : Bool) :
    (s.recordNotice i written).link.window = s.link.window := by
  unfold State.recordNotice
  split
  · rfl
  · split
    · exact s.raise_window _
    · split
      · exact s.raise_window _
      · rfl
    all_goals rfl

@[simp] theorem State.intakeDone_window : s.intakeDone.link.window = s.link.window := State.raise_window ..

@[simp] theorem State.verdictsDone_window : s.verdictsDone.link.window = s.link.window := by
  unfold State.verdictsDone
  split
  · rfl
  · exact s.intakeDone_window

@[simp] theorem State.metersComplete_window (r : Round) : (s.metersComplete r).link.window = s.link.window := by
  unfold State.metersComplete
  simp only []
  split <;> split <;> simp

@[simp] theorem State.roundEnd_window (r : Round) : (s.roundEnd r).link.window = s.link.window := by
  unfold State.roundEnd
  simp only []
  split
  · split <;> simp
  · rfl

@[simp] theorem State.finishRecord_window (r : Round) (i : RoundRecord) (written : Bool) :
    (s.finishRecord r i written).link.window = s.link.window := by
  unfold State.finishRecord
  simp only [State.drainCheck_window, State.roundEnd_window]
  split <;> split <;> simp

@[simp] theorem State.missRecord_window (r : Round) (i : RoundRecord) :
    (s.missRecord r i).link.window = s.link.window := by
  simp [State.missRecord]

@[simp] theorem State.missUnderway_window : s.missUnderway.link.window = s.link.window := by
  unfold State.missUnderway
  split
  · rfl
  · split
    · rfl
    · exact s.missRecord_window ..

@[simp] theorem State.withdraw_window : s.withdraw.link.window = s.link.window := by
  simp only [State.withdraw, missUnderway_window, clearEnable_window]
  rfl

theorem State.beginWrite_link (r : Round) (i : RoundRecord) (sent : PartSent) :
    (s.beginWrite r i sent).link = s.link := by
  cases sent <;> rfl

@[simp] theorem State.beginRecord_window (r : Round) (sent : PartSent) :
    (s.beginRecord r sent).link.window = s.link.window := by
  unfold State.beginRecord
  split
  · simp only []
    split
    · rw [beginWrite_link]
    · exact s.missRecord_window ..
  · rfl

theorem State.sendRest_link (u : Underway) : (s.sendRest u).link = s.link := by
  unfold State.sendRest; split <;> rfl

@[simp] theorem State.completeRecord_window (r : Round) : (s.completeRecord r).link.window = s.link.window := by
  unfold State.completeRecord
  split
  · rfl
  · rw [finishRecord_window, sendRest_link]

/-! ### Intakes and reads (R109, R112 to R115) -/

@[simp] theorem State.takePhase_window : s.takePhase.link.window = s.link.window := by
  unfold State.takePhase State.takeTick
  split
  · rfl
  · split <;> rfl

@[simp] theorem State.issueRead_window (sec : Section) (p : ReadStep) :
    (s.issueRead sec p).link.window = s.link.window := by
  unfold State.issueRead
  split <;> rfl

@[simp] theorem State.beginFetch_window (sec : Section) : (s.beginFetch sec).link.window = s.link.window := by
  unfold State.beginFetch
  split
  · rfl
  · split
    · exact s.issueRead_window ..
    · exact State.countMiss_window _

@[simp] theorem State.readDone_window (sec : Section) (p : ReadStep) (b : List Byte) :
    (s.readDone sec p b).link.window = s.link.window := by
  cases p with
  | head => exact State.issueRead_window ..
  | record => exact State.issueRead_window ..
  | tail => rfl

@[simp] theorem State.completeRead_window (r : PlanRead) (x : ReadResult) :
    (s.completeRead r x).link.window = s.link.window := by
  unfold State.completeRead
  simp only []
  split
  · rfl
  · split
    · exact State.readDone_window ..
    · rfl

@[simp] theorem State.timeoutRead_window : s.timeoutRead.link.window = s.link.window := by
  unfold State.timeoutRead
  simp only []
  split <;> exact s.link.dropRead_window

@[simp] theorem State.readTick_window : s.readTick.link.window = s.link.window := by
  rcases s.readTick_cases with ⟨-, same⟩ | ⟨r, -, ⟨-, ends⟩ | ⟨-, counts⟩⟩
  · rw [same]
  · rw [ends, timeoutRead_window]
  · rw [counts]; rfl

/-! ### The block tick (R14) -/

@[simp] theorem State.audioTick_window (pins : BitVec 16) : (s.audioTick pins).link.window = s.link.window := by
  simp [State.audioTick]

@[simp] theorem State.blockTick_window (pins : BitVec 16) (follows snapFirst : Bool) :
    (s.blockTick pins follows snapFirst).link.window = s.link.window := by
  simp [State.blockTick, State.tickEvents]

end

/-! ### A write at an offset (R150, R152) -/

/-- The commands of a word's write hold a soft reset where it is MCTL's with bit 2 set. -/
theorem softReset_mem_controlWrite {v : Word32} : .softReset ∈ controlWrite v ↔ v.getLsbD 2 = true := by
  unfold controlWrite
  split
  next reset => exact iff_of_true (List.mem_singleton_self _) reset
  next fields => exact iff_of_false (by simp) fields

/-- Only MCTL's word moves the engine. -/
theorem State.writeWord_engine (s : State) {n : Nat} (v : Word32) (other : n ≠ 4) :
    (s.writeWord n v).link.engine = s.link.engine := by
  simp only [State.writeWord, other, if_false]
  split
  · rfl
  · split
    · exact Link.answerWrite_engine ..
    · split
      · exact Link.answerWrite_engine ..
      · split
        · exact Link.writeWindow_engine ..
        · exact Link.writeWindow_engine ..
        · rfl

theorem State.writeControl_window (s : State) {v : Word32} (noReset : ¬v.getLsbD 2 = true) :
    (s.writeControl v).link.window = s.link.window := by
  rw [State.writeControl, if_neg noReset, writeHold_link, writeEnable_window]

/-- One word written while the engine is not STOPPED leaves the window registers, a soft reset apart. -/
theorem State.writeWord_window (s : State) {n : Nat} {v : Word32} (running : s.link.engine ≠ .stopped)
    (noReset : Instr.softReset ∉ wordWrite n v) : (s.writeWord n v).link.window = s.link.window := by
  by_cases control : n = 4
  · subst control
    exact s.writeControl_window (mt softReset_mem_controlWrite.mpr noReset)
  · simp only [State.writeWord, control, if_false]
    split
    · exact s.link.writePost_window v
    · split
      · exact s.link.writeNotice_window v false
      · split
        · exact s.link.writeMask_window v false
        · split
          · exact Link.writeWindow_window running ..
          · exact Link.writeWindow_window running ..
          · rfl

/-- No more than two words are covered whole, and two are neighbours. -/
theorem wholeWords_cases (o : Nat) (w : AccessWidth) :
    wholeWords o w = [] ∨ (∃ n, wholeWords o w = [n]) ∨ wholeWords o w = [o, o + 4] := by
  cases w with
  | one => exact .inl rfl
  | two => exact .inl rfl
  | three => exact .inl rfl
  | four =>
    simp only [wholeWords]
    split
    · exact .inr (.inl ⟨_, rfl⟩)
    · exact .inl rfl
  | eight =>
    simp only [wholeWords]
    split
    · exact .inr (.inr rfl)
    · exact .inr (.inl ⟨_, rfl⟩)

/-- The commands of a write that is no 64-bit access to a window register: those of the words it covers whole. -/
theorem hostWrite_words {o : BitVec 12} {w : AccessWidth} (narrow : w = .eight → windowRegAt o.toNat = none)
    (v : Word64) (covers : wholeWords o.toNat w ≠ []) :
    hostWrite o w v = (wholeWords o.toNat w).flatMap fun n => wordWrite n (wordOf o.toNat v n) := by
  obtain ⟨n, ns, words⟩ := List.exists_cons_of_ne_nil covers
  cases w with
  | one => exact absurd rfl covers
  | two => exact absurd rfl covers
  | three => exact absurd rfl covers
  | four => simp only [hostWrite, words]
  | eight => simp only [hostWrite, narrow rfl, words]

theorem mem_hostWrite_of_word {o : BitVec 12} {w : AccessWidth} (narrow : w = .eight → windowRegAt o.toNat = none)
    {v : Word64} {n : Nat} (covered : n ∈ wholeWords o.toNat w) {c : Instr}
    (among : c ∈ wordWrite n (wordOf o.toNat v n)) : c ∈ hostWrite o w v := by
  rw [hostWrite_words narrow v (List.ne_nil_of_mem covered)]
  exact List.mem_flatMap.mpr ⟨n, covered, among⟩

theorem State.registerWrite_words (s : State) {o : BitVec 12} {w : AccessWidth}
    (narrow : w = .eight → windowRegAt o.toNat = none) (v : Word64) :
    s.registerWrite o w v = (wholeWords o.toNat w).foldl (fun t n => t.writeWord n (wordOf o.toNat v n)) s := by
  cases w with
  | eight => simp only [State.registerWrite, narrow rfl]
  | one | two | three | four => rfl

theorem State.registerWrite_whole (s : State) {o : BitVec 12} {r : WindowReg} (reg : windowRegAt o.toNat = some r)
    (v : Word64) : s.registerWrite o .eight v = { s with link := s.link.writeWindow r (.whole v) } := by
  simp only [State.registerWrite, reg]

/-- A write at an offset is one 64-bit access to a window register, or it is not. -/
theorem wholeWindow_or_narrow (o : BitVec 12) (w : AccessWidth) :
    (w = .eight ∧ ∃ r, windowRegAt o.toNat = some r) ∨ (w = .eight → windowRegAt o.toNat = none) := by
  by_cases wide : w = .eight
  · cases reg : windowRegAt o.toNat with
    | none => exact .inr fun _ => rfl
    | some r => exact .inl ⟨wide, r, rfl⟩
  · exact .inr fun eight => absurd eight wide

theorem State.registerWrite_window (s : State) {o : BitVec 12} {w : AccessWidth} {v : Word64}
    (running : s.link.engine ≠ .stopped) (noReset : Instr.softReset ∉ hostWrite o w v) :
    (s.registerWrite o w v).link.window = s.link.window := by
  rcases wholeWindow_or_narrow o w with ⟨rfl, r, reg⟩ | narrow
  · rw [s.registerWrite_whole reg]
    exact Link.writeWindow_window running ..
  · have keeps (n : Nat) (covered : n ∈ wholeWords o.toNat w) :
        Instr.softReset ∉ wordWrite n (wordOf o.toNat v n) :=
      fun reset => noReset (mem_hostWrite_of_word narrow covered reset)
    rw [s.registerWrite_words narrow]
    rcases wholeWords_cases o.toNat w with noWord | ⟨n, one⟩ | two
    · rw [noWord]; rfl
    · rw [one] at keeps ⊢
      exact s.writeWord_window running (keeps n (by simp))
    · rw [two] at keeps ⊢
      have first := s.writeWord_window running (keeps o.toNat (by simp))
      by_cases control : o.toNat = 4
      · -- MCTL may stop the engine; the word after it is read-only
        rw [control] at first ⊢
        exact first
      · have stands := s.writeWord_engine (wordOf o.toNat v o.toNat) control
        exact (State.writeWord_window _ (stands ▸ running) (keeps (o.toNat + 4) (by simp))).trans first

/-! ### Every command -/

/-- A lost lane's lines are taken one by one (R102), none of which reaches LINK. -/
theorem State.laneLost_link (s : State) (i : InLane) :
    ((linesOfLane i).foldl State.tickLineOnce (s.tickLane i)).link = s.link :=
  List.foldlRecOn (motive := fun u : State => u.link = s.link) _ _ rfl
    fun u same l _ => (u.tickLineOnce_link l).trans same

theorem State.rampSwitch_link (s : State) (i : RampId) : (s.rampSwitch i).link = s.link := by
  unfold State.rampSwitch
  split
  · split <;> rfl
  · split <;> rfl
  all_goals rfl

theorem State.ite_window {p : Prop} [Decidable p] {k : Link} {u v : State} (yes : u.link.window = k.window)
    (no : v.link.window = k.window) : (if p then u else v).link.window = k.window := by
  split
  · exact yes
  · exact no

/-- What a command does only where it is due leaves the windows if its effect does. -/
theorem State.window_of_due {p : Prop} [Decidable p] {s u : State} (effect : u.link.window = s.link.window) :
    (if p then u else s).link.window = s.link.window :=
  State.ite_window effect rfl

/-- A command that is no reset, taken while the engine is not STOPPED, leaves the window registers. -/
theorem exec_window {c : Instr} {s t : State} (run : exec c s = .next t) (running : s.link.engine ≠ .stopped)
    (notPowerOn : c ≠ .powerOnReset) (notSoft : c ≠ .softReset) (notLink : c ≠ .linkReset)
    (noReset : ∀ offset width value, c = .ignoredRegisterWrite offset width value →
      Instr.softReset ∉ hostWrite offset width value) :
    t.link.window = s.link.window := by
  cases c with
  | powerOnReset => exact absurd rfl notPowerOn
  | softReset => exact absurd rfl notSoft
  | linkReset => exact absurd rfl notLink
  | memoryEnable on => cases run; exact State.window_of_due (s.writeEnable_window on)
  | noticeClear _ => cases run; exact State.window_of_due (Link.writeNotice_window ..)
  | noticeMaskWrite _ => cases run; exact State.window_of_due (Link.writeMask_window ..)
  | windowRegisterWrite r data => cases run; exact State.window_of_due (Link.writeWindow_window running r data)
  | ignoredRegisterWrite o w v =>
    cases run; exact State.window_of_due (s.registerWrite_window running (noReset o w v rfl))
  | configurationAccess a => cases run; exact s.link.configure_window a
  | busMasteringWithdrawn => cases run; exact State.window_of_due s.withdraw_window
  | engineActive => cases run; exact State.window_of_due s.link.engineTick_window
  | laneHold _ | post _ | partnerRead _ | laneFrame _ _ | elasticArrival _ _ | laneLock _ _ _ | lossOfLock _ _
  | keyPress _ | keyRelease _ | holdCountExpiry _ | outgoingFadeEnd _ | periodicDue | intakeTake =>
    cases run; exact State.window_of_due rfl
  | elasticRead _ | seekingSync _ _ _ => cases run; rfl
  | sample => cases run; rw [State.takeSample_link]
  | refLock => cases run; exact State.window_of_due (s.setRef_window _)
  | refUnlock => cases run; exact s.setRef_window _
  | blockTick _ _ => cases run; exact s.blockTick_window ..
  | rampEnd i => cases run; exact State.ite_window rfl (congrArg Link.window (s.rampSwitch_link i))
  | laneLost lane => cases run; exact State.window_of_due (congrArg Link.window (s.laneLost_link lane))
  | codeSettle _ | lossCountExpiry _ | shadowCountEnd _ =>
    cases run; exact State.window_of_due (congrArg Link.window (s.tickLineInOrder_link _))
  | apply => cases run; exact State.window_of_due (congrArg Link.window s.applyTick_link)
  | sectionFetch => cases run; split; exacts [rfl, s.beginFetch_window _]
  | readCompletion _ _ => cases run; split; exacts [rfl, State.ite_window (s.completeRead_window ..) rfl]
  | readTimeout => cases run; exact State.window_of_due s.timeoutRead_window
  | roundBegin => cases run; exact State.window_of_due (congrArg Link.window s.roundTick_link)
  | recordWriteBegin _ => cases run; split; exacts [rfl, s.beginRecord_window ..]
  | recordWriteComplete => cases run; split; exacts [rfl, s.completeRecord_window _]

end Sys2Proof.Machine

open Sys2Proof Sys2Proof.Machine

/-- Settles O11: a placed write sets its register or is refused by the engine's state, and no other command but a reset
reaches the four registers. -/
theorem windowRegisters : Obligations.WindowRegisters := by
  unfold Obligations.WindowRegisters
  refine ⟨fun s reg data placed => ?_, fun c s t run running notPowerOn notSoft notLink noReset => ?_⟩
  · refine ⟨_, exec_windowRegisterWrite placed reg data, rfl, fun stopped => ?_, fun running => ?_⟩
    · simp only [Link.writeWindow_stopped stopped, Link.setWindow_window, Function.update_self]
      refine ⟨fun r other => Function.update_of_ne other .., fun i => ?_, s.link.setWindow_eq ..⟩
      rw [windowValue_getLsbD]
      cases data <;> rfl
    · exact Link.writeWindow_running running reg data
  · have same := exec_window run running notPowerOn notSoft notLink noReset
    exact ⟨congrFun same .planBase, congrFun same .planEnd, congrFun same .reportBase, congrFun same .reportEnd⟩

end

