-- ==== Sys2Proof/Proofs/Steps.lean ====
section
/-! PROOFS. What holds of every command alike: that it completes, that it leaves the queue, and how an invariant of the
commands is one of the steps. -/

namespace Sys2Proof.Machine

/-! ### A choice of two effects -/

/-- Of two effects, the one taken meets what both meet. -/
theorem State.ite_of {P : State → Prop} {p : Prop} [Decidable p] {u v : State} (yes : p → P u) (no : ¬p → P v) :
    P (if p then u else v) := by
  split
  · exact yes ‹_›
  · exact no ‹_›

/-- What a command does where it is due, and does not do elsewhere, keeps what its effect keeps. -/
theorem State.due_of {P : State → Prop} {p : Prop} [Decidable p] {s u : State} (before : P s) (effect : p → P u) :
    P (if p then u else s) :=
  State.ite_of effect fun _ => before

/-! ### A write at an offset (R150, R152) -/

/-- A write to a 32-bit word is a soft reset, or reaches LINK and lane hold alone. -/
theorem State.writeWord_reaches (s : State) (n : Nat) (v : Word32) :
    s.writeWord n v = s.softReset ∨
      ∃ k hold, s.writeWord n v = { s with link := k, ltx := { s.ltx with hold := hold } } := by
  have enabled (on : Bool) : s.writeEnable on = { s with link := (s.writeEnable on).link } := by
    cases on with
    | true => rfl
    | false =>
      change s.clearEnable = { s with link := s.clearEnable.link }
      have drained (u : State) : u.drainCheck = { u with link := u.drainCheck.link } := by
        unfold State.drainCheck
        split <;> rfl
      unfold State.clearEnable
      split
      · exact drained _
      · rfl
  unfold State.writeWord
  split
  · unfold State.writeControl
    split
    · exact .inl rfl
    · rw [enabled]
      exact .inr ⟨_, _, rfl⟩
  · refine .inr ?_
    split
    · exact ⟨_, _, rfl⟩
    · split
      · exact ⟨_, _, rfl⟩
      · split
        · exact ⟨_, _, rfl⟩
        · split <;> exact ⟨_, _, rfl⟩

/-- What the soft reset has, and what does not look at LINK and lane hold, a write at an offset keeps. -/
theorem State.registerWrite_of {P : State → Prop} (softReset : ∀ s : State, P s.softReset)
    (other : ∀ (s : State) k hold, P s → P { s with link := k, ltx := { s.ltx with hold := hold } }) {s : State}
    (before : P s) (o : BitVec 12) (w : AccessWidth) (v : Word64) : P (s.registerWrite o w v) := by
  unfold State.registerWrite
  split
  · exact other s _ _ before
  · refine List.foldlRecOn (motive := P) _ _ before fun u kept n _ => ?_
    obtain same | ⟨k, hold, same⟩ := u.writeWord_reaches n (wordOf o.toNat v n)
    · exact same ▸ softReset u
    · exact same ▸ other u k hold kept

/-! ### Steps -/

/-- What every command keeps, and what does not look at the queue, every step keeps. -/
theorem step_keeps {P : State → Prop} (queue : ∀ s q, P s → P { s with pending := q })
    (command : ∀ c s t, exec c s = .next t → P s → P t) {s t : State} (before : P s) (run : step s = .next t) :
    P t := by
  unfold step at run
  split at run
  · cases run
    exact before
  · exact command _ _ _ run (queue _ _ before)

/-! ### The queue -/

/-- The part with another queue. -/
def State.requeue (s : State) (q : List Instr) : State := { s with pending := q }

section
variable (s : State) (q : List Instr)

@[simp] theorem State.requeue_line : (s.requeue q).line = s.line := rfl
@[simp] theorem State.requeue_scrn : (s.requeue q).scrn = s.scrn := rfl
@[simp] theorem State.requeue_intake : (s.requeue q).intake = s.intake := rfl
@[simp] theorem State.requeue_report : (s.requeue q).report = s.report := rfl
@[simp] theorem State.requeue_link : (s.requeue q).link = s.link := rfl
@[simp] theorem State.requeue_inst : (s.requeue q).inst = s.inst := rfl

theorem State.requeue_ite {p : Prop} [Decidable p] (u v : State) :
    (if p then u else v).requeue q = if p then u.requeue q else v.requeue q :=
  apply_ite (State.requeue · q) p u v

/-- A command that takes one of two effects commutes with a change of queue if they do. -/
theorem State.choice_requeue {p : Prop} {_ : Decidable p} {u u' v v' : State} (yes : u' = u.requeue q)
    (no : v' = v.requeue q) :
    (.next (if p then u' else v') : Host.Outcome State Fault Refusal) = .next ((if p then u else v).requeue q) := by
  rw [yes, no, State.requeue_ite]

/-- A command whose effect is taken where it is due commutes with a change of queue if the effect does. -/
theorem State.due_requeue {p : Prop} {_ : Decidable p} {u u' : State} (effect : u' = u.requeue q) :
    (.next (if p then u' else s.requeue q) : Host.Outcome State Fault Refusal) =
      .next ((if p then u else s).requeue q) :=
  State.choice_requeue q effect rfl

@[simp] theorem State.drainCheck_requeue : (s.requeue q).drainCheck = s.drainCheck.requeue q := by
  unfold State.drainCheck
  rw [State.requeue_ite]
  rfl

@[simp] theorem State.clearEnable_requeue : (s.requeue q).clearEnable = s.clearEnable.requeue q := by
  unfold State.clearEnable
  rw [State.requeue_ite, ← State.drainCheck_requeue]
  rfl

@[simp] theorem State.writeEnable_requeue (on : Bool) :
    (s.requeue q).writeEnable on = (s.writeEnable on).requeue q := by
  cases on
  · exact s.clearEnable_requeue q
  · rfl

@[simp] theorem State.writeControl_requeue (v : Word32) :
    (s.requeue q).writeControl v = (s.writeControl v).requeue q := by
  unfold State.writeControl
  rw [State.requeue_ite, State.writeEnable_requeue]
  rfl

@[simp] theorem State.writeWord_requeue (n : Nat) (v : Word32) :
    (s.requeue q).writeWord n v = (s.writeWord n v).requeue q := by
  unfold State.writeWord
  simp only [State.requeue_ite, State.writeControl_requeue]
  repeat refine congrArg₂ _ rfl ?_
  split <;> rfl

@[simp] theorem State.registerWrite_requeue (o : BitVec 12) (w : AccessWidth) (v : Word64) :
    (s.requeue q).registerWrite o w v = (s.registerWrite o w v).requeue q := by
  unfold State.registerWrite
  split
  · rfl
  · exact List.foldl_hom (State.requeue · q) (fun u n => u.writeWord_requeue q n (wordOf o.toNat v n))

/-! ### The queue and the records of a round -/

@[simp] theorem State.recordNotice_requeue (i : RoundRecord) (written : Bool) :
    (s.requeue q).recordNotice i written = (s.recordNotice i written).requeue q := by
  unfold State.recordNotice
  cases written with
  | false => rfl
  | true => cases i.kind with
    | lane _ => cases i.stateChange <;> rfl
    | line _ | verdict _ | part | meter _ => rfl

@[simp] theorem State.verdictsDone_requeue : (s.requeue q).verdictsDone = s.verdictsDone.requeue q := by
  unfold State.verdictsDone
  rw [State.requeue_ite]
  rfl

@[simp] theorem State.metersComplete_requeue (r : Round) :
    (s.requeue q).metersComplete r = (s.metersComplete r).requeue q := by
  unfold State.metersComplete
  cases r.meterWritten <;> by_cases advanced : r.clips = s.report.lastClips <;>
    simp [State.requeue, advanced, State.raise]

@[simp] theorem State.roundEnd_requeue (r : Round) : (s.requeue q).roundEnd r = (s.roundEnd r).requeue q := by
  unfold State.roundEnd
  simp only [State.requeue_ite]
  rfl

@[simp] theorem State.finishRecord_requeue (r : Round) (i : RoundRecord) (written : Bool) :
    (s.requeue q).finishRecord r i written = (s.finishRecord r i written).requeue q := by
  simp only [State.finishRecord, State.recordNotice_requeue, State.verdictsDone_requeue, ← State.requeue_ite,
    State.metersComplete_requeue, State.roundEnd_requeue, State.drainCheck_requeue]

@[simp] theorem State.missRecord_requeue (r : Round) (i : RoundRecord) :
    (s.requeue q).missRecord r i = (s.missRecord r i).requeue q :=
  s.countMiss.finishRecord_requeue q r i false

@[simp] theorem State.missUnderway_requeue : (s.requeue q).missUnderway = s.missUnderway.requeue q := by
  unfold State.missUnderway
  rw [State.requeue_report]
  cases s.report.round with
  | none => rfl
  | some r => cases current : r.current with
    | none => simp only [current]
    | some u => simpa only [current] using s.missRecord_requeue q r u.item

theorem State.withdraw_requeue : (s.requeue q).withdraw = s.withdraw.requeue q := by
  unfold State.withdraw
  rw [← State.missUnderway_requeue, ← State.clearEnable_requeue]
  rfl

theorem State.beginRecord_requeue (r : Round) (sent : PartSent) :
    (s.requeue q).beginRecord r sent = (s.beginRecord r sent).requeue q := by
  unfold State.beginRecord
  split
  · rw [State.requeue_ite, ← State.missRecord_requeue]
    cases sent <;> rfl
  · rfl

theorem State.completeRecord_requeue (r : Round) : (s.requeue q).completeRecord r = (s.completeRecord r).requeue q := by
  unfold State.completeRecord
  cases r.current with
  | none => rfl
  | some u =>
    have rest : (s.requeue q).sendRest u = (s.sendRest u).requeue q := by
      unfold State.sendRest
      cases u.sent <;> rfl
    simp only [rest, State.finishRecord_requeue]

/-! ### The queue and the reads of an intake -/

@[simp] theorem State.issueRead_requeue (sec : Section) (p : ReadStep) :
    (s.requeue q).issueRead sec p = (s.issueRead sec p).requeue q := by
  unfold State.issueRead
  rw [State.requeue_ite]
  rfl

theorem State.beginFetch_requeue (sec : Section) : (s.requeue q).beginFetch sec = (s.beginFetch sec).requeue q := by
  unfold State.beginFetch
  simp only [State.requeue_ite, ← State.issueRead_requeue]
  rfl

@[simp] theorem State.readDone_requeue (sec : Section) (p : ReadStep) (b : List Byte) :
    (s.requeue q).readDone sec p b = (s.readDone sec p b).requeue q := by
  cases p with
  | head => exact State.issueRead_requeue { s with intake := { s.intake with head := some (stampOf b) } } q sec .record
  | record => exact State.issueRead_requeue { s with intake := { s.intake with record := some b } } q sec .tail
  | tail => rfl

theorem State.completeRead_requeue (r : PlanRead) (x : ReadResult) :
    (s.requeue q).completeRead r x = (s.completeRead r x).requeue q := by
  unfold State.completeRead
  rw [State.requeue_intake]
  cases s.intake.position with
  | none => rfl
  | some sec =>
    dsimp only
    cases readData r.length x with
    | none => rfl
    | some b => exact State.readDone_requeue { s with link := { s.link with read := none } } q sec r.step b

theorem State.timeoutRead_requeue : (s.requeue q).timeoutRead = s.timeoutRead.requeue q := by
  unfold State.timeoutRead
  rw [State.requeue_intake]
  cases s.intake.position <;> rfl

theorem State.readTick_requeue : (s.requeue q).readTick = s.readTick.requeue q := by
  unfold State.readTick
  rw [State.requeue_link]
  cases s.link.read with
  | none => rfl
  | some r =>
    simp only [State.requeue_ite, State.timeoutRead_requeue]
    rfl

/-! ### The queue and the block tick -/

theorem State.setRef_requeue (r : RefMonitor) : (s.requeue q).setRef r = (s.setRef r).requeue q := by
  unfold State.setRef
  rw [State.requeue_ite]
  rfl

@[simp] theorem State.linePhase_requeue (plans : Vector (Option LinePlan) 24) (delta : Int) :
    (s.requeue q).linePhase plans delta = (s.linePhase plans delta).requeue q := by
  have moved : (s.requeue q).linesMoved plans delta = (s.linesMoved plans delta).requeue q := rfl
  unfold State.linePhase
  rw [moved]
  rfl

theorem State.applyTick_requeue : (s.requeue q).applyTick = s.applyTick.requeue q := by
  have handed : (s.requeue q).handOver = s.handOver.requeue q := rfl
  have plans : (s.requeue q).admittedPlans = s.admittedPlans := rfl
  have counted (u : State) : (u.requeue q).countRoles = u.countRoles.requeue q := rfl
  unfold State.applyTick
  simp only [handed, plans, State.linePhase_requeue, counted, State.requeue_ite, State.requeue_intake,
    State.requeue_line]

@[simp] theorem State.linePart_requeue : (s.requeue q).linePart = s.linePart.requeue q := by
  have due : (s.requeue q).applyDue = s.applyDue := rfl
  unfold State.linePart
  simp only [due, State.applyTick_requeue, State.linePhase_requeue, State.requeue_ite]

@[simp] theorem State.takePhase_requeue : (s.requeue q).takePhase = s.takePhase.requeue q := by
  unfold State.takePhase State.takeTick
  simp only [State.requeue_ite]
  rfl

@[simp] theorem State.periodPhase_requeue : (s.requeue q).periodPhase = s.periodPhase.requeue q := by
  unfold State.periodPhase
  rw [State.requeue_ite]
  rfl

theorem State.audioTick_requeue (pins : BitVec 16) : (s.requeue q).audioTick pins = (s.audioTick pins).requeue q := by
  have counted (u : State) : (u.requeue q).countBlock = u.countBlock.requeue q := rfl
  have keys (u : State) : (u.requeue q).keyPhase pins = (u.keyPhase pins).requeue q := rfl
  have cued (u : State) : (u.requeue q).cuePhase = u.cuePhase.requeue q := rfl
  have mixed (u : State) : (u.requeue q).mixPhase = u.mixPhase.requeue q := rfl
  have engine : ({ s.requeue q with link := (s.requeue q).link.engineTick } : State) =
    ({ s with link := s.link.engineTick } : State).requeue q := rfl
  unfold State.audioTick
  simp only [engine, State.takePhase_requeue, counted, State.linePart_requeue, State.periodPhase_requeue, keys, cued,
    mixed]

theorem State.tickEvents_requeue (pins : BitVec 16) (follows : Bool) :
    (s.requeue q).tickEvents pins follows = (s.tickEvents pins follows).requeue q := by
  unfold State.tickEvents
  simp only [State.audioTick_requeue, ← State.readTick_requeue, ← State.setRef_requeue]
  rfl

theorem State.tickFlags_requeue (pins : BitVec 16) : (s.requeue q).tickFlags pins = s.tickFlags pins := by
  have unflagged : (s.requeue q).unflagged = s.unflagged.requeue q := rfl
  unfold State.tickFlags
  rw [unflagged, State.audioTick_requeue]
  rfl

theorem State.blockTick_requeue (pins : BitVec 16) (follows first : Bool) :
    (s.requeue q).blockTick pins follows first = (s.blockTick pins follows first).requeue q := by
  have seen (t : State) : (t.requeue q).seenAt (s.requeue q) pins first = (t.seenAt s pins first).requeue q := by
    unfold State.seenAt
    rw [State.tickFlags_requeue, State.requeue_ite]
    rfl
  have round (t : State) :
      (t.requeue q).roundPhase (s.requeue q) pins first = (t.roundPhase s pins first).requeue q := by
    unfold State.roundPhase State.lookRound
    rw [seen, State.tickFlags_requeue, State.requeue_ite]
    rfl
  unfold State.blockTick
  simp only [State.tickEvents_requeue, round, seen]
  rfl

/-! ### The queue and the events of a tick -/

theorem State.tickLineInOrder_requeue (l : Line) :
    (s.requeue q).tickLineInOrder l = (s.tickLineInOrder l).requeue q := by
  unfold State.tickLineInOrder
  change (((s.servedBefore l).foldl State.tickLine (s.requeue q)).tickLine l) = _
  rw [List.foldl_hom (State.requeue · q) (g₁ := State.tickLine) (fun _ _ => rfl)]
  rfl

theorem State.tickLineOnce_requeue (l : Line) : (s.requeue q).tickLineOnce l = (s.tickLineOnce l).requeue q := by
  unfold State.tickLineOnce
  rw [State.requeue_ite]
  rfl

theorem State.rampSwitch_requeue (i : RampId) : (s.requeue q).rampSwitch i = (s.rampSwitch i).requeue q := by
  unfold State.rampSwitch
  cases i with
  | lineGroup _ | groupTerm _ =>
    simp only [State.requeue_ite]
    rfl
  | sourceAir _ | lineAir _ | airTerm _ | holdTerm _ | screenerTerm _ | cueIn _ | cueOut _ => rfl

end

/-- A command takes no notice of the queue. -/
theorem exec_requeue {c : Instr} {s t : State} (run : exec c s = .next t) (q : List Instr) :
    exec c (s.requeue q) = .next (t.requeue q) := by
  cases c with
  | powerOnReset | linkReset | configurationAccess _ | sample | elasticRead _ | seekingSync _ _ _ => cases run; rfl
  | softReset | laneHold _ | post _ | noticeClear _ | noticeMaskWrite _ | windowRegisterWrite _ _ | engineActive
  | partnerRead _ | laneFrame _ _ | elasticArrival _ _ | laneLock _ _ _ | lossOfLock _ _ | keyPress _ | keyRelease _
  | holdCountExpiry _ | outgoingFadeEnd _ | periodicDue | intakeTake =>
    cases run; exact State.due_requeue _ _ rfl
  | memoryEnable on => cases run; exact State.due_requeue _ _ (s.writeEnable_requeue q on)
  | ignoredRegisterWrite o w v => cases run; exact State.due_requeue _ _ (s.registerWrite_requeue q o w v)
  | busMasteringWithdrawn => cases run; exact State.due_requeue _ _ (s.withdraw_requeue q)
  | laneLost i =>
    cases run
    refine State.due_requeue _ _ ?_
    rw [← List.foldl_hom (State.requeue · q) (g₂ := State.tickLineOnce) fun u l => u.tickLineOnce_requeue q l]
    rfl
  | refLock =>
    cases run; exact State.due_requeue _ _ (congrArg State.markOther (s.setRef_requeue q s.ref.lock))
  | refUnlock => cases run; exact congrArg _ (s.setRef_requeue q _)
  | blockTick pins meets => cases run; exact congrArg _ (s.blockTick_requeue q ..)
  | rampEnd i =>
    cases run
    exact State.choice_requeue q rfl (s.rampSwitch_requeue q i)
  | codeSettle l | lossCountExpiry l | shadowCountEnd l =>
    cases run; exact State.due_requeue _ _ (s.tickLineInOrder_requeue q l)
  | apply =>
    cases run
    exact State.due_requeue _ _ (s.applyTick_requeue q)
  | sectionFetch =>
    cases run
    refine congrArg Host.Outcome.next ?_
    change (match s.fetchable with | none => s.requeue q | some sec => (s.requeue q).beginFetch sec) = _
    cases s.fetchable
    · rfl
    · exact s.beginFetch_requeue q _
  | readCompletion n x =>
    cases run
    refine congrArg Host.Outcome.next ?_
    rw [State.requeue_link]
    cases s.link.read with
    | none => rfl
    | some r =>
      simp only [State.requeue_ite, State.completeRead_requeue]
      rfl
  | readTimeout =>
    cases run; exact State.due_requeue _ _ (congrArg State.markOther (s.timeoutRead_requeue q))
  | roundBegin =>
    cases run
    have round : (s.requeue q).roundTick = s.roundTick.requeue q := by
      unfold State.roundTick State.lookRound
      rw [State.requeue_ite]
      rfl
    exact State.due_requeue _ _ (congrArg (fun u : State => { u with inst := Instant.none }) round)
  | recordWriteBegin sent =>
    cases run
    refine congrArg Host.Outcome.next ?_
    rw [State.requeue_report]
    cases s.report.round
    · rfl
    · exact s.beginRecord_requeue q ..
  | recordWriteComplete =>
    cases run
    refine congrArg Host.Outcome.next ?_
    rw [State.requeue_report]
    cases s.report.round
    · rfl
    · exact s.completeRecord_requeue q _

end Sys2Proof.Machine

open Sys2Proof Sys2Proof.Machine

/-- Settles O1: both clauses are the two cases of the step's definition. -/
theorem stepTakesFront : Obligations.StepTakesFront := by
  unfold Obligations.StepTakesFront
  refine ⟨fun c rest s front => ?_, fun s empty => ?_⟩
  · simp only [step, front]
  · simp only [step, empty]

/-- Settles O2: no effect reads the queue, so each commutes with a change of it. -/
theorem queueUntouched : Obligations.QueueUntouched := by
  unfold Obligations.QueueUntouched
  exact fun _ _ _ q run => exec_requeue run q

/-- Settles O3: every arm of the dispatch answers a next state. -/
theorem commandsComplete : Obligations.CommandsComplete := by
  unfold Obligations.CommandsComplete
  intro c s
  cases c <;> exact ⟨_, rfl⟩

end

