-- ==== Sys2Proof/Proofs/ResetValues.lean ====
section
/-! PROOFS. The part after a power-on reset: the contexts of its lines, ramps, routes and lanes, its values, and that it
is sound. -/

namespace Sys2Proof.Machine

/-! ### The contexts of every block (R24 to R28, R71, R84, R104, R105) -/

theorem reset_line (l : Line) : State.reset.line.ctx[l] = LineCtx.reset := Vector.getElem_replicate _

theorem reset_source (i : Source) : State.reset.mix.sources[i] = { airCode := 0, air := Ramp.rest, peak := 0 } :=
  Vector.getElem_replicate _

theorem reset_contrib (l : Line) :
    State.reset.mix.contribs[l] = { voice := Config.unity, air := Ramp.rest, group := GroupRamp.rest, peak := 0 } :=
  Vector.getElem_replicate _

theorem reset_return (l : Line) :
    State.reset.mix.returns[l] =
      { air := Ramp.rest, group := GroupRamp.rest, hold := Ramp.rest, screener := Ramp.rest, cueIn := Ramp.rest,
        cueOut := Ramp.rest, position := none, duck := .none, peak := 0, clip := 0 } :=
  Vector.getElem_replicate _

theorem reset_output (i : Slot) : State.reset.mix.outputs[i] = { peak := 0, clip := 0 } :=
  Vector.getElem_replicate _

theorem reset_key (k : Key) : State.reset.cue.keys[k] = { soft := false, down := false, run := 0 } :=
  Vector.getElem_replicate _

theorem reset_route (r : Route) :
    State.reset.cue.routes[r] = { entry := RouteEntry.reset, activity := .idle, holdCount := 0 } :=
  Vector.getElem_replicate _

theorem reset_cueReturn (l : Line) : State.reset.cue.returns[l] = CueReturn.clear := Vector.getElem_replicate _

theorem reset_position (p : Position) :
    State.reset.scrn.table.positions[p] = { talker := none, selected := none, level := 200 } :=
  Vector.getElem_replicate _

theorem reset_spread (i : Fin 16) : State.reset.scrn.table.spread[i] = none := Vector.getElem_replicate _

theorem reset_roleCount (g : Group) : State.reset.scrn.roleCounts[g] = 0 := Vector.getElem_replicate _

theorem reset_inLane (i : InLane) : State.reset.lrx.lanes[i] = InLaneCtx.reset := Vector.getElem_replicate _

theorem reset_outLane (o : OutLane) : State.reset.ltx.lanes[o] = OutLaneCtx.reset := Vector.getElem_replicate _

theorem reset_record (l : Line) : State.reset.cmap.records[l] = SettleRec.clear := Vector.getElem_replicate _

theorem reset_code (c : Fin 64) : State.reset.cmap.table[c] = CodeEntry.default c := Vector.getElem_ofFn _

theorem reset_clip (i : Fin 32) : State.reset.report.lastClips[i] = 0 := Vector.getElem_replicate _

theorem reset_ramp (i : RampId) : State.reset.mix.ramp i = Ramp.rest := by
  cases i <;> simp only [Mix.ramp, reset_source, reset_contrib, reset_return, GroupRamp.rest]

theorem default_code_none {c : Fin 64} (h : 2 < c) : CodeEntry.default c = { condition := none, notify := false } := by
  have hc : 2 < c.val := h
  simp only [CodeEntry.default, Fin.ext_iff, Fin.val_zero]
  rw [if_neg (by omega), if_neg (by simp; omega), if_neg (by simp; omega)]

/-! ### Soundness at the reset -/

theorem reset_settingsSound : State.reset.settingsSound :=
  ⟨by decide, by decide, by decide, fun l => by simp [State.reset, Intake.reset, Staging.empty], rfl, rfl⟩

theorem reset_roleCount_eq (g : Group) :
    roleCount (Vector.ofFn fun l => (State.reset.line.ctx[l]).plan.role) g = 0 := by
  simp only [reset_line]
  decide +revert

end Sys2Proof.Machine

open Sys2Proof Sys2Proof.Machine

/-- Settles O4: each value is read from the context of its block at the reset. -/
theorem resetValues : Obligations.ResetValues := by
  unfold Obligations.ResetValues
  intro s
  refine ⟨fun l => ?_, rfl, rfl, fun i => ?_, fun x => ?_, fun l => ?_, reset_output, reset_key, fun r => ?_, fun k => ?_,
    reset_position, rfl, reset_spread, reset_roleCount, fun i => ?_, fun o => ?_, rfl, rfl,
    ⟨rfl, reset_record, reset_code 0, reset_code 1, reset_code 2, fun c h => (reset_code c).trans (default_code_none h)⟩,
    ⟨rfl, rfl⟩, ⟨rfl, rfl, rfl, rfl, rfl, rfl, rfl⟩, ⟨rfl, rfl, rfl, rfl, rfl, rfl, rfl, rfl, reset_clip⟩, ?_⟩
  · rw [reset_line]
    exact ⟨rfl, rfl, rfl, rfl, rfl, rfl, rfl, rfl, rfl, rfl, rfl, rfl⟩
  · rw [reset_ramp]
    exact ⟨rfl, rfl, rfl⟩
  · rw [reset_source]
    exact ⟨rfl, rfl⟩
  · rw [reset_contrib, reset_return]
    exact ⟨rfl, rfl, rfl, rfl, rfl, rfl, rfl, rfl, rfl⟩
  · rw [reset_route]
    exact ⟨rfl, rfl, rfl⟩
  · rw [reset_cueReturn]
    exact ⟨rfl, rfl, rfl, rfl⟩
  · rw [reset_inLane]
    refine ⟨rfl, rfl, rfl, rfl, rfl, rfl, fun j => ⟨rfl, ?_, ?_, ?_⟩, rfl, rfl, rfl, rfl, rfl⟩
    all_goals exact Vector.getElem_replicate _
  · rw [reset_outLane]
    refine ⟨rfl, rfl, rfl, rfl, rfl, rfl, rfl, fun j => ?_⟩
    have silent : OutLaneCtx.reset.previous[j] = 1 := Vector.getElem_replicate _
    rw [silent]
    exact ⟨by decide, by decide⟩
  · exact ⟨rfl, rfl, rfl, rfl, rfl, rfl, rfl, rfl, rfl, rfl, rfl, rfl, rfl, rfl⟩

/-- Settles O54: every context of the reset is sound, and nothing is under way. -/
theorem resetSound : Obligations.ResetSound := by
  unfold Obligations.ResetSound
  refine ⟨⟨fun l => ?_, reset_settingsSound⟩, ⟨fun i => ?_, reset_settingsSound⟩, fun l => ?_, ⟨fun k => ?_, fun r => ?_⟩,
    ⟨fun i => ?_, fun o => ?_⟩,
    ⟨rfl, rfl, ⟨fun _ => rfl, nofun⟩, ⟨nofun, by decide, fun owes => absurd rfl owes, .nil, .nil, nofun⟩, nofun⟩,
    fun g => ?_⟩
  · rw [reset_line]
    exact (by decide : ∀ l, LineCtx.sound l LineCtx.reset = true) l
  · rw [reset_ramp]
    decide
  · rw [State.vacantReturn, reset_line, reset_cueReturn, reset_return]
    decide
  · rw [reset_key]
    decide
  · rw [reset_route]
    decide
  · rw [reset_inLane]
    decide
  · rw [reset_outLane]
    decide
  · rw [reset_roleCount, reset_roleCount_eq]
    exact ⟨rfl, by decide⟩

end

