-- ==== Sys2Proof/Proofs/HostSide.lean ====
section
/-! PROOFS. The commands of LINK, INTAKE and REPORT that are no reset, no tick and no apply: they leave the audio blocks,
the lines and the lanes as they stand. -/

namespace Sys2Proof.Machine

/-- From `s` to `t` the blocks of the audio, of the lines and of the lanes stand, and so does the queue. -/
structure State.sameAudio (s t : State) : Prop where
  mix : t.mix = s.mix
  line : t.line = s.line
  scrn : t.scrn = s.scrn
  cue : t.cue = s.cue
  lrx : t.lrx = s.lrx
  ltx : t.ltx = s.ltx
  cmap : t.cmap = s.cmap
  ref : t.ref = s.ref
  pending : t.pending = s.pending

theorem State.sameAudio_refl (s : State) : s.sameAudio s := ⟨rfl, rfl, rfl, rfl, rfl, rfl, rfl, rfl, rfl⟩

theorem State.sameAudio.trans {s t u : State} (a : s.sameAudio t) (b : t.sameAudio u) : s.sameAudio u :=
  ⟨b.mix.trans a.mix, b.line.trans a.line, b.scrn.trans a.scrn, b.cue.trans a.cue, b.lrx.trans a.lrx,
    b.ltx.trans a.ltx, b.cmap.trans a.cmap, b.ref.trans a.ref, b.pending.trans a.pending⟩

/-- A state with the same audio is the old one with other LINK, INTAKE, REPORT, host memory and marks. -/
theorem State.sameAudio.eq {s t : State} (same : s.sameAudio t) :
    t = { s with intake := t.intake, report := t.report, link := t.link, hostMem := t.hostMem, inst := t.inst } := by
  obtain ⟨_, _, _, _, _, _, _, _, _⟩ := same
  cases t
  simp_all

/-! ### The operations -/

theorem State.writeEnable_audio (s : State) (on : Bool) : s.sameAudio (s.writeEnable on) := by
  cases on with
  | true => constructor <;> rfl
  | false =>
    change s.sameAudio s.clearEnable
    constructor <;> simp

theorem State.finishRecord_audio (s : State) (r : Round) (x : RoundRecord) (written : Bool) :
    s.sameAudio (s.finishRecord r x written) := by
  constructor <;> simp

theorem State.missRecord_audio (s : State) (r : Round) (x : RoundRecord) : s.sameAudio (s.missRecord r x) :=
  (show s.sameAudio s.countMiss by constructor <;> simp).trans (s.countMiss.finishRecord_audio r x false)

theorem State.sendBegin_audio (s : State) (x : RoundRecord) (stamp : BitVec 16) (sent : PartSent) :
    s.sameAudio (s.sendBegin x stamp sent) := by
  cases sent <;> constructor <;> rfl

theorem State.beginRecord_audio (s : State) (r : Round) (sent : PartSent) : s.sameAudio (s.beginRecord r sent) := by
  unfold State.beginRecord
  split
  · dsimp only
    split
    · have begun := s.sendBegin_audio
      exact ⟨(begun ..).mix, (begun ..).line, (begun ..).scrn, (begun ..).cue, (begun ..).lrx, (begun ..).ltx,
        (begun ..).cmap, (begun ..).ref, (begun ..).pending⟩
    · exact s.missRecord_audio ..
  · exact s.sameAudio_refl

theorem State.sendRest_audio (s : State) (u : Underway) : s.sameAudio (s.sendRest u) := by
  unfold State.sendRest
  split <;> constructor <;> rfl

theorem State.completeRecord_audio (s : State) (r : Round) : s.sameAudio (s.completeRecord r) := by
  unfold State.completeRecord
  split
  · exact s.sameAudio_refl
  · exact (s.sendRest_audio _).trans (State.finishRecord_audio ..)

theorem State.withdraw_audio (s : State) : s.sameAudio s.withdraw := by
  constructor <;> simp

/-! ### The commands -/

/-- The commands that reach LINK, INTAKE, REPORT, host memory and the marks of a tick alone. -/
def Instr.hostSide : Instr → Bool
  | .memoryEnable _ | .post _ | .noticeClear _ | .noticeMaskWrite _ | .windowRegisterWrite _ _
  | .configurationAccess _ | .busMasteringWithdrawn | .periodicDue | .engineActive | .intakeTake | .sectionFetch
  | .readCompletion _ _ | .readTimeout | .recordWriteBegin _ | .recordWriteComplete => true
  | _ => false

theorem exec_hostSide {c : Instr} {s t : State} (run : exec c s = .next t) (host : Instr.hostSide c = true) : s.sameAudio t := by
  have due {p : Prop} {_ : Decidable p} {u : State} (effect : s.sameAudio u) : s.sameAudio (if p then u else s) :=
    State.due_of s.sameAudio_refl fun _ => effect
  cases c with
  | memoryEnable on => cases run; exact due (s.writeEnable_audio on)
  | post _ | noticeClear _ | noticeMaskWrite _ | windowRegisterWrite _ _ | periodicDue | engineActive | intakeTake =>
    cases run; exact due ⟨rfl, rfl, rfl, rfl, rfl, rfl, rfl, rfl, rfl⟩
  | configurationAccess _ => cases run; constructor <;> rfl
  | busMasteringWithdrawn => cases run; exact due s.withdraw_audio
  | sectionFetch =>
    cases run
    split
    · exact s.sameAudio_refl
    · constructor <;> simp
  | readCompletion _ _ =>
    cases run
    split
    · constructor <;> rfl
    · exact State.ite_of (fun _ => by constructor <;> simp) fun _ => by constructor <;> rfl
  | readTimeout => cases run; exact due (by constructor <;> simp)
  | recordWriteBegin sent => cases run; split; exacts [s.sameAudio_refl, s.beginRecord_audio _ sent]
  | recordWriteComplete => cases run; split; exacts [s.sameAudio_refl, s.completeRecord_audio _]
  | _ => cases host

/-! ### The commands that reach the marks and one block -/

theorem State.rampSwitch_eq (s : State) (i : RampId) :
    s.rampSwitch i = { s with mix := (s.rampSwitch i).mix, inst := (s.rampSwitch i).inst } := by
  unfold State.rampSwitch
  split
  · split <;> rfl
  · split <;> rfl
  all_goals rfl

theorem State.setRef_eq (s : State) (r : RefMonitor) :
    s.setRef r = { s with ref := (s.setRef r).ref, link := (s.setRef r).link } := by
  unfold State.setRef
  split <;> rfl

end Sys2Proof.Machine

end

