-- ==== Sys2Proof/Proofs/SoundLanes.lean ====
section
/-! PROOFS. The invariant of the lanes (R87, R88, R90, R92, R97): what each operation on a lane keeps, and that every
command keeps it. -/

namespace Sys2Proof.Machine

/-! ### Vectors by their indices -/

theorem ofFn_at {α : Type} {n : Nat} (f : Fin n → α) (i : Fin n) : (Vector.ofFn f)[i] = f i := by
  simp

theorem set_same {α : Type} {n : Nat} (v : Vector α n) (k : Fin n) (x : α) : (v.set k x)[k] = x := by
  simp

theorem set_other {α : Type} {n : Nat} (v : Vector α n) {k i : Fin n} (x : α) (h : i ≠ k) : (v.set k x)[i] = v[i] := by
  have : k.val ≠ i.val := fun e => h (Fin.ext e.symm)
  simp [this]

/-- What holds of a vector's elements, and of the one that replaces an element, holds after the replacement. -/
theorem set_of {α : Type} {n : Nat} {P : Fin n → α → Prop} {v : Vector α n} {k : Fin n} {x : α}
    (all : ∀ i : Fin n, P i v[i]) (new : P k x) (i : Fin n) : P i (v.set k x)[i] := by
  by_cases h : i = k
  · subst h
    rwa [set_same]
  · rw [set_other v x h]
    exact all i

/-! ### An input lane -/

theorem InLaneCtx.buffered_iff (c : InLaneCtx) : c.buffered = true ↔ c.state = .locked ∧ c.setup.clocking = .slave := by
  simp [InLaneCtx.buffered]

theorem InLaneCtx.sound_iff (c : InLaneCtx) :
    c.sound = true ↔
      (c.state = .off ↔ c.setup.enabled = false) ∧ (c.run = 4 ↔ c.state = .locked) ∧ c.run ≤ 4 ∧ c.buffer.length ≤ 4 ∧
        (c.buffered = true ∨ c.buffer = []) ∧ c.overruns ≤ 65535 ∧ c.underruns ≤ 65535 ∧ c.syncLosses ≤ 65535 ∧
        c.parityRepeats ≤ 65535 ∧ c.seeking ≤ 65535 := by
  simp only [InLaneCtx.sound, Bool.and_eq_true, beq_iff_eq, decide_eq_true_eq, Bool.or_eq_true, List.isEmpty_iff, and_assoc]
  refine and_congr ?_ (and_congr ?_ Iff.rfl)
  · cases c.setup.enabled <;> simp
  · exact decide_eq_decide

theorem countUp_le (n : Nat) : countUp n ≤ 65535 := Nat.min_le_left ..

theorem InLaneCtx.takeFrame_sound {c : InLaneCtx} (h : c.sound = true) (f : SlotWords) : (c.takeFrame f).sound = true := by
  rw [InLaneCtx.sound_iff] at h ⊢
  obtain ⟨off, locked, run, fill, empty, overrun, underrun, sync, -, seek⟩ := h
  exact ⟨off, locked, run, fill, empty, overrun, underrun, sync, Nat.min_le_left .., seek⟩

theorem InLaneCtx.arrive_sound {c : InLaneCtx} (h : c.sound = true) (buffered : c.buffered = true) (f : SlotWords) :
    (c.arrive f).sound = true := by
  rw [InLaneCtx.sound_iff] at h ⊢
  obtain ⟨off, locked, run, fill, -, overrun, underrun, sync, parity, seek⟩ := h
  refine ⟨off, locked, run, bufferArrive_length _ f fill, .inl buffered, ?_, underrun, sync, parity, seek⟩
  unfold InLaneCtx.arrive
  dsimp only
  split
  · exact countUp_le _
  · exact overrun

theorem InLaneCtx.readBuffer_sound {c : InLaneCtx} (h : c.sound = true) (buffered : c.buffered = true) :
    c.readBuffer.sound = true := by
  unfold InLaneCtx.readBuffer
  dsimp only
  split
  case h_1 f rest _ held =>
    have taken := InLaneCtx.takeFrame_sound h f
    rw [InLaneCtx.sound_iff] at h taken ⊢
    obtain ⟨off, locked, run, fill, -, counts⟩ := taken
    refine ⟨off, locked, run, ?_, .inl buffered, counts⟩
    have : (f :: rest).length ≤ 4 := held ▸ fill
    exact Nat.le_of_succ_le this
  case h_2 =>
    rw [InLaneCtx.sound_iff] at h ⊢
    obtain ⟨off, locked, run, fill, empty, overrun, underrun, rest⟩ := h
    refine ⟨off, locked, run, fill, empty, overrun, ?_, rest⟩
    dsimp only
    split
    · exact countUp_le _
    · exact underrun

theorem InLaneCtx.readOnce_sound {c : InLaneCtx} (h : c.sound = true) : c.readOnce.sound = true := by
  unfold InLaneCtx.readOnce
  split
  case isTrue due =>
    simp only [Bool.and_eq_true] at due
    exact InLaneCtx.readBuffer_sound h due.1
  case isFalse => exact h

/-- An enabled lane that enters SEEKING is sound, whatever it was. -/
theorem InLaneCtx.enterSeeking_sound {c : InLaneCtx} (enabled : c.setup.enabled = true) (overrun : c.overruns ≤ 65535)
    (underrun : c.underruns ≤ 65535) (sync : c.syncLosses ≤ 65535) (parity : c.parityRepeats ≤ 65535) :
    c.enterSeeking.sound = true := by
  rw [InLaneCtx.sound_iff]
  refine ⟨?_, ⟨nofun, nofun⟩, Nat.zero_le _, Nat.zero_le _, .inr rfl, overrun, underrun, sync, parity, Nat.zero_le _⟩
  change InState.seeking = .off ↔ c.setup.enabled = false
  simp [enabled]

/-- A lane not enabled that enters OFF is sound, whatever it was. -/
theorem InLaneCtx.enterOff_sound {c : InLaneCtx} (disabled : c.setup.enabled = false) (overrun : c.overruns ≤ 65535)
    (underrun : c.underruns ≤ 65535) (sync : c.syncLosses ≤ 65535) (parity : c.parityRepeats ≤ 65535) :
    c.enterOff.sound = true := by
  rw [InLaneCtx.sound_iff]
  exact ⟨⟨fun _ => disabled, fun _ => rfl⟩, ⟨nofun, nofun⟩, Nat.zero_le _, Nat.zero_le _, .inr rfl, overrun, underrun, sync, parity,
    Nat.zero_le _⟩

theorem InLaneCtx.loseLock_sound {c : InLaneCtx} (h : c.sound = true) (locked : c.state = .locked) :
    c.loseLock.sound = true := by
  rw [InLaneCtx.sound_iff] at h
  obtain ⟨off, -, -, -, -, overrun, underrun, -, parity, -⟩ := h
  have enabled : c.setup.enabled = true := by
    rw [locked] at off
    simpa using off
  exact InLaneCtx.enterSeeking_sound (c := { c with syncLosses := countUp c.syncLosses }) enabled overrun underrun (countUp_le _)
    parity

theorem InLaneCtx.seek_sound {c : InLaneCtx} (h : c.sound = true) (p : Nat) (w : Word32) : (c.seek p w).sound = true := by
  unfold InLaneCtx.seek
  split
  case isFalse => exact h
  case isTrue looked =>
    rw [InLaneCtx.sound_iff] at h
    obtain ⟨off, locked, run, fill, empty, overrun, underrun, sync, parity, seek⟩ := h
    simp only [Bool.and_eq_true, decide_eq_true_eq] at looked
    have seeking : c.state = .seeking := looked.1
    have running : c.run ≠ 4 := by simp [locked, seeking]
    have drained : c.buffer = [] := empty.resolve_left (by simp [InLaneCtx.buffered, seeking])
    have enabled : c.setup.enabled ≠ false := by simp [← off, seeking]
    split
    · unfold InLaneCtx.syncFound
      split
      · rw [InLaneCtx.sound_iff]
        refine ⟨?_, ⟨fun _ => rfl, fun _ => rfl⟩, Nat.le_refl _, Nat.zero_le _, .inr rfl, overrun, underrun, sync, parity,
          Nat.zero_le _⟩
        change InState.locked = .off ↔ c.setup.enabled = false
        simp [enabled]
      · rw [InLaneCtx.sound_iff]
        refine ⟨off, ?_, ?_, fill, .inr drained, overrun, underrun, sync, parity, seek⟩
        · change c.run + 1 = 4 ↔ c.state = .locked
          simp only [seeking, reduceCtorEq, iff_false]
          omega
        · change c.run + 1 ≤ 4
          omega
    · rw [InLaneCtx.sound_iff]
      refine ⟨off, ?_, Nat.zero_le _, fill, .inr drained, overrun, underrun, sync, parity, seek⟩
      change 0 = 4 ↔ c.state = .locked
      simp [seeking]

/-- The flags, the side codes and the marks of a lane are no part of its soundness. -/
theorem InLaneCtx.sound_marks (c : InLaneCtx) (lost flagged seen read : Bool) (side : Vector (Option (BitVec 6)) 8) :
    ({ c with lostShown := lost, statusPending := flagged, frameSeen := seen, readDone := read
              sideSample := side } : InLaneCtx).sound = c.sound := rfl

theorem InLaneCtx.tick_sound {c : InLaneCtx} (h : c.sound = true) (laneLoss : Nat) (taken : Bool) :
    (c.tick laneLoss taken).sound = true := by
  unfold InLaneCtx.tick
  split
  · exact h
  · split
    case isTrue missing =>
      simp only [InLaneCtx.syncMissing, Bool.and_eq_true] at missing
      change c.loseLock.sound = true
      exact InLaneCtx.loseLock_sound h (c.buffered_iff.mp missing.1).1
    case isFalse =>
      change c.seekTick.sound = true
      unfold InLaneCtx.seekTick
      split
      · rw [InLaneCtx.sound_iff] at h ⊢
        obtain ⟨off, locked, run, fill, empty, overrun, underrun, sync, parity, -⟩ := h
        exact ⟨off, locked, run, fill, empty, overrun, underrun, sync, parity, countUp_le _⟩
      · exact h

theorem InLaneCtx.applySetup_sound {c : InLaneCtx} (h : c.sound = true) (p : LaneSetup) : (c.applySetup p).sound = true := by
  rw [InLaneCtx.sound_iff] at h
  obtain ⟨off, locked, run, fill, empty, overrun, underrun, sync, parity, seek⟩ := h
  unfold InLaneCtx.applySetup
  dsimp only
  split
  case isTrue same =>
    have same : c.setup.enabled = p.enabled ∧ (p.enabled = true → c.setup.clocking = p.clocking) := by
      simpa [setupRestarts, imp_iff_not_or] using same
    obtain ⟨enabled, clocking⟩ := same
    rw [InLaneCtx.sound_iff]
    refine ⟨by simpa [enabled] using off, locked, run, fill, ?_, overrun, underrun, sync, parity, seek⟩
    refine empty.imp_left fun buffered => ?_
    rw [InLaneCtx.buffered_iff] at buffered ⊢
    obtain ⟨state, slave⟩ := buffered
    have on : p.enabled = true := by
      rw [state, enabled] at off
      simpa using off
    exact ⟨state, (clocking on).symm.trans slave⟩
  case isFalse =>
    split
    case isTrue on => exact InLaneCtx.enterSeeking_sound on overrun underrun sync parity
    case isFalse on => exact InLaneCtx.enterOff_sound (by simpa using on) overrun underrun sync parity

/-! ### An output lane -/

theorem OutLaneCtx.sound_iff (c : OutLaneCtx) :
    c.sound = true ↔
      c.running = c.setup.enabled ∧ c.buffer.length ≤ 4 ∧ (c.buffered = true ∨ c.buffer = []) ∧ c.overruns ≤ 65535 ∧
        c.underruns ≤ 65535 := by
  simp [OutLaneCtx.sound, and_assoc]

theorem OutLaneCtx.buffered_iff (c : OutLaneCtx) : c.buffered = true ↔ c.running = true ∧ c.setup.clocking = .slave := by
  simp [OutLaneCtx.buffered]

theorem OutLaneCtx.put_sound {c : OutLaneCtx} (h : c.sound = true) (f : SlotWords) : (c.put f).sound = true := by
  unfold OutLaneCtx.put
  split
  · exact h
  · split
    · exact h
    next running _ slave =>
      rw [OutLaneCtx.sound_iff] at h ⊢
      obtain ⟨enabled, fill, -, overrun, underrun⟩ := h
      refine ⟨enabled, bufferArrive_length _ f fill, .inl ?_, ?_, underrun⟩
      · exact (OutLaneCtx.buffered_iff _).mpr ⟨by simpa using running, slave⟩
      · dsimp only
        split
        · exact countUp_le _
        · exact overrun

theorem OutLaneCtx.partnerRead_sound {c : OutLaneCtx} (h : c.sound = true) (buffered : c.buffered = true) :
    c.partnerRead.sound = true := by
  unfold OutLaneCtx.partnerRead
  dsimp only
  split
  case h_1 f rest _ held =>
    rw [OutLaneCtx.sound_iff] at h ⊢
    obtain ⟨enabled, fill, -, overrun, underrun⟩ := h
    have : (f :: rest).length ≤ 4 := held ▸ fill
    exact ⟨enabled, Nat.le_of_succ_le this, .inl buffered, overrun, underrun⟩
  case h_2 =>
    rw [OutLaneCtx.sound_iff] at h ⊢
    obtain ⟨enabled, fill, empty, overrun, underrun⟩ := h
    refine ⟨enabled, fill, empty, overrun, ?_⟩
    dsimp only
    split
    · exact countUp_le _
    · exact underrun

theorem OutLaneCtx.applySetup_sound {c : OutLaneCtx} (h : c.sound = true) (p : LaneSetup) :
    (c.applySetup p).sound = true := by
  rw [OutLaneCtx.sound_iff] at h
  obtain ⟨enabled, fill, empty, overrun, underrun⟩ := h
  unfold OutLaneCtx.applySetup
  dsimp only
  split
  case isTrue same =>
    have same : c.setup.enabled = p.enabled ∧ (p.enabled = true → c.setup.clocking = p.clocking) := by
      simpa [setupRestarts, imp_iff_not_or] using same
    obtain ⟨on, clocking⟩ := same
    rw [OutLaneCtx.sound_iff]
    refine ⟨enabled.trans on, fill, empty.imp_left fun buffered => ?_, overrun, underrun⟩
    rw [OutLaneCtx.buffered_iff] at buffered ⊢
    obtain ⟨running, slave⟩ := buffered
    exact ⟨running, (clocking (on ▸ enabled ▸ running)).symm.trans slave⟩
  case isFalse =>
    split
    case isTrue disabled =>
      rw [OutLaneCtx.sound_iff]
      exact ⟨(by simpa using disabled : p.enabled = false).symm, Nat.zero_le _, .inr rfl, overrun, underrun⟩
    case isFalse on =>
      have on : p.enabled = true := by simpa using on
      split
      case isTrue held =>
        rw [OutLaneCtx.sound_iff]
        exact ⟨(enabled.trans held).trans on.symm, Nat.zero_le _, .inr rfl, overrun, underrun⟩
      case isFalse =>
        rw [OutLaneCtx.sound_iff]
        exact ⟨on.symm, Nat.zero_le _, .inr rfl, overrun, underrun⟩

theorem InLaneCtx.losesBy_locked {c : InLaneCtx} {cause : LockLoss} (h : c.losesBy cause = true) : c.state = .locked := by
  cases cause with
  | wrongSync _ =>
    simp only [InLaneCtx.losesBy, Bool.and_eq_true, decide_eq_true_eq] at h
    exact h.1
  | missingSync =>
    simp only [InLaneCtx.losesBy, InLaneCtx.syncMissing, Bool.and_eq_true] at h
    exact (c.buffered_iff.mp h.1).1

/-! ### The lanes of the part -/

theorem State.lanesSound_of_eq {s t : State} (lrx : t.lrx = s.lrx) (ltx : t.ltx.lanes = s.ltx.lanes) (h : s.lanesSound) :
    t.lanesSound := by
  rw [State.lanesSound, lrx, ltx]
  exact h

theorem reset_lanesSound : State.reset.lanesSound :=
  ⟨fun i => by rw [reset_inLane]; decide, fun o => by rw [reset_outLane]; decide⟩

theorem State.setInLane_lanesSound {s : State} (h : s.lanesSound) (i : InLane) {c : InLaneCtx} (new : c.sound = true) :
    (s.setInLane i c).lanesSound :=
  ⟨set_of (P := fun _ (c : InLaneCtx) => c.sound = true) h.1 new, h.2⟩

theorem State.setOutLane_lanesSound {s : State} (h : s.lanesSound) (o : OutLane) {c : OutLaneCtx} (new : c.sound = true) :
    (s.setOutLane o c).lanesSound :=
  ⟨h.1, set_of (P := fun _ (c : OutLaneCtx) => c.sound = true) h.2 new⟩

theorem Lrx.flag_sound {x : Lrx} (h : ∀ i : InLane, (x.lanes[i]).sound = true) (entries : List (Fin 9)) (on : Fin 9 → Bool)
    (i : InLane) : ((x.flag entries on).lanes[i]).sound = true := by
  unfold Lrx.flag
  rw [ofFn_at]
  dsimp only
  split
  · exact h i
  · exact h i

theorem Ltx.flag_sound {x : Ltx} (h : ∀ o : OutLane, (x.lanes[o]).sound = true) (entries : List (Fin 9))
    (on : Fin 9 → Bool) (o : OutLane) : ((x.flag entries on).lanes[o]).sound = true := by
  unfold Ltx.flag
  rw [ofFn_at]
  dsimp only
  split
  · exact h o
  · exact h o

theorem State.lookRound_lanesSound {s : State} (h : s.lanesSound) (seen : State) (left : ReportFlags) :
    (s.lookRound seen left).lanesSound :=
  State.ite_of (fun _ => ⟨fun i => Lrx.flag_sound h.1 _ _ i, fun o => Ltx.flag_sound h.2 _ _ o⟩) fun _ => h

theorem State.takeSample_lanesSound {s : State} (h : s.lanesSound) : s.takeSample.lanesSound := by
  refine ⟨fun i => ?_, fun o => ?_⟩
  · have lane : s.takeSample.lrx.lanes[i] = ((s.lrx.lanes[i]).readOnce).endSample := by
      simp [State.takeSample, State.emit, State.inSample, State.readLanes]
    rw [lane]
    exact InLaneCtx.readOnce_sound (h.1 i)
  · have lane : s.takeSample.ltx.lanes[o] = (s.ltx.lanes[o]).put (s.inSample.frame s.inSample.outputs o) :=
      ofFn_at ..
    rw [lane]
    exact OutLaneCtx.put_sound (h.2 o) _

theorem State.laneAfter_sound {s : State} (h : s.lanesSound) (i : InLane) : (s.laneAfter i).sound = true :=
  InLaneCtx.tick_sound (h.1 i) ..

theorem State.linePhase_lanesSound {s : State} (h : s.lanesSound) (plans : Vector (Option LinePlan) 24) (delta : Int) :
    (s.linePhase plans delta).lanesSound := by
  refine ⟨fun i => ?_, h.2⟩
  have lane : (s.linePhase plans delta).lrx.lanes[i] = s.laneAfter i := ofFn_at ..
  rw [lane]
  exact State.laneAfter_sound h i

theorem State.handOver_lanesSound {s : State} (h : s.lanesSound) : s.handOver.lanesSound := by
  refine ⟨fun i => ?_, fun o => ?_⟩
  · change ((s.lrx.applied s.intake.staging).lanes[i]).sound = true
    unfold Lrx.applied
    dsimp only
    split
    · exact h.1 i
    · rw [ofFn_at]
      exact InLaneCtx.applySetup_sound (h.1 i) _
  · change ((s.ltx.applied s.intake.staging).lanes[o]).sound = true
    unfold Ltx.applied
    dsimp only
    split
    · exact h.2 o
    · rw [ofFn_at]
      exact OutLaneCtx.applySetup_sound (h.2 o) _

theorem State.applyTick_lanesSound {s : State} (h : s.lanesSound) : s.applyTick.lanesSound := by
  have moved := State.linePhase_lanesSound (State.handOver_lanesSound h) s.admittedPlans
    ((s.handOver.line.dumpDepth : Int) - s.line.dumpDepth)
  exact State.ite_of (fun _ => moved) fun _ => moved

theorem State.linePart_lanesSound {s : State} (h : s.lanesSound) : s.linePart.lanesSound :=
  State.ite_of (fun _ => State.applyTick_lanesSound h) fun _ => State.linePhase_lanesSound h ..

theorem State.blockTick_lanesSound {s : State} (h : s.lanesSound) (pins : BitVec 16) (follows first : Bool) :
    (s.blockTick pins follows first).lanesSound := by
  have before : ({ s with link := s.link.engineTick } : State).takePhase.countBlock.lanesSound :=
    State.lanesSound_of_eq (by simp) (by simp) h
  have audio : (s.audioTick pins).lanesSound :=
    State.lanesSound_of_eq (by simp [State.audioTick]) (by simp [State.audioTick]) (State.linePart_lanesSound before)
  have events : (s.tickEvents pins follows).lanesSound :=
    State.lanesSound_of_eq (by simp [State.tickEvents]) (by simp [State.tickEvents]) audio
  have round := State.lookRound_lanesSound events ((s.tickEvents pins follows).seenAt s pins first)
    (if first then s.tickFlags pins else ReportFlags.clear)
  refine ⟨fun i => ?_, round.2⟩
  have lane : (s.blockTick pins follows first).lrx.lanes[i] =
      (((s.tickEvents pins follows).roundPhase s pins first).lrx.lanes[i]).endTick := ofFn_at ..
  rw [lane]
  exact round.1 i

theorem State.loseLock_lanesSound {s : State} (h : s.lanesSound) (i : InLane) (cause : LockLoss)
    (locked : (s.lrx.lanes[i]).state = .locked) : (s.loseLock i cause).lanesSound :=
  State.lanesSound_of_eq (by rfl) (by rfl) (State.setInLane_lanesSound h i (InLaneCtx.loseLock_sound (h.1 i) locked))

theorem State.seekLane_lanesSound {s : State} (h : s.lanesSound) (i : InLane) (p : Nat) (w : Word32) :
    (s.seekLane i p w).lanesSound :=
  State.lanesSound_of_eq (by rfl) (by rfl) (State.setInLane_lanesSound h i (InLaneCtx.seek_sound (h.1 i) p w))

theorem State.laneLost_lanesSound {s : State} (h : s.lanesSound) (i : InLane) :
    ((linesOfLane i).foldl State.tickLineOnce (s.tickLane i)).lanesSound := by
  have lane : (s.tickLane i).lanesSound := State.setInLane_lanesSound h i (State.laneAfter_sound h i)
  refine List.foldlRecOn (motive := State.lanesSound) (linesOfLane i) State.tickLineOnce lane fun u kept l _ => ?_
  exact State.lanesSound_of_eq (u.tickLineOnce_lrx l) (congrArg Ltx.lanes (u.tickLineOnce_ltx l)) kept

/-- A command keeps every lane sound. -/
theorem exec_lanesSound {c : Instr} {s t : State} (run : exec c s = .next t) (h : s.lanesSound) : t.lanesSound := by
  cases c with
  | powerOnReset => cases run; exact reset_lanesSound
  | softReset => cases run; exact State.due_of h fun _ => reset_lanesSound
  | linkReset =>
    cases run
    exact ⟨fun i => Lrx.flag_sound h.1 _ _ i, fun o => Ltx.flag_sound h.2 _ _ o⟩
  | ignoredRegisterWrite o w v =>
    cases run
    exact State.due_of h fun _ => State.registerWrite_of (fun _ => reset_lanesSound) (fun _ _ _ => id) h o w v
  | sample => cases run; exact State.takeSample_lanesSound h
  | partnerRead o =>
    cases run
    exact State.due_of h fun buffered => State.setOutLane_lanesSound h o (OutLaneCtx.partnerRead_sound (h.2 o) buffered)
  | laneFrame i f =>
    cases run
    exact State.due_of h fun _ => State.setInLane_lanesSound h i (InLaneCtx.takeFrame_sound (h.1 i) f)
  | elasticArrival i f =>
    cases run
    exact State.due_of h fun buffered => State.setInLane_lanesSound h i (InLaneCtx.arrive_sound (h.1 i) buffered f)
  | elasticRead i => cases run; exact State.setInLane_lanesSound h i (InLaneCtx.readOnce_sound (h.1 i))
  | laneLock i p w =>
    cases run
    exact State.due_of h fun _ => State.seekLane_lanesSound h i p w
  | seekingSync i p w => cases run; exact State.seekLane_lanesSound h i p w
  | lossOfLock i cause =>
    cases run
    exact State.due_of h fun loses => State.loseLock_lanesSound h i cause (InLaneCtx.losesBy_locked loses)
  | laneLost i => cases run; exact State.due_of h fun _ => State.laneLost_lanesSound h i
  | blockTick pins meets => cases run; exact State.blockTick_lanesSound h ..
  | apply => cases run; exact State.due_of h fun _ => State.applyTick_lanesSound h
  | roundBegin => cases run; exact State.due_of h fun _ => State.lookRound_lanesSound h ..
  | laneHold _ | keyPress _ | keyRelease _ | holdCountExpiry _ | outgoingFadeEnd _ =>
    cases run; exact State.due_of h fun _ => h
  | refLock => cases run; exact State.due_of h fun _ => State.lanesSound_of_eq (by simp) (by simp) h
  | refUnlock => cases run; exact State.lanesSound_of_eq (by simp) (by simp) h
  | rampEnd i => cases run; exact State.ite_of (fun _ => h) fun _ => by rw [s.rampSwitch_eq]; exact h
  | codeSettle _ | lossCountExpiry _ | shadowCountEnd _ =>
    cases run; exact State.due_of h fun _ => State.lanesSound_of_eq (by simp) (by simp) h
  | memoryEnable _ | post _ | noticeClear _ | noticeMaskWrite _ | windowRegisterWrite _ _ | configurationAccess _
  | busMasteringWithdrawn | periodicDue | engineActive | intakeTake | sectionFetch | readCompletion _ _ | readTimeout
  | recordWriteBegin _ | recordWriteComplete => rw [(exec_hostSide run rfl).eq]; exact h

end Sys2Proof.Machine

open Sys2Proof Sys2Proof.Machine

/-- Settles O59: every command keeps the lanes sound, and soundness does not look at the queue. -/
theorem stepKeepsLanes : Obligations.StepKeepsLanes := by
  unfold Obligations.StepKeepsLanes
  exact fun _ _ => step_keeps (fun _ _ => id) fun _ _ _ => exec_lanesSound

end

