-- ==== Sys2Proof/Proofs/SoundSettings.lean ====
section
/-! PROOFS. The invariant of the settings (R117 to R119): staging holds records within their ranges, the apply hands them
over, and no command but these reaches a setting. -/

namespace Sys2Proof.Machine

/-! ### Records staged (R117 to R119) -/

theorem clampTo_range {low high : Nat} (h : low ≤ high) (v : Nat) :
    low ≤ clampTo low high v ∧ clampTo low high v ≤ high := by
  unfold clampTo
  omega

theorem Timing.sound_iff (t : Timing) :
    t.sound = true ↔
      ((((((1 ≤ t.mainBlocks ∧ t.mainBlocks ≤ 16) ∧ 1 ≤ t.cueBlocks ∧ t.cueBlocks ≤ 16) ∧
        1 ≤ t.lossHoldoff ∧ t.lossHoldoff ≤ 65535) ∧ t.shadowMargin ≤ 65535) ∧ 1 ≤ t.settle ∧ t.settle ≤ 16) ∧
        1 ≤ t.laneLoss ∧ t.laneLoss ≤ 65535) ∧ 1 ≤ t.reportPeriod ∧ t.reportPeriod ≤ 1000 := by
  simp only [Timing.sound, Bool.and_eq_true, decide_eq_true_eq]

theorem timingOf_sound (b : List Byte) : (timingOf b).sound = true := by
  have range (f : Nat) : (timingRange f).1 ≤ timingField b f ∧ timingField b f ≤ (timingRange f).2 :=
    clampTo_range (timingRange_le f) _
  have main := range 0
  have cue := range 1
  have holdoff := range 2
  have margin := range 3
  have settle := range 4
  have loss := range 5
  have period := range 6
  exact (Timing.sound_iff _).mpr ⟨⟨⟨⟨⟨⟨main, cue⟩, holdoff⟩, margin.2⟩, settle⟩, loss⟩, period⟩

theorem linePlanOf_sound (l : Line) (b : List Byte) : (linePlanOf l b).sound l = true := by
  obtain ⟨few, -, other⟩ := keptPartners_take_sound l (partnerEntries b) 6
  rw [LinePlan.sound, linePlanOf_partners]
  simp only [Bool.and_eq_true, decide_eq_true_eq, Bool.not_eq_true', List.contains_eq_mem, decide_eq_false_iff_not,
    mem_ascending]
  exact ⟨⟨(ascending_length_le _).trans few, other⟩, ascending_pairwise _⟩

theorem Staging.empty_sound : Staging.empty.sound :=
  ⟨fun l => by simp [Staging.empty], rfl, rfl⟩

theorem Staging.enter_sound {g : Staging} (h : g.sound) (k : SectionKind) (b : List Byte) : (g.enter k b).sound := by
  obtain ⟨lines, timing, studio⟩ := h
  cases k with
  | line l =>
    exact ⟨set_of (P := fun l p => Option.all (LinePlan.sound l) p = true) lines (linePlanOf_sound l b), timing, studio⟩
  | studio => exact ⟨lines, timing, decide_eq_true (Nat.le_of_lt_succ (wordAt_lt b 16))⟩
  | timing => exact ⟨lines, timingOf_sound b, studio⟩
  | sources | routes | codes | screening | lanes | request => exact ⟨lines, timing, studio⟩

theorem Intake.judge_staging_sound {i : Intake} (h : i.staging.sound) (sec : Section) (tail : BitVec 16) :
    (i.judge sec tail).staging.sound := by
  unfold Intake.judge
  dsimp only
  split
  · rwa [Intake.close_staging]
  · split
    · rwa [Intake.close_staging]
    · rw [Intake.close_staging]
      exact Staging.enter_sound h _ _

/-! ### What the settings look at in REPORT and INTAKE -/

/-- REPORT's and INTAKE's share of the settings is within its ranges. -/
def State.heldSound (s : State) : Prop :=
  1 ≤ s.report.period ∧ s.report.period ≤ 1000 ∧ s.report.meterCounter ≤ 999 ∧ s.intake.staging.sound

theorem State.settingsSound.held {s : State} (h : s.settingsSound) : s.heldSound := by
  obtain ⟨timing, -, counter, staging⟩ := h
  obtain ⟨-, low, high⟩ := (Timing.sound_iff _).mp timing
  exact ⟨low, high, counter, staging⟩

theorem State.settingsSound_of {s t : State} (h : s.settingsSound) (held : t.heldSound)
    (timing : t.timing = { s.timing with reportPeriod := t.report.period })
    (depth : t.line.dumpDepth = s.line.dumpDepth) : t.settingsSound := by
  obtain ⟨low, high, counter, staging⟩ := held
  refine ⟨?_, depth ▸ h.2.1, counter, staging⟩
  obtain ⟨before, -⟩ := (Timing.sound_iff _).mp h.1
  rw [timing]
  exact (Timing.sound_iff _).mpr ⟨before, low, high⟩

/-- The settings stand where no setting, no staged record and no counter of REPORT has changed. -/
theorem State.settingsSound_of_eq {s t : State} (h : s.settingsSound) (timing : t.timing = s.timing)
    (depth : t.line.dumpDepth = s.line.dumpDepth) (counter : t.report.meterCounter = s.report.meterCounter)
    (staging : t.intake.staging = s.intake.staging) : t.settingsSound := by
  have period : t.report.period = s.report.period := congrArg Timing.reportPeriod timing
  refine State.settingsSound_of h ?_ (timing.trans (by rw [period]; rfl)) depth
  rw [State.heldSound, period, counter, staging]
  exact h.held

section
variable {s : State}

theorem State.fetchFault_held (h : s.heldSound) (sec : Section) : (s.fetchFault sec).heldSound := by
  obtain ⟨low, high, counter, staging⟩ := h
  exact ⟨low, high, counter, by rw [State.fetchFault, Intake.close_staging]; exact staging⟩

theorem State.issueRead_held (h : s.heldSound) (sec : Section) (step : ReadStep) : (s.issueRead sec step).heldSound :=
  State.ite_of (fun _ => h) fun _ => State.fetchFault_held h sec

theorem State.beginFetch_held (h : s.heldSound) (sec : Section) : (s.beginFetch sec).heldSound := by
  refine State.ite_of (fun _ => h) fun _ => State.ite_of (fun _ => State.issueRead_held h sec .head) fun _ => ?_
  obtain ⟨low, high, counter, staging⟩ := h
  exact ⟨low, high, counter, by rw [State.countMiss_intake, Intake.close_staging]; exact staging⟩

theorem State.readDone_held (h : s.heldSound) (sec : Section) (step : ReadStep) (b : List Byte) :
    (s.readDone sec step b).heldSound := by
  cases step with
  | head => exact State.issueRead_held (s := { s with intake := { s.intake with head := some (stampOf b) } }) h ..
  | record => exact State.issueRead_held (s := { s with intake := { s.intake with record := some b } }) h ..
  | tail =>
    obtain ⟨low, high, counter, staging⟩ := h
    exact ⟨low, high, counter, Intake.judge_staging_sound staging ..⟩

theorem State.completeRead_held (h : s.heldSound) (r : PlanRead) (x : ReadResult) : (s.completeRead r x).heldSound := by
  have done : ({ s with link := { s.link with read := none } } : State).heldSound := h
  unfold State.completeRead
  dsimp only
  split
  · exact h
  · split
    · exact State.readDone_held done ..
    · exact State.fetchFault_held done _

theorem State.timeoutRead_held (h : s.heldSound) : s.timeoutRead.heldSound := by
  unfold State.timeoutRead
  dsimp only
  split
  · exact h
  · exact State.fetchFault_held h _

theorem State.readTick_held (h : s.heldSound) : s.readTick.heldSound := by
  unfold State.readTick
  split
  · exact h
  · exact State.ite_of (fun _ => State.timeoutRead_held h) fun _ => h

theorem State.takePost_held (h : s.heldSound) : s.takePost.heldSound := by
  obtain ⟨low, high, counter, -⟩ := h
  exact ⟨low, high, counter, Staging.empty_sound⟩

theorem Report.periodTick_counter {r : Report} (low : 1 ≤ r.period) (high : r.period ≤ 1000) :
    r.periodTick.meterCounter ≤ 999 := by
  unfold Report.periodTick
  split
  · exact Nat.zero_le _
  next short =>
    change r.meterCounter + 1 ≤ 999
    omega

theorem Report.periodTick_period (r : Report) : r.periodTick.period = r.period := by
  unfold Report.periodTick
  split <;> rfl

theorem State.periodTick_held (h : s.heldSound) (inst : Instant) :
    ({ s with report := s.report.periodTick, inst := inst } : State).heldSound := by
  obtain ⟨low, high, -, staging⟩ := h
  refine ⟨?_, ?_, Report.periodTick_counter low high, staging⟩
  · exact s.report.periodTick_period.symm ▸ low
  · exact s.report.periodTick_period.symm ▸ high

theorem State.raise_held (h : s.heldSound) (bit : Word32) : (s.raise bit).heldSound := h

theorem State.finishRecord_held (h : s.heldSound) (r : Round) (x : RoundRecord) (written : Bool) :
    (s.finishRecord r x written).heldSound := by
  have notice : (s.recordNotice x written).heldSound := by
    rw [State.heldSound, State.recordNotice_report, State.recordNotice_intake]
    exact h
  have verdicts {u : State} (h : u.heldSound) : u.verdictsDone.heldSound := State.ite_of (fun _ => h) fun _ => h
  have meters {u : State} (h : u.heldSound) (r : Round) : (u.metersComplete r).heldSound := by
    unfold State.metersComplete
    dsimp only
    split <;> split <;> exact h
  have ends {u : State} (h : u.heldSound) (r : Round) : (u.roundEnd r).heldSound :=
    State.ite_of (fun _ => State.ite_of (fun _ => h) fun _ => h) fun _ => h
  have drain {u : State} (h : u.heldSound) : u.drainCheck.heldSound := by
    rw [State.heldSound, State.drainCheck_report, State.drainCheck_intake]
    exact h
  have last {u : State} (h : u.heldSound) : (if lastOf RecordKind.isVerdict x r.todo then u.verdictsDone else u).heldSound :=
    State.due_of h fun _ => verdicts h
  exact drain (ends (State.due_of (last notice) fun _ => meters (last notice) _) _)

theorem State.missRecord_held (h : s.heldSound) (r : Round) (x : RoundRecord) : (s.missRecord r x).heldSound :=
  State.finishRecord_held (s := s.countMiss) h r x false

theorem State.sendBegin_held (h : s.heldSound) (x : RoundRecord) (stamp : BitVec 16) (sent : PartSent) :
    (s.sendBegin x stamp sent).heldSound := by
  cases sent <;> exact h

theorem State.beginRecord_held (h : s.heldSound) (r : Round) (sent : PartSent) : (s.beginRecord r sent).heldSound := by
  unfold State.beginRecord
  split
  · have sends := State.sendBegin_held h
    exact State.ite_of (fun _ => ⟨h.1, h.2.1, h.2.2.1, (sends ..).2.2.2⟩) fun _ => State.missRecord_held h ..
  · exact h

theorem State.completeRecord_held (h : s.heldSound) (r : Round) : (s.completeRecord r).heldSound := by
  unfold State.completeRecord
  split
  · exact h
  · refine State.finishRecord_held ?_ ..
    unfold State.sendRest
    split <;> exact h

theorem State.withdraw_held (h : s.heldSound) : s.withdraw.heldSound := by
  have cleared {u : State} (h : u.heldSound) : u.clearEnable.heldSound := by
    rw [State.heldSound, State.clearEnable_report, State.clearEnable_intake]
    exact h
  have missed {u : State} (h : u.heldSound) : u.missUnderway.heldSound := by
    unfold State.missUnderway
    split
    · exact h
    · split
      · exact h
      · exact State.missRecord_held h ..
  exact missed (cleared (u := { s with link := { s.link with busMaster := false } }) h)

theorem State.lookRound_held (h : s.heldSound) (seen : State) (left : ReportFlags) :
    (s.lookRound seen left).heldSound := by
  refine State.due_of h fun _ => ⟨h.1, h.2.1, ?_, h.2.2.2⟩
  change (if seen.work.full then 0 else s.report.meterCounter) ≤ 999
  split
  · exact Nat.zero_le _
  · exact h.2.2.1

end

/-- A command of LINK, INTAKE and REPORT keeps their share of the settings. -/
theorem exec_hostSide_held {c : Instr} {s t : State} (run : exec c s = .next t) (host : Instr.hostSide c = true)
    (h : s.heldSound) : t.heldSound := by
  cases c with
  | memoryEnable on =>
    cases run
    refine State.due_of h fun _ => ?_
    cases on with
    | true => exact h
    | false =>
      change s.clearEnable.heldSound
      rw [State.heldSound, State.clearEnable_report, State.clearEnable_intake]
      exact h
  | post _ | noticeClear _ | noticeMaskWrite _ | windowRegisterWrite _ _ | engineActive =>
    cases run; exact State.due_of h fun _ => h
  | configurationAccess _ => cases run; exact h
  | periodicDue => cases run; exact State.due_of h fun _ => State.periodTick_held h _
  | intakeTake =>
    cases run
    have taken := State.takePost_held h
    exact State.due_of h fun _ => taken
  | busMasteringWithdrawn => cases run; exact State.due_of h fun _ => State.withdraw_held h
  | sectionFetch => cases run; split; exacts [h, State.beginFetch_held h _]
  | readCompletion _ _ =>
    cases run
    split
    · exact h
    · exact State.ite_of (fun _ => State.completeRead_held h ..) fun _ => h
  | readTimeout => cases run; exact State.due_of h fun _ => State.timeoutRead_held h
  | recordWriteBegin sent => cases run; split; exacts [h, State.beginRecord_held h ..]
  | recordWriteComplete => cases run; split; exacts [h, State.completeRecord_held h _]
  | _ => cases host

/-! ### The apply and the tick -/

theorem State.handOver_settingsSound {s : State} (h : s.settingsSound) : s.handOver.settingsSound := by
  obtain ⟨timing, depth, counter, -, staged, studio⟩ := h
  refine ⟨?_, ?_, counter, Staging.empty_sound⟩
  · cases given : s.intake.staging.timing with
    | none =>
      have same : s.handOver.timing = s.timing := by
        simp [State.timing, State.handOver, Mix.applied, LineBlock.applied, Cmap.applied, Lrx.applied, Report.applied, given]
      rw [same]
      exact timing
    | some r =>
      have new : s.handOver.timing = r := by
        simp [State.timing, State.handOver, Mix.applied, LineBlock.applied, Cmap.applied, Lrx.applied, Report.applied, given]
      rw [new]
      simpa [given] using staged
  · change (s.intake.staging.studio.map (·.dumpDepth)).getD s.line.dumpDepth ≤ 65535
    cases given : s.intake.staging.studio with
    | none => exact depth
    | some t => simpa [given] using studio

theorem Mix.setRamp_mainBlocks (m : Mix) (r : Ramp) (i : RampId) : (m.setRamp r i).mainBlocks = m.mainBlocks := by
  cases i <;> rfl

theorem Mix.setRamp_cueBlocks (m : Mix) (r : Ramp) (i : RampId) : (m.setRamp r i).cueBlocks = m.cueBlocks := by
  cases i <;> rfl

section
variable (s : State)

@[simp] theorem State.vacate_timing (old : Vector LineCtx 24) : (s.vacate old).timing = s.timing := by
  simp only [State.timing, State.vacate]
@[simp] theorem State.linesMoved_timing (plans : Vector (Option LinePlan) 24) (delta : Int) :
    (s.linesMoved plans delta).timing = s.timing := by
  simp only [State.timing, State.linesMoved]
@[simp] theorem State.linePhase_timing (plans : Vector (Option LinePlan) 24) (delta : Int) :
    (s.linePhase plans delta).timing = s.timing :=
  (State.vacate_timing ..).trans (s.linesMoved_timing ..)
@[simp] theorem State.lineMoved_timing (l : Line) : (s.lineMoved l).timing = s.timing := by
  simp only [State.timing, State.lineMoved]
@[simp] theorem State.tickLine_timing (l : Line) : (s.tickLine l).timing = s.timing :=
  (State.vacate_timing ..).trans (s.lineMoved_timing l)
@[simp] theorem State.countBlock_timing : s.countBlock.timing = s.timing := rfl
@[simp] theorem State.keyPhase_timing (pins : BitVec 16) : (s.keyPhase pins).timing = s.timing := by
  simp only [State.timing, State.keyPhase]
@[simp] theorem State.cuePhase_timing : s.cuePhase.timing = s.timing := by
  simp only [State.timing, State.cuePhase]
@[simp] theorem State.mixPhase_timing : s.mixPhase.timing = s.timing := by
  simp only [State.timing, State.mixPhase, Mix.tick, Mix.rewind]
@[simp] theorem State.endTick_timing (roundOpen : Bool) : (s.endTick roundOpen).timing = s.timing := by
  simp only [State.timing, State.endTick]
@[simp] theorem State.takeSample_timing : s.takeSample.timing = s.timing := by
  simp only [State.timing, State.takeSample, State.emit, State.inSample, State.readLanes, Mix.advance, Mix.measure]
@[simp] theorem State.setInLane_timing (i : InLane) (c : InLaneCtx) : (s.setInLane i c).timing = s.timing := by
  simp only [State.timing, State.setInLane]
@[simp] theorem State.setOutLane_timing (o : OutLane) (c : OutLaneCtx) : (s.setOutLane o c).timing = s.timing := by
  simp only [State.timing, State.setOutLane]
@[simp] theorem State.tickLane_timing (i : InLane) : (s.tickLane i).timing = s.timing := by
  simp only [State.timing, State.tickLane, State.setInLane]
@[simp] theorem State.loseLock_timing (i : InLane) (cause : LockLoss) : (s.loseLock i cause).timing = s.timing := by
  simp only [State.timing, State.loseLock, State.setInLane, Cmap.clearLane]
@[simp] theorem State.seekLane_timing (i : InLane) (p : Nat) (w : Word32) : (s.seekLane i p w).timing = s.timing := by
  simp only [State.timing, State.seekLane, State.setInLane, Cmap.clearLane]
  split <;> rfl
@[simp] theorem State.rampSwitch_timing (i : RampId) : (s.rampSwitch i).timing = s.timing := by
  unfold State.rampSwitch
  split
  · split <;> rfl
  · split <;> rfl
  all_goals rfl

end

theorem State.linePhase_settingsSound {s : State} (h : s.settingsSound) (plans : Vector (Option LinePlan) 24)
    (delta : Int) : (s.linePhase plans delta).settingsSound :=
  State.settingsSound_of_eq h (s.linePhase_timing ..) (by simp [State.linesMoved]) (by simp) (by simp)

theorem State.applyTick_settingsSound {s : State} (h : s.settingsSound) : s.applyTick.settingsSound := by
  have moved := State.linePhase_settingsSound (State.handOver_settingsSound h) s.admittedPlans
    ((s.handOver.line.dumpDepth : Int) - s.line.dumpDepth)
  exact State.ite_of (fun _ => moved) fun _ => moved

theorem State.linePart_settingsSound {s : State} (h : s.settingsSound) : s.linePart.settingsSound :=
  State.ite_of (fun _ => State.applyTick_settingsSound h) fun _ => State.linePhase_settingsSound h ..

theorem State.takePhase_settingsSound {s : State} (h : s.settingsSound) : s.takePhase.settingsSound :=
  State.ite_of (fun _ => h) fun _ => State.due_of h fun _ =>
    by
    exact State.settingsSound_of h (State.takePost_held h.held) (by rfl) (by rfl)

theorem State.periodPhase_settingsSound {s : State} (h : s.settingsSound) : s.periodPhase.settingsSound :=
  State.ite_of (fun _ => h) fun _ => State.settingsSound_of h (State.periodTick_held h.held s.inst) rfl rfl

theorem State.audioTick_settingsSound {s : State} (h : s.settingsSound) (pins : BitVec 16) :
    (s.audioTick pins).settingsSound := by
  have engine : ({ s with link := s.link.engineTick } : State).settingsSound := h
  have taken := State.takePhase_settingsSound engine
  have counted : ({ s with link := s.link.engineTick } : State).takePhase.countBlock.settingsSound :=
    State.settingsSound_of_eq taken (State.countBlock_timing _) (by simp) (by simp [State.countBlock]) (by simp)
  have period := State.periodPhase_settingsSound (State.linePart_settingsSound counted)
  exact State.settingsSound_of_eq period (by simp [State.audioTick]) (by simp [State.audioTick])
    (by simp [State.audioTick]) (by simp [State.audioTick])

theorem State.lookRound_settingsSound {s : State} (h : s.settingsSound) (seen : State) (left : ReportFlags) :
    (s.lookRound seen left).settingsSound := by
  refine State.settingsSound_of h (State.lookRound_held h.held seen left) ?_ ?_
  · unfold State.lookRound
    split
    · simp only [State.startRound, State.timing, LineBlock.flag, Lrx.flag, Report.takeWork]
      split <;> rfl
    · rfl
  · unfold State.lookRound
    split
    · simp only [State.startRound, LineBlock.flag]
    · rfl

theorem State.linkReset_settingsSound {s : State} (h : s.settingsSound) : s.linkReset.settingsSound := by
  refine State.settingsSound_of h ⟨h.held.1, h.held.2.1, h.held.2.2.1, Staging.empty_sound⟩ ?_ ?_
  · simp only [State.linkReset, State.timing, LineBlock.flag, Lrx.flag, Report.linkReset]
  · simp only [State.linkReset, LineBlock.flag]

theorem State.tickEvents_settingsSound {s : State} (h : s.settingsSound) (pins : BitVec 16) (follows : Bool) :
    (s.tickEvents pins follows).settingsSound := by
  have audio := State.audioTick_settingsSound h pins
  have ref (r : RefMonitor) : ((s.audioTick pins).setRef r).settingsSound := by
    rw [State.setRef_eq]
    exact audio
  let r := (s.audioTick pins).ref.tick follows
  refine State.settingsSound_of (ref r) (State.readTick_held (ref r).held) ?_ ?_
  · simp [State.tickEvents, State.timing]
  · simp [State.tickEvents]

theorem State.blockTick_settingsSound {s : State} (h : s.settingsSound) (pins : BitVec 16) (follows first : Bool) :
    (s.blockTick pins follows first).settingsSound := by
  have round := State.lookRound_settingsSound (State.tickEvents_settingsSound h pins follows)
    ((s.tickEvents pins follows).seenAt s pins first) (if first then s.tickFlags pins else ReportFlags.clear)
  exact State.settingsSound_of_eq round (State.endTick_timing ..) (by simp [State.blockTick, State.roundPhase])
    (by simp [State.blockTick, State.roundPhase]) (by simp [State.blockTick, State.roundPhase])

theorem State.tickLine_settingsSound {s : State} (h : s.settingsSound) (l : Line) : (s.tickLine l).settingsSound :=
  State.settingsSound_of_eq h (s.tickLine_timing l) (by simp [State.lineMoved]) (by simp) (by simp)

/-- What every line's own tick keeps, a line's part of the tick in its place among the arrivals keeps. -/
theorem State.tickLineInOrder_of {P : State → Prop} (line : ∀ (u : State) l, P u → P (u.tickLine l)) {s : State} (h : P s)
    (l : Line) : P (s.tickLineInOrder l) :=
  line _ l (List.foldlRecOn (motive := P) _ _ h fun u kept k _ => line u k kept)

/-- What the lane's tick and every line's own tick keep, a lost lane keeps. -/
theorem State.laneLost_of {P : State → Prop} (line : ∀ (u : State) l, P u → P (u.tickLine l)) {s : State} {i : InLane}
    (lane : P (s.tickLane i)) : P ((linesOfLane i).foldl State.tickLineOnce (s.tickLane i)) :=
  List.foldlRecOn (motive := P) _ _ lane fun u kept l _ => State.ite_of (fun _ => kept) fun _ => line u l kept

theorem State.setRamp_settingsSound {s : State} (h : s.settingsSound) (r : Ramp) (i : RampId) :
    ({ s with mix := s.mix.setRamp r i } : State).settingsSound := by
  refine State.settingsSound_of_eq h ?_ rfl rfl rfl
  simp only [State.timing, Mix.setRamp_mainBlocks, Mix.setRamp_cueBlocks]

/-- A command keeps the settings within their ranges. -/
theorem exec_settingsSound {c : Instr} {s t : State} (run : exec c s = .next t) (h : s.settingsSound) :
    t.settingsSound := by
  cases c with
  | powerOnReset => cases run; exact reset_settingsSound
  | softReset => cases run; exact State.due_of h fun _ => reset_settingsSound
  | linkReset => cases run; exact State.linkReset_settingsSound h
  | ignoredRegisterWrite o w v =>
    cases run
    exact State.due_of h fun _ => State.registerWrite_of (fun _ => reset_settingsSound) (fun _ _ _ => id) h o w v
  | laneHold _ | keyPress _ | keyRelease _ | holdCountExpiry _ | outgoingFadeEnd _ =>
    cases run; exact State.due_of h fun _ => h
  | partnerRead _ | laneFrame _ _ | elasticArrival _ _ | laneLock _ _ _ | lossOfLock _ _ =>
    cases run; exact State.due_of h fun _ => State.settingsSound_of_eq h (by simp) (by simp) (by simp) (by simp)
  | elasticRead _ | seekingSync _ _ _ | sample =>
    cases run; exact State.settingsSound_of_eq h (by simp) (by simp) (by simp) (by simp)
  | blockTick _ _ => cases run; exact State.blockTick_settingsSound h ..
  | refLock => cases run; exact State.due_of h fun _ => by rw [State.setRef_eq]; exact h
  | refUnlock => cases run; rw [State.setRef_eq]; exact h
  | rampEnd i =>
    cases run
    refine State.ite_of (fun _ => ?_) fun _ => ?_
    · exact State.setRamp_settingsSound h ..
    · exact State.settingsSound_of_eq h (s.rampSwitch_timing i) (by rw [s.rampSwitch_eq]) (by rw [s.rampSwitch_eq])
        (by rw [s.rampSwitch_eq])
  | laneLost i =>
    cases run
    exact State.due_of h fun _ => State.laneLost_of (P := State.settingsSound)
      (fun _ l h => State.tickLine_settingsSound h l)
      (State.settingsSound_of_eq h (s.tickLane_timing i) (by simp) (by simp) (by simp))
  | codeSettle l | lossCountExpiry l | shadowCountEnd l =>
    cases run
    exact State.due_of h fun _ => State.tickLineInOrder_of (P := State.settingsSound)
      (fun _ l h => State.tickLine_settingsSound h l) h l
  | apply => cases run; exact State.due_of h fun _ => State.applyTick_settingsSound h
  | roundBegin => cases run; exact State.due_of h fun _ => State.lookRound_settingsSound h s ReportFlags.clear
  | memoryEnable _ | post _ | noticeClear _ | noticeMaskWrite _ | windowRegisterWrite _ _ | configurationAccess _
  | busMasteringWithdrawn | periodicDue | engineActive | intakeTake | sectionFetch | readCompletion _ _ | readTimeout
  | recordWriteBegin _ | recordWriteComplete =>
    have held := exec_hostSide_held run rfl h.held
    rw [(exec_hostSide run rfl).eq] at held ⊢
    exact State.settingsSound_of h held rfl rfl

end Sys2Proof.Machine

end

