-- ==== Sys2Proof/Proofs/SoundLines.lean ====
section
/-! PROOFS. The invariant of the lines (R27, R30, R32, R34, R43, R47, R48): a line's tick keeps it at every delivery, record
and change of depth, and every command keeps it. -/

namespace Sys2Proof.Machine

/-! ### The connected state -/

theorem connectedState_connected (r : Role) (shadow : Nat) (auto : Option Position) :
    (connectedState r shadow auto).connected = true := by
  cases r with
  | off | air | confer _ => rfl
  | auto | screen _ | hold => simp only [connectedState]; split_ifs <;> rfl

theorem connectedState_eq_air_iff (r : Role) (shadow : Nat) (auto : Option Position) :
    connectedState r shadow auto = .air ↔ r = .air := by
  cases r with
  | off | air | confer _ => simp [connectedState]
  | auto | screen _ | hold => simp only [connectedState]; split_ifs <;> simp

theorem LineState.connected_of_eq_vacant {x : LineState} (h : x = .vacant) : x.connected = false := h ▸ rfl

theorem LineState.connected_of_eq_lost {x : LineState} (h : x = .lost) : x.connected = false := h ▸ rfl

theorem LineState.not_connected_iff (x : LineState) : x.connected = false ↔ x = .vacant ∨ x = .lost := by
  cases x <;> simp [LineState.connected]

/-! ### What a sound line is -/

theorem LineCtx.sound_iff (l : Line) (c : LineCtx) :
    c.sound l = true ↔
      c.plan.sound l = true ∧
      (c.state.connected = true →
        c.state = connectedState c.plan.role c.shadowCount c.autoScreener ∧ c.condition = .connected) ∧
      (c.state.connected = false → c.condition ≠ .connected) ∧
      c.lossCount ≤ 65535 ∧ c.shadowCount ≤ 65535 ∧ (c.lossCount ≠ 0 ↔ c.state = .lost) ∧
      (c.state = .air → c.shadowCount = 0) ∧
      (c.autoScreener ≠ none → c.plan.role = .auto ∧ c.state ≠ .vacant) ∧
      (c.state = .lost → c.lostFrom.any LineState.connected = true) := by
  have state : c.stateSound = true ↔
      (c.state.connected = true →
        c.state = connectedState c.plan.role c.shadowCount c.autoScreener ∧ c.condition = .connected) ∧
      (c.state.connected = false → c.condition ≠ .connected) := by
    unfold LineCtx.stateSound
    cases c.state.connected <;> simp
  have counts : c.countsSound = true ↔
      c.lossCount ≤ 65535 ∧ c.shadowCount ≤ 65535 ∧ (c.lossCount ≠ 0 ↔ c.state = .lost) ∧
        (c.state = .air → c.shadowCount = 0) := by
    simp only [LineCtx.countsSound, Bool.and_eq_true, decide_eq_true_eq, beq_iff_eq, Bool.or_eq_true, and_assoc,
      decide_eq_decide, imp_iff_not_or, ne_eq]
  have memory : c.memorySound = true ↔
      (c.autoScreener ≠ none → c.plan.role = .auto ∧ c.state ≠ .vacant) ∧
        (c.state = .lost → c.lostFrom.any LineState.connected = true) := by
    simp only [LineCtx.memorySound, Bool.and_eq_true, decide_eq_true_eq, Bool.or_eq_true, imp_iff_not_or, ne_eq, not_not,
      Option.isNone_iff_eq_none]
  simp only [LineCtx.sound, Bool.and_eq_true, state, counts, memory, and_assoc]

/-- The report flag, the arrival number, the levels and the threshold are no part of a line's soundness. -/
theorem LineCtx.sound_reportPending (l : Line) (c : LineCtx) (pending : Bool) :
    ({ c with reportPending := pending } : LineCtx).sound l = c.sound l := rfl

/-! ### The tick of a line -/

/-- The recorded condition after a tick (R29). -/
def conditionAfter (c : LineCtx) (i : LineInput) : Condition := (i.delivery.map (·.condition)).getD c.condition

/-- The move of a line's tick, with what it says of the state before and of the condition after (section 2.8). -/
theorem lineMove_cases (c : LineCtx) (i : LineInput) :
    ((lineMove c i = .connect ∧ c.state = .vacant ∨ lineMove c i = .reconnect ∧ c.state = .lost) ∧
      conditionAfter c i = .connected) ∨
    (lineMove c i = .lose ∧ c.state.connected = true ∧ conditionAfter c i ≠ .connected) ∨
    (lineMove c i = .stay ∧
      (conditionAfter c i = c.condition ∨ c.state.connected = true ∧ conditionAfter c i = .connected ∨
        c.state.connected = false ∧ conditionAfter c i ≠ .connected)) := by
  unfold lineMove conditionAfter
  cases i.delivery with
  | none => exact .inr (.inr ⟨rfl, .inl rfl⟩)
  | some d =>
    dsimp only [Option.map_some, Option.getD_some]
    by_cases same : d.condition = c.condition
    · rw [if_pos same]
      exact .inr (.inr ⟨rfl, .inl same⟩)
    · rw [if_neg same]
      by_cases arrives : d.condition = .connected
      · rw [if_pos arrives]
        cases c.state with
        | vacant => exact .inl ⟨.inl ⟨rfl, rfl⟩, arrives⟩
        | lost => exact .inl ⟨.inr ⟨rfl, rfl⟩, arrives⟩
        | parked | screen | hold | shadow | air | confer => exact .inr (.inr ⟨rfl, .inr (.inl ⟨rfl, arrives⟩)⟩)
      · rw [if_neg arrives]
        cases connected : c.state.connected with
        | true => exact .inr (.inl ⟨if_pos rfl, rfl, arrives⟩)
        | false => exact .inr (.inr ⟨if_neg nofun, .inr (.inr ⟨rfl, arrives⟩)⟩)

section
variable {e : LineEnv} {c : LineCtx} {i : LineInput} {n : BitVec 8}

theorem stateAfter_connected (h : connectedAfter c i = true) :
    stateAfter e c i n = connectedState (planAfter c i).role (shadowAfter e c i) (screenerAfter e c i n) :=
  if_pos h

theorem lossExpires_iff :
    lossExpires e c i = true ↔
      lineMove c i = .stay ∧ c.state = .lost ∧ i.counted = true ∧ lossAfter e c i = 0 := by
  simp [lossExpires, and_assoc]

theorem not_lossExpires (h : lineMove c i ≠ .stay ∨ c.state ≠ .lost) : lossExpires e c i = false := by
  rw [← Bool.not_eq_true, lossExpires_iff]
  tauto

theorem shadowAfter_le (start : e.shadowStart ≤ 65535) : shadowAfter e c i ≤ 65535 := by
  unfold shadowAfter
  split_ifs
  · exact Nat.zero_le _
  · exact start
  · exact Nat.zero_le _
  · exact (Nat.sub_le ..).trans (Nat.min_le_left ..)

theorem shadowAfter_inAir (h : inAirAfter c i = true) : shadowAfter e c i = 0 := if_pos h

/-- An auto screener after a tick belongs to a line whose role is then AUTO, and whose loss has not expired. -/
theorem screenerAfter_auto (before : c.autoScreener ≠ none → c.plan.role = .auto ∧ c.state ≠ .vacant)
    (h : screenerAfter e c i n ≠ none) :
    (planAfter c i).role = .auto ∧ (lossExpires e c i = false ∨ takesArrival c i = true) ∧
      (c.state ≠ .vacant ∨ takesArrival c i = true) := by
  unfold screenerAfter at h
  split_ifs at h with arrives expires left
  · exact ⟨((takesArrival_iff_move c i).mp arrives).1, .inr arrives, .inr arrives⟩
  · exact absurd rfl h
  · exact absurd rfl h
  · obtain ⟨auto, state⟩ := before h
    have same : (planAfter c i).role = c.plan.role := by simpa [roleChanged, auto] using left
    exact ⟨same.trans auto, .inl (by simpa using expires), .inl state⟩

theorem takesArrival_connectedAfter (h : takesArrival c i = true) : connectedAfter c i = true := by
  obtain ⟨-, move | ⟨connected, -, move⟩⟩ := (takesArrival_iff_move c i).mp h
  · simp [connectedAfter, move]
  · simp [connectedAfter, move, connected]

/-- A tick leaves a line connected sound. -/
theorem lineTick_sound_connected {l : Line} (h : c.sound l = true) (plan : (planAfter c i).sound l = true)
    (start : e.shadowStart ≤ 65535) (connected : connectedAfter c i = true) (loss : lossAfter e c i = 0)
    (condition : conditionAfter c i = .connected) : (lineTick e c i n).sound l = true := by
  obtain ⟨-, -, -, -, -, -, -, auto, -⟩ := (LineCtx.sound_iff l c).mp h
  have state : (lineTick e c i n).state =
      connectedState (planAfter c i).role (shadowAfter e c i) (screenerAfter e c i n) := stateAfter_connected connected
  have live : (lineTick e c i n).state.connected = true := state ▸ connectedState_connected ..
  have notLost : (lineTick e c i n).state ≠ .lost := fun lost => by simp [lost, LineState.connected] at live
  have notVacant : (lineTick e c i n).state ≠ .vacant := fun vacant => by simp [vacant, LineState.connected] at live
  rw [LineCtx.sound_iff]
  refine ⟨plan, fun _ => ⟨state, condition⟩, fun off => absurd live (by simp [off]), ?_, shadowAfter_le start, ?_,
    fun air => ?_, fun held => ⟨(screenerAfter_auto auto held).1, notVacant⟩, fun lost => absurd lost notLost⟩
  · change lossAfter e c i ≤ 65535
    omega
  · exact iff_of_false (not_not_intro loss) notLost
  · rw [state, connectedState_eq_air_iff] at air
    exact shadowAfter_inAir (by simp [inAirAfter, connected, air])

/-- A tick takes a line out of its connected state into LOST sound. -/
theorem lineTick_sound_lost {l : Line} (h : c.sound l = true) (plan : (planAfter c i).sound l = true)
    (start : e.shadowStart ≤ 65535) (holdoff : 1 ≤ e.holdoff ∧ e.holdoff ≤ 65535) (move : lineMove c i = .lose)
    (connected : c.state.connected = true) (condition : conditionAfter c i ≠ .connected) :
    (lineTick e c i n).sound l = true := by
  obtain ⟨-, -, -, -, -, -, -, auto, -⟩ := (LineCtx.sound_iff l c).mp h
  have off : connectedAfter c i = false := by simp [connectedAfter, move]
  have state : (lineTick e c i n).state = .lost := by simp [lineTick, stateAfter, off, move]
  have loss : (lineTick e c i n).lossCount = e.holdoff := by simp [lineTick, lossAfter, move]
  rw [LineCtx.sound_iff, state, loss]
  refine ⟨plan, nofun, fun _ => condition, holdoff.2, shadowAfter_le start, iff_of_true (by omega) rfl, nofun,
    fun held => ⟨(screenerAfter_auto auto held).1, nofun⟩, fun _ => ?_⟩
  simp [lineTick, move, connected]

/-- A tick leaves a line that stays out of connection sound. -/
theorem lineTick_sound_off {l : Line} (h : c.sound l = true) (plan : (planAfter c i).sound l = true)
    (start : e.shadowStart ≤ 65535) (move : lineMove c i = .stay) (off : c.state.connected = false)
    (condition : conditionAfter c i ≠ .connected) : (lineTick e c i n).sound l = true := by
  obtain ⟨-, -, -, loss, -, running, -, auto, from_⟩ := (LineCtx.sound_iff l c).mp h
  have offAfter : connectedAfter c i = false := by simp [connectedAfter, move, off]
  have noArrival : takesArrival c i ≠ true := fun arrives => by
    rw [takesArrival_connectedAfter arrives] at offAfter
    cases offAfter
  have lossIs : lossAfter e c i = if c.state = .lost then c.lossCount - i.counted.toNat else c.lossCount := by
    simp [lossAfter, move]
  have state : (lineTick e c i n).state = if lossExpires e c i then .vacant else c.state := by
    simp [lineTick, stateAfter, offAfter, move]
  have lostFrom : (lineTick e c i n).lostFrom = c.lostFrom := by simp [lineTick, move]
  have lossLe : lossAfter e c i ≤ 65535 := by
    rw [lossIs]
    split
    · exact (Nat.sub_le ..).trans loss
    · exact loss
  have offState : (lineTick e c i n).state.connected = false := by
    rw [state]
    split
    · rfl
    · exact off
  rw [LineCtx.sound_iff]
  refine ⟨plan, fun live => absurd live (by simp [offState]), fun _ => condition, lossLe, shadowAfter_le start, ?_,
    fun air => absurd offState (by simp [air, LineState.connected]), fun held => ?_, fun lost => ?_⟩
  · change lossAfter e c i ≠ 0 ↔ _
    rw [state]
    cases expires : lossExpires e c i with
    | true =>
      obtain ⟨-, -, -, zero⟩ := lossExpires_iff.mp expires
      simp [zero]
    | false =>
      simp only [Bool.false_eq_true, if_false]
      by_cases lost : c.state = .lost
      · have nonzero : c.lossCount ≠ 0 := running.mpr lost
        refine iff_of_true (fun zero => ?_) lost
        have notCounted : i.counted = false := by
          by_contra counted
          rw [lossExpires_iff.mpr ⟨move, lost, by simpa using counted, zero⟩] at expires
          cases expires
        rw [lossIs, if_pos lost, notCounted] at zero
        exact nonzero zero
      · rw [lossIs, if_neg lost]
        exact running
  · obtain ⟨role, standing, notVacant⟩ := screenerAfter_auto auto held
    refine ⟨role, ?_⟩
    rw [state, standing.resolve_right noArrival]
    exact notVacant.resolve_right noArrival
  · rw [lostFrom]
    refine from_ ?_
    rw [state] at lost
    split at lost
    · cases lost
    · exact lost

/-- A line's tick keeps it sound. -/
theorem lineTick_sound {l : Line} (h : c.sound l = true) (plan : i.plan.all (LinePlan.sound l) = true)
    (start : e.shadowStart ≤ 65535) (holdoff : 1 ≤ e.holdoff ∧ e.holdoff ≤ 65535) (n : BitVec 8) :
    (lineTick e c i n).sound l = true := by
  obtain ⟨held, live, off, -, -, running, -⟩ := (LineCtx.sound_iff l c).mp h
  have plan : (planAfter c i).sound l = true := by
    unfold planAfter
    cases given : i.plan with
    | none => exact held
    | some p => simpa [given] using plan
  obtain ⟨move, condition⟩ | ⟨move, connected, condition⟩ | ⟨move, condition⟩ := lineMove_cases c i
  · obtain ⟨move, -⟩ | ⟨move, -⟩ := move
    · exact lineTick_sound_connected h plan start (by simp [connectedAfter, move]) (by simp [lossAfter, move]) condition
    · exact lineTick_sound_connected h plan start (by simp [connectedAfter, move]) (by simp [lossAfter, move]) condition
  · exact lineTick_sound_lost h plan start holdoff move connected condition
  · cases connected : c.state.connected with
    | true =>
      have notLost : c.state ≠ .lost := fun lost => by simp [lost, LineState.connected] at connected
      have zero : c.lossCount = 0 := by simpa [notLost] using running
      have stands : conditionAfter c i = .connected := by
        have before := (live connected).2
        rcases condition with same | ⟨-, arrives⟩ | ⟨off, -⟩
        · exact same.trans before
        · exact arrives
        · simp [off] at connected
      exact lineTick_sound_connected h plan start (by simp [connectedAfter, move, connected])
        (by simp [lossAfter, move, notLost, zero]) stands
    | false =>
      refine lineTick_sound_off h plan start move connected ?_
      rcases condition with same | ⟨live, -⟩ | ⟨-, other⟩
      · exact same ▸ off connected
      · simp [live] at connected
      · exact other

end

/-! ### The lines of the part -/

theorem State.linesSound_of_eq {s t : State} (line : t.line.ctx = s.line.ctx) (settings : t.settingsSound)
    (h : s.linesSound) : t.linesSound :=
  ⟨fun l => line ▸ h.1 l, settings⟩

theorem reset_linesSound : State.reset.linesSound := by
  refine ⟨fun l => ?_, reset_settingsSound⟩
  rw [reset_line]
  exact (by decide : ∀ l, LineCtx.sound l LineCtx.reset = true) l

theorem State.lineEnv_sound {s : State} (h : s.settingsSound) (delta : Int) :
    (s.lineEnv delta).shadowStart ≤ 65535 ∧ 1 ≤ (s.lineEnv delta).holdoff ∧ (s.lineEnv delta).holdoff ≤ 65535 := by
  obtain ⟨⟨⟨⟨⟨-, holdoff⟩, -⟩, -⟩, -⟩, -⟩ := (Timing.sound_iff _).mp h.1
  exact ⟨Nat.min_le_left .., holdoff⟩

theorem State.lineInput_plan_sound (s : State) {plan : Option LinePlan} {l : Line}
    (h : plan.all (LinePlan.sound l) = true) : (s.lineInput plan l).plan.all (LinePlan.sound l) = true := by
  unfold State.lineInput
  split
  · rfl
  · exact h

theorem State.linePhase_linesSound {s : State} (h : s.linesSound) {plans : Vector (Option LinePlan) 24}
    (staged : ∀ l : Line, (plans[l]).all (LinePlan.sound l) = true) (delta : Int) :
    (s.linePhase plans delta).linesSound := by
  refine ⟨fun l => ?_, State.linePhase_settingsSound h.2 plans delta⟩
  obtain ⟨start, holdoff⟩ := State.lineEnv_sound h.2 delta
  have line : (s.linePhase plans delta).line.ctx = linesTick (s.lineEnv delta) s.line.ctx (s.lineInputs plans)
      s.scrn.arrivals := by simp [State.linesMoved]
  rw [line, linesTick_getElem]
  refine lineTick_sound (h.1 l) ?_ start holdoff _
  rw [State.lineInputs, ofFn_at]
  exact s.lineInput_plan_sound (staged l)

theorem State.tickLine_linesSound {s : State} (h : s.linesSound) (l : Line) : (s.tickLine l).linesSound := by
  refine ⟨?_, State.tickLine_settingsSound h.2 l⟩
  obtain ⟨start, holdoff⟩ := State.lineEnv_sound h.2 0
  rw [State.tickLine_ctx]
  exact set_of (P := fun l (c : LineCtx) => c.sound l = true) h.1
    (lineTick_sound (h.1 l) (s.lineInput_plan_sound rfl) start holdoff _)

theorem State.admittedPlans_sound {s : State} (h : s.settingsSound) (l : Line) :
    (s.admittedPlans[l]).all (LinePlan.sound l) = true := by
  obtain ⟨-, -, -, lines, -⟩ := h
  unfold State.admittedPlans
  rw [ofFn_at]
  split
  · rfl
  · exact lines l

theorem State.applyTick_linesSound {s : State} (h : s.linesSound) : s.applyTick.linesSound := by
  have handed : s.handOver.linesSound := ⟨h.1, State.handOver_settingsSound h.2⟩
  have moved := State.linePhase_linesSound handed (State.admittedPlans_sound h.2)
    ((s.handOver.line.dumpDepth : Int) - s.line.dumpDepth)
  exact State.ite_of (fun _ => moved) fun _ => moved

theorem State.linePart_linesSound {s : State} (h : s.linesSound) : s.linePart.linesSound :=
  State.ite_of (fun _ => State.applyTick_linesSound h) fun _ => State.linePhase_linesSound h (fun l => by simp) 0

theorem State.flag_linesSound {b : LineBlock} (h : ∀ l : Line, LineCtx.sound l b.ctx[l] = true) (lines : List Line)
    (on : Line → Bool) : ∀ l : Line, LineCtx.sound l (b.flag lines on).ctx[l] = true := by
  intro l
  obtain ⟨pending, flagged⟩ := b.flag_ctx lines on l
  rw [flagged]
  exact h l

theorem State.lookRound_linesSound {s : State} (h : s.linesSound) (seen : State) (left : ReportFlags) :
    (s.lookRound seen left).linesSound := by
  refine ⟨fun l => ?_, State.lookRound_settingsSound h.2 seen left⟩
  obtain ⟨pending, flagged⟩ := s.lookRound_lineCtx seen left l
  rw [flagged]
  exact h.1 l

theorem State.beforeCue_line (s : State) (pins : BitVec 16) :
    (s.beforeCue pins).line = ({ s with link := s.link.engineTick } : State).takePhase.countBlock.linePart.line := by
  simp [State.beforeCue]

theorem State.blockTick_linesSound {s : State} (h : s.linesSound) (pins : BitVec 16) (follows first : Bool) :
    (s.blockTick pins follows first).linesSound := by
  refine ⟨fun l => ?_, State.blockTick_settingsSound h.2 pins follows first⟩
  have counted : ({ s with link := s.link.engineTick } : State).takePhase.countBlock.linesSound :=
    State.linesSound_of_eq (by simp)
      (State.settingsSound_of_eq (State.takePhase_settingsSound (s := { s with link := s.link.engineTick }) h.2)
        (State.countBlock_timing _) (by simp) (by simp [State.countBlock]) (by simp)) h
  obtain ⟨pending, flagged⟩ := s.blockTick_lineCtx pins follows first l
  rw [flagged, LineCtx.sound_reportPending, s.beforeCue_line]
  exact (State.linePart_linesSound counted).1 l

/-- A command keeps every line sound. -/
theorem exec_linesSound {c : Instr} {s t : State} (run : exec c s = .next t) (h : s.linesSound) : t.linesSound := by
  have settings := exec_settingsSound run h.2
  cases c with
  | powerOnReset => cases run; exact reset_linesSound
  | softReset => cases run; exact State.due_of h fun _ => reset_linesSound
  | linkReset => cases run; exact ⟨fun l => State.flag_linesSound h.1 _ _ l, settings⟩
  | ignoredRegisterWrite o w v =>
    cases run
    exact State.due_of h fun _ => State.registerWrite_of (fun _ => reset_linesSound) (fun _ _ _ => id) h o w v
  | laneHold _ | keyPress _ | keyRelease _ | holdCountExpiry _ | outgoingFadeEnd _ =>
    cases run; exact State.due_of h fun _ => h
  | partnerRead _ | laneFrame _ _ | elasticArrival _ _ | laneLock _ _ _ | lossOfLock _ _ =>
    cases run; exact State.linesSound_of_eq (State.due_of (P := (·.line.ctx = _)) rfl fun _ => rfl) settings h
  | elasticRead _ | seekingSync _ _ _ => cases run; exact ⟨h.1, settings⟩
  | sample => cases run; exact State.linesSound_of_eq (by simp) settings h
  | blockTick _ _ => cases run; exact State.blockTick_linesSound h ..
  | refLock => cases run; exact State.due_of h fun _ => by rw [State.setRef_eq]; exact h
  | refUnlock => cases run; rw [State.setRef_eq]; exact h
  | rampEnd i =>
    cases run
    refine State.linesSound_of_eq ?_ settings h
    exact State.ite_of (P := (·.line.ctx = _)) (fun _ => rfl) fun _ => by rw [s.rampSwitch_eq]
  | laneLost i =>
    cases run
    exact State.due_of h fun _ => State.laneLost_of (P := State.linesSound) (fun _ l h => State.tickLine_linesSound h l)
      ⟨h.1, State.settingsSound_of_eq h.2 (s.tickLane_timing i) (by simp) (by simp) (by simp)⟩
  | codeSettle l | lossCountExpiry l | shadowCountEnd l =>
    cases run
    exact State.due_of h fun _ => State.tickLineInOrder_of (P := State.linesSound)
      (fun _ l h => State.tickLine_linesSound h l) h l
  | apply => cases run; exact State.due_of h fun _ => State.applyTick_linesSound h
  | roundBegin => cases run; exact State.due_of h fun _ => State.lookRound_linesSound h s ReportFlags.clear
  | memoryEnable _ | post _ | noticeClear _ | noticeMaskWrite _ | windowRegisterWrite _ _ | configurationAccess _
  | busMasteringWithdrawn | periodicDue | engineActive | intakeTake | sectionFetch | readCompletion _ _ | readTimeout
  | recordWriteBegin _ | recordWriteComplete =>
    exact State.linesSound_of_eq (congrArg LineBlock.ctx (exec_hostSide run rfl).line) settings h

end Sys2Proof.Machine

open Sys2Proof Sys2Proof.Machine

/-- Settles O55: a line's tick keeps the line sound under sound records and settings, and every command keeps those. -/
theorem stepKeepsLines : Obligations.StepKeepsLines := by
  unfold Obligations.StepKeepsLines
  exact fun _ _ => step_keeps (fun _ _ => id) fun _ _ _ => exec_linesSound

end

