-- ==== Sys2Proof/Proofs/SoundRamps.lean ====
section
/-! PROOFS. The invariant of the ramps (R17 to R20): every change of a ramp leaves it within its span and at its target when
at rest, since a fresh ramp has a length, and every command keeps it. -/

namespace Sys2Proof.Machine

/-! ### A ramp -/

theorem Ramp.rest_sound : Ramp.rest.sound = true := by decide

theorem Ramp.stopAt_sound (r : Ramp) (v : Int) : (r.stopAt v).sound = true := by
  simp [Ramp.sound_iff, Ramp.stopAt]

theorem Ramp.finish_sound (r : Ramp) : r.finish.sound = true := by
  simp [Ramp.sound_iff, Ramp.finish]

theorem Ramp.begin_sound (r : Ramp) (t : Int) {len : Nat} (h : 0 < len) : (r.begin t len).sound = true := by
  rw [Ramp.sound_iff]
  exact ⟨Nat.zero_le _, fun rest => absurd rest (Nat.not_le.mpr h), min_le_left .., le_max_left ..⟩

theorem Ramp.retarget_sound {r : Ramp} (h : r.sound = true) (t : Int) {len : Nat} (long : 0 < len) :
    (r.retarget t len).sound = true := by
  unfold Ramp.retarget
  split_ifs
  · exact h
  · exact r.stopAt_sound t
  · exact r.begin_sound t long

theorem GroupRamp.retarget_sound {g : GroupRamp} (h : g.ramp.sound = true) (want : Option (Group × Int)) {len : Nat}
    (long : 0 < len) : (g.retarget want len).ramp.sound = true := by
  unfold GroupRamp.retarget
  split
  · exact Ramp.retarget_sound h _ long
  · dsimp only
    split_ifs
    · exact Ramp.retarget_sound h _ long
    · exact Ramp.retarget_sound (Ramp.retarget_sound h _ long) _ long
    · exact Ramp.retarget_sound h _ long

theorem GroupRamp.rewind_sound {g : GroupRamp} (h : g.ramp.sound = true) (left : Option Group) :
    (g.rewind left).ramp.sound = true := by
  cases left with
  | none => exact h
  | some _ => exact g.ramp.stopAt_sound 0

theorem rampSamples_pos {blocks : Nat} (h : 1 ≤ blocks) : 0 < rampSamples blocks := Nat.mul_pos (by decide) h

/-! ### The ramps of MIX -/

/-- Every ramp of MIX is sound. -/
def Mix.rampsSound (m : Mix) : Prop := ∀ i : RampId, (m.ramp i).sound = true

/-- The ramps of MIX, block by block. -/
theorem Mix.rampsSound_iff (m : Mix) :
    m.rampsSound ↔
      (∀ i : Source, (m.sources[i]).air.sound = true) ∧
      (∀ l : Line, (m.contribs[l]).air.sound = true ∧ (m.contribs[l]).group.ramp.sound = true) ∧
      ∀ l : Line, (m.returns[l]).air.sound = true ∧ (m.returns[l]).group.ramp.sound = true ∧
        (m.returns[l]).hold.sound = true ∧ (m.returns[l]).screener.sound = true ∧ (m.returns[l]).cueIn.sound = true ∧
        (m.returns[l]).cueOut.sound = true := by
  constructor
  · exact fun h => ⟨fun i => h (.sourceAir i), fun l => ⟨h (.lineAir l), h (.lineGroup l)⟩, fun l =>
      ⟨h (.airTerm l), h (.groupTerm l), h (.holdTerm l), h (.screenerTerm l), h (.cueIn l), h (.cueOut l)⟩⟩
  · rintro ⟨sources, contribs, returns⟩ i
    cases i with
    | sourceAir i => exact sources i
    | lineAir l => exact (contribs l).1
    | lineGroup l => exact (contribs l).2
    | airTerm l => exact (returns l).1
    | groupTerm l => exact (returns l).2.1
    | holdTerm l => exact (returns l).2.2.1
    | screenerTerm l => exact (returns l).2.2.2.1
    | cueIn l => exact (returns l).2.2.2.2.1
    | cueOut l => exact (returns l).2.2.2.2.2

/-- Other contexts with the same ramps have sound ramps. -/
theorem Mix.rampsSound_of_eq {m n : Mix} (same : ∀ i, n.ramp i = m.ramp i) (h : m.rampsSound) : n.rampsSound :=
  fun i => same i ▸ h i

theorem Mix.setContrib_rampsSound {m : Mix} (h : m.rampsSound) (l : Line) {c : ContribCtx}
    (new : c.air.sound = true ∧ c.group.ramp.sound = true) :
    ({ m with contribs := m.contribs.set l c } : Mix).rampsSound := by
  obtain ⟨sources, contribs, returns⟩ := m.rampsSound_iff.mp h
  exact (Mix.rampsSound_iff _).mpr ⟨sources,
    set_of (P := fun _ (c : ContribCtx) => c.air.sound = true ∧ c.group.ramp.sound = true) contribs new, returns⟩

theorem Mix.setReturn_rampsSound {m : Mix} (h : m.rampsSound) (l : Line) {c : ReturnCtx}
    (new : c.air.sound = true ∧ c.group.ramp.sound = true ∧ c.hold.sound = true ∧ c.screener.sound = true ∧
      c.cueIn.sound = true ∧ c.cueOut.sound = true) :
    ({ m with returns := m.returns.set l c } : Mix).rampsSound := by
  obtain ⟨sources, contribs, returns⟩ := m.rampsSound_iff.mp h
  exact (Mix.rampsSound_iff _).mpr ⟨sources, contribs,
    set_of (P := fun _ (c : ReturnCtx) => c.air.sound = true ∧ c.group.ramp.sound = true ∧ c.hold.sound = true ∧
      c.screener.sound = true ∧ c.cueIn.sound = true ∧ c.cueOut.sound = true) returns new⟩

theorem Mix.setRamp_rampsSound {m : Mix} (h : m.rampsSound) {r : Ramp} (new : r.sound = true) (i : RampId) :
    (m.setRamp r i).rampsSound := by
  obtain ⟨sources, contribs, returns⟩ := m.rampsSound_iff.mp h
  cases i with
  | sourceAir i =>
    exact (Mix.rampsSound_iff _).mpr
      ⟨set_of (P := fun _ (c : SourceCtx) => c.air.sound = true) sources new, contribs, returns⟩
  | lineAir l => exact Mix.setContrib_rampsSound h l ⟨new, (contribs l).2⟩
  | lineGroup l => exact Mix.setContrib_rampsSound h l ⟨(contribs l).1, new⟩
  | airTerm l => exact Mix.setReturn_rampsSound h l ⟨new, (returns l).2⟩
  | groupTerm l => exact Mix.setReturn_rampsSound h l ⟨(returns l).1, new, (returns l).2.2⟩
  | holdTerm l => exact Mix.setReturn_rampsSound h l ⟨(returns l).1, (returns l).2.1, new, (returns l).2.2.2⟩
  | screenerTerm l =>
    obtain ⟨air, group, hold, -, cues⟩ := returns l
    exact Mix.setReturn_rampsSound h l ⟨air, group, hold, new, cues⟩
  | cueIn l =>
    obtain ⟨air, group, hold, screener, -, out⟩ := returns l
    exact Mix.setReturn_rampsSound h l ⟨air, group, hold, screener, new, out⟩
  | cueOut l =>
    obtain ⟨air, group, hold, screener, cueIn, -⟩ := returns l
    exact Mix.setReturn_rampsSound h l ⟨air, group, hold, screener, cueIn, new⟩

section
variable (m : Mix) (members terms : Vector (Option Group) 24) (t : ScreeningTable) (ctx : Vector LineCtx 24)
variable (q : Vector CueReturn 24) (routes : Vector RouteCtx 32)

theorem Mix.rewind_contrib (l : Line) :
    (m.rewind members terms).contribs[l] =
      { m.contribs[l] with group := (m.contribs[l]).group.rewind members[l] } := by
  unfold Mix.rewind
  exact ofFn_at ..

theorem Mix.rewind_return (l : Line) :
    (m.rewind members terms).returns[l] = { m.returns[l] with group := (m.returns[l]).group.rewind terms[l] } := by
  unfold Mix.rewind
  exact ofFn_at ..

theorem Mix.tick_source (i : Source) : (m.tick t ctx q routes).sources[i] = (m.sources[i]).tick m := by
  unfold Mix.tick
  exact ofFn_at ..

theorem Mix.tick_contrib (l : Line) : (m.tick t ctx q routes).contribs[l] = (m.contribs[l]).tick m ctx[l] := by
  unfold Mix.tick
  exact ofFn_at ..

theorem Mix.tick_return (l : Line) :
    (m.tick t ctx q routes).returns[l] = (m.returns[l]).tick m t l ctx[l] q[l] routes := by
  unfold Mix.tick
  exact ofFn_at ..

@[simp] theorem Mix.rewind_sources : (m.rewind members terms).sources = m.sources := by unfold Mix.rewind; rfl
@[simp] theorem Mix.rewind_mainBlocks : (m.rewind members terms).mainBlocks = m.mainBlocks := by unfold Mix.rewind; rfl
@[simp] theorem Mix.rewind_cueBlocks : (m.rewind members terms).cueBlocks = m.cueBlocks := by unfold Mix.rewind; rfl
@[simp] theorem Mix.tick_mainBlocks : (m.tick t ctx q routes).mainBlocks = m.mainBlocks := by unfold Mix.tick; rfl
@[simp] theorem Mix.tick_cueBlocks : (m.tick t ctx q routes).cueBlocks = m.cueBlocks := by unfold Mix.tick; rfl

theorem State.mixPhase_mix (s : State) :
    s.mixPhase.mix =
      (s.mix.rewind s.inst.members s.inst.terms).tick s.scrn.table s.line.ctx s.cue.returns s.cue.routes := rfl

end

theorem Mix.rewind_rampsSound {m : Mix} (h : m.rampsSound) (members terms : Vector (Option Group) 24) :
    (m.rewind members terms).rampsSound := by
  obtain ⟨sources, contribs, returns⟩ := m.rampsSound_iff.mp h
  rw [Mix.rampsSound_iff]
  refine ⟨by rw [Mix.rewind_sources]; exact sources, fun l => ?_, fun l => ?_⟩
  · rw [Mix.rewind_contrib]
    exact ⟨(contribs l).1, GroupRamp.rewind_sound (contribs l).2 _⟩
  · rw [Mix.rewind_return]
    obtain ⟨air, group, rest⟩ := returns l
    exact ⟨air, GroupRamp.rewind_sound group _, rest⟩

theorem programLength_pos {m : Mix} (main : 1 ≤ m.mainBlocks) (cue : 1 ≤ m.cueBlocks) (c : LineCtx)
    (before after : DuckKind) : 0 < programLength m c before after := by
  unfold programLength
  split
  · exact rampSamples_pos cue
  · exact rampSamples_pos main

theorem cueInTick_sound {r : Ramp} (h : r.sound = true) (q : CueReturn) (code : Option GainCode) {len : Nat}
    (long : 0 < len) : (cueInTick r q code len).sound = true := by
  unfold cueInTick
  split
  · exact r.stopAt_sound 0
  · split
    · exact Ramp.retarget_sound (r.stopAt_sound 0) _ long
    · exact Ramp.retarget_sound h _ long

theorem cueOutTick_sound {out : Ramp} (h : out.sound = true) (cur : Ramp) (q : CueReturn) {len : Nat}
    (long : 0 < len) : (cueOutTick out cur q len).sound = true := by
  unfold cueOutTick
  split_ifs
  · exact cur.begin_sound 0 long
  · exact out.stopAt_sound 0
  · exact h

theorem Mix.tick_rampsSound {m : Mix} (h : m.rampsSound) (main : 1 ≤ m.mainBlocks) (cue : 1 ≤ m.cueBlocks)
    (t : ScreeningTable) (ctx : Vector LineCtx 24) (q : Vector CueReturn 24) (routes : Vector RouteCtx 32) :
    (m.tick t ctx q routes).rampsSound := by
  obtain ⟨sources, contribs, returns⟩ := m.rampsSound_iff.mp h
  have mainLen := rampSamples_pos main
  have cueLen := rampSamples_pos cue
  rw [Mix.rampsSound_iff]
  refine ⟨fun i => ?_, fun l => ?_, fun l => ?_⟩
  · rw [Mix.tick_source]
    exact Ramp.retarget_sound (sources i) _ mainLen
  · rw [Mix.tick_contrib]
    exact ⟨Ramp.retarget_sound (contribs l).1 _ mainLen, GroupRamp.retarget_sound (contribs l).2 _ mainLen⟩
  · rw [Mix.tick_return]
    obtain ⟨air, group, hold, screener, cueIn, cueOut⟩ := returns l
    have len := programLength_pos main cue ctx[l] (m.returns[l]).duck (q[l]).duck
    exact ⟨Ramp.retarget_sound air _ len, GroupRamp.retarget_sound group _ len, Ramp.retarget_sound hold _ len,
      Ramp.retarget_sound screener _ len, cueInTick_sound cueIn _ _ cueLen, cueOutTick_sound cueOut _ _ cueLen⟩

theorem State.vacate_mix (s : State) (old : Vector LineCtx 24) :
    (s.vacate old).mix = { s.mix with returns := (s.vacate old).mix.returns } := by
  unfold State.vacate
  rfl

theorem State.vacate_return (s : State) (old : Vector LineCtx 24) (l : Line) :
    (s.vacate old).mix.returns[l] =
      if (s.line.ctx[l]).state = .vacant && (old[l]).state ≠ .vacant then (s.mix.returns[l]).vacate
      else s.mix.returns[l] := by
  unfold State.vacate
  exact ofFn_at ..

theorem State.vacate_rampsSound {s : State} (h : s.mix.rampsSound) (old : Vector LineCtx 24) :
    (s.vacate old).mix.rampsSound := by
  obtain ⟨sources, contribs, returns⟩ := s.mix.rampsSound_iff.mp h
  rw [Mix.rampsSound_iff]
  have own := s.vacate_return old
  rw [s.vacate_mix old]
  refine ⟨sources, contribs, fun l => ?_⟩
  dsimp only
  rw [own l]
  split
  · obtain ⟨air, group, hold, screener, -⟩ := returns l
    exact ⟨air, group, hold, screener, Ramp.stopAt_sound .., Ramp.stopAt_sound ..⟩
  · exact returns l

theorem Mix.applied_rampsSound {m : Mix} (h : m.rampsSound) (g : Staging) : (m.applied g).rampsSound := by
  obtain ⟨sources, contribs, returns⟩ := m.rampsSound_iff.mp h
  rw [Mix.rampsSound_iff]
  refine ⟨fun i => ?_, contribs, returns⟩
  unfold Mix.applied
  dsimp only
  split
  · exact sources i
  · rw [ofFn_at]
    exact sources i

theorem Mix.restartPeaks_ramp (m : Mix) (i : RampId) : m.restartPeaks.ramp i = m.ramp i := by
  cases i <;> simp [Mix.restartPeaks, Mix.ramp]

/-! ### The ramps of the part -/

theorem reset_rampsSound : State.reset.rampsSound := by
  refine ⟨fun i => ?_, reset_settingsSound⟩
  rw [reset_ramp]
  decide

theorem State.ramps_long {s : State} (h : s.settingsSound) : 1 ≤ s.mix.mainBlocks ∧ 1 ≤ s.mix.cueBlocks := by
  obtain ⟨⟨⟨⟨⟨⟨main, cue⟩, -⟩, -⟩, -⟩, -⟩, -⟩ := (Timing.sound_iff _).mp h.1
  exact ⟨main.1, cue.1⟩

theorem State.rampsSound_of_eq {s t : State} (mix : t.mix = s.mix) (settings : t.settingsSound) (h : s.rampsSound) :
    t.rampsSound :=
  ⟨mix ▸ h.1, settings⟩

theorem State.linePhase_mixRamps {s : State} (h : s.mix.rampsSound) (plans : Vector (Option LinePlan) 24)
    (delta : Int) : (s.linePhase plans delta).mix.rampsSound :=
  State.vacate_rampsSound (by rw [s.linesMoved_mix]; exact h) _

theorem State.tickLine_rampsSound {s : State} (h : s.rampsSound) (l : Line) : (s.tickLine l).rampsSound :=
  ⟨State.vacate_rampsSound (by rw [s.lineMoved_mix]; exact h.1) _, State.tickLine_settingsSound h.2 l⟩

theorem State.applyTick_mixRamps {s : State} (h : s.mix.rampsSound) : s.applyTick.mix.rampsSound := by
  have moved := State.linePhase_mixRamps (s := s.handOver) (Mix.applied_rampsSound h s.intake.staging) s.admittedPlans
    ((s.handOver.line.dumpDepth : Int) - s.line.dumpDepth)
  exact State.ite_of (P := (·.mix.rampsSound)) (fun _ => moved) fun _ => moved

theorem State.linePart_mixRamps {s : State} (h : s.mix.rampsSound) : s.linePart.mix.rampsSound :=
  State.ite_of (P := (·.mix.rampsSound)) (fun _ => State.applyTick_mixRamps h) fun _ => State.linePhase_mixRamps h _ _

theorem State.beforeCue_mixRamps {s : State} (h : s.mix.rampsSound) (pins : BitVec 16) :
    (s.beforeCue pins).mix.rampsSound := by
  have same : (s.beforeCue pins).mix =
      ({ s with link := s.link.engineTick } : State).takePhase.countBlock.linePart.mix := by simp [State.beforeCue]
  rw [same]
  exact State.linePart_mixRamps (by simpa using h)

theorem State.audioTick_mixRamps {s : State} (h : s.rampsSound) (pins : BitVec 16) :
    (s.audioTick pins).mix.rampsSound := by
  obtain ⟨main, cue⟩ := State.ramps_long (State.audioTick_settingsSound h.2 pins)
  have before := State.beforeCue_mixRamps h.1 pins
  rw [State.audioTick_eq, State.mixPhase_mix, State.cuePhase_mix] at main cue ⊢
  rw [Mix.tick_mainBlocks] at main
  rw [Mix.tick_cueBlocks] at cue
  exact Mix.tick_rampsSound (Mix.rewind_rampsSound before _ _) main cue _ _ _ _

theorem State.lookRound_rampsSound {s : State} (h : s.rampsSound) (seen : State) (left : ReportFlags) :
    (s.lookRound seen left).rampsSound := by
  refine ⟨?_, State.lookRound_settingsSound h.2 seen left⟩
  refine State.ite_of (P := (·.mix.rampsSound)) (fun _ => ?_) fun _ => h.1
  change (if seen.work.meters then s.mix.restartPeaks else s.mix).rampsSound
  split
  · exact Mix.rampsSound_of_eq s.mix.restartPeaks_ramp h.1
  · exact h.1

theorem State.blockTick_rampsSound {s : State} (h : s.rampsSound) (pins : BitVec 16) (follows first : Bool) :
    (s.blockTick pins follows first).rampsSound := by
  have events : (s.tickEvents pins follows).rampsSound :=
    ⟨by
      rw [show (s.tickEvents pins follows).mix = (s.audioTick pins).mix by simp [State.tickEvents]]
      exact State.audioTick_mixRamps h pins, State.tickEvents_settingsSound h.2 pins follows⟩
  have round := State.lookRound_rampsSound events ((s.tickEvents pins follows).seenAt s pins first)
    (if first then s.tickFlags pins else ReportFlags.clear)
  exact State.rampsSound_of_eq (by simp [State.blockTick, State.roundPhase])
    (State.blockTick_settingsSound h.2 pins follows first) round

theorem State.rampSwitch_mixRamps {s : State} (h : s.rampsSound) (i : RampId) : (s.rampSwitch i).mix.rampsSound := by
  have long := rampSamples_pos (State.ramps_long h.2).1
  unfold State.rampSwitch
  split
  case h_1 l =>
    refine State.due_of (P := (·.mix.rampsSound)) h.1 fun _ => ?_
    exact Mix.setContrib_rampsSound h.1 l ⟨h.1 (.lineAir l), GroupRamp.retarget_sound (h.1 (.lineGroup l)) _ long⟩
  case h_2 l =>
    refine State.due_of (P := (·.mix.rampsSound)) h.1 fun _ => ?_
    obtain ⟨air, group, rest⟩ := (s.mix.rampsSound_iff.mp h.1).2.2 l
    exact Mix.setReturn_rampsSound h.1 l ⟨air, GroupRamp.retarget_sound group _ long, rest⟩
  all_goals exact h.1

/-- A command keeps every ramp sound. -/
theorem exec_rampsSound {c : Instr} {s t : State} (run : exec c s = .next t) (h : s.rampsSound) : t.rampsSound := by
  have settings := exec_settingsSound run h.2
  cases c with
  | powerOnReset => cases run; exact reset_rampsSound
  | softReset => cases run; exact State.due_of h fun _ => reset_rampsSound
  | linkReset => cases run; exact State.rampsSound_of_eq s.linkReset_mix settings h
  | ignoredRegisterWrite o w v =>
    cases run
    exact State.due_of h fun _ => State.registerWrite_of (fun _ => reset_rampsSound) (fun _ _ _ => id) h o w v
  | laneHold _ | keyPress _ | keyRelease _ | holdCountExpiry _ | outgoingFadeEnd _ =>
    cases run; exact State.due_of h fun _ => h
  | partnerRead _ | laneFrame _ _ | elasticArrival _ _ | laneLock _ _ _ | lossOfLock _ _ =>
    cases run; exact State.rampsSound_of_eq (s := s) (State.due_of (P := (·.mix = s.mix)) rfl fun _ => rfl) settings h
  | elasticRead _ | seekingSync _ _ _ => cases run; exact ⟨h.1, settings⟩
  | sample =>
    cases run
    exact ⟨fun i => by rw [State.takeSample_ramp]; exact Ramp.advance_sound _ (h.1 i), settings⟩
  | blockTick _ _ => cases run; exact State.blockTick_rampsSound h ..
  | refLock => cases run; exact State.due_of h fun _ => by rw [State.setRef_eq]; exact h
  | refUnlock => cases run; rw [State.setRef_eq]; exact h
  | rampEnd i =>
    cases run
    refine ⟨State.ite_of (P := (·.mix.rampsSound)) (fun _ => ?_) fun _ => State.rampSwitch_mixRamps h i, settings⟩
    exact Mix.setRamp_rampsSound h.1 (s.mix.ramp i).finish_sound i
  | laneLost i =>
    cases run
    exact State.due_of h fun _ => State.laneLost_of (P := State.rampsSound) (fun _ l h => State.tickLine_rampsSound h l)
      ⟨h.1, State.settingsSound_of_eq h.2 (s.tickLane_timing i) (by simp) (by simp) (by simp)⟩
  | codeSettle l | lossCountExpiry l | shadowCountEnd l =>
    cases run
    exact State.due_of h fun _ => State.tickLineInOrder_of (P := State.rampsSound)
      (fun _ l h => State.tickLine_rampsSound h l) h l
  | apply =>
    cases run
    exact State.due_of h fun _ => ⟨State.applyTick_mixRamps h.1, State.applyTick_settingsSound h.2⟩
  | roundBegin => cases run; exact State.due_of h fun _ => State.lookRound_rampsSound h s ReportFlags.clear
  | memoryEnable _ | post _ | noticeClear _ | noticeMaskWrite _ | windowRegisterWrite _ _ | configurationAccess _
  | busMasteringWithdrawn | periodicDue | engineActive | intakeTake | sectionFetch | readCompletion _ _ | readTimeout
  | recordWriteBegin _ | recordWriteComplete =>
    exact State.rampsSound_of_eq (exec_hostSide run rfl).mix settings h

end Sys2Proof.Machine

open Sys2Proof Sys2Proof.Machine

/-- Settles O56: every fresh ramp has a length, as the settings give it, and every command keeps ramps and settings. -/
theorem stepKeepsRamps : Obligations.StepKeepsRamps := by
  unfold Obligations.StepKeepsRamps
  exact fun _ _ => step_keeps (fun _ _ => id) fun _ _ _ => exec_rampsSound

end

