-- ==== Sys2Proof/Proofs/Capacity.lean ====
section
/-! PROOFS. The capacity check (R80 to R82): a pass refuses the arrivals at a group beyond its room, passes only grow, the
last one repeats the one before it, and the roles it leaves fill no group past eight. -/

namespace Sys2Proof.Machine

/-! ### Counting -/

theorem countP_add_countP {α : Type} (ls : List α) (p q r t : α → Bool)
    (h : ∀ x ∈ ls, (p x).toNat + (q x).toNat = (r x).toNat + (t x).toNat) :
    ls.countP p + ls.countP q = ls.countP r + ls.countP t := by
  induction ls with
  | nil => rfl
  | cons x ls ih =>
    have head := h x (by simp)
    have tail := ih fun y hy => h y (by simp [hy])
    have step (f : α → Bool) : (x :: ls).countP f = ls.countP f + (f x).toNat := by
      rw [List.countP_cons]
      cases f x <;> rfl
    simp only [step]
    omega

/-! ### Departures and arrivals (R81) -/

theorem Role.group_eq_some_iff (r : Role) (g : Group) : r.group = some g ↔ r = .confer g := by
  cases r <;> simp [Role.group]

section
variable (i : CapacityInput) (l : Line) (g : Group)

theorem CapacityInput.arrives_iff : i.arrives l = some g ↔ i.staged[l] = some (.confer g) ∧ i.held[l] ≠ .confer g := by
  unfold CapacityInput.arrives arrivalGroup
  cases i.staged[l] with
  | none => simp
  | some r => cases r <;> simp [Role.group]; grind [Role.group_eq_some_iff]

theorem CapacityInput.departs_iff :
    i.departs l = some g ↔ i.held[l] = .confer g ∧ ∃ r, i.staged[l] = some r ∧ r ≠ .confer g := by
  unfold CapacityInput.departs departure
  cases i.staged[l] with
  | none => simp
  | some r => cases i.held[l] <;> simp [Role.group]; grind [Role.group_eq_some_iff]

theorem CapacityInput.moves_iff : i.moves l = true ↔ (∃ g, i.departs l = some g) ∧ ∃ g, i.arrives l = some g := by
  unfold CapacityInput.moves isMove CapacityInput.departs CapacityInput.arrives
  cases i.staged[l] with
  | none => simp
  | some r => simp [Option.isSome_iff_exists]

end

/-! ### A pass (R82) -/

/-- A line of a pass: an arrival takes a place of its group, or is refused where none is left. -/
def CapacityInput.admitLine (i : CapacityInput) (acc : Vector Nat 4 × List Line) (l : Line) : Vector Nat 4 × List Line :=
  match i.arrives l with
  | none => acc
  | some g => if acc.1[g] = 0 then (acc.1, acc.2 ++ [l]) else (acc.1.set g (acc.1[g] - 1), acc.2)

theorem CapacityInput.pass_eq (i : CapacityInput) (refused : List Line) :
    i.pass refused = ((List.finRange 24).foldl i.admitLine (Vector.ofFn (i.room refused), [])).2 := rfl

/-- The arrivals at a group among some lines. -/
def CapacityInput.arrivals (i : CapacityInput) (g : Group) (ls : List Line) : Nat :=
  ls.countP fun j => i.arrives j = some g

/-- The arrivals at a group below a line. -/
def CapacityInput.rank (i : CapacityInput) (g : Group) (l : Line) : Nat :=
  i.arrivals g ((List.finRange 24).filter (· < l))

/-- Some lines of a pass taken, with `places` each group's places before them: the places left, the lines refused, and the
arrivals admitted. -/
structure CapacityInput.Taken (i : CapacityInput) (places : Vector Nat 4) (ls : List Line)
    (acc : Vector Nat 4 × List Line) : Prop where
  left : ∀ g : Group, acc.1[g] = places[g] - i.arrivals g ls
  refused : ∀ l, l ∈ acc.2 ↔ l ∈ ls ∧ ∃ g, i.arrives l = some g ∧ places[g] ≤ i.arrivals g (ls.filter (· < l))
  ordered : acc.2.Pairwise (· < ·)
  admitted : ∀ g : Group, (ls.countP fun j => i.arrives j = some g ∧ j ∉ acc.2) = min places[g] (i.arrivals g ls)

section
variable {i : CapacityInput} {places : Vector Nat 4} {ls : List Line} {acc : Vector Nat 4 × List Line} {x : Line}

theorem CapacityInput.arrivals_concat (g : Group) :
    i.arrivals g (ls ++ [x]) = i.arrivals g ls + if i.arrives x = some g then 1 else 0 := by
  simp [CapacityInput.arrivals, List.countP_append, List.countP_cons]

/-- Which lines are refused after one more, above the others: those refused before it, and the new one where it arrives at a
group without a place. -/
theorem CapacityInput.Taken.refused_concat (h : i.Taken places ls acc) (above : ∀ j ∈ ls, j < x) (l : Line) :
    (l ∈ ls ++ [x] ∧ ∃ g, i.arrives l = some g ∧ places[g] ≤ i.arrivals g ((ls ++ [x]).filter (· < l))) ↔
      l ∈ acc.2 ∨ (l = x ∧ ∃ g, i.arrives x = some g ∧ places[g] ≤ i.arrivals g ls) := by
  have lower (l : Line) (h : l ∈ ls) : (ls ++ [x]).filter (· < l) = ls.filter (· < l) := by
    simp [List.filter_append, (above l h).le]
  have all : (ls ++ [x]).filter (· < x) = ls := by
    simpa [List.filter_append, List.filter_eq_self] using above
  rw [h.refused]
  by_cases own : l = x
  · subst own
    have fresh : l ∉ ls := fun held => absurd (above l held) (lt_irrefl l)
    simp [all, fresh]
  · by_cases held : l ∈ ls
    · simp [held, own, lower l held]
    · simp [held, own]

theorem CapacityInput.Taken.fresh (h : i.Taken places ls acc) (above : ∀ j ∈ ls, j < x) : x ∉ acc.2 :=
  fun held => absurd (above x ((h.refused x).mp held).1) (lt_irrefl x)

/-- A line that arrives nowhere changes nothing. -/
theorem CapacityInput.Taken.pass_none (h : i.Taken places ls acc) (above : ∀ j ∈ ls, j < x)
    (arrives : i.arrives x = none) : i.Taken places (ls ++ [x]) acc where
  left g := by
    rw [CapacityInput.arrivals_concat, arrives]
    exact h.left g
  refused l := by
    rw [h.refused_concat above]
    simp [arrives]
  ordered := h.ordered
  admitted g := by
    rw [CapacityInput.arrivals_concat, List.countP_append, h.admitted]
    simp [arrives]

/-- An arrival that finds no place is refused. -/
theorem CapacityInput.Taken.pass_full (h : i.Taken places ls acc) (above : ∀ j ∈ ls, j < x) {g : Group}
    (arrives : i.arrives x = some g) (full : acc.1[g] = 0) : i.Taken places (ls ++ [x]) (acc.1, acc.2 ++ [x]) where
  left k := by
    have before := h.left k
    rw [CapacityInput.arrivals_concat, arrives]
    by_cases here : g = k
    · subst here
      rw [if_pos rfl]
      dsimp only
      omega
    · rw [if_neg (mt Option.some.inj here)]
      exact before
  refused l := by
    have before := h.left g
    have noPlace : places[g] ≤ i.arrivals g ls := by omega
    rw [h.refused_concat above]
    simp only [arrives, Option.some.injEq, exists_eq_left', noPlace, and_true, List.mem_append, List.mem_singleton]
  ordered := List.pairwise_append.mpr ⟨h.ordered, List.pairwise_singleton .., fun a held b isX => by
    rw [List.mem_singleton.mp isX]
    exact above a ((h.refused a).mp held).1⟩
  admitted k := by
    have kept : (ls.countP fun j => decide (i.arrives j = some k ∧ j ∉ acc.2 ++ [x])) =
        ls.countP fun j => decide (i.arrives j = some k ∧ j ∉ acc.2) := by
      refine List.countP_congr fun j inLs => ?_
      have other : j ≠ x := (above j inLs).ne
      simp [other]
    have before := h.left k
    rw [List.countP_append, kept, h.admitted, CapacityInput.arrivals_concat, arrives]
    by_cases here : g = k
    · subst here
      simp only [List.countP_singleton, List.mem_append, List.mem_singleton, or_true, not_true_eq_false, and_false,
        decide_false, Bool.false_eq_true, if_false, if_true]
      omega
    · simp [arrives, here]

/-- An arrival that finds a place takes it. -/
theorem CapacityInput.Taken.pass_place (h : i.Taken places ls acc) (above : ∀ j ∈ ls, j < x) {g : Group}
    (arrives : i.arrives x = some g) (place : acc.1[g] ≠ 0) :
    i.Taken places (ls ++ [x]) (acc.1.set g (acc.1[g] - 1), acc.2) where
  left k := by
    have before := h.left k
    rw [CapacityInput.arrivals_concat, arrives]
    by_cases here : g = k
    · subst here
      rw [if_pos rfl, set_same]
      omega
    · rw [if_neg (mt Option.some.inj here), set_other _ _ (Ne.symm here)]
      exact before
  refused l := by
    have before := h.left g
    have room : ¬places[g] ≤ i.arrivals g ls := by omega
    rw [h.refused_concat above]
    simp only [arrives, Option.some.injEq, exists_eq_left', room, and_false, or_false]
  ordered := h.ordered
  admitted k := by
    have before := h.left k
    rw [List.countP_append, h.admitted, CapacityInput.arrivals_concat, arrives]
    by_cases here : g = k
    · subst here
      simp only [List.countP_singleton, arrives, h.fresh above, not_false_eq_true, and_self, decide_true, if_true]
      omega
    · simp [arrives, here]

end

theorem CapacityInput.foldl_admit (i : CapacityInput) (places : Vector Nat 4) {ls : List Line}
    (sorted : ls.Pairwise (· < ·)) : i.Taken places ls (ls.foldl i.admitLine (places, [])) := by
  induction ls using List.reverseRecOn with
  | nil => exact ⟨fun g => rfl, by simp, .nil, fun g => by simp [CapacityInput.arrivals]⟩
  | append_singleton ls x ih =>
    obtain ⟨before, -, above⟩ := List.pairwise_append.mp sorted
    have above (j : Line) (h : j ∈ ls) : j < x := above j h x (by simp)
    have taken := ih before
    rw [List.foldl_append, List.foldl_cons, List.foldl_nil]
    generalize ls.foldl i.admitLine (places, []) = acc at taken
    unfold CapacityInput.admitLine
    cases arrives : i.arrives x with
    | none => exact taken.pass_none above arrives
    | some g =>
      dsimp only
      split
      case isTrue full => exact taken.pass_full above arrives full
      case isFalse place => exact taken.pass_place above arrives place

section
variable (i : CapacityInput) (before : List Line)

/-- A pass refuses the arrivals that find their group's room taken by the arrivals of lower lines. -/
theorem CapacityInput.mem_pass (l : Line) :
    l ∈ i.pass before ↔ ∃ g, i.arrives l = some g ∧ i.room before g ≤ i.rank g l := by
  rw [CapacityInput.pass_eq, (i.foldl_admit _ (List.pairwise_lt_finRange 24)).refused]
  simp [CapacityInput.rank]

theorem CapacityInput.pass_pairwise : (i.pass before).Pairwise (· < ·) :=
  (i.foldl_admit _ (List.pairwise_lt_finRange 24)).ordered

/-- A pass admits arrivals at a group as far as there is room. -/
theorem CapacityInput.pass_admitted (g : Group) :
    ((List.finRange 24).countP fun j => i.arrives j = some g ∧ j ∉ i.pass before) =
      min (i.room before g) (i.arrivals g (List.finRange 24)) := by
  have admitted := (i.foldl_admit (Vector.ofFn (i.room before)) (List.pairwise_lt_finRange 24)).admitted g
  rwa [ofFn_at] at admitted

/-- The departures from a group that are not refused. -/
def CapacityInput.departures (g : Group) : Nat :=
  (List.finRange 24).countP fun l => i.departs l = some g ∧ l ∉ before

theorem CapacityInput.room_eq (g : Group) : i.room before g = 8 + i.departures before g - i.counts[g] := by
  have same : ((List.finRange 24).filter fun l => i.departs l = some g && !before.contains l).length =
      i.departures before g := by
    rw [← List.countP_eq_length_filter]
    exact List.countP_congr fun l _ => by simp
  unfold CapacityInput.room
  rw [same]

end

/-- With more lines refused, there is no more room. -/
theorem CapacityInput.room_le {i : CapacityInput} {a b : List Line} (h : ∀ l ∈ a, l ∈ b) (g : Group) :
    i.room b g ≤ i.room a g := by
  have fewer : i.departures b g ≤ i.departures a g := by
    refine List.countP_mono_left fun l _ departs => ?_
    simp only [decide_eq_true_eq] at departs ⊢
    exact departs.imp_right (mt (h l))
  rw [CapacityInput.room_eq, CapacityInput.room_eq]
  omega

/-- With more lines refused before it, a pass refuses no fewer. -/
theorem CapacityInput.pass_mono {i : CapacityInput} {a b : List Line} (h : ∀ l ∈ a, l ∈ b) :
    ∀ l ∈ i.pass a, l ∈ i.pass b := by
  intro l refused
  rw [CapacityInput.mem_pass] at refused ⊢
  obtain ⟨g, arrives, full⟩ := refused
  exact ⟨g, arrives, (CapacityInput.room_le h g).trans full⟩

/-- The moves among the refused lines. -/
def CapacityInput.refusedMoves (i : CapacityInput) (refused : List Line) : Nat :=
  (List.finRange 24).countP fun l => i.moves l ∧ l ∈ refused

theorem CapacityInput.refusedMoves_le (i : CapacityInput) (refused : List Line) : i.refusedMoves refused ≤ 24 :=
  List.countP_le_length.trans (List.length_finRange).le

/-- A pass that refuses a move more than the one before it refuses more moves. -/
theorem CapacityInput.refusedMoves_lt {i : CapacityInput} {a b : List Line} (h : ∀ l ∈ a, l ∈ b) {l : Line}
    (move : i.moves l = true) (new : l ∈ b) (old : l ∉ a) : i.refusedMoves a < i.refusedMoves b := by
  have grows : ∀ x ∈ List.finRange 24, decide (i.moves x = true ∧ x ∈ a) = true →
      decide (i.moves x = true ∧ x ∈ b) = true := fun x _ held => by
    simp only [decide_eq_true_eq] at held ⊢
    exact held.imp_right (h x)
  refine lt_of_le_of_ne (List.countP_mono_left grows) fun same => old ?_
  have sub := List.monotone_filter_right (List.finRange 24) fun x =>
    show decide (i.moves x = true ∧ x ∈ a) = true → decide (i.moves x = true ∧ x ∈ b) = true from
      grows x (List.mem_finRange x)
  have eq := sub.eq_of_length (by simpa [CapacityInput.refusedMoves, List.countP_eq_length_filter] using same)
  have inB : l ∈ (List.finRange 24).filter fun x => decide (i.moves x = true ∧ x ∈ b) := by simp [move, new]
  rw [← eq] at inB
  exact (by simpa using inB : _ ∧ l ∈ a).2

/-- The passes end with one that finds the room that the one before it found. -/
theorem CapacityInput.check_settled (i : CapacityInput) (fuel : Nat) (before : List Line)
    (grows : ∀ l ∈ before, l ∈ i.pass before) (enough : 25 ≤ fuel + i.refusedMoves before) :
    ∃ last, i.check fuel before = i.pass last ∧ ∀ g, i.room (i.pass last) g = i.room last g := by
  induction fuel generalizing before with
  | zero => exact absurd (i.refusedMoves_le before) (by omega)
  | succ fuel ih =>
    unfold CapacityInput.check
    dsimp only
    split
    case isTrue more =>
      obtain ⟨l, refused, move, old⟩ : ∃ l ∈ i.pass before, i.moves l = true ∧ l ∉ before := by simpa using more
      have := CapacityInput.refusedMoves_lt grows move refused old
      exact ih (i.pass before) (CapacityInput.pass_mono grows) (by omega)
    case isFalse same =>
      refine ⟨before, rfl, fun g => ?_⟩
      have same : ∀ l ∈ i.pass before, i.moves l = true → l ∈ before := by simpa using same
      rw [CapacityInput.room_eq, CapacityInput.room_eq]
      have departures : i.departures (i.pass before) g = i.departures before g := by
        refine List.countP_congr fun l _ => ?_
        simp only [decide_eq_true_eq]
        refine and_congr_right fun departs => not_congr ⟨fun refused => ?_, grows l⟩
        obtain ⟨h, arrives, -⟩ := (i.mem_pass before l).mp refused
        exact same l refused ((i.moves_iff l).mpr ⟨⟨g, departs⟩, ⟨h, arrives⟩⟩)
      rw [departures]

/-! ### The lines refused -/

section
variable (i : CapacityInput)

theorem refusedLines_settled : ∃ last, refusedLines i = i.pass last ∧ ∀ g, i.room (refusedLines i) g = i.room last g := by
  obtain ⟨last, same, room⟩ := i.check_settled 25 [] (by simp) (by omega)
  exact ⟨last, same, fun g => by rw [refusedLines, same]; exact room g⟩

theorem mem_refusedLines (l : Line) :
    l ∈ refusedLines i ↔ ∃ g, i.arrives l = some g ∧ i.room (refusedLines i) g ≤ i.rank g l := by
  obtain ⟨last, same, room⟩ := refusedLines_settled i
  simp only [room]
  rw [same]
  exact i.mem_pass last l

theorem refusedLines_pairwise : (refusedLines i).Pairwise (· < ·) := by
  obtain ⟨last, same, -⟩ := refusedLines_settled i
  rw [same]
  exact i.pass_pairwise last

theorem refusedLines_admitted (g : Group) :
    ((List.finRange 24).countP fun j => i.arrives j = some g ∧ j ∉ refusedLines i) =
      min (i.room (refusedLines i) g) (i.arrivals g (List.finRange 24)) := by
  obtain ⟨last, same, room⟩ := refusedLines_settled i
  rw [room, same]
  exact i.pass_admitted last g

variable {i}

/-- An arrival counts above those of the lower lines, among lines that hold it and them. -/
theorem CapacityInput.rank_lt_arrivals {l : Line} {g : Group} (arrives : i.arrives l = some g) {ls : List Line}
    (held : ∀ x ≤ l, x ∈ ls) : i.rank g l < i.arrivals g ls := by
  have below : ((List.finRange 24).filter (· < l) ++ [l]).Subperm ls := by
    refine List.subperm_of_subset ?_ fun x => ?_
    · simpa [List.nodup_append, (List.nodup_finRange 24).filter] using fun x (low : x < l) => low.ne
    · simp only [List.mem_append, List.mem_filter, List.mem_finRange, true_and, List.mem_singleton, decide_eq_true_eq]
      rintro (low | rfl)
      · exact held x low.le
      · exact held x le_rfl
  have counted := below.countP_le (fun j => decide (i.arrives j = some g))
  rw [List.countP_append] at counted
  simpa [CapacityInput.rank, CapacityInput.arrivals, arrives] using counted

theorem CapacityInput.rank_lt {a b : Line} (h : a < b) {g : Group} (arrives : i.arrives a = some g) :
    i.rank g a < i.rank g b :=
  CapacityInput.rank_lt_arrivals arrives fun x low => by simpa using low.trans_lt h

/-- Where an arrival at a group is refused, so is every higher one. -/
theorem refusedLines_above {a b : Line} (h : a < b) {g : Group} (below : i.arrives a = some g)
    (above : i.arrives b = some g) (refused : a ∈ refusedLines i) : b ∈ refusedLines i := by
  rw [mem_refusedLines] at refused ⊢
  obtain ⟨k, own, full⟩ := refused
  obtain rfl : g = k := Option.some.inj (below.symm.trans own)
  exact ⟨g, above, full.trans (CapacityInput.rank_lt h below).le⟩

/-- Of two arrivals staged alone at a group with one place left, the higher is refused. -/
theorem refusedLines_pair {a b : Line} (h : a < b) {g : Group} (below : i.arrives a = some g)
    (above : i.arrives b = some g) (seven : i.counts[g] = 7)
    (alone : ∀ l : Line, l ≠ a → l ≠ b → i.staged[l] = none) : refusedLines i = [b] := by
  have staged {l : Line} {r : Role} (at_ : i.staged[l] = some r) : l = a ∨ l = b := by
    by_contra other
    rw [not_or] at other
    rw [alone l other.1 other.2] at at_
    cases at_
  have one : i.room (refusedLines i) g = 1 := by
    have none : i.departures (refusedLines i) g = 0 := by
      rw [CapacityInput.departures, List.countP_eq_zero]
      intro l _
      simp only [decide_eq_true_eq, not_and]
      intro departs
      obtain ⟨held, r, at_, -⟩ := (i.departs_iff l g).mp departs
      obtain rfl | rfl := staged at_
      · exact absurd held ((i.arrives_iff l g).mp below).2
      · exact absurd held ((i.arrives_iff l g).mp above).2
    rw [CapacityInput.room_eq, none, seven]
  have first : i.rank g a = 0 := by
    rw [CapacityInput.rank, CapacityInput.arrivals, List.countP_eq_zero]
    intro l lower
    simp only [List.mem_filter, List.mem_finRange, true_and, decide_eq_true_eq] at lower ⊢
    intro arrives
    obtain rfl | rfl := staged ((i.arrives_iff l g).mp arrives).1
    · exact absurd lower (lt_irrefl l)
    · exact absurd (lower.trans h) (lt_irrefl l)
  have members (l : Line) : l ∈ refusedLines i ↔ l = b := by
    rw [mem_refusedLines]
    constructor
    · rintro ⟨k, arrives, full⟩
      obtain rfl | rfl := staged ((i.arrives_iff l k).mp arrives).1
      · obtain rfl : g = k := Option.some.inj (below.symm.trans arrives)
        rw [one, first] at full
        omega
      · rfl
    · rintro rfl
      have higher := CapacityInput.rank_lt h below
      exact ⟨g, above, by omega⟩
  have same := (List.perm_ext_iff_of_nodup ((refusedLines_pairwise i).imp fun lt => lt.ne) (List.nodup_singleton b)).mpr
    fun l => by rw [members, List.mem_singleton]
  exact List.perm_singleton.mp same

end

/-! ### The roles after the check (R80) -/

/-- The roles after the apply: every refused line keeps its own. -/
def CapacityInput.rolesAfter (i : CapacityInput) : Vector Role 24 :=
  Vector.ofFn fun l =>
    match i.staged[l] with
    | none => i.held[l]
    | some r => if l ∈ refusedLines i then i.held[l] else r

theorem roleCount_eq (roles : Vector Role 24) (g : Group) :
    roleCount roles g = (List.finRange 24).countP fun l => roles[l] = .confer g :=
  List.countP_eq_length_filter.symm

section
variable (i : CapacityInput)

theorem CapacityInput.rolesAfter_none {l : Line} (h : i.staged[l] = none) : i.rolesAfter[l] = i.held[l] := by
  rw [CapacityInput.rolesAfter, ofFn_at, h]

theorem CapacityInput.rolesAfter_refused {l : Line} (h : l ∈ refusedLines i) : i.rolesAfter[l] = i.held[l] := by
  rw [CapacityInput.rolesAfter, ofFn_at]
  cases i.staged[l] with
  | none => rfl
  | some r => exact if_pos h

theorem CapacityInput.rolesAfter_admitted {l : Line} {r : Role} (staged : i.staged[l] = some r)
    (h : l ∉ refusedLines i) : i.rolesAfter[l] = r := by
  rw [CapacityInput.rolesAfter, ofFn_at, staged]
  exact if_neg h

/-- The lines of a group after the check, with those that leave it, are those before it with the arrivals admitted. -/
theorem roleCount_rolesAfter (g : Group) :
    roleCount i.rolesAfter g + i.departures (refusedLines i) g =
      roleCount i.held g +
        (List.finRange 24).countP fun j => i.arrives j = some g ∧ j ∉ refusedLines i := by
  rw [roleCount_eq, roleCount_eq, CapacityInput.departures]
  refine countP_add_countP _ _ _ _ _ fun l _ => ?_
  simp only [CapacityInput.arrives_iff, CapacityInput.departs_iff]
  by_cases refused : l ∈ refusedLines i
  · rw [i.rolesAfter_refused refused]
    simp [refused]
  · cases staged : i.staged[l] with
    | none =>
      rw [i.rolesAfter_none staged]
      simp
    | some r =>
      rw [i.rolesAfter_admitted staged refused]
      by_cases stays : i.held[l] = .confer g <;> by_cases joins : r = .confer g <;> simp_all

theorem departures_le (g : Group) : i.departures (refusedLines i) g ≤ roleCount i.held g := by
  rw [roleCount_eq]
  refine List.countP_mono_left fun l _ departs => ?_
  simp only [decide_eq_true_eq] at departs ⊢
  exact ((i.departs_iff l g).mp departs.1).1

variable {i}

theorem rolesAfter_le (counts : ∀ g : Group, i.counts[g] = roleCount i.held g) (few : ∀ g : Group, roleCount i.held g ≤ 8)
    (g : Group) : roleCount i.rolesAfter g ≤ 8 := by
  have balance := roleCount_rolesAfter i g
  have leave := departures_le i g
  rw [refusedLines_admitted, CapacityInput.room_eq, counts g] at balance
  have := few g
  omega

/-- A refused line is an arrival at a group that the check leaves with eight. -/
theorem refused_full (counts : ∀ g : Group, i.counts[g] = roleCount i.held g) (few : ∀ g : Group, roleCount i.held g ≤ 8)
    {l : Line} (h : l ∈ refusedLines i) :
    ∃ g, i.staged[l] = some (.confer g) ∧ i.held[l] ≠ .confer g ∧ roleCount i.rolesAfter g = 8 := by
  obtain ⟨g, arrives, full⟩ := (mem_refusedLines i l).mp h
  obtain ⟨staged, held⟩ := (i.arrives_iff l g).mp arrives
  refine ⟨g, staged, held, ?_⟩
  have beyond := CapacityInput.rank_lt_arrivals arrives fun x _ => List.mem_finRange x
  have balance := roleCount_rolesAfter i g
  have leave := departures_le i g
  rw [CapacityInput.room_eq, counts g] at full
  rw [refusedLines_admitted, CapacityInput.room_eq, counts g] at balance
  have := few g
  omega

end

end Sys2Proof.Machine

open Sys2Proof Sys2Proof.Machine

/-- Settles O48: the last pass finds the room of the one before it, so each group takes arrivals in line order up to eight. -/
theorem capacityHeld : Obligations.CapacityHeld := by
  unfold Obligations.CapacityHeld
  refine ⟨fun s => rfl, fun i a b g low stagedA heldA stagedB heldB => ?_, fun i counts few => ?_⟩
  · have below := (i.arrives_iff a g).mpr ⟨stagedA, heldA⟩
    have above := (i.arrives_iff b g).mpr ⟨stagedB, heldB⟩
    exact ⟨refusedLines_above low below above, refusedLines_pair low below above⟩
  · exact ⟨rolesAfter_le counts few, fun l refused => refused_full counts few refused⟩

end

