-- ==== Sys2Proof/Proofs/SoundRoles.lean ====
section
/-! PROOFS. The invariant of the role counts (R80): roles change at an apply alone, by the records that the capacity check
admits, and the apply counts them again. -/

namespace Sys2Proof.Machine

/-- The applied roles of the lines. -/
def State.roles (s : State) : Vector Role 24 := Vector.ofFn fun l => (s.line.ctx[l]).plan.role

theorem State.roles_at (s : State) (l : Line) : s.roles[l] = (s.line.ctx[l]).plan.role := ofFn_at ..

theorem State.roles_ext {s t : State} (h : ∀ l : Line, (t.line.ctx[l]).plan.role = (s.line.ctx[l]).plan.role) :
    t.roles = s.roles :=
  congrArg Vector.ofFn (funext h)

theorem State.rolesSound_of_eq {s t : State} (roles : t.roles = s.roles) (counts : t.scrn.roleCounts = s.scrn.roleCounts)
    (h : s.rolesSound) : t.rolesSound := by
  intro g
  rw [counts]
  change _ = roleCount t.roles g ∧ _
  rw [roles]
  exact h g

theorem reset_rolesSound : State.reset.rolesSound := fun g =>
  ⟨(reset_roleCount g).trans (reset_roleCount_eq g).symm, (reset_roleCount g).trans_le (Nat.zero_le _)⟩

/-! ### Lines that no apply reaches -/

theorem State.lineInput_plan_none (s : State) (l : Line) : (s.lineInput none l).plan = none := by
  unfold State.lineInput
  split <;> rfl

theorem State.tickLine_rolesSound {s : State} (h : s.rolesSound) (l : Line) : (s.tickLine l).rolesSound := by
  refine State.rolesSound_of_eq (State.roles_ext fun k => ?_) ?_ h
  · rw [State.tickLine_ctx]
    refine set_of (P := fun k (c : LineCtx) => c.plan.role = (s.line.ctx[k]).plan.role) (fun _ => rfl) ?_ k
    change (planAfter s.line.ctx[l] (s.lineInput none l)).role = _
    rw [planAfter, State.lineInput_plan_none, Option.getD_none]
  · simp [State.tickLine, State.lineMoved]

theorem State.linePhase_line (s : State) (plans : Vector (Option LinePlan) 24) (delta : Int) (l : Line) :
    ∃ n, (s.linePhase plans delta).line.ctx[l] =
      lineTick (s.lineEnv delta) s.line.ctx[l] (s.lineInput plans[l] l) n := by
  have line : (s.linePhase plans delta).line.ctx = linesTick (s.lineEnv delta) s.line.ctx (s.lineInputs plans)
      s.scrn.arrivals := by simp [State.linesMoved]
  have own := linesTick_getElem (s.lineEnv delta) s.line.ctx (s.lineInputs plans) s.scrn.arrivals l
  rw [← line, show (s.lineInputs plans)[l] = s.lineInput plans[l] l from ofFn_at ..] at own
  exact ⟨_, own⟩

theorem State.linePhase_plan (s : State) (plans : Vector (Option LinePlan) 24) (delta : Int) (l : Line) :
    ((s.linePhase plans delta).line.ctx[l]).plan = planAfter s.line.ctx[l] (s.lineInput plans[l] l) := by
  obtain ⟨n, own⟩ := s.linePhase_line plans delta l
  rw [own]
  rfl

theorem State.linePhase_roleCounts (s : State) (plans : Vector (Option LinePlan) 24) (delta : Int) :
    (s.linePhase plans delta).scrn.roleCounts = s.scrn.roleCounts := by
  simp [State.linePhase, State.linesMoved]

/-- A tick without records keeps the roles. -/
theorem State.linePhase_rolesSound {s : State} (h : s.rolesSound) {plans : Vector (Option LinePlan) 24}
    (none : ∀ l : Line, plans[l] = none) (delta : Int) : (s.linePhase plans delta).rolesSound := by
  refine State.rolesSound_of_eq (State.roles_ext fun l => ?_) (s.linePhase_roleCounts ..) h
  rw [State.linePhase_plan, none, planAfter, State.lineInput_plan_none, Option.getD_none]

/-! ### The apply -/

theorem State.handOver_ctx (s : State) : s.handOver.line.ctx = s.line.ctx := by
  unfold State.handOver LineBlock.applied
  rfl

theorem State.handOver_lines (s : State) : s.handOver.inst.lines = s.inst.lines := by
  unfold State.handOver Instant.applied
  rfl

theorem State.handOver_roleCounts (s : State) : s.handOver.scrn.roleCounts = s.scrn.roleCounts := by
  unfold State.handOver Scrn.applied
  rfl

theorem State.handOver_rolesSound {s : State} (h : s.rolesSound) : s.handOver.rolesSound :=
  State.rolesSound_of_eq (State.roles_ext fun l => by rw [State.handOver_ctx]) s.handOver_roleCounts h

/-- At an apply that is due no line has been taken at its tick. -/
theorem State.applyDue_lines {s : State} (h : s.applyDue = true) (l : Line) : s.inst.lines[l] = false := by
  simp only [State.applyDue, Bool.and_eq_true, decide_eq_true_eq, Bool.not_eq_true', Instant.begun, Bool.or_eq_false_iff,
    List.any_eq_false, List.mem_finRange, forall_true_left] at h
  simpa using h.2.1.1.1.2 l

theorem State.admittedPlans_at (s : State) (l : Line) :
    s.admittedPlans[l] = if s.applyRefused.contains l then none else s.intake.staging.lines[l] := by
  unfold State.admittedPlans
  exact ofFn_at ..

/-- The plan of a line after an apply: the record admitted, or its own. -/
theorem State.applied_plan {s : State} (due : s.applyDue = true) (delta : Int) (l : Line) :
    (((s.handOver).linePhase s.admittedPlans delta).line.ctx[l]).plan =
      (s.admittedPlans[l]).getD (s.line.ctx[l]).plan := by
  have free : s.handOver.inst.lines[l] = false := by
    rw [s.handOver_lines]
    exact State.applyDue_lines due l
  rw [State.linePhase_plan, planAfter, State.lineInput, free, s.handOver_ctx]
  rfl

theorem State.capacityInput_held (s : State) (l : Line) : s.capacityInput.held[l] = (s.line.ctx[l]).plan.role :=
  ofFn_at ..

theorem State.capacityInput_staged (s : State) (l : Line) :
    s.capacityInput.staged[l] = (s.intake.staging.lines[l]).map (·.role) :=
  ofFn_at ..

/-- The roles after an apply are those that the capacity check leaves. -/
theorem State.applied_roles {s : State} (due : s.applyDue = true) (delta : Int) :
    ((s.handOver).linePhase s.admittedPlans delta).roles = s.capacityInput.rolesAfter := by
  refine congrArg Vector.ofFn (funext fun l => ?_)
  rw [State.applied_plan due, State.admittedPlans_at, State.capacityInput_staged, State.capacityInput_held]
  cases s.intake.staging.lines[l] with
  | none => simp
  | some p =>
    by_cases refused : l ∈ refusedLines s.capacityInput <;> simp [State.applyRefused, refused]

theorem State.countRoles_roleCounts (s : State) : s.countRoles.scrn.roleCounts = Vector.ofFn (roleCount s.roles) := rfl

theorem State.countRoles_roles (s : State) : s.countRoles.roles = s.roles := rfl

theorem State.countRoles_rolesSound {s : State} (few : ∀ g, roleCount s.roles g ≤ 8) : s.countRoles.rolesSound := by
  intro g
  change _ = roleCount s.countRoles.roles g ∧ _
  rw [s.countRoles_roles, s.countRoles_roleCounts, ofFn_at]
  exact ⟨rfl, few g⟩

theorem State.applyTick_rolesSound {s : State} (h : s.rolesSound) (due : s.applyDue = true) : s.applyTick.rolesSound := by
  let delta := (s.handOver.line.dumpDepth : Int) - s.line.dumpDepth
  have counts (g : Group) : s.capacityInput.counts[g] = roleCount s.capacityInput.held g := (h g).1
  have few (g : Group) : roleCount s.capacityInput.held g ≤ 8 := (counts g) ▸ (h g).2
  refine State.ite_of (fun _ => ?_) fun bare => ?_
  · refine State.countRoles_rolesSound fun g => ?_
    rw [State.applied_roles due]
    exact rolesAfter_le counts few g
  · have none (l : Line) : s.intake.staging.lines[l] = none := by
      simpa [Staging.carriesLines] using fun some => bare (List.any_eq_true.mpr ⟨l, List.mem_finRange l, some⟩)
    exact State.linePhase_rolesSound (State.handOver_rolesSound h) (fun l => by rw [State.admittedPlans_at, none, ite_self]) delta

theorem State.linePart_rolesSound {s : State} (h : s.rolesSound) : s.linePart.rolesSound :=
  State.ite_of (fun due => State.applyTick_rolesSound h due) fun _ => State.linePhase_rolesSound h (fun l => by simp) 0

theorem LineBlock.flag_role (b : LineBlock) (lines : List Line) (on : Line → Bool) (l : Line) :
    ((b.flag lines on).ctx[l]).plan.role = (b.ctx[l]).plan.role := by
  obtain ⟨pending, flagged⟩ := b.flag_ctx lines on l
  rw [flagged]

theorem State.linkReset_line (s : State) : s.linkReset.line = s.line.flag (linesOf s.report.uncompleted) fun _ => true := by
  unfold State.linkReset
  rfl

theorem State.lookRound_rolesSound {s : State} (h : s.rolesSound) (seen : State) (left : ReportFlags) :
    (s.lookRound seen left).rolesSound := by
  refine State.rolesSound_of_eq (State.roles_ext fun l => ?_) (by rw [s.lookRound_scrn]) h
  obtain ⟨pending, flagged⟩ := s.lookRound_lineCtx seen left l
  rw [flagged]

theorem State.blockTick_rolesSound {s : State} (h : s.rolesSound) (pins : BitVec 16) (follows first : Bool) :
    (s.blockTick pins follows first).rolesSound := by
  have counted : ({ s with link := s.link.engineTick } : State).takePhase.countBlock.rolesSound :=
    State.rolesSound_of_eq (State.roles_ext fun l => by simp) (by simp) h
  have lines := State.linePart_rolesSound counted
  refine State.rolesSound_of_eq (State.roles_ext fun l => ?_) ?_ lines
  · obtain ⟨pending, flagged⟩ := s.blockTick_lineCtx pins follows first l
    rw [flagged, s.beforeCue_line]
  · simp [State.blockTick, State.roundPhase, State.tickEvents, State.audioTick]

/-- A command keeps the role counts true. -/
theorem exec_rolesSound {c : Instr} {s t : State} (run : exec c s = .next t) (h : s.rolesSound) : t.rolesSound := by
  cases c with
  | powerOnReset => cases run; exact reset_rolesSound
  | softReset => cases run; exact State.due_of h fun _ => reset_rolesSound
  | linkReset =>
    cases run
    exact State.rolesSound_of_eq (State.roles_ext fun l => by rw [s.linkReset_line]; exact LineBlock.flag_role ..)
      (by rw [s.linkReset_scrn]) h
  | ignoredRegisterWrite o w v =>
    cases run
    exact State.due_of h fun _ => State.registerWrite_of (fun _ => reset_rolesSound) (fun _ _ _ => id) h o w v
  | laneHold _ | keyPress _ | keyRelease _ | holdCountExpiry _ | outgoingFadeEnd _ =>
    cases run; exact State.due_of h fun _ => h
  | partnerRead _ | laneFrame _ _ | elasticArrival _ _ | laneLock _ _ _ | lossOfLock _ _ =>
    cases run; exact State.due_of h fun _ => State.rolesSound_of_eq (State.roles_ext fun l => by simp) (by simp) h
  | elasticRead _ | seekingSync _ _ _ =>
    cases run; exact State.rolesSound_of_eq (State.roles_ext fun l => by simp) (by simp) h
  | sample => cases run; exact State.rolesSound_of_eq (State.roles_ext fun l => by simp) (by simp) h
  | blockTick _ _ => cases run; exact State.blockTick_rolesSound h _ _ _
  | refLock => cases run; exact State.due_of h fun _ => by rw [State.setRef_eq]; exact h
  | refUnlock => cases run; rw [State.setRef_eq]; exact h
  | rampEnd i => cases run; exact State.ite_of (fun _ => h) fun _ => by rw [s.rampSwitch_eq]; exact h
  | laneLost i =>
    cases run
    exact State.due_of h fun _ => State.laneLost_of (P := State.rolesSound) (fun _ l h => State.tickLine_rolesSound h l) h
  | codeSettle l | lossCountExpiry l | shadowCountEnd l =>
    cases run
    exact State.due_of h fun _ => State.tickLineInOrder_of (P := State.rolesSound)
      (fun _ l h => State.tickLine_rolesSound h l) h l
  | apply => cases run; exact State.due_of h fun due => State.applyTick_rolesSound h due
  | roundBegin => cases run; exact State.due_of h fun _ => State.lookRound_rolesSound h s ReportFlags.clear
  | memoryEnable _ | post _ | noticeClear _ | noticeMaskWrite _ | windowRegisterWrite _ _ | configurationAccess _
  | busMasteringWithdrawn | periodicDue | engineActive | intakeTake | sectionFetch | readCompletion _ _ | readTimeout
  | recordWriteBegin _ | recordWriteComplete =>
    rw [(exec_hostSide run rfl).eq]
    exact h

end Sys2Proof.Machine

open Sys2Proof Sys2Proof.Machine

/-- Settles O57: an apply counts the roles that the capacity check leaves, and no other command reaches roles or counts. -/
theorem stepKeepsRoleCounts : Obligations.StepKeepsRoleCounts := by
  unfold Obligations.StepKeepsRoleCounts
  exact fun _ _ => step_keeps (fun _ _ => id) fun _ _ _ => exec_rolesSound

end

