-- ==== Sys2Proof/Proofs/SoundCue.lean ====
section
/-! PROOFS. The invariants of CUE (R53, R55 to R58) and of the return of a VACANT line (R10, R63, R68). -/

namespace Sys2Proof.Machine

/-! ### Keys and routes -/

theorem keySample_run (k : KeyCtx) (raw : Bool) : (keySample k raw).run ≤ 3 := by
  unfold keySample
  split_ifs with same fourth
  · exact Nat.zero_le _
  · exact Nat.zero_le _
  · exact Nat.lt_of_not_le fourth

theorem RouteCtx.sound_iff (r : RouteCtx) :
    r.sound = true ↔
      (r.entry.valid = true ∨ r.activity = .idle) ∧ (r.holdCount ≠ 0 ↔ r.activity = .holding) ∧ r.holdCount ≤ 255 ∧
        (r.entry.mode = .momentary → r.activity ≠ .latched) ∧ (r.entry.mode = .latch → r.activity ≠ .active) := by
  simp only [RouteCtx.sound, Bool.and_eq_true, Bool.or_eq_true, decide_eq_true_eq, beq_iff_eq, decide_eq_decide, and_assoc,
    ne_eq, imp_iff_not_or]

section
variable {r : RouteCtx}

theorem RouteCtx.letGo_sound (valid : r.entry.valid = true) : r.letGo.sound = true := by
  have small := r.entry.hold.isLt
  unfold RouteCtx.letGo
  rw [RouteCtx.sound_iff]
  split_ifs with zero
  · exact ⟨.inl valid, ⟨nofun, nofun⟩, Nat.zero_le _, nofun, nofun⟩
  · exact ⟨.inl valid, iff_of_true zero rfl, Nat.le_of_lt_succ small, nofun, nofun⟩

theorem RouteCtx.event_sound (h : r.sound = true) (e : KeyEvent) : (r.event e).sound = true := by
  unfold RouteCtx.event
  split_ifs with invalid
  · exact h
  · have valid : r.entry.valid = true := by simpa using invalid
    cases mode : r.entry.mode with
    | momentary =>
      cases e with
      | press =>
        rw [RouteCtx.sound_iff]
        exact ⟨.inl valid, ⟨nofun, nofun⟩, Nat.zero_le _, nofun, fun latch => by cases mode.symm.trans latch⟩
      | release => exact (apply_ite (RouteCtx.sound · = true) _ _ _).mpr (by split_ifs; exacts [letGo_sound valid, h])
    | latch =>
      cases e with
      | press =>
        dsimp only [RouteCtx.latchEvent]
        split_ifs
        · exact letGo_sound valid
        · rw [RouteCtx.sound_iff]
          exact ⟨.inl valid, ⟨nofun, nofun⟩, Nat.zero_le _, fun momentary => (by cases mode.symm.trans momentary),
            nofun⟩
      | release => exact h

theorem RouteCtx.slowTick_sound (h : r.sound = true) : r.slowTick.sound = true := by
  obtain ⟨valid, holding, small, -⟩ := r.sound_iff.mp h
  unfold RouteCtx.slowTick
  split_ifs with held last
  · rw [RouteCtx.sound_iff]
    exact ⟨.inr rfl, ⟨nofun, nofun⟩, Nat.zero_le _, nofun, nofun⟩
  · rw [RouteCtx.sound_iff]
    refine ⟨valid, iff_of_true ?_ held, ?_, fun _ latched => ?_, fun _ active => ?_⟩
    · change r.holdCount - 1 ≠ 0
      omega
    · change r.holdCount - 1 ≤ 255
      omega
    · cases held.symm.trans latched
    · cases held.symm.trans active
  · exact h

theorem RouteCtx.restart_sound (valid : r.entry.valid = true) (down : Bool) : (r.restart down).sound = true := by
  unfold RouteCtx.restart
  rw [RouteCtx.sound_iff]
  dsimp only
  split_ifs with held
  · simp only [Bool.and_eq_true, decide_eq_true_eq] at held
    exact ⟨.inl valid, ⟨nofun, nofun⟩, Nat.zero_le _, nofun, fun latch => by cases held.1.symm.trans latch⟩
  · exact ⟨.inl valid, ⟨nofun, nofun⟩, Nat.zero_le _, nofun, nofun⟩

theorem RouteCtx.applyEntry_sound (h : r.sound = true) (applied : RouteEntry) (down : Bool) :
    (r.applyEntry applied down).sound = true := by
  obtain ⟨valid, holding, small, momentary, latch⟩ := r.sound_iff.mp h
  unfold RouteCtx.applyEntry
  split_ifs with ends new
  · rw [RouteCtx.sound_iff]
    exact ⟨.inr rfl, ⟨nofun, nofun⟩, Nat.zero_le _, nofun, nofun⟩
  · have on : applied.valid = true := by
      simp only [replaces, Bool.and_eq_true] at new
      exact new.1
    exact RouteCtx.restart_sound (r := { r with entry := applied }) on down
  · rw [RouteCtx.sound_iff]
    dsimp only
    cases on : applied.valid with
    | false =>
      have idle : r.activity = .idle := valid.resolve_left (by simpa [on] using ends)
      have zero : r.holdCount = 0 := by simpa [idle] using holding
      simp [idle, zero]
    | true =>
      have same : r.entry.mode = applied.mode := by
        simp only [replaces, on, Bool.true_and, Bool.or_eq_true, Bool.not_eq_true', not_or, Bool.not_eq_false, sameRoute,
          Bool.and_eq_true, decide_eq_true_eq] at new
        exact new.2.2
      exact ⟨.inl rfl, holding, small, same ▸ momentary, same ▸ latch⟩

theorem RouteCtx.tick_sound (h : r.sound = true) (replaced loaded slow down : Bool) (e : Option KeyEvent) :
    (r.tick replaced loaded slow down e).sound = true := by
  unfold RouteCtx.tick
  by_cases invalid : (!r.entry.valid) = true
  · rw [if_pos invalid]
    rw [RouteCtx.sound_iff]
    exact ⟨.inr rfl, ⟨nofun, nofun⟩, Nat.zero_le _, nofun, nofun⟩
  rw [if_neg invalid]
  by_cases new : replaced = true
  · rw [if_pos new]
    exact RouteCtx.restart_sound (by simpa using invalid) down
  · rw [if_neg new]
    have counted : (if slow && !loaded then r.slowTick else r).sound = true := by
      split_ifs
      · exact RouteCtx.slowTick_sound h
      · exact h
    cases e with
    | none => exact counted
    | some e => exact RouteCtx.event_sound counted e

end

/-! ### The keys and routes of the part -/

theorem State.cueSound_of_eq {s t : State} (keys : t.cue.keys = s.cue.keys) (routes : t.cue.routes = s.cue.routes)
    (h : s.cueSound) : t.cueSound :=
  ⟨fun k => keys ▸ h.1 k, fun r => routes ▸ h.2 r⟩

theorem reset_cueSound : State.reset.cueSound := resetSound.2.2.2.1

theorem State.vacate_keys (s : State) (old : Vector LineCtx 24) : (s.vacate old).cue.keys = s.cue.keys := by
  unfold State.vacate
  rfl

theorem State.vacate_routes (s : State) (old : Vector LineCtx 24) : (s.vacate old).cue.routes = s.cue.routes := by
  unfold State.vacate
  rfl

theorem State.linePhase_keys (s : State) (plans : Vector (Option LinePlan) 24) (delta : Int) :
    (s.linePhase plans delta).cue.keys = s.cue.keys :=
  (State.vacate_keys ..).trans (congrArg Cue.keys (s.linesMoved_cue ..))

theorem State.linePhase_routes (s : State) (plans : Vector (Option LinePlan) 24) (delta : Int) :
    (s.linePhase plans delta).cue.routes = s.cue.routes :=
  (State.vacate_routes ..).trans (congrArg Cue.routes (s.linesMoved_cue ..))

theorem State.tickLine_keys (s : State) (l : Line) : (s.tickLine l).cue.keys = s.cue.keys :=
  (State.vacate_keys ..).trans (congrArg Cue.keys (s.lineMoved_cue ..))

theorem State.tickLine_routes (s : State) (l : Line) : (s.tickLine l).cue.routes = s.cue.routes :=
  (State.vacate_routes ..).trans (congrArg Cue.routes (s.lineMoved_cue ..))

theorem State.tickLine_cueSound {s : State} (h : s.cueSound) (l : Line) : (s.tickLine l).cueSound :=
  State.cueSound_of_eq (s.tickLine_keys l) (s.tickLine_routes l) h

theorem State.linePhase_cueSound {s : State} (h : s.cueSound) (plans : Vector (Option LinePlan) 24) (delta : Int) :
    (s.linePhase plans delta).cueSound :=
  State.cueSound_of_eq (s.linePhase_keys ..) (s.linePhase_routes ..) h

theorem Cue.applied_key (q : Cue) (g : Staging) (k : Key) :
    ∃ soft, (q.applied g).keys[k] = { q.keys[k] with soft := soft } := by
  unfold Cue.applied
  dsimp only
  split
  · exact ⟨_, rfl⟩
  · exact ⟨_, ofFn_at ..⟩

theorem Cue.applied_route (q : Cue) (g : Staging) (r : Route) :
    (q.applied g).routes[r] = q.routes[r] ∨
      ∃ entry down, (q.applied g).routes[r] = (q.routes[r]).applyEntry entry down := by
  unfold Cue.applied
  dsimp only
  split
  · exact .inl rfl
  · exact .inr ⟨_, _, ofFn_at ..⟩

theorem State.handOver_cue (s : State) : s.handOver.cue = s.cue.applied s.intake.staging := by
  unfold State.handOver
  rfl

theorem State.handOver_cueSound {s : State} (h : s.cueSound) : s.handOver.cueSound := by
  refine ⟨fun k => ?_, fun r => ?_⟩
  · obtain ⟨soft, own⟩ := s.cue.applied_key s.intake.staging k
    rw [s.handOver_cue, own]
    exact h.1 k
  · rw [s.handOver_cue]
    obtain own | ⟨entry, down, own⟩ := s.cue.applied_route s.intake.staging r
    · rw [own]
      exact h.2 r
    · rw [own]
      exact RouteCtx.applyEntry_sound (h.2 r) entry down

theorem State.applyTick_cueSound {s : State} (h : s.cueSound) : s.applyTick.cueSound := by
  have moved := State.linePhase_cueSound (State.handOver_cueSound h) s.admittedPlans
    ((s.handOver.line.dumpDepth : Int) - s.line.dumpDepth)
  exact State.ite_of (fun _ => moved) fun _ => moved

theorem State.linePart_cueSound {s : State} (h : s.cueSound) : s.linePart.cueSound :=
  State.ite_of (fun _ => State.applyTick_cueSound h) fun _ => State.linePhase_cueSound h _ _

theorem State.keyPhase_key (s : State) (pins : BitVec 16) (k : Key) : (s.keyPhase pins).cue.keys[k] = s.keyAfter pins k :=
  ofFn_at ..

theorem State.keyPhase_route (s : State) (pins : BitVec 16) (r : Route) :
    (s.keyPhase pins).cue.routes[r] = s.routeAfter pins r :=
  ofFn_at ..

theorem State.keyPhase_cueSound {s : State} (h : s.cueSound) (pins : BitVec 16) : (s.keyPhase pins).cueSound := by
  refine ⟨fun k => ?_, fun r => ?_⟩
  · rw [State.keyPhase_key]
    unfold State.keyAfter
    dsimp only
    split
    · exact h.1 k
    · exact keySample_run ..
  · rw [State.keyPhase_route]
    exact RouteCtx.tick_sound (h.2 r) ..

theorem State.blockTick_cueSound {s : State} (h : s.cueSound) (pins : BitVec 16) (follows first : Bool) :
    (s.blockTick pins follows first).cueSound := by
  have counted : ({ s with link := s.link.engineTick } : State).takePhase.countBlock.cueSound :=
    State.cueSound_of_eq (by simp) (by simp) h
  have period : ({ s with link := s.link.engineTick } : State).takePhase.countBlock.linePart.periodPhase.cueSound :=
    State.cueSound_of_eq (by simp) (by simp) (State.linePart_cueSound counted)
  have keys : (s.beforeCue pins).cueSound := State.keyPhase_cueSound period pins
  exact State.cueSound_of_eq (by rw [s.blockTick_cue]; rfl) (by rw [s.blockTick_cue]; rfl) keys

theorem State.takeKey_cueSound {s : State} (h : s.cueSound) (k : Key) (e : KeyEvent) : (s.takeKey k e).cueSound := by
  refine ⟨set_of (P := fun _ (k : KeyCtx) => k.run ≤ 3) h.1 (Nat.zero_le 3), fun r => ?_⟩
  rw [show (s.takeKey k e).cue.routes[r] = s.routeEvent k e r from ofFn_at ..]
  unfold State.routeEvent
  dsimp only
  split
  · exact RouteCtx.event_sound (h.2 r) e
  · exact h.2 r

/-- A command keeps keys and routes sound. -/
theorem exec_cueSound {c : Instr} {s t : State} (run : exec c s = .next t) (h : s.cueSound) : t.cueSound := by
  cases c with
  | powerOnReset => cases run; exact reset_cueSound
  | softReset => cases run; exact State.due_of h fun _ => reset_cueSound
  | linkReset => cases run; exact State.cueSound_of_eq (by rw [s.linkReset_cue]) (by rw [s.linkReset_cue]) h
  | ignoredRegisterWrite o w v =>
    cases run
    exact State.due_of h fun _ => State.registerWrite_of (fun _ => reset_cueSound) (fun _ _ _ => id) h o w v
  | keyPress k | keyRelease k => cases run; exact State.due_of h fun _ => State.takeKey_cueSound h k _
  | holdCountExpiry r =>
    cases run
    exact State.due_of h fun _ =>
      ⟨h.1, set_of (P := fun _ (r : RouteCtx) => r.sound = true) h.2 (RouteCtx.slowTick_sound (h.2 r))⟩
  | laneHold _ | outgoingFadeEnd _ => cases run; exact State.due_of h fun _ => h
  | partnerRead _ | laneFrame _ _ | elasticArrival _ _ | laneLock _ _ _ | lossOfLock _ _ =>
    cases run; exact State.due_of h fun _ => State.cueSound_of_eq (by simp) (by simp) h
  | elasticRead _ | seekingSync _ _ _ | sample => cases run; exact State.cueSound_of_eq (by simp) (by simp) h
  | blockTick _ _ => cases run; exact State.blockTick_cueSound h ..
  | refLock => cases run; exact State.due_of h fun _ => by rw [State.setRef_eq]; exact h
  | refUnlock => cases run; rw [State.setRef_eq]; exact h
  | rampEnd i => cases run; exact State.ite_of (fun _ => h) fun _ => by rw [s.rampSwitch_eq]; exact h
  | laneLost i =>
    cases run
    exact State.due_of h fun _ => State.laneLost_of (P := State.cueSound) (fun _ l h => State.tickLine_cueSound h l) h
  | codeSettle l | lossCountExpiry l | shadowCountEnd l =>
    cases run
    exact State.due_of h fun _ => State.tickLineInOrder_of (P := State.cueSound)
      (fun _ l h => State.tickLine_cueSound h l) h l
  | apply => cases run; exact State.due_of h fun _ => State.applyTick_cueSound h
  | roundBegin =>
    cases run
    exact State.due_of h fun _ => State.cueSound_of_eq (s := s) (by simp [State.roundAfter]) (by simp [State.roundAfter]) h
  | memoryEnable _ | post _ | noticeClear _ | noticeMaskWrite _ | windowRegisterWrite _ _ | configurationAccess _
  | busMasteringWithdrawn | periodicDue | engineActive | intakeTake | sectionFetch | readCompletion _ _ | readTimeout
  | recordWriteBegin _ | recordWriteComplete =>
    exact State.cueSound_of_eq (congrArg Cue.keys (exec_hostSide run rfl).cue)
      (congrArg Cue.routes (exec_hostSide run rfl).cue) h

/-! ### The return of a VACANT line -/

theorem Ramp.silent_iff (r : Ramp) : r.silent = true ↔ r.len ≤ r.pos ∧ r.cur = 0 := by
  simp [Ramp.silent, Ramp.atRest]

theorem Ramp.stopAt_silent (r : Ramp) : (r.stopAt 0).silent = true := (Ramp.silent_iff _).mpr ⟨le_rfl, rfl⟩

theorem Ramp.advance_silent {r : Ramp} (h : r.silent = true) : r.advance.silent = true := by
  rw [r.advance_atRest (r.silent_iff.mp h).1]
  exact h

/-- A silent ramp has no sample left, so it is not at its last. -/
theorem Ramp.not_ending_of_silent {r : Ramp} (h : r.silent = true) : r.ending = false := by
  have rest := (r.silent_iff.mp h).1
  simp only [Ramp.ending, beq_eq_false_iff_ne, ne_eq]
  omega

/-- A return's cue state and its cue multipliers are those of a VACANT line. -/
def noCue (q : CueReturn) (r : ReturnCtx) : Prop :=
  q = CueReturn.clear ∧ r.cueIn.silent = true ∧ r.cueOut.silent = true

theorem State.vacantSound_iff (s : State) :
    s.vacantSound ↔ ∀ l : Line, (s.line.ctx[l]).state = .vacant → noCue s.cue.returns[l] s.mix.returns[l] := by
  refine forall_congr' fun l => ?_
  simp only [State.vacantReturn, Bool.or_eq_true, Bool.and_eq_true, decide_eq_true_eq, noCue, and_assoc, ne_eq,
    imp_iff_not_or]

theorem State.vacantSound_of_eq {s t : State} (line : t.line.ctx = s.line.ctx) (cue : t.cue.returns = s.cue.returns)
    (mix : t.mix.returns = s.mix.returns) (h : s.vacantSound) : t.vacantSound := by
  rw [State.vacantSound_iff] at h ⊢
  rw [line, cue, mix]
  exact h

theorem reset_vacantSound : State.reset.vacantSound := resetSound.2.2.1

theorem State.vacate_cueReturn (s : State) (old : Vector LineCtx 24) (l : Line) :
    (s.vacate old).cue.returns[l] =
      if (s.line.ctx[l]).state = .vacant && (old[l]).state ≠ .vacant then CueReturn.clear else s.cue.returns[l] := by
  unfold State.vacate
  exact ofFn_at ..

/-- Lines moved, with the cue of those that enter VACANT cleared: every VACANT line's return is without cue. -/
theorem State.vacate_vacantSound {s t : State} (h : s.vacantSound) (cue : t.cue.returns = s.cue.returns)
    (mix : t.mix.returns = s.mix.returns) : (t.vacate s.line.ctx).vacantSound := by
  rw [State.vacantSound_iff] at h ⊢
  intro l vacant
  rw [State.vacate_line] at vacant
  rw [State.vacate_cueReturn, State.vacate_return, cue, mix, vacant]
  by_cases old : (s.line.ctx[l]).state = .vacant
  · rw [if_neg (by simpa using old), if_neg (by simpa using old)]
    exact h l old
  · rw [if_pos (by simpa using old), if_pos (by simpa using old)]
    exact ⟨rfl, Ramp.stopAt_silent _, Ramp.stopAt_silent _⟩

theorem State.tickLine_vacantSound {s : State} (h : s.vacantSound) (l : Line) : (s.tickLine l).vacantSound :=
  State.vacate_vacantSound h (by simp) (by simp)

theorem State.linePhase_vacantSound {s : State} (h : s.vacantSound) (plans : Vector (Option LinePlan) 24)
    (delta : Int) : (s.linePhase plans delta).vacantSound :=
  State.vacate_vacantSound h (by simp) (by simp)

theorem State.handOver_cueReturns (s : State) : s.handOver.cue.returns = s.cue.returns := by
  unfold State.handOver Cue.applied
  rfl

theorem State.handOver_mixReturns (s : State) : s.handOver.mix.returns = s.mix.returns := by
  unfold State.handOver Mix.applied
  rfl

theorem State.applyTick_vacantSound {s : State} (h : s.vacantSound) : s.applyTick.vacantSound := by
  have handed := State.vacantSound_of_eq s.handOver_ctx s.handOver_cueReturns s.handOver_mixReturns h
  have moved := State.linePhase_vacantSound handed s.admittedPlans
    ((s.handOver.line.dumpDepth : Int) - s.line.dumpDepth)
  exact State.ite_of (fun _ => moved) fun _ => moved

/-- A round's peaks and flags are no part of a return's cue. -/
theorem State.lookRound_vacantSound {s : State} (h : s.vacantSound) (seen : State) (left : ReportFlags) :
    (s.lookRound seen left).vacantSound := by
  rw [State.vacantSound_iff] at h ⊢
  intro l vacant
  obtain ⟨pending, flagged⟩ := s.lookRound_lineCtx seen left l
  rw [flagged] at vacant
  obtain ⟨clear, cueIn, cueOut⟩ := h l vacant
  rw [State.lookRound_cue]
  have peaks : ∃ peak, (s.lookRound seen left).mix.returns[l] = { s.mix.returns[l] with peak := peak } := by
    unfold State.lookRound
    split
    · unfold State.startRound
      dsimp only
      split
      · exact ⟨0, ofFn_at ..⟩
      · exact ⟨_, rfl⟩
    · exact ⟨_, rfl⟩
  obtain ⟨peak, own⟩ := peaks
  rw [own]
  exact ⟨clear, cueIn, cueOut⟩

/-- The tick of MIX leaves no cue on a return whose cue state is clear. -/
theorem ReturnCtx.tick_noCue (r : ReturnCtx) (m : Mix) (t : ScreeningTable) (l : Line) (c : LineCtx)
    (routes : Vector RouteCtx 32) : noCue CueReturn.clear (r.tick m t l c CueReturn.clear routes) :=
  ⟨rfl, r.cueIn.stopAt_silent, r.cueOut.stopAt_silent⟩

theorem State.audioTick_vacantSound (s : State) (pins : BitVec 16) : (s.audioTick pins).vacantSound := by
  rw [State.vacantSound_iff, State.audioTick_eq]
  intro l vacant
  have vacant : ((s.beforeCue pins).line.ctx[l]).state = .vacant := vacant
  have cue : (s.beforeCue pins).cuePhase.cue.returns[l] = CueReturn.clear := by
    rw [show (s.beforeCue pins).cuePhase.cue.returns[l] = (s.beforeCue pins).cueAfter l from ofFn_at ..]
    exact CueReturn.tick_vacant _ _ _ _ _ _ vacant
  rw [State.mixPhase_cue, State.mixPhase_mix, Mix.tick_return, cue]
  exact ReturnCtx.tick_noCue ..

theorem State.blockTick_vacantSound (s : State) (pins : BitVec 16) (follows first : Bool) :
    (s.blockTick pins follows first).vacantSound := by
  have events : (s.tickEvents pins follows).vacantSound :=
    State.vacantSound_of_eq (s := s.audioTick pins) (by simp [State.tickEvents]) (by simp [State.tickEvents])
      (by simp [State.tickEvents]) (s.audioTick_vacantSound pins)
  have round := State.lookRound_vacantSound events ((s.tickEvents pins follows).seenAt s pins first)
    (if first then s.tickFlags pins else ReportFlags.clear)
  exact State.vacantSound_of_eq (by simp [State.blockTick, State.roundPhase]) (by simp [State.blockTick, State.roundPhase])
    (by simp [State.blockTick, State.roundPhase]) round

/-- A ramp that ends is not one of a silent return's, and the others leave its cue. -/
theorem State.finishRamp_vacantSound {s : State} (h : s.vacantSound) {i : RampId} (ending : (s.mix.ramp i).ending = true) :
    ({ s with mix := s.mix.setRamp (s.mix.ramp i).finish i } : State).vacantSound := by
  rw [State.vacantSound_iff] at h ⊢
  intro l vacant
  obtain ⟨clear, cueIn, cueOut⟩ := h l vacant
  refine ⟨clear, ?_⟩
  have keeps (k : Line) {x : ReturnCtx}
      (new : (s.line.ctx[k]).state = .vacant → x.cueIn.silent = true ∧ x.cueOut.silent = true) :
      (s.mix.returns.set k x)[l].cueIn.silent = true ∧ (s.mix.returns.set k x)[l].cueOut.silent = true :=
    set_of (P := fun l (r : ReturnCtx) => (s.line.ctx[l]).state = .vacant → r.cueIn.silent = true ∧ r.cueOut.silent = true)
      (fun l vacant => (h l vacant).2) new l vacant
  cases i with
  | sourceAir _ | lineAir _ | lineGroup _ => exact ⟨cueIn, cueOut⟩
  | airTerm k => exact keeps k (x := { s.mix.returns[k] with air := _ }) fun vacant => (h k vacant).2
  | groupTerm k => exact keeps k (x := { s.mix.returns[k] with group := _ }) fun vacant => (h k vacant).2
  | holdTerm k => exact keeps k (x := { s.mix.returns[k] with hold := _ }) fun vacant => (h k vacant).2
  | screenerTerm k => exact keeps k (x := { s.mix.returns[k] with screener := _ }) fun vacant => (h k vacant).2
  | cueIn k =>
    refine keeps k (x := { s.mix.returns[k] with cueIn := _ }) fun vacant => absurd ending ?_
    rw [Mix.ramp, Ramp.not_ending_of_silent (h k vacant).2.1]
    nofun
  | cueOut k =>
    refine keeps k (x := { s.mix.returns[k] with cueOut := _ }) fun vacant => absurd ending ?_
    rw [Mix.ramp, Ramp.not_ending_of_silent (h k vacant).2.2]
    nofun

theorem State.rampSwitch_vacantSound {s : State} (h : s.vacantSound) (i : RampId) : (s.rampSwitch i).vacantSound := by
  unfold State.rampSwitch
  split
  · exact State.due_of h fun _ => h
  case h_2 k =>
    refine State.due_of h fun _ => ?_
    rw [State.vacantSound_iff] at h ⊢
    exact set_of (P := fun l (r : ReturnCtx) => (s.line.ctx[l]).state = .vacant → noCue s.cue.returns[l] r) h (h k)
  all_goals exact h

theorem State.takeSample_vacantSound {s : State} (h : s.vacantSound) : s.takeSample.vacantSound := by
  rw [State.vacantSound_iff] at h ⊢
  intro l vacant
  rw [State.takeSample_line] at vacant
  obtain ⟨clear, cueIn, cueOut⟩ := h l vacant
  refine ⟨by rw [State.takeSample_cue, clear], ?_, ?_⟩
  · have own := s.takeSample_ramp (.cueIn l)
    simp only [Mix.ramp] at own
    rw [own]
    exact Ramp.advance_silent cueIn
  · have own := s.takeSample_ramp (.cueOut l)
    simp only [Mix.ramp] at own
    rw [own]
    exact Ramp.advance_silent cueOut

theorem State.fadeEnd_vacantSound {s : State} (h : s.vacantSound) (k : Line) :
    (s.setCue k ((s.cue.returns[k]).fadeEnd true)).vacantSound := by
  rw [State.vacantSound_iff] at h ⊢
  refine set_of (P := fun l (q : CueReturn) => (s.line.ctx[l]).state = .vacant → noCue q s.mix.returns[l]) h fun vacant => ?_
  obtain ⟨clear, silent⟩ := h k vacant
  rw [clear]
  exact ⟨rfl, silent⟩

/-- A command keeps every VACANT line's return without cue. -/
theorem exec_vacantSound {c : Instr} {s t : State} (run : exec c s = .next t) (h : s.vacantSound) : t.vacantSound := by
  cases c with
  | powerOnReset => cases run; exact reset_vacantSound
  | softReset => cases run; exact State.due_of h fun _ => reset_vacantSound
  | linkReset =>
    cases run
    rw [State.vacantSound_iff] at h ⊢
    intro l vacant
    rw [s.linkReset_line] at vacant
    obtain ⟨pending, flagged⟩ := s.line.flag_ctx (linesOf s.report.uncompleted) (fun _ => true) l
    rw [flagged] at vacant
    rw [s.linkReset_cue, s.linkReset_mix]
    exact h l vacant
  | ignoredRegisterWrite o w v =>
    cases run
    exact State.due_of h fun _ => State.registerWrite_of (fun _ => reset_vacantSound) (fun _ _ _ => id) h o w v
  | laneHold _ | keyPress _ | keyRelease _ | holdCountExpiry _ => cases run; exact State.due_of h fun _ => h
  | outgoingFadeEnd k => cases run; exact State.due_of h fun _ => State.fadeEnd_vacantSound h k
  | partnerRead _ | laneFrame _ _ | elasticArrival _ _ | laneLock _ _ _ | lossOfLock _ _ =>
    cases run; exact State.due_of h fun _ => State.vacantSound_of_eq (by simp) (by simp) (by simp) h
  | elasticRead _ | seekingSync _ _ _ => cases run; exact State.vacantSound_of_eq (by simp) (by simp) (by simp) h
  | sample => cases run; exact State.takeSample_vacantSound h
  | blockTick _ _ => cases run; exact s.blockTick_vacantSound _ _ _
  | refLock => cases run; exact State.due_of h fun _ => by rw [State.setRef_eq]; exact h
  | refUnlock => cases run; rw [State.setRef_eq]; exact h
  | rampEnd i =>
    cases run
    exact State.ite_of (fun ending => State.finishRamp_vacantSound h ending) fun _ => State.rampSwitch_vacantSound h i
  | laneLost i =>
    cases run
    exact State.due_of h fun _ => State.laneLost_of (P := State.vacantSound)
      (fun _ l h => State.tickLine_vacantSound h l) (State.vacantSound_of_eq (by simp) (by simp) (by simp) h)
  | codeSettle l | lossCountExpiry l | shadowCountEnd l =>
    cases run
    exact State.due_of h fun _ => State.tickLineInOrder_of (P := State.vacantSound)
      (fun _ l h => State.tickLine_vacantSound h l) h l
  | apply => cases run; exact State.due_of h fun _ => State.applyTick_vacantSound h
  | roundBegin => cases run; exact State.due_of h fun _ => State.lookRound_vacantSound h s ReportFlags.clear
  | memoryEnable _ | post _ | noticeClear _ | noticeMaskWrite _ | windowRegisterWrite _ _ | configurationAccess _
  | busMasteringWithdrawn | periodicDue | engineActive | intakeTake | sectionFetch | readCompletion _ _ | readTimeout
  | recordWriteBegin _ | recordWriteComplete =>
    have same := exec_hostSide run rfl
    exact State.vacantSound_of_eq (by rw [same.line]) (by rw [same.cue]) (by rw [same.mix]) h

end Sys2Proof.Machine

open Sys2Proof Sys2Proof.Machine

/-- Settles O58: every command keeps keys and routes sound, and clears the cue of a line that it takes into VACANT. -/
theorem stepKeepsCue : Obligations.StepKeepsCue := by
  unfold Obligations.StepKeepsCue
  exact ⟨fun _ _ => step_keeps (fun _ _ => id) fun _ _ _ => exec_cueSound,
    fun _ _ => step_keeps (fun _ _ => id) fun _ _ _ => exec_vacantSound⟩

end

