-- ==== Sys2Proof/Proofs/RecordEnds.lean ====
section
/-! PROOFS. What follows a record of a round, written or missed (R124, R125, R132, R137, R139 to R145, R158). -/

namespace Sys2Proof.Machine

/-! ### Notices set one after another (R144) -/

/-- From one LINK to another these notices have been set, with whatever messages that sends: none without bus mastering. -/
structure Link.raises (k : Link) (bits : Word32) (t : Link) : Prop where
  eq : t = { k with notice := k.notice ||| bits, messages := t.messages, lastMessage := t.lastMessage
                    beforeEvent := t.beforeEvent }
  silent : k.busMaster = false →
    t.messages = k.messages ∧ t.lastMessage = k.lastMessage ∧ t.beforeEvent = k.beforeEvent

theorem Link.raises_none (k : Link) : k.raises 0#32 k := ⟨by simp, fun _ => ⟨rfl, rfl, rfl⟩⟩

theorem Link.raise_silent (k : Link) (b : Word32) (off : k.busMaster = false) :
    k.raise b = { k with notice := k.notice ||| b } := by
  simp [Link.raise, Link.sendMessage, off]

theorem Link.raise_raises (k : Link) (b : Word32) : k.raises b (k.raise b) where
  eq := k.raise_eq b
  silent off := by rw [k.raise_silent b off]; exact ⟨rfl, rfl, rfl⟩

theorem Link.raises.trans {k t u : Link} {a b : Word32} (first : k.raises a t) (second : t.raises b u) :
    k.raises (a ||| b) u where
  eq := calc
    u = { t with notice := t.notice ||| b, messages := u.messages, lastMessage := u.lastMessage
                 beforeEvent := u.beforeEvent } := second.eq
    _ = _ := by rw [first.eq]; simp [BitVec.or_assoc]
  silent off := by
    obtain ⟨messages, last, before⟩ := first.silent off
    obtain ⟨messages', last', before'⟩ := second.silent (by rw [first.eq]; exact off)
    exact ⟨messages'.trans messages, last'.trans last, before'.trans before⟩

theorem Link.raises_ite {p : Prop} [Decidable p] {k t u : Link} {a b : Word32} (yes : p → k.raises a t)
    (no : ¬p → k.raises b u) : k.raises (if p then a else b) (if p then t else u) := by
  split
  · exact yes ‹_›
  · exact no ‹_›

theorem noticeBit_getLsbD {n m : Nat} (h : n < 32) : (noticeBit m).getLsbD n = decide (n = m) := by
  rw [noticeBit, BitVec.getLsbD_twoPow, ← Bool.decide_and]
  exact decide_eq_decide.mpr (by omega)

theorem getLsbD_ite_zero {p : Prop} [Decidable p] (b : Word32) (n : Nat) :
    (if p then b else 0#32).getLsbD n = (decide p && b.getLsbD n) := by
  by_cases h : p <;> simp [h]

/-! ### The parts of what follows a record -/

section
variable (s : State)

/-- The notice of a record's own, written or missed (R139, R140). -/
def RoundRecord.notices (x : RoundRecord) (written : Bool) : Word32 :=
  match x.kind with
  | .line l => if written then noticeLine l else 0
  | .lane _ => if written && x.stateChange then noticeLane else 0
  | .verdict _ | .part | .meter _ => 0

theorem State.recordNotice_raises (x : RoundRecord) (written : Bool) :
    s.link.raises (x.notices written) (s.recordNotice x written).link := by
  unfold State.recordNotice RoundRecord.notices
  cases written with
  | false => cases x.kind <;> exact s.link.raises_none
  | true =>
    cases x.kind with
    | line l => exact s.link.raise_raises _
    | lane e => cases x.stateChange with
      | false => exact s.link.raises_none
      | true => exact s.link.raise_raises _
    | verdict _ | part | meter _ => exact s.link.raises_none

theorem State.verdictsDone_raises :
    s.link.raises (if s.intake.reportRequest = false then noticeIntake else 0) s.verdictsDone.link := by
  unfold State.verdictsDone
  cases s.intake.reportRequest with
  | false => exact s.link.raise_raises _
  | true => exact s.link.raises_none

theorem State.verdictsDone_intake :
    s.verdictsDone.intake =
      if s.intake.reportRequest = false then { s.intake with phase := .idle } else s.intake := by
  unfold State.verdictsDone
  cases s.intake.reportRequest <;> rfl

theorem State.verdictsDone_report :
    s.verdictsDone.report =
      { s.report with fullRequest := s.report.fullRequest || s.intake.reportRequest } := by
  unfold State.verdictsDone
  cases s.intake.reportRequest <;> simp

theorem State.metersComplete_raises (r : Round) :
    s.link.raises ((if r.meterWritten = true then noticeReport else 0) |||
      (if r.clips ≠ s.report.lastClips then noticeClip else 0)) (s.metersComplete r).link := by
  have first := Link.raises_ite (p := r.meterWritten = true) (fun _ => s.link.raise_raises noticeReport)
    fun _ => s.link.raises_none
  refine first.trans ?_
  unfold State.metersComplete
  by_cases clips : r.clips = s.report.lastClips <;> by_cases report : r.meterWritten = true <;>
    simp [clips, report, State.raise, Link.raises_none, Link.raise_raises]

theorem State.metersComplete_report (r : Round) :
    (s.metersComplete r).report = { s.report with lastClips := r.clips } := by
  unfold State.metersComplete
  split <;> split <;> rfl

theorem State.roundEnd_raises (r : Round) :
    s.link.raises (if r.todo = [] ∧ r.full = true then noticeIntake else 0) (s.roundEnd r).link := by
  unfold State.roundEnd
  by_cases last : r.todo = [] <;> cases full : r.full <;>
    simp [last, State.intakeDone, State.raise, Link.raises_none, Link.raise_raises]

theorem State.roundEnd_intake (r : Round) :
    (s.roundEnd r).intake =
      if r.todo = [] ∧ r.full = true then { s.intake with phase := .idle } else s.intake := by
  unfold State.roundEnd
  by_cases last : r.todo = [] <;> cases full : r.full <;> simp [last]
  rfl

theorem State.roundEnd_report (r : Round) :
    (s.roundEnd r).report = { s.report with round := if r.todo = [] then none else some r } := by
  unfold State.roundEnd
  by_cases last : r.todo = [] <;> cases r.full <;> simp [last]


/-! ### A record complete, but for the stop of a drain -/

/-- A record of the round complete, before the drain check. -/
def State.recordDone (r : Round) (x : RoundRecord) (written : Bool) : State :=
  let s1 := s.recordNotice x written
  let s2 := if lastOf RecordKind.isVerdict x r.todo then s1.verdictsDone else s1
  let s3 := if lastOf RecordKind.isMeter x r.todo then s2.metersComplete (r.completed x written) else s2
  s3.roundEnd (r.completed x written)

theorem State.finishRecord_eq (r : Round) (x : RoundRecord) (written : Bool) :
    s.finishRecord r x written = (s.recordDone r x written).drainCheck := rfl

theorem lastOf_iff (p : RecordKind → Bool) (x : RoundRecord) (rest : List RoundRecord) :
    lastOf p x rest = true ↔ p x.kind = true ∧ ∀ y ∈ rest, p y.kind = false := by
  simp [lastOf]

variable (r : Round) (x : RoundRecord) (written : Bool)

theorem State.recordDone_intake :
    (s.recordDone r x written).intake =
      if (lastOf RecordKind.isVerdict x r.todo = true ∧ s.intake.reportRequest = false) ∨ (r.todo = [] ∧ r.full = true)
      then { s.intake with phase := .idle } else s.intake := by
  unfold State.recordDone
  simp only [State.roundEnd_intake, Round.completed]
  have meters (u : State) (p : Prop) [Decidable p] (q : Round) :
      (if p then u.metersComplete q else u).intake = u.intake := by split <;> simp
  rw [meters]
  by_cases last : lastOf RecordKind.isVerdict x r.todo = true <;>
    cases request : s.intake.reportRequest <;>
      simp [last, request, State.verdictsDone_intake]

theorem State.recordDone_report :
    (s.recordDone r x written).report =
      { s.report with
        fullRequest := s.report.fullRequest || (lastOf RecordKind.isVerdict x r.todo && s.intake.reportRequest)
        lastClips := if lastOf RecordKind.isMeter x r.todo = true then r.clips else s.report.lastClips
        round := if r.todo = [] then none else some (r.completed x written) } := by
  unfold State.recordDone
  simp only [State.roundEnd_report]
  by_cases last : r.todo = [] <;> cases lastOf RecordKind.isVerdict x r.todo <;>
    cases meter : lastOf RecordKind.isMeter x r.todo <;>
      simp [last, State.metersComplete_report, State.verdictsDone_report, Round.completed]

theorem State.recordDone_raises :
    s.link.raises
      (x.notices written |||
        (if lastOf RecordKind.isVerdict x r.todo = true ∧ s.intake.reportRequest = false then noticeIntake else 0) |||
        ((if lastOf RecordKind.isMeter x r.todo = true ∧ (r.completed x written).meterWritten = true then noticeReport
          else 0) |||
        (if lastOf RecordKind.isMeter x r.todo = true ∧ r.clips ≠ s.report.lastClips then noticeClip else 0)) |||
        (if r.todo = [] ∧ r.full = true then noticeIntake else 0))
      (s.recordDone r x written).link := by
  have verdicts (last : Bool) (u : State) : u.link.raises
      (if last = true ∧ u.intake.reportRequest = false then noticeIntake else 0)
      (if last = true then u.verdictsDone else u).link := by
    cases last with
    | false => simpa using u.link.raises_none
    | true => simpa using u.verdictsDone_raises
  have meters (last : Bool) (q : Round) (u : State) : u.link.raises
      ((if last = true ∧ q.meterWritten = true then noticeReport else 0) |||
        (if last = true ∧ q.clips ≠ u.report.lastClips then noticeClip else 0))
      (if last = true then u.metersComplete q else u).link := by
    cases last with
    | false => simpa using u.link.raises_none
    | true => simpa using u.metersComplete_raises q
  have clips (last : Bool) (u : State) :
      (if last = true then u.verdictsDone else u).report.lastClips = u.report.lastClips := by
    split <;> simp [State.verdictsDone_report]
  have all := (((s.recordNotice_raises x written).trans (verdicts (lastOf RecordKind.isVerdict x r.todo) _)).trans
    (meters (lastOf RecordKind.isMeter x r.todo) (r.completed x written) _)).trans
    (State.roundEnd_raises _ (r.completed x written))
  rw [clips, State.recordNotice_intake, State.recordNotice_report] at all
  exact all

end

/-! ### What follows a record, as a whole -/

theorem State.workInFlight_eq_false_iff (s : State) :
    s.workInFlight = false ↔ s.intake.phase = .idle ∧ s.report.round = none := by
  simp [State.workInFlight]

/-- The drain check sets the engine and DRAINED where a drain is over (R158). -/
theorem State.drainCheck_raises (s : State) {k : Link} {bits : Word32} (link : k.raises bits s.link) {drained : Prop}
    [Decidable drained] (ends : drained ↔ s.link.engine = .draining ∧ s.workInFlight = false) :
    ({ k with engine := if drained then .stopped else k.engine } : Link).raises
      (bits ||| if drained then noticeDrained else 0#32) s.drainCheck.link := by
  obtain ⟨same, running⟩ | ⟨draining, idle, stopped⟩ := s.drainCheck_cases
  · rw [same, if_neg (mt ends.mp running), if_neg (mt ends.mp running), BitVec.or_zero]
    exact ⟨link.eq, link.silent⟩
  · rw [stopped, if_pos (ends.mpr ⟨draining, idle⟩), if_pos (ends.mpr ⟨draining, idle⟩)]
    have moved : ({ k with engine := .stopped } : Link).raises bits { s.link with engine := .stopped } :=
      ⟨by rw [link.eq], link.silent⟩
    exact moved.trans (Link.raise_raises _ _)

theorem RoundRecord.notices_getLsbD (x : RoundRecord) (written : Bool) {n : Nat} (h : n < 32) :
    (x.notices written).getLsbD n = true ↔
      (written = true ∧ ∃ l : Line, x.kind = .line l ∧ n = l.val) ∨
        (n = 25 ∧ written = true ∧ x.stateChange = true ∧ ∃ e, x.kind = .lane e) := by
  unfold RoundRecord.notices
  cases kind : x.kind with
  | line l => cases written <;> simp [noticeLine, noticeBit_getLsbD h]
  | lane e => cases written <;> cases change : x.stateChange <;> simp [noticeLane, noticeBit_getLsbD h]
  | verdict _ | part | meter _ => simp

/-- The notices that follow a record, one by one. -/
theorem RoundRecord.ends_getLsbD (x : RoundRecord) (written : Bool) (old : Word32) {verdicts report clip full drained : Prop}
    [Decidable verdicts] [Decidable report] [Decidable clip] [Decidable full] [Decidable drained] {n : Nat} (h : n < 32) :
    (old ||| ((if written = false then noticeMiss else 0#32) |||
        (x.notices written ||| (if verdicts then noticeIntake else 0) |||
          ((if report then noticeReport else 0) ||| (if clip then noticeClip else 0)) |||
          (if full then noticeIntake else 0)) ||| (if drained then noticeDrained else 0#32))).getLsbD n = true ↔
      old.getLsbD n = true ∨ (written = true ∧ ∃ l : Line, x.kind = .line l ∧ n = l.val) ∨
        (n = 24 ∧ (verdicts ∨ full)) ∨ (n = 25 ∧ written = true ∧ x.stateChange = true ∧ ∃ e, x.kind = .lane e) ∨
        (n = 26 ∧ report) ∨ (n = 27 ∧ clip) ∨ (n = 28 ∧ drained) ∨ (n = 29 ∧ written = false) := by
  simp only [BitVec.ofNat_eq_ofNat, BitVec.getLsbD_or, getLsbD_ite_zero, Bool.or_eq_true, Bool.and_eq_true,
    decide_eq_true_eq, x.notices_getLsbD written h, noticeIntake, noticeReport, noticeClip, noticeDrained, noticeMiss,
    noticeBit_getLsbD h]
  generalize (written = true ∧ ∃ l : Line, x.kind = .line l ∧ n = l.val) = line
  generalize (written = true ∧ x.stateChange = true ∧ ∃ e, x.kind = .lane e) = lane
  tauto

/-- LINK after a record complete, from a LINK in which the record's own miss is counted. -/
theorem State.finishRecord_raises {s u : State} {k : Link} {bits : Word32} (r : Round) (x : RoundRecord) (written : Bool)
    (intake : u.intake = s.intake) (report : u.report = s.report) (link : k.raises bits u.link)
    (engine : k.engine = s.link.engine) :
    let t := u.finishRecord r x written
    let drained := s.link.engine = .draining ∧ t.intake.phase = .idle ∧ t.report.round = none
    ({ k with engine := if drained then .stopped else k.engine } : Link).raises
      (bits |||
        (x.notices written |||
          (if lastOf RecordKind.isVerdict x r.todo = true ∧ s.intake.reportRequest = false then noticeIntake else 0) |||
          ((if lastOf RecordKind.isMeter x r.todo = true ∧ (r.completed x written).meterWritten = true then noticeReport
            else 0) |||
          (if lastOf RecordKind.isMeter x r.todo = true ∧ r.clips ≠ s.report.lastClips then noticeClip else 0)) |||
          (if r.todo = [] ∧ r.full = true then noticeIntake else 0)) |||
        if drained then noticeDrained else 0#32) t.link := by
  have raised := link.trans (u.recordDone_raises r x written)
  rw [intake, report] at raised
  refine (u.recordDone r x written).drainCheck_raises raised ?_
  rw [State.workInFlight_eq_false_iff, State.finishRecord_eq, State.drainCheck_intake, State.drainCheck_report, raised.eq,
    engine]

/-- A record complete from a state that differs by the miss of this record alone has the ends of R132 to R145. -/
theorem State.finishRecord_ends {s u : State} (r : Round) (x : RoundRecord) (written : Bool)
    (intake : u.intake = s.intake) (report : u.report = s.report)
    (link : ({ s.link with miss := s.link.miss + if written = true then 0 else 1 } : Link).raises
      (if written = false then noticeMiss else 0#32) u.link) :
    s.recordEnds (u.finishRecord r x written) r x r.todo written := by
  have lastVerdict := lastOf_iff RecordKind.isVerdict x r.todo
  have lastMeter := lastOf_iff RecordKind.isMeter x r.todo
  have intakeAfter := u.recordDone_intake r x written
  have reportAfter := u.recordDone_report r x written
  have linkAfter := (State.finishRecord_raises r x written intake report link rfl).eq
  rw [intake, report] at reportAfter
  rw [intake] at intakeAfter
  simp only [State.finishRecord_eq, State.drainCheck_intake, State.drainCheck_report] at linkAfter
  unfold State.recordEnds
  simp only [← lastVerdict, ← lastMeter, State.finishRecord_eq, State.drainCheck_intake, State.drainCheck_report]
  refine ⟨fun ended => ?_, fun ended => ?_, ?_, ?_, fun last => ?_, fun last => ?_, fun last => ?_, fun last => ?_,
    fun drained => ?_, fun drained => ?_, fun n small => ?_, ?_⟩
  · rw [intakeAfter, if_pos ended]
  · rw [intakeAfter, if_neg ended]
  · rw [reportAfter]
  · simp [reportAfter]
  · rw [reportAfter, if_pos last]
  · rw [reportAfter, if_neg last]
  · rw [reportAfter, if_pos last]
  · rw [reportAfter, if_neg last]
    exact ⟨_, rfl, rfl, by simp [Round.completed], by simp [Round.completed]⟩
  · rw [linkAfter]; exact if_pos drained
  · rw [linkAfter]; exact if_neg drained
  · rw [linkAfter]
    refine (x.ends_getLsbD written _ small).trans ?_
    simp only [Round.completed, Bool.or_eq_true, Bool.and_eq_true]
  · rw [linkAfter]

end Sys2Proof.Machine
end

