-- ==== Sys2Proof/Proofs/SoundLink.lean ====
section
/-! PROOFS. LINK, INTAKE and REPORT stay sound (R107, R112, R114, R124, R125, R136, R153, R157, R158). -/

namespace Sys2Proof.Machine

/-! ### What soundness looks at -/

/-- Two states agree in all that the soundness of LINK, INTAKE and REPORT looks at. -/
structure State.sameWork (s t : State) : Prop where
  hostMem : t.hostMem = s.hostMem
  windows : t.link.window = s.link.window
  engine : t.link.engine = s.link.engine
  read : t.link.read.isSome = s.link.read.isSome
  phase : t.intake.phase = s.intake.phase
  position : t.intake.position = s.intake.position
  verdicts : t.intake.verdicts = s.intake.verdicts
  entries : t.report.verdicts = s.report.verdicts
  fullRequest : t.report.fullRequest = s.report.fullRequest
  round : t.report.round = s.report.round

theorem Link.windowsSound_iff (k : Link) : k.windowsSound = true ↔ ∀ r, windowSound (k.window r) = true := by
  simp only [Link.windowsSound, Bool.and_eq_true]
  refine ⟨fun ⟨⟨⟨planBase, planEnd⟩, reportBase⟩, reportEnd⟩ r => ?_, fun h => ⟨⟨⟨h .planBase, h .planEnd⟩, h .reportBase⟩, h .reportEnd⟩⟩
  cases r with
  | planBase => exact planBase
  | planEnd => exact planEnd
  | reportBase => exact reportBase
  | reportEnd => exact reportEnd

theorem State.linkSound_of_same {s t : State} (same : s.sameWork t) (h : s.linkSound) : t.linkSound := by
  unfold State.linkSound State.engineSound State.intakeSound State.verdictsSound State.roundSound State.owed
    State.workInFlight at h ⊢
  rw [Link.windowsSound_iff] at h ⊢
  rw [same.hostMem, same.windows, same.engine, same.read, same.phase, same.position, same.verdicts, same.entries,
    same.fullRequest, same.round]
  exact h

theorem State.sameWork_of_eq {s t : State} (hostMem : t.hostMem = s.hostMem) (link : t.link = s.link)
    (intake : t.intake = s.intake) (report : t.report = s.report) : s.sameWork t where
  hostMem := hostMem
  windows := by rw [link]
  engine := by rw [link]
  read := by rw [link]
  phase := by rw [intake]
  position := by rw [intake]
  verdicts := by rw [intake]
  entries := by rw [report]
  fullRequest := by rw [report]
  round := by rw [report]

theorem State.sameWork_of_raises {s t : State} {bits : Word32} (link : s.link.raises bits t.link)
    (hostMem : t.hostMem = s.hostMem) (intake : t.intake = s.intake) (report : t.report = s.report) : s.sameWork t where
  hostMem := hostMem
  windows := by rw [link.eq]; rfl
  engine := by rw [link.eq]
  read := by rw [link.eq]
  phase := by rw [intake]
  position := by rw [intake]
  verdicts := by rw [intake]
  entries := by rw [report]
  fullRequest := by rw [report]
  round := by rw [report]

/-! ### The verdict list (R112, R124) -/

/-- The verdict entries of an intake ascend, and are of sections below the fetch position. -/
def Intake.listSound (i : Intake) : Prop :=
  verdictsAscend i.verdicts ∧ ∀ p, i.position = some p → ∀ v ∈ i.verdicts, v.sec < p

theorem verdictsAscend_concat {vs : List VerdictEntry} {e : VerdictEntry} (h : verdictsAscend vs)
    (below : ∀ v ∈ vs, v.sec < e.sec) : verdictsAscend (vs ++ [e]) := by
  refine List.pairwise_append.mpr ⟨h, List.pairwise_singleton _ _, fun v mem w last => ?_⟩
  rw [List.mem_singleton.mp last]
  exact below v mem

theorem Intake.enter_below {i : Intake} {sec : Section} (v : Verdict) (edition : BitVec 16) (field : Option Nat)
    {n : Section} (below : ∀ v ∈ i.verdicts, v.sec < sec) (above : sec < n) :
    ∀ w ∈ (i.enter sec v edition field).verdicts, w.sec < n := by
  intro w mem
  obtain old | rfl := by simpa [Intake.enter] using mem
  · exact (below w old).trans above
  · exact above

theorem Intake.close_listSound {i : Intake} (h : i.listSound) {sec : Section} (position : i.position = some sec)
    (v : Verdict) (edition : BitVec 16) (field : Option Nat) : (i.close sec v edition field).listSound := by
  obtain ⟨ascend, below⟩ := h
  have entered : verdictsAscend (i.enter sec v edition field).verdicts := verdictsAscend_concat ascend (below sec position)
  cases next : nextTaken i.taken (sec.val + 1) with
  | none =>
    rw [i.close_last sec v edition field next]
    exact ⟨entered, fun _ none => (Option.some_ne_none _ none.symm).elim⟩
  | some n =>
    have above : sec < n := ((nextTaken_eq_some_iff _ _ _).mp next).1
    have belowNext := Intake.enter_below v edition field (below sec position) above
    rw [i.close_next sec v edition field next]
    by_cases request : n = 31
    · rw [if_pos request]
      exact ⟨verdictsAscend_concat entered (request ▸ belowNext), fun _ none => (Option.some_ne_none _ none.symm).elim⟩
    · rw [if_neg request]
      refine ⟨entered, fun p own => ?_⟩
      cases own
      exact belowNext

theorem Intake.close_phase (i : Intake) (sec : Section) (v : Verdict) (edition : BitVec 16) (field : Option Nat) :
    (i.close sec v edition field).phase = i.phase ∨ (i.close sec v edition field).phase = .ready := by
  cases next : nextTaken i.taken (sec.val + 1) with
  | none => exact .inr (by rw [i.close_last sec v edition field next])
  | some n =>
    rw [i.close_next sec v edition field next]
    by_cases request : n = 31
    · rw [if_pos request]; exact .inr rfl
    · rw [if_neg request]; exact .inl rfl

theorem Intake.judge_close (i : Intake) (sec : Section) (tail : BitVec 16) :
    ∃ g v f, i.judge sec tail = ({ i with staging := g } : Intake).close sec v i.editionSeen f := by
  unfold Intake.judge
  simp only []
  split
  · exact ⟨_, _, _, rfl⟩
  · split <;> exact ⟨_, _, _, rfl⟩

/-! ### The fetch of a section (R112 to R115) -/

/-- What a step of the fetch may change: the read, and INTAKE up to READY. -/
structure State.fetchStep (s t : State) : Prop where
  hostMem : t.hostMem = s.hostMem
  windows : t.link.window = s.link.window
  engine : t.link.engine = s.link.engine
  report : t.report = s.report
  list : t.intake.listSound
  phase : t.intake.phase = .fetching ∨ t.intake.phase = .ready
  read : t.link.read.isSome = true → t.intake.phase = .fetching

theorem State.owed_eq_zero {s : State} (h : s.linkSound) (phase : s.intake.phase ≠ .applying) : s.owed = 0 := by
  obtain ⟨-, -, -, ⟨-, -, applying, -⟩, -⟩ := h
  exact not_not.mp (mt applying phase)

theorem State.owed_of_report {s t : State} (report : t.report = s.report) : t.owed = s.owed := by
  unfold State.owed
  rw [report]

theorem State.fetchStep_linkSound {s t : State} (h : s.linkSound) (fetching : s.intake.phase = .fetching)
    (step : s.fetchStep t) : t.linkSound := by
  have none_owed : t.owed = 0 :=
    (State.owed_of_report step.report).trans (State.owed_eq_zero h (by rw [fetching]; decide))
  obtain ⟨wf, windows, ⟨stopped, draining⟩, ⟨-, -, -, -, entries, -⟩, round⟩ := h
  have busy : t.workInFlight = true := by
    obtain phase | phase := step.phase <;> simp [State.workInFlight, phase]
  have working : s.workInFlight = true := by simp [State.workInFlight, fetching]
  refine ⟨by rw [step.hostMem]; exact wf, ?_, ⟨fun engine => ?_, fun _ => busy⟩,
    ⟨step.read, by rw [none_owed]; exact Nat.zero_le 1, fun owed => absurd none_owed owed, step.list.1, ?_, step.list.2⟩, ?_⟩
  · rw [Link.windowsSound_iff] at windows ⊢
    rw [step.windows]
    exact windows
  · rw [step.engine] at engine
    exact (Bool.false_ne_true ((stopped engine).symm.trans working)).elim
  · rw [step.report]
    exact entries
  · unfold State.roundSound
    rw [step.report]
    exact round

/-- The fetch of the section at the fetch position ends, with no read left. -/
theorem State.closeStep {s t : State} (hostMem : t.hostMem = s.hostMem) (windows : t.link.window = s.link.window)
    (engine : t.link.engine = s.link.engine) (report : t.report = s.report) (read : t.link.read = none)
    (fetching : s.intake.phase = .fetching) {i : Intake} (list : i.listSound) {sec : Section}
    (position : i.position = some sec) (phase : i.phase = s.intake.phase) {v : Verdict} {edition : BitVec 16}
    {field : Option Nat} (closed : t.intake = i.close sec v edition field) : s.fetchStep t where
  hostMem := hostMem
  windows := windows
  engine := engine
  report := report
  list := by rw [closed]; exact Intake.close_listSound list position v edition field
  phase := by
    rw [closed, ← fetching, ← phase]
    exact i.close_phase sec v edition field
  read := fun some => by rw [read] at some; cases some

/-- A read that INTAKE would issue for the section at the fetch position, with what it has read kept. -/
theorem State.issueRead_step {s u : State} (fetching : s.intake.phase = .fetching) (list : s.intake.listSound) {sec : Section}
    (position : s.intake.position = some sec) (hostMem : u.hostMem = s.hostMem) (windows : u.link.window = s.link.window)
    (engine : u.link.engine = s.link.engine) (report : u.report = s.report) (read : u.link.read = none)
    {head : Option (BitVec 16)} {record : Option (List Byte)}
    (intake : u.intake = { s.intake with head := head, record := record }) (step : ReadStep) :
    s.fetchStep (u.issueRead sec step) := by
  unfold State.issueRead
  split
  · refine ⟨hostMem, windows, engine, report, ?_, .inl ?_, fun _ => ?_⟩
    · rw [intake]; exact list
    · rw [intake]; exact fetching
    · rw [intake]; exact fetching
  · refine State.closeStep (i := u.intake) hostMem windows engine report read fetching ?_ ?_ ?_ rfl
    · rw [intake]; exact list
    · rw [intake]; exact position
    · rw [intake]

theorem State.linkSound_list {s : State} (h : s.linkSound) : s.intake.listSound := by
  obtain ⟨-, -, -, ⟨-, -, -, ascend, -, below⟩, -⟩ := h
  exact ⟨ascend, below⟩

theorem State.beginFetch_linkSound {s : State} (h : s.linkSound) {sec : Section} (fetchable : s.fetchable = some sec) :
    (s.beginFetch sec).linkSound := by
  unfold State.fetchable at fetchable
  obtain ⟨ready, position⟩ := by simpa only [Option.ite_none_right_eq_some] using fetchable
  obtain ⟨fetching, read⟩ := by simpa only [Bool.and_eq_true, decide_eq_true_eq, Option.isNone_iff_eq_none] using ready
  have list := s.linkSound_list h
  refine State.fetchStep_linkSound h fetching ?_
  unfold State.beginFetch
  split
  next last =>
    refine ⟨rfl, rfl, rfl, rfl, ⟨?_, fun _ none => (Option.some_ne_none _ none.symm).elim⟩, .inr rfl, fun some => ?_⟩
    · refine verdictsAscend_concat list.1 ?_
      rw [last] at position
      exact list.2 31 position
    · change s.link.read.isSome = true at some
      rw [read] at some
      cases some
  next =>
    split
    · exact State.issueRead_step fetching list position rfl rfl rfl rfl read rfl .head
    · exact State.closeStep (i := s.intake) rfl (by simp) (by simp [State.countMiss, Link.countMiss]) rfl
        (by simp [State.countMiss, Link.countMiss, read]) fetching list position rfl rfl

theorem State.completeRead_linkSound {s : State} (h : s.linkSound) {r : PlanRead} (read : s.link.read = some r)
    (x : ReadResult) : (s.completeRead r x).linkSound := by
  have fetching : s.intake.phase = .fetching := h.2.2.2.1.1 (by rw [read]; rfl)
  have list := s.linkSound_list h
  refine State.fetchStep_linkSound h fetching ?_
  unfold State.completeRead
  simp only []
  split
  next => exact ⟨rfl, rfl, rfl, rfl, list, .inl fetching, fun some => by cases some⟩
  next sec position =>
    split
    next b _ =>
      unfold State.readDone
      split
      · exact State.issueRead_step (s := s) (u := { s with
            link := { s.link with read := none }, intake := { s.intake with head := some (stampOf b) } })
          fetching list position rfl rfl rfl rfl rfl rfl .record
      · exact State.issueRead_step (s := s) (u := { s with
            link := { s.link with read := none }, intake := { s.intake with record := some b } })
          fetching list position rfl rfl rfl rfl rfl rfl .tail
      · obtain ⟨g, v, f, judged⟩ := s.intake.judge_close sec (stampOf b)
        exact State.closeStep rfl rfl rfl rfl rfl fetching (i := { s.intake with staging := g }) list position rfl judged
    next => exact State.closeStep (i := s.intake) rfl rfl rfl rfl rfl fetching list position rfl rfl

theorem Link.dropRead_read (k : Link) : k.dropRead.read = none := by
  unfold Link.dropRead
  split
  · assumption
  · rfl

theorem Link.dropRead_engine (k : Link) : k.dropRead.engine = k.engine := by
  unfold Link.dropRead
  split <;> rfl

theorem State.timeoutRead_linkSound {s : State} (h : s.linkSound) (read : s.link.read.isSome = true) :
    s.timeoutRead.linkSound := by
  have fetching : s.intake.phase = .fetching := h.2.2.2.1.1 read
  have list := s.linkSound_list h
  refine State.fetchStep_linkSound h fetching ?_
  unfold State.timeoutRead
  simp only []
  split
  next => exact ⟨rfl, s.link.dropRead_window, s.link.dropRead_engine, rfl, list, .inl fetching, fun some => by
      simp [Link.dropRead_read] at some⟩
  next sec position =>
    exact State.closeStep (i := s.intake) rfl s.link.dropRead_window s.link.dropRead_engine rfl s.link.dropRead_read
      fetching list position rfl rfl

theorem State.readTick_linkSound {s : State} (h : s.linkSound) : s.readTick.linkSound := by
  unfold State.readTick
  split
  next => exact h
  next r read =>
    refine State.ite_of (fun _ => State.timeoutRead_linkSound h (by rw [read]; rfl)) fun _ => ?_
    exact State.linkSound_of_same (s := s) ⟨rfl, rfl, rfl, by rw [read]; rfl, rfl, rfl, rfl, rfl, rfl, rfl⟩ h

/-! ### The apply (R121, R122, R124) -/

theorem VerdictEntry.refuse_sec (v : VerdictEntry) (refused : List Line) : (v.refuse refused).sec = v.sec := by
  unfold VerdictEntry.refuse
  split <;> rfl

theorem verdictsAscend_refuse {vs : List VerdictEntry} (h : verdictsAscend vs) (refused : List Line) :
    verdictsAscend (vs.map (·.refuse refused)) :=
  List.pairwise_map.mpr (h.imp fun below => by rw [VerdictEntry.refuse_sec, VerdictEntry.refuse_sec]; exact below)

theorem State.handOver_linkSound {s : State} (h : s.linkSound) (ready : s.intake.phase = .ready) :
    s.handOver.linkSound := by
  have none_owed : s.owed = 0 := State.owed_eq_zero h (by rw [ready]; decide)
  have working : s.workInFlight = true := by simp [State.workInFlight, ready]
  have list := s.linkSound_list h
  obtain ⟨wf, windows, ⟨stopped, draining⟩, ⟨reading, -, -, -, entries, -⟩, round⟩ := h
  have handed := verdictsAscend_refuse list.1 s.applyRefused
  refine ⟨by rw [s.handOver_hostMem]; exact wf, by rw [s.handOver_link]; exact windows,
    ⟨fun engine => ?_, fun _ => rfl⟩, ⟨fun some => ?_, ?_, fun _ => rfl, handed, handed, fun p own v mem => ?_⟩, round⟩
  · rw [s.handOver_link] at engine
    exact (Bool.false_ne_true ((stopped engine).symm.trans working)).elim
  · rw [s.handOver_link] at some
    exact absurd ((reading some).symm.trans ready) (by decide)
  · have one : (!s.handOver.report.verdicts.isEmpty).toNat ≤ 1 := Bool.toNat_le _
    unfold State.owed at none_owed ⊢
    change (!s.handOver.report.verdicts.isEmpty).toNat + s.report.fullRequest.toNat +
      (s.report.round.any fun r => r.uncompleted.any fun x => x.kind.isVerdict).toNat +
      (s.report.round.any (·.full)).toNat ≤ 1
    omega
  · obtain ⟨w, held, rfl⟩ := List.mem_map.mp mem
    rw [VerdictEntry.refuse_sec]
    exact list.2 p own w held

theorem State.applyDue_ready {s : State} (due : s.applyDue = true) : s.intake.phase = .ready := by
  simp only [State.applyDue, Bool.and_eq_true, decide_eq_true_eq] at due
  exact due.1

theorem State.linePhase_linkSound {s : State} (h : s.linkSound) (p : Vector (Option LinePlan) 24) (d : Int) :
    (s.linePhase p d).linkSound :=
  State.linkSound_of_same (State.sameWork_of_eq (by simp) (by simp) (by simp) (by simp)) h

theorem State.countRoles_linkSound {s : State} (h : s.linkSound) : s.countRoles.linkSound :=
  State.linkSound_of_same (State.sameWork_of_eq rfl rfl rfl rfl) h

theorem State.applyTick_linkSound {s : State} (h : s.linkSound) (due : s.applyDue = true) : s.applyTick.linkSound := by
  have handed := State.handOver_linkSound h (State.applyDue_ready due)
  unfold State.applyTick
  exact State.ite_of (fun _ => State.countRoles_linkSound (State.linePhase_linkSound handed _ _))
    fun _ => State.linePhase_linkSound handed _ _

theorem State.linePart_linkSound {s : State} (h : s.linkSound) : s.linePart.linkSound :=
  State.ite_of (fun due => State.applyTick_linkSound h due) fun _ => State.linePhase_linkSound h _ _

/-! ### The take (R111) -/

theorem State.takePost_linkSound {s : State} (h : s.linkSound) (take : s.mayTake = true) : s.takePost.linkSound := by
  simp only [State.mayTake, Bool.and_eq_true, decide_eq_true_eq] at take
  obtain ⟨⟨idle, active⟩, -⟩ := take
  have none_owed : s.owed = 0 := State.owed_eq_zero h (by rw [idle]; decide)
  obtain ⟨wf, windows, -, ⟨-, -, -, -, entries, -⟩, round⟩ := h
  refine ⟨wf, windows, ⟨fun engine => ?_, fun _ => rfl⟩,
    ⟨fun _ => rfl, ?_, fun owed => absurd none_owed owed, .nil, entries, fun _ _ v mem => ?_⟩, round⟩
  · exact absurd (active.symm.trans engine) (by decide)
  · exact none_owed.trans_le (Nat.zero_le 1)
  · cases mem

/-! ### A round begun (R136, R142) -/

theorem State.work_present {s : State} (present : s.work.present = true) :
    s.link.engine ≠ .stopped ∧ s.work.verdicts = s.report.verdicts ∧ s.work.full = s.report.fullRequest := by
  unfold State.work at present ⊢
  cases engine : s.link.engine <;> simp [engine, Work.present, Work.nothing] at present ⊢

theorem roundRecords_ne_nil {s : State} {w : Work} (present : w.present = true) : roundRecords s w ≠ [] := by
  simp only [Work.present, Bool.or_eq_true, Bool.not_eq_true', List.isEmpty_eq_false_iff] at present
  unfold roundRecords Work.carriedLanes Work.carriedLines
  cases meters : w.meters with
  | true => simp
  | false =>
    obtain ⟨full, periodic⟩ : w.full = false ∧ w.periodic = false := by simpa [Work.meters] using meters
    simp only [full, periodic, Bool.false_eq_true, or_false] at present
    simp [full]
    tauto

theorem roundRecords_verdicts (s : State) (w : Work) :
    ((roundRecords s w).any fun x => x.kind.isVerdict) = !w.verdicts.isEmpty := by
  unfold roundRecords
  cases w.meters <;> cases w.verdicts <;> simp [plainRecord, RecordKind.isVerdict, List.any_append]

theorem State.lookRound_linkSound {s seen : State} (h : s.linkSound) (report : seen.report = s.report)
    (link : seen.link = s.link) (left : ReportFlags) : (s.lookRound seen left).linkSound := by
  refine State.due_of h fun may => ?_
  simp only [State.mayRound, Bool.and_eq_true, Option.isNone_iff_eq_none] at may
  obtain ⟨idle, present⟩ := may
  obtain ⟨running, verdicts, full⟩ := State.work_present present
  rw [report] at idle verdicts full
  rw [link] at running
  obtain ⟨wf, windows, -, ⟨reading, one, applying, ascend, -, below⟩, -⟩ := h
  have owed : (s.startRound seen left seen.work).owed = s.owed := by
    unfold State.owed State.startRound Report.takeWork newRound
    simp [idle, Round.uncompleted, roundRecords_verdicts, verdicts, full]
  refine ⟨by rw [State.startRound_hostMem]; exact wf, by rw [State.startRound_link]; exact windows,
    ⟨fun engine => ?_, fun _ => ?_⟩, ⟨?_, by rw [owed]; exact one, ?_, ?_, .nil, ?_⟩, fun r own => ?_⟩
  · rw [State.startRound_link] at engine
    exact absurd engine running
  · simp [State.workInFlight, State.startRound, Report.takeWork]
  · rw [State.startRound_link, State.startRound_intake]
    exact reading
  · rw [owed, State.startRound_intake]
    exact applying
  · rw [State.startRound_intake]
    exact ascend
  · rw [State.startRound_intake]
    exact below
  · obtain rfl := Option.some.inj own
    exact roundRecords_ne_nil present

/-! ### The end of a record (R124, R125, R137, R158) -/

/-- The end of a record: the intake is over and REPORT owes nothing, or REPORT owes as much as before. -/
theorem State.recordEnds_owed {s t : State} {r r₀ : Round} {x : RoundRecord} {rest : List RoundRecord} {written : Bool}
    (one : s.owed ≤ 1) (ends : s.recordEnds t r x rest written) (round : s.report.round = some r₀)
    (left : r₀.uncompleted = x :: rest) (full : r₀.full = r.full) :
    (t.intake = { s.intake with phase := .idle } ∧ s.owed ≠ 0 ∧ t.owed = 0) ∨ (t.intake = s.intake ∧ t.owed = s.owed) := by
  obtain ⟨idle, stays, report, request, -, -, lastRound, nextRound, -⟩ := ends
  have entries : t.report.verdicts = s.report.verdicts := by rw [report]
  have asked : t.report.fullRequest =
      (s.report.fullRequest || (x.kind.isVerdict && !rest.any (fun y => y.kind.isVerdict) && s.intake.reportRequest)) := by
    rw [Bool.eq_iff_iff, request]
    simp [and_assoc]
  have owedBefore : s.owed = (!s.report.verdicts.isEmpty).toNat + s.report.fullRequest.toNat +
      (x.kind.isVerdict || rest.any fun y => y.kind.isVerdict).toNat + r.full.toNat := by
    simp [State.owed, round, left, full]
  have owedAfter : t.owed = (!s.report.verdicts.isEmpty).toNat + t.report.fullRequest.toNat +
      (rest.any fun y => y.kind.isVerdict).toNat + (if rest = [] then 0 else r.full.toNat) := by
    unfold State.owed
    rw [entries]
    by_cases last : rest = []
    · simp [lastRound last, last]
    · obtain ⟨next, own, same, -⟩ := nextRound last
      rw [own, same]
      simp [last, Round.uncompleted]
  rw [asked] at owedAfter
  rw [owedBefore] at one ⊢
  rw [owedAfter]
  have lastVerdict : (x.kind.isVerdict = true ∧ ∀ y ∈ rest, y.kind.isVerdict = false) ↔
      x.kind.isVerdict = true ∧ (rest.any fun y => y.kind.isVerdict) = false := by simp
  rw [lastVerdict] at idle stays
  clear lastVerdict owedBefore owedAfter asked entries nextRound lastRound request report left round
  generalize (t.intake = { s.intake with phase := .idle }) = ended at *
  generalize (t.intake = s.intake) = same at *
  generalize x.kind.isVerdict = verdict, s.intake.reportRequest = ask, s.report.fullRequest = asked,
    (!s.report.verdicts.isEmpty).toNat = entries at *
  generalize r.full = whole at *
  by_cases last : rest = []
  · subst last
    cases verdict <;> cases whole <;> cases ask <;> cases asked <;> simp_all
  · generalize (rest.any fun y => y.kind.isVerdict) = more at *
    cases verdict <;> cases more <;> cases ask <;> cases asked <;> cases whole <;> simp_all

/-- A record of the round in progress ended leaves LINK and REPORT sound (R124, R125, R137, R158). -/
theorem State.recordEnds_linkSound {s t : State} (h : s.linkSound) {r r₀ : Round} {x : RoundRecord}
    {rest : List RoundRecord} {written : Bool} (ends : s.recordEnds t r x rest written)
    (round : s.report.round = some r₀) (left : r₀.uncompleted = x :: rest) (full : r₀.full = r.full)
    (wf : memoryWf t.hostMem = true) : t.linkSound := by
  obtain ⟨-, windows, ⟨stopped, -⟩, ⟨reading, one, applying, ascend, entries, below⟩, -⟩ := h
  have owed := State.recordEnds_owed one ends round left full
  have busy : s.workInFlight = true := by simp [State.workInFlight, round]
  have engine : s.link.engine ≠ .stopped := fun own => Bool.false_ne_true ((stopped own).symm.trans busy)
  obtain ⟨-, -, report, -, -, -, lastRound, nextRound, drained, running, -, link⟩ := ends
  have read : t.link.read = s.link.read := by rw [link]
  have window : t.link.window = s.link.window := by rw [link]; rfl
  have over_iff := t.workInFlight_eq_false_iff
  refine ⟨wf, ?_, ⟨fun own => ?_, fun own => ?_⟩, ⟨fun some => ?_, ?_, fun owes => ?_, ?_, ?_, ?_⟩, fun q own => ?_⟩
  · rw [Link.windowsSound_iff] at windows ⊢
    rw [window]
    exact windows
  · by_contra work
    rw [over_iff] at work
    exact engine ((running fun ended => work ended.2).symm.trans own)
  · by_contra idle
    rw [Bool.not_eq_true, over_iff] at idle
    by_cases draining : s.link.engine = .draining
    · exact absurd ((drained ⟨draining, idle⟩).symm.trans own) (by decide)
    · exact draining ((running fun ended => draining ended.1).symm.trans own)
  · rw [read] at some
    obtain ⟨-, owing, -⟩ | ⟨same, -⟩ := owed
    · exact absurd ((reading some).symm.trans (applying owing)) (by decide)
    · rw [same]; exact reading some
  · obtain ⟨-, -, none⟩ | ⟨-, same⟩ := owed
    · omega
    · rw [same]; exact one
  · obtain ⟨-, -, none⟩ | ⟨same, owing⟩ := owed
    · exact absurd none owes
    · rw [same]; exact applying (owing ▸ owes)
  · obtain ⟨same, -⟩ | ⟨same, -⟩ := owed <;> rw [same] <;> exact ascend
  · rw [report]; exact entries
  · obtain ⟨same, -⟩ | ⟨same, -⟩ := owed <;> rw [same] <;> exact below
  · by_cases last : rest = []
    · rw [lastRound last] at own
      cases own
    · obtain ⟨next, some, same, -⟩ := nextRound last
      obtain rfl := Option.some.inj (own.symm.trans some)
      rw [same]
      simpa [Round.uncompleted] using last

theorem Link.countMiss_raises (k : Link) :
    ({ k with miss := k.miss + if false = true then 0 else 1 } : Link).raises (if false = false then noticeMiss else 0#32)
      k.countMiss := Link.raise_raises _ _

theorem Link.written_raises (k : Link) :
    ({ k with miss := k.miss + if true = true then 0 else 1 } : Link).raises (if true = false then noticeMiss else 0#32) k := by
  simpa using k.raises_none

/-- A record missed has the ends of a record not written. -/
theorem State.missRecord_ends (s : State) (r : Round) (x : RoundRecord) :
    s.recordEnds (s.missRecord r x) r x r.todo false :=
  State.finishRecord_ends r x false rfl rfl s.link.countMiss_raises

theorem State.missRecord_linkSound {s : State} (h : s.linkSound) {r r₀ : Round} {x : RoundRecord}
    (round : s.report.round = some r₀) (left : r₀.uncompleted = x :: r.todo) (full : r₀.full = r.full) :
    (s.missRecord r x).linkSound :=
  State.recordEnds_linkSound h (s.missRecord_ends r x) round left full
    (by unfold State.missRecord; rw [State.finishRecord_hostMem]; exact h.1)

theorem State.beginRecord_linkSound {s : State} (h : s.linkSound) {r : Round} (round : s.report.round = some r)
    (sent : PartSent) : (s.beginRecord r sent).linkSound := by
  unfold State.beginRecord
  split
  next item rest current todo =>
    have left : r.uncompleted = item :: rest := by simp [Round.uncompleted, current, todo]
    refine State.ite_of (fun _ => ?_) fun _ => State.missRecord_linkSound h round left rfl
    have wf : memoryWf (s.sendBegin item (s.report.seq + 1) sent).hostMem = true := by
      cases sent
      · exact memoryWriteBytes_wf _ h.1 _
      · exact memoryWriteBytes_wf _ (memoryWriteBytes_wf _ h.1 _) _
    have link := s.beginWrite_link { r with todo := rest } item sent
    have intake : (s.beginWrite { r with todo := rest } item sent).intake = s.intake := by cases sent <;> rfl
    have uncompleted : ({ r with todo := rest, current := some ⟨item, s.report.seq + 1, sent⟩ } : Round).uncompleted =
        r.uncompleted := by simp [Round.uncompleted, current, todo]
    obtain ⟨-, windows, engine, ⟨reading, one, applying, list⟩, full⟩ := h
    have owed : (s.beginWrite { r with todo := rest } item sent).owed = s.owed := by
      simp [State.owed, State.beginWrite, round, Round.uncompleted, current, todo]
    refine ⟨wf, by rw [link]; exact windows, ?_, ⟨by rw [link, intake]; exact reading, by rw [owed]; exact one,
      by rw [owed, intake]; exact applying, ?_⟩, fun q own => ?_⟩
    · unfold State.engineSound State.workInFlight at engine ⊢
      rw [link, intake]
      simpa [State.beginWrite, round] using engine
    · unfold State.verdictsSound at list ⊢
      rw [intake]
      exact list
    · obtain rfl := Option.some.inj own
      rw [uncompleted]
      exact full r round
  next => exact h

theorem State.completeRecord_linkSound {s : State} (h : s.linkSound) {r : Round} (round : s.report.round = some r) :
    (s.completeRecord r).linkSound := by
  unfold State.completeRecord
  split
  next => exact h
  next u current =>
    have intake : (s.sendRest u).intake = s.intake := by unfold State.sendRest; cases u.sent <;> rfl
    have report : (s.sendRest u).report = s.report := by unfold State.sendRest; cases u.sent <;> rfl
    have wf : memoryWf (s.sendRest u).hostMem = true := by
      unfold State.sendRest
      cases u.sent
      · exact memoryWriteBytes_wf _ (memoryWriteBytes_wf _ h.1 _) _
      · exact memoryWriteBytes_wf _ h.1 _
    have ends : s.recordEnds ((s.sendRest u).finishRecord r u.item true) r u.item r.todo true :=
      State.finishRecord_ends r u.item true intake report (by rw [s.sendRest_link]; exact s.link.written_raises)
    exact State.recordEnds_linkSound h ends round (by simp [Round.uncompleted, current]) rfl
      (by rw [State.finishRecord_hostMem]; exact wf)

/-! ### The memory engine and the window registers (R153, R154, R157 to R159) -/

theorem State.drainCheck_linkSound {s u : State} (h : s.linkSound) (hostMem : u.hostMem = s.hostMem)
    (windows : u.link.window = s.link.window) (read : u.link.read = s.link.read) (intake : u.intake = s.intake)
    (report : u.report = s.report) (draining : u.link.engine = .draining) : u.drainCheck.linkSound := by
  have list := s.linkSound_list h
  have owed := State.owed_of_report report
  obtain ⟨wf, window, -, ⟨reading, one, applying, ascend, entries, below⟩, round⟩ := h
  have engine : u.drainCheck.engineSound := by
    have work : u.drainCheck.workInFlight = u.workInFlight := by simp [State.workInFlight]
    unfold State.engineSound
    rw [work]
    obtain ⟨same, running⟩ | ⟨-, idle, stopped⟩ := u.drainCheck_cases
    · rw [same, draining]
      exact ⟨fun own => (Engine.noConfusion own), fun _ => by simpa [draining] using running⟩
    · rw [stopped]
      refine ⟨fun _ => idle, fun own => ?_⟩
      simp at own
  refine ⟨by rw [State.drainCheck_hostMem, hostMem]; exact wf, ?_, engine, ⟨?_, ?_, ?_, ?_, ?_, ?_⟩, ?_⟩
  · rw [Link.windowsSound_iff] at window ⊢
    rw [State.drainCheck_window, windows]
    exact window
  · have drained : u.drainCheck.link.read = u.link.read := by
      obtain ⟨same, -⟩ | ⟨-, -, stopped⟩ := u.drainCheck_cases
      · rw [same]
      · rw [stopped]; simp
    rw [drained, read, State.drainCheck_intake, intake]
    exact reading
  · rw [State.owed_of_report u.drainCheck_report, owed]
    exact one
  · rw [State.owed_of_report u.drainCheck_report, owed, State.drainCheck_intake, intake]
    exact applying
  · rw [State.drainCheck_intake, intake]; exact ascend
  · rw [State.drainCheck_report, report]; exact entries
  · rw [State.drainCheck_intake, intake]; exact below
  · unfold State.roundSound
    rw [State.drainCheck_report, report]
    exact round

theorem State.clearEnable_linkSound {s : State} (h : s.linkSound) : s.clearEnable.linkSound := by
  unfold State.clearEnable
  refine State.ite_of (fun _ => State.drainCheck_linkSound h rfl rfl rfl rfl rfl rfl) fun _ => ?_
  exact State.linkSound_of_same (s := s) ⟨rfl, rfl, rfl, rfl, rfl, rfl, rfl, rfl, rfl, rfl⟩ h

theorem State.writeEnable_linkSound {s : State} (h : s.linkSound) (on : Bool) : (s.writeEnable on).linkSound := by
  cases on with
  | false => exact State.clearEnable_linkSound h
  | true => exact State.linkSound_of_same (s := s) ⟨rfl, rfl, rfl, rfl, rfl, rfl, rfl, rfl, rfl, rfl⟩ h

theorem State.withdraw_linkSound {s : State} (h : s.linkSound) : s.withdraw.linkSound := by
  unfold State.withdraw
  have off : ({ s with link := { s.link with busMaster := false } } : State).linkSound :=
    State.linkSound_of_same (s := s) ⟨rfl, rfl, rfl, rfl, rfl, rfl, rfl, rfl, rfl, rfl⟩ h
  have cleared := State.clearEnable_linkSound off
  unfold State.missUnderway
  split
  next => exact cleared
  next r round =>
    split
    next => exact cleared
    next u current => exact State.missRecord_linkSound cleared round (by simp [Round.uncompleted, current]) rfl

theorem alignedWindow_sound (v : Word64) : windowSound (alignedWindow v) = true := by
  have low : (alignedWindow v).toNat % 2 ^ 12 = 0 := by
    refine Nat.eq_of_testBit_eq fun i => ?_
    rw [Nat.testBit_mod_two_pow, BitVec.testBit_toNat, alignedWindow_getLsbD, Nat.zero_testBit]
    by_cases below : i < 12 <;> simp [below]
  simpa [windowSound] using low

theorem windowValue_sound (old : Word64) (data : WindowData) : windowSound (windowValue old data) = true := by
  cases data <;> exact alignedWindow_sound _

theorem State.writeWindow_linkSound {s : State} (h : s.linkSound) (r : WindowReg) (data : WindowData) :
    ({ s with link := s.link.writeWindow r data } : State).linkSound := by
  by_cases stopped : s.link.engine = .stopped
  · rw [Link.writeWindow_stopped stopped]
    obtain ⟨wf, windows, engine, intake, round⟩ := h
    refine ⟨wf, ?_, ?_, ?_, round⟩
    · rw [Link.windowsSound_iff] at windows ⊢
      intro q
      rw [Link.setWindow_window]
      by_cases same : q = r
      · rw [same, Function.update_self]
        exact windowValue_sound _ _
      · rw [Function.update_of_ne same]
        exact windows q
    · unfold State.engineSound at engine ⊢
      rw [Link.setWindow_engine]
      exact engine
    · unfold State.intakeSound at intake ⊢
      rw [Link.setWindow_eq]
      exact intake
  · rw [Link.writeWindow_running stopped]
    exact State.linkSound_of_same (State.sameWork_of_raises (s := s) (Link.raise_raises _ _) rfl rfl rfl) h

/-! ### Resets (R160 to R163) -/

theorem State.linkSound_of_rest {t : State} (wf : memoryWf t.hostMem = true) (windows : t.link.windowsSound = true)
    (engine : t.link.engine = .stopped) (read : t.link.read = none) (phase : t.intake.phase = .idle)
    (verdicts : t.intake.verdicts = []) (entries : t.report.verdicts = []) (fullRequest : t.report.fullRequest = false)
    (round : t.report.round = none) : t.linkSound := by
  have owed : t.owed = 0 := by simp [State.owed, entries, fullRequest, round]
  refine ⟨wf, windows, ⟨fun _ => ?_, fun own => ?_⟩, ⟨fun some => ?_, ?_, fun owes => absurd owed owes, ?_, ?_, ?_⟩,
    fun r own => ?_⟩
  · simp [State.workInFlight, phase, round]
  · exact absurd (engine.symm.trans own) (by decide)
  · rw [read] at some; cases some
  · rw [owed]; exact Nat.zero_le 1
  · rw [verdicts]; exact .nil
  · rw [entries]; exact .nil
  · rw [verdicts]; intro _ _ v mem; cases mem
  · rw [round] at own; cases own

theorem State.powerOn_linkSound {s : State} (h : s.linkSound) : s.powerOn.linkSound :=
  State.linkSound_of_rest h.1 rfl rfl rfl rfl rfl rfl rfl rfl

theorem State.softReset_linkSound {s : State} (h : s.linkSound) : s.softReset.linkSound :=
  State.linkSound_of_rest h.1 rfl rfl rfl rfl rfl rfl rfl rfl

theorem State.linkReset_linkSound {s : State} (h : s.linkSound) : s.linkReset.linkSound :=
  State.linkSound_of_rest (by rw [s.linkReset_hostMem]; exact h.1) (by rfl) (by rfl) (by rfl) (by rfl) (by rfl) (by rfl)
    (by rfl) (by rfl)

/-! ### Writes to the register window (R150) -/

theorem State.writeWord_linkSound {s : State} (h : s.linkSound) (n : Nat) (v : Word32) : (s.writeWord n v).linkSound := by
  have answered (k : Link) (e : Bool) (same : ({ s with link := k } : State).linkSound) :
      ({ s with link := k.answerWrite e } : State).linkSound :=
    State.linkSound_of_same (s := { s with link := k })
      ⟨rfl, by simp, by simp, by simp, rfl, rfl, rfl, rfl, rfl, rfl⟩ same
  have noted (k : Link) (window : k.window = s.link.window) (engine : k.engine = s.link.engine)
      (read : k.read = s.link.read) : ({ s with link := k } : State).linkSound :=
    State.linkSound_of_same (s := s) ⟨rfl, window, engine, by simp [read], rfl, rfl, rfl, rfl, rfl, rfl⟩ h
  unfold State.writeWord
  split
  · refine State.ite_of (fun _ => State.softReset_linkSound h) fun _ => ?_
    exact State.linkSound_of_same (State.sameWork_of_eq rfl rfl rfl rfl) (State.writeEnable_linkSound h _)
  · refine State.ite_of (fun _ => noted _ rfl rfl rfl) fun _ => ?_
    refine State.ite_of (fun _ => answered _ _ (noted _ rfl rfl rfl)) fun _ => ?_
    refine State.ite_of (fun _ => answered _ _ (noted _ rfl rfl rfl)) fun _ => ?_
    split
    · exact State.writeWindow_linkSound h _ _
    · exact State.writeWindow_linkSound h _ _
    · exact h

theorem State.registerWrite_linkSound {s : State} (h : s.linkSound) (o : BitVec 12) (w : AccessWidth) (v : Word64) :
    (s.registerWrite o w v).linkSound := by
  unfold State.registerWrite
  split
  · exact State.writeWindow_linkSound h _ _
  · exact List.foldlRecOn (motive := State.linkSound) _ _ h fun u kept n _ => State.writeWord_linkSound kept n _

/-! ### The block tick -/

theorem State.engineTick_linkSound {s : State} (h : s.linkSound) : ({ s with link := s.link.engineTick } : State).linkSound := by
  unfold Link.engineTick
  split
  next starts =>
    simp only [Link.startsAtTick, Bool.and_eq_true, decide_eq_true_eq] at starts
    obtain ⟨wf, windows, -, intake, round⟩ := h
    exact ⟨wf, windows, ⟨fun own => Engine.noConfusion own, fun own => Engine.noConfusion own⟩, intake, round⟩
  next => exact h

theorem State.takePhase_linkSound {s : State} (h : s.linkSound) : s.takePhase.linkSound := by
  unfold State.takePhase State.takeTick
  exact State.ite_of (fun _ => h) fun _ => State.ite_of (fun may => State.takePost_linkSound h may) fun _ => h

theorem State.countBlock_linkSound {s : State} (h : s.linkSound) : s.countBlock.linkSound :=
  State.linkSound_of_same (s := s) ⟨rfl, rfl, rfl, rfl, rfl, rfl, rfl, rfl, rfl, rfl⟩ h

theorem Report.periodTick_eq (r : Report) :
    r.periodTick = { r with meterCounter := r.periodTick.meterCounter, due := r.periodTick.due } := by
  unfold Report.periodTick
  split <;> rfl

theorem State.period_linkSound {s : State} (h : s.linkSound) :
    ({ s with report := s.report.periodTick } : State).linkSound := by
  rw [s.report.periodTick_eq]
  exact State.linkSound_of_same (s := s) ⟨rfl, rfl, rfl, rfl, rfl, rfl, rfl, rfl, rfl, rfl⟩ h

theorem State.periodPhase_linkSound {s : State} (h : s.linkSound) : s.periodPhase.linkSound := by
  unfold State.periodPhase
  exact State.ite_of (fun _ => h) fun _ => State.period_linkSound h

theorem State.audioPhases_linkSound {s : State} (h : s.linkSound) (pins : BitVec 16) :
    ((s.keyPhase pins).cuePhase.mixPhase).linkSound :=
  State.linkSound_of_same (State.sameWork_of_eq (by simp) (by simp) (by simp) (by simp)) h

theorem State.setRef_linkSound {s : State} (h : s.linkSound) (q : RefMonitor) : (s.setRef q).linkSound := by
  unfold State.setRef
  refine State.ite_of (fun _ => State.linkSound_of_same (State.sameWork_of_eq rfl rfl rfl rfl) h) fun _ => ?_
  exact State.linkSound_of_same (State.sameWork_of_raises (s := s) (Link.raise_raises _ _) rfl rfl rfl) h

theorem State.audioTick_linkSound {s : State} (h : s.linkSound) (pins : BitVec 16) : (s.audioTick pins).linkSound := by
  unfold State.audioTick
  have taken := State.takePhase_linkSound (State.engineTick_linkSound h)
  exact State.audioPhases_linkSound
    (State.periodPhase_linkSound (State.linePart_linkSound (State.countBlock_linkSound taken))) pins

theorem State.endTick_linkSound {s : State} (h : s.linkSound) (roundOpen : Bool) : (s.endTick roundOpen).linkSound :=
  State.linkSound_of_same (State.sameWork_of_eq rfl rfl rfl rfl) h

theorem State.blockTick_linkSound {s : State} (h : s.linkSound) (pins : BitVec 16) (follows first : Bool) :
    (s.blockTick pins follows first).linkSound := by
  have events : (s.tickEvents pins follows).linkSound :=
    State.readTick_linkSound (State.setRef_linkSound (State.audioTick_linkSound h pins) _)
  have looked : ((s.tickEvents pins follows).roundPhase s pins first).linkSound := by
    refine State.lookRound_linkSound events ?_ ?_ _
    · unfold State.seenAt; split <;> simp
    · unfold State.seenAt; split <;> simp
  exact State.endTick_linkSound looked _

/-! ### Every command -/

/-- A command keeps LINK, INTAKE and REPORT sound. -/
theorem exec_linkSound {c : Instr} {s t : State} (run : exec c s = .next t) (h : s.linkSound) : t.linkSound := by
  cases c with
  | powerOnReset => cases run; exact State.powerOn_linkSound h
  | softReset => cases run; exact State.due_of h fun _ => State.softReset_linkSound h
  | linkReset => cases run; exact State.linkReset_linkSound h
  | memoryEnable on => cases run; exact State.due_of h fun _ => State.writeEnable_linkSound h on
  | post _ =>
    cases run
    exact State.due_of h fun _ => State.linkSound_of_same (s := s) ⟨rfl, rfl, rfl, rfl, rfl, rfl, rfl, rfl, rfl, rfl⟩ h
  | noticeClear _ | noticeMaskWrite _ =>
    cases run
    exact State.due_of h fun _ => State.linkSound_of_same (s := s)
      ⟨rfl, by simp, by simp [Link.writeNotice, Link.writeMask], by simp [Link.writeNotice, Link.writeMask],
        rfl, rfl, rfl, rfl, rfl, rfl⟩ h
  | windowRegisterWrite r d => cases run; exact State.due_of h fun _ => State.writeWindow_linkSound h r d
  | ignoredRegisterWrite o w v => cases run; exact State.due_of h fun _ => State.registerWrite_linkSound h o w v
  | configurationAccess a =>
    cases run
    exact State.linkSound_of_same (s := s) ⟨rfl, by simp, by cases a <;> rfl, by cases a <;> rfl,
      rfl, rfl, rfl, rfl, rfl, rfl⟩ h
  | busMasteringWithdrawn => cases run; exact State.due_of h fun _ => State.withdraw_linkSound h
  | blockTick pins meets => cases run; exact State.blockTick_linkSound h _ _ _
  | engineActive =>
    cases run
    refine State.due_of h fun starts => ?_
    obtain ⟨wf, windows, -, intake, round⟩ := h
    have active : s.link.engineTick = { s.link with engine := .active } := if_pos starts
    rw [active]
    exact ⟨wf, windows, ⟨fun own => Engine.noConfusion own, fun own => Engine.noConfusion own⟩, intake, round⟩
  | periodicDue =>
    cases run
    refine State.due_of h fun _ => ?_
    exact State.linkSound_of_same (State.sameWork_of_eq rfl rfl rfl rfl) (State.period_linkSound h)
  | intakeTake =>
    cases run
    refine State.due_of h fun take => ?_
    rw [Bool.and_eq_true] at take
    exact State.linkSound_of_same (State.sameWork_of_eq rfl rfl rfl rfl) (State.takePost_linkSound h take.1)
  | sectionFetch =>
    cases run
    split
    · exact h
    · exact State.beginFetch_linkSound h ‹_›
  | readCompletion n x =>
    have discarded : ({ s with link := s.link.discard n } : State).linkSound :=
      State.linkSound_of_same (s := s) ⟨rfl, rfl, rfl, rfl, rfl, rfl, rfl, rfl, rfl, rfl⟩ h
    cases run
    split
    · exact discarded
    · exact State.ite_of (fun _ => State.completeRead_linkSound h ‹_› x) fun _ => discarded
  | readTimeout =>
    cases run
    refine State.due_of h fun due => ?_
    have read : s.link.read.isSome = true := by
      unfold State.timeoutDue at due
      cases own : s.link.read with
      | none => simp [own] at due
      | some _ => rfl
    exact State.linkSound_of_same (State.sameWork_of_eq rfl rfl rfl rfl) (State.timeoutRead_linkSound h read)
  | apply => cases run; exact State.due_of h fun due => State.applyTick_linkSound h due
  | roundBegin =>
    cases run
    refine State.due_of h fun _ => ?_
    exact State.linkSound_of_same (State.sameWork_of_eq rfl rfl rfl rfl) (State.lookRound_linkSound h rfl rfl ReportFlags.clear)
  | recordWriteBegin sent =>
    cases run
    split
    · exact h
    · exact State.beginRecord_linkSound h ‹_› sent
  | recordWriteComplete =>
    cases run
    split
    · exact h
    · exact State.completeRecord_linkSound h ‹_›
  | refLock =>
    cases run
    refine State.due_of h fun _ => ?_
    exact State.linkSound_of_same (State.sameWork_of_eq rfl rfl rfl rfl) (State.setRef_linkSound h s.ref.lock)
  | refUnlock => cases run; exact State.setRef_linkSound h _
  | rampEnd i =>
    cases run
    refine State.ite_of (fun _ => State.linkSound_of_same (State.sameWork_of_eq rfl rfl rfl rfl) h) fun _ => ?_
    rw [s.rampSwitch_eq]
    exact State.linkSound_of_same (State.sameWork_of_eq rfl rfl rfl rfl) h
  | laneLost i =>
    cases run
    refine State.due_of h fun _ => State.laneLost_of (P := State.linkSound) (fun u l kept => ?_) ?_
    · exact State.linkSound_of_same (State.sameWork_of_eq (by simp) (by simp) (by simp) (by simp)) kept
    · exact State.linkSound_of_same (State.sameWork_of_eq rfl rfl rfl rfl) h
  | sample => cases run; exact State.linkSound_of_same (State.sameWork_of_eq (by simp) (by simp) (by simp) (by simp)) h
  | laneHold _ | partnerRead _ | laneFrame _ _ | elasticArrival _ _ | laneLock _ _ _ | lossOfLock _ _ | keyPress _
  | keyRelease _ | holdCountExpiry _ | outgoingFadeEnd _ =>
    cases run
    exact State.due_of h fun _ => State.linkSound_of_same (State.sameWork_of_eq rfl rfl rfl rfl) h
  | elasticRead _ | seekingSync _ _ _ => cases run; exact State.linkSound_of_same (State.sameWork_of_eq rfl rfl rfl rfl) h
  | codeSettle l | lossCountExpiry l | shadowCountEnd l =>
    cases run
    exact State.due_of h fun _ => State.linkSound_of_same
      (State.sameWork_of_eq (by simp) (by simp) (by simp) (by simp)) h

end Sys2Proof.Machine

open Sys2Proof Sys2Proof.Machine

/-- Settles O60: every command keeps LINK, INTAKE and REPORT sound, and soundness does not look at the queue. -/
theorem stepKeepsLink : Obligations.StepKeepsLink := by
  unfold Obligations.StepKeepsLink
  exact fun _ _ => step_keeps (fun _ _ => id) fun _ _ _ => exec_linkSound

end

