-- ==== Sys2Proof/Proofs/RecordWrites.lean ====
section
/-! PROOFS. The writing of records: what is begun and what is missed, what a completion sends, and bus mastering withdrawn
(R131, R132, R137, R139 to R145, R159). -/

namespace Sys2Proof.Machine

/-! ### Bytes in host memory (R131, R164) -/

theorem bytes16_eq (v : BitVec 16) : bytes16 v.toNat = [v.extractLsb' 0 8, v.extractLsb' 8 8] := by
  have low : BitVec.ofNat 8 v.toNat = v.extractLsb' 0 8 := by
    apply BitVec.eq_of_toNat_eq
    simp
  have high : BitVec.ofNat 8 (v.toNat / 256) = v.extractLsb' 8 8 := by
    apply BitVec.eq_of_toNat_eq
    simp [Nat.shiftRight_eq_div_pow]
  rw [bytes16, low, high]

section
variable (m : List Host.Cell) (a : Nat)

/-- A stamp written lies least significant byte first. -/
theorem memoryRead_stamp (v : BitVec 16) :
    memoryRead (memoryWriteBytes m a (bytes16 v.toNat)) a = some (v.extractLsb' 0 8) ∧
      memoryRead (memoryWriteBytes m a (bytes16 v.toNat)) (a + 1) = some (v.extractLsb' 8 8) := by
  rw [bytes16_eq]
  exact ⟨memoryRead_writeBytes_inside _ m a 0 (by simp), memoryRead_writeBytes_inside _ m a 1 (by simp)⟩

theorem memoryRead_writeBytes_getD (bs : List Byte) {i : Nat} (h : i < bs.length) :
    memoryRead (memoryWriteBytes m a bs) (a + i) = some (bs.getD i 0) := by
  rw [memoryRead_writeBytes_inside bs m a i h, List.getD_eq_getElem _ _ h]

end

/-! ### A record begun or missed (R131, R132, R159) -/

theorem State.finishRecord_frame (s : State) (r : Round) (x : RoundRecord) (written : Bool) :
    s.finishRecord r x written =
      { s with intake := (s.finishRecord r x written).intake, report := (s.finishRecord r x written).report
               link := (s.finishRecord r x written).link } := by
  have same := (s.finishRecord_audio r x written).eq
  rw [State.finishRecord_hostMem, State.finishRecord_inst] at same
  exact same

theorem State.missRecord_frame (s : State) (r : Round) (x : RoundRecord) :
    s.missRecord r x =
      { s with intake := (s.missRecord r x).intake, report := (s.missRecord r x).report, link := (s.missRecord r x).link } :=
  s.countMiss.finishRecord_frame r x false

theorem State.sendBegin_head (s : State) (x : RoundRecord) (stamp : BitVec 16) (sent : PartSent) :
    memoryRead (s.sendBegin x stamp sent).hostMem (recordAddress s.link x.kind) = some (stamp.extractLsb' 0 8) ∧
      memoryRead (s.sendBegin x stamp sent).hostMem (recordAddress s.link x.kind + 1) = some (stamp.extractLsb' 8 8) := by
  obtain ⟨low, high⟩ := memoryRead_stamp s.hostMem (recordAddress s.link x.kind) stamp
  cases sent with
  | head => exact ⟨low, high⟩
  | contents =>
    exact ⟨(memoryRead_writeBytes_outside _ _ _ _ (.inl (by simp))).trans low,
      (memoryRead_writeBytes_outside _ _ _ _ (.inl (by simp))).trans high⟩

theorem State.sendBegin_contents (s : State) (x : RoundRecord) (stamp : BitVec 16) {i : Nat}
    (h : i < (recordContents x stamp).length) :
    memoryRead (s.sendBegin x stamp .contents).hostMem (recordAddress s.link x.kind + 2 + i) =
      some ((recordContents x stamp).getD i 0) :=
  memoryRead_writeBytes_getD _ _ _ h

theorem State.sendBegin_outside (s : State) (x : RoundRecord) (stamp : BitVec 16) (sent : PartSent) {n : Nat}
    (h : n < recordAddress s.link x.kind ∨
      (match sent with
        | .head => recordAddress s.link x.kind + 2
        | .contents => recordAddress s.link x.kind + 2 + (recordContents x stamp).length) ≤ n) :
    memoryRead (s.sendBegin x stamp sent).hostMem n = memoryRead s.hostMem n := by
  have two : (bytes16 stamp.toNat).length = 2 := rfl
  cases sent with
  | head => exact memoryRead_writeBytes_outside _ _ _ _ (by rw [two]; exact h)
  | contents =>
    simp only [] at h
    refine (memoryRead_writeBytes_outside _ _ _ _ ?_).trans (memoryRead_writeBytes_outside _ _ _ _ ?_)
    · rw [s.sendHead_link]
      omega
    · rw [two]
      omega

theorem State.beginRecord_write {s : State} {r : Round} {x : RoundRecord} {rest : List RoundRecord}
    (current : r.current = none) (todo : r.todo = x :: rest) (sent : PartSent) (may : s.mayWrite x = true) :
    s.beginRecord r sent = s.beginWrite { r with todo := rest } x sent := by
  unfold State.beginRecord
  rw [current, todo]
  exact if_pos may

theorem State.beginRecord_miss {s : State} {r : Round} {x : RoundRecord} {rest : List RoundRecord}
    (current : r.current = none) (todo : r.todo = x :: rest) (sent : PartSent) (may : s.mayWrite x = false) :
    s.beginRecord r sent = s.missRecord { r with todo := rest } x := by
  unfold State.beginRecord
  rw [current, todo]
  exact if_neg (by rw [may]; exact Bool.false_ne_true)

theorem State.beginWrite_frame (s : State) (r : Round) (x : RoundRecord) (sent : PartSent) :
    s.beginWrite r x sent =
      { s with hostMem := (s.sendBegin x (s.report.seq + 1) sent).hostMem, report := (s.beginWrite r x sent).report } := by
  cases sent <;> rfl

theorem State.beginWrite_report (s : State) (r : Round) (x : RoundRecord) (sent : PartSent) :
    (s.beginWrite r x sent).report =
      { s.report with
        seq := s.report.seq + 1
        round := some { r with current := some { item := x, stamp := s.report.seq + 1, sent := sent } } } := by
  cases sent <;> rfl

theorem exec_recordWriteBegin {s : State} {r : Round} (round : s.report.round = some r) (sent : PartSent) :
    exec (.recordWriteBegin sent) s = .next (s.beginRecord r sent) := by
  simp [exec, execRecordWriteBegin, round]

/-! ### A record complete (R131, R132) -/

theorem State.sendTail_stamp (s : State) (x : RoundRecord) (stamp : BitVec 16) :
    memoryRead (s.sendTail x stamp).hostMem (recordAddress s.link x.kind + (x.kind.size - 2)) = some (stamp.extractLsb' 0 8) ∧
      memoryRead (s.sendTail x stamp).hostMem (recordAddress s.link x.kind + (x.kind.size - 2) + 1) =
        some (stamp.extractLsb' 8 8) :=
  memoryRead_stamp _ _ stamp

theorem State.sendTail_outside (s : State) (x : RoundRecord) (stamp : BitVec 16) (large : 4 ≤ x.kind.size) {n : Nat}
    (h : n < recordAddress s.link x.kind + (x.kind.size - 2) ∨ recordAddress s.link x.kind + x.kind.size ≤ n) :
    memoryRead (s.sendTail x stamp).hostMem n = memoryRead s.hostMem n := by
  have two : (bytes16 stamp.toNat).length = 2 := rfl
  exact memoryRead_writeBytes_outside _ _ _ _ (by rw [two]; omega)

/-- The stamp tail lies at the end of the record's place, whatever part was still to be sent. -/
theorem State.sendRest_tail (s : State) (u : Underway) :
    memoryRead (s.sendRest u).hostMem (recordAddress s.link u.item.kind + (u.item.kind.size - 2)) =
        some (u.stamp.extractLsb' 0 8) ∧
      memoryRead (s.sendRest u).hostMem (recordAddress s.link u.item.kind + (u.item.kind.size - 2) + 1) =
        some (u.stamp.extractLsb' 8 8) := by
  unfold State.sendRest
  split
  · exact State.sendTail_stamp _ _ _
  · exact State.sendTail_stamp _ _ _

section
variable (s : State) {u : Underway} (whole : (recordContents u.item u.stamp).length + 4 = u.item.kind.size)
include whole

theorem State.sendRest_contents (sent : u.sent = .head) {i : Nat} (h : i < (recordContents u.item u.stamp).length) :
    memoryRead (s.sendRest u).hostMem (recordAddress s.link u.item.kind + 2 + i) =
      some ((recordContents u.item u.stamp).getD i 0) := by
  unfold State.sendRest
  rw [sent]
  refine (State.sendTail_outside _ _ _ (by omega) (.inl ?_)).trans (memoryRead_writeBytes_getD _ _ _ h)
  change recordAddress s.link u.item.kind + 2 + i < recordAddress s.link u.item.kind + (u.item.kind.size - 2)
  omega

theorem State.sendRest_outside {n : Nat}
    (h : n < (match u.sent with
      | .head => recordAddress s.link u.item.kind + 2
      | .contents => recordAddress s.link u.item.kind + u.item.kind.size - 2) ∨
        recordAddress s.link u.item.kind + u.item.kind.size ≤ n) :
    memoryRead (s.sendRest u).hostMem n = memoryRead s.hostMem n := by
  unfold State.sendRest
  cases sent : u.sent with
  | head =>
    rw [sent] at h
    simp only [] at h
    refine (State.sendTail_outside _ _ _ (by omega) ?_).trans (memoryRead_writeBytes_outside _ _ _ _ ?_)
    · change n < recordAddress s.link u.item.kind + _ ∨ recordAddress s.link u.item.kind + _ ≤ n
      omega
    · omega
  | contents =>
    rw [sent] at h
    simp only [] at h
    exact State.sendTail_outside _ _ _ (by omega) (by omega)

end

theorem State.sendRest_frame (s : State) (u : Underway) :
    s.sendRest u = { s with hostMem := (s.sendRest u).hostMem } := by
  unfold State.sendRest
  split <;> rfl

theorem exec_recordWriteComplete {s : State} {r : Round} {u : Underway} (round : s.report.round = some r)
    (current : r.current = some u) :
    exec .recordWriteComplete s = .next ((s.sendRest u).finishRecord r u.item true) := by
  simp [exec, execRecordWriteComplete, State.completeRecord, round, current]

/-! ### Bus mastering withdrawn (R158, R159) -/

/-- LINK with bus mastering withdrawn, but for a drain that is over at once and for a record missed. -/
def Link.withdrawn (k : Link) : Link :=
  { k with busMaster := false, memEnable := false, engine := if k.engine = .active then .draining else k.engine }

theorem State.drainCheck_draining {s : State} (draining : s.link.engine = .draining) :
    s.drainCheck =
      if s.workInFlight = false then { s with link := ({ s.link with engine := .stopped } : Link).raise noticeDrained }
      else s := by
  unfold State.drainCheck
  cases work : s.workInFlight <;> simp [draining]

theorem State.clearEnable_eq (s : State) :
    s.clearEnable =
      { s with
        link :=
          if s.link.engine = .active ∧ s.workInFlight = false then
            ({ s.link with memEnable := false, engine := .stopped } : Link).raise noticeDrained
          else { s.link with memEnable := false, engine := if s.link.engine = .active then .draining else s.link.engine } } := by
  unfold State.clearEnable
  by_cases active : s.link.engine = .active
  · simp only [active, true_and]
    refine (State.drainCheck_draining rfl).trans ?_
    change (if s.workInFlight = false then _ else _) = _
    split <;> rfl
  · rw [if_neg active, if_neg (fun h => active h.1), if_neg active]

theorem State.withdraw_quiet {s : State} (quiet : ∀ r, s.report.round = some r → r.current = none) :
    s.withdraw =
      { s with
        link :=
          if s.link.engine = .active ∧ s.workInFlight = false then
            { s.link with busMaster := false, memEnable := false, engine := .stopped
                          notice := s.link.notice ||| noticeDrained }
          else s.link.withdrawn } := by
  unfold State.withdraw
  rw [State.clearEnable_eq]
  have still (u : State) (report : u.report = s.report) : u.missUnderway = u := by
    unfold State.missUnderway
    rw [report]
    split
    next => rfl
    next r round => rw [quiet r round]
  refine (still _ (by rfl)).trans ?_
  change ({ s with link := if s.link.engine = .active ∧ s.workInFlight = false then _ else _ } : State) = _
  split
  · rw [Link.raise_silent _ _ rfl]
  · rfl

theorem State.withdraw_underway {s : State} {r : Round} {u : Underway} (round : s.report.round = some r)
    (current : r.current = some u) :
    s.withdraw = ({ s with link := s.link.withdrawn } : State).missRecord r u.item := by
  have busy : s.workInFlight = true := by simp [State.workInFlight, round]
  unfold State.withdraw
  rw [State.clearEnable_eq, if_neg (fun h => Bool.false_ne_true (h.2.symm.trans busy))]
  simp [State.missUnderway, round, current, Link.withdrawn]

theorem State.missRecord_silent {s : State} (r : Round) (x : RoundRecord) (off : s.link.busMaster = false) :
    (s.missRecord r x).link.messages = s.link.messages ∧ (s.missRecord r x).link.lastMessage = s.link.lastMessage ∧
      (s.missRecord r x).link.beforeEvent = s.link.beforeEvent :=
  (State.finishRecord_raises (s := s) (u := s.countMiss) r x false rfl rfl s.link.countMiss_raises rfl).silent off

end Sys2Proof.Machine

open Sys2Proof Sys2Proof.Machine

/-- Settles O52: a record begun is written from its head on, or missed with what follows a miss. -/
theorem recordBegun : Obligations.RecordBegun := by
  unfold Obligations.RecordBegun
  intro s sent r x rest round current todo
  refine ⟨fun master inside => ?_, fun outside => ?_⟩
  · have may : s.mayWrite x = true := by rw [State.mayWrite, master, inside]; rfl
    have head := s.sendBegin_head x (s.report.seq + 1) sent
    have frame := s.beginWrite_frame { r with todo := rest } x sent
    refine ⟨_, (exec_recordWriteBegin round sent).trans (by rw [State.beginRecord_write current todo sent may]), frame,
      s.beginWrite_report _ x sent, ?_⟩
    rw [frame]
    exact ⟨head.1, head.2, fun whole i small => whole ▸ s.sendBegin_contents x _ small,
      fun n away => s.sendBegin_outside x _ sent away⟩
  · have may : s.mayWrite x = false := by
      rw [State.mayWrite, Bool.and_eq_false_iff]
      exact outside
    exact ⟨_, (exec_recordWriteBegin round sent).trans (by rw [State.beginRecord_miss current todo sent may]),
      s.missRecord_ends { r with todo := rest } x, s.missRecord_frame _ x⟩

/-- Settles O53: a completion sends what is left of the record, and the ends of the record follow. -/
theorem recordWhole : Obligations.RecordWhole := by
  unfold Obligations.RecordWhole
  intro s r u round current whole
  have sent := s.sendRest_frame u
  have ends : s.recordEnds ((s.sendRest u).finishRecord r u.item true) r u.item r.todo true :=
    State.finishRecord_ends r u.item true (by rw [sent]) (by rw [sent]) (by rw [sent]; exact s.link.written_raises)
  obtain ⟨low, high⟩ := s.sendRest_tail u
  refine ⟨_, exec_recordWriteComplete round current, ?_, ?_, ends⟩
  · rw [State.finishRecord_hostMem]
    refine ((s.sendRest u).finishRecord_frame r u.item true).trans ?_
    generalize (s.sendRest u).finishRecord r u.item true = t
    rw [sent]
  · have place : s.link.reportBase.toNat + u.item.kind.offset = recordAddress s.link u.item.kind := rfl
    simp only [State.finishRecord_hostMem, place]
    rw [Nat.add_sub_assoc (by omega),
      show recordAddress s.link u.item.kind + u.item.kind.size - 1 =
        recordAddress s.link u.item.kind + (u.item.kind.size - 2) + 1 by omega]
    exact ⟨fun head i small => s.sendRest_contents whole head small, low, high,
      fun n away => s.sendRest_outside whole (by rw [Nat.add_sub_assoc (by omega)]; exact away)⟩

/-- Settles O14: the withdrawal clears the enable and drains; the record under way is missed, with what follows a miss. -/
theorem masteringWithdrawn : Obligations.MasteringWithdrawn := by
  unfold Obligations.MasteringWithdrawn
  refine fun s => ⟨fun off => ?_, fun on => ⟨s.withdraw, ?_, ?_⟩⟩
  · exact congrArg Host.Outcome.next (if_neg (by rw [off]; exact Bool.false_ne_true))
  · exact congrArg Host.Outcome.next (if_pos on)
  · by_cases quiet : ∀ r, s.report.round = some r → r.current = none
    · rw [State.withdraw_quiet quiet]
      refine ⟨?_, ?_, rfl, rfl, rfl, fun r round _ => ⟨rfl, rfl, ?_⟩, fun none => ⟨rfl, rfl, ?_⟩, fun r u round current => ?_⟩
      · simp only []; split <;> rfl
      · simp only []; split <;> rfl
      · exact if_neg (by simp [State.workInFlight, round])
      · have work : s.workInFlight = false ↔ s.intake.phase = .idle := by simp [State.workInFlight_eq_false_iff, none]
        simp only [work]
        rfl
      · exact ((Option.some_ne_none u) (current.symm.trans (quiet r round))).elim
    · obtain ⟨r, round, underway⟩ := by simpa only [not_forall, exists_prop] using quiet
      obtain ⟨u, current⟩ := Option.ne_none_iff_exists'.mp underway
      rw [State.withdraw_underway round current]
      have ends := ({ s with link := s.link.withdrawn } : State).missRecord_ends r u.item
      have silent := State.missRecord_silent (s := { s with link := s.link.withdrawn }) r u.item rfl
      have frame := ({ s with link := s.link.withdrawn } : State).missRecord_frame r u.item
      obtain ⟨-, -, report, -, -, -, -, -, -, -, -, link⟩ := id ends
      refine ⟨by rw [link]; rfl, by rw [link]; rfl, by rw [frame], by rw [report], frame, fun q own none => ?_,
        fun none => ?_, fun q v own held => ?_⟩
      · obtain rfl := Option.some.inj (round.symm.trans own)
        exact absurd none underway
      · exact ((Option.some_ne_none r) (round.symm.trans none)).elim
      · obtain rfl := Option.some.inj (round.symm.trans own)
        obtain rfl := Option.some.inj (current.symm.trans held)
        exact ⟨ends, silent⟩

end

