-- ==== Sys2Proof/Proofs/LinkRegisters.lean ====
section
/-! PROOFS. Resets, the plain writes, the engine's moves, the windows and the interrupt messages (R109, R143, R144,
R146, R149, R152, R153, R155, R157, R158, R160 to R163). -/

namespace Sys2Proof.Machine

/-! ### A write through the placed register window (R149) -/

theorem Link.placed_of {k : Link} (placed : k.placement.isSome = true) : k.placed = true := placed

/-- A command of the register window has its effect while the window is placed. -/
theorem next_placed {s u : State} (placed : s.link.placement.isSome = true) :
    (.next (if s.link.placed then u else s) : Host.Outcome State Fault Refusal) = .next u :=
  congrArg Host.Outcome.next (if_pos placed)

/-! ### A read given up (R114, R161, R162) -/

theorem Link.mem_dropRead_stale (k : Link) {r : PlanRead} (read : k.read = some r) : r.id ∈ k.dropRead.stale := by
  simp [Link.dropRead, read]

theorem Link.stale_sub_dropRead (k : Link) {n : Nat} (h : n ∈ k.stale) : n ∈ k.dropRead.stale := by
  unfold Link.dropRead
  split
  · exact h
  · exact List.mem_cons_of_mem _ h

/-! ### What a reset leaves (R160 to R163) -/

section
variable (s : State)

theorem State.powerOn_eq :
    s.powerOn =
      { State.reset with
        hostMem := s.hostMem, pending := s.pending
        link := { State.reset.link with messages := s.link.messages, lastMessage := s.link.lastMessage } } := by
  unfold State.powerOn
  rfl

theorem State.softReset_eq :
    s.softReset = { State.reset with hostMem := s.hostMem, pending := s.pending, link := s.softReset.link } := by
  unfold State.softReset State.powerOn
  rfl

theorem State.softReset_link :
    s.softReset.link =
      { State.reset.link with
        placement := s.link.placement, busMaster := s.link.busMaster, msgEnabled := s.link.msgEnabled,
        msgAddress := s.link.msgAddress, msgData := s.link.msgData, stale := s.link.dropRead.stale,
        nextRead := s.link.nextRead, messages := s.link.messages, lastMessage := s.link.lastMessage } := by
  rfl

theorem State.linkReset_eq :
    s.linkReset =
      { s with
        line := s.linkReset.line, lrx := s.linkReset.lrx, ltx := s.linkReset.ltx, intake := s.linkReset.intake
        report := s.linkReset.report, link := s.linkReset.link } := by
  unfold State.linkReset
  rfl

theorem State.linkReset_lineFlags :
    s.linkReset.line = s.line.flag (linesOf s.report.uncompleted) fun _ => true := by
  rfl

theorem State.linkReset_inFlags : s.linkReset.lrx = s.lrx.flag (lanesOf s.report.uncompleted) fun _ => true := by
  rfl

theorem State.linkReset_outFlags : s.linkReset.ltx = s.ltx.flag (lanesOf s.report.uncompleted) fun _ => true := by
  rfl

theorem State.linkReset_intake : s.linkReset.intake = { State.reset.intake with number := s.intake.number } := by
  rfl

theorem State.linkReset_report : s.linkReset.report = s.report.linkReset := by
  rfl

theorem State.linkReset_link :
    s.linkReset.link =
      { State.reset.link with
        stale := s.link.dropRead.stale, nextRead := s.link.nextRead, messages := s.link.messages
        lastMessage := s.link.lastMessage } := by
  rfl

end

/-! ### The flags a link reset sets again (R143, R162) -/

theorem mem_linesOf (rs : List RoundRecord) (l : Line) : l ∈ linesOf rs ↔ ∃ x ∈ rs, x.kind = .line l := by
  unfold linesOf
  rw [List.mem_filterMap]
  refine exists_congr fun x => and_congr_right fun _ => ?_
  cases x.kind <;> simp

theorem mem_lanesOf (rs : List RoundRecord) (e : Fin 9) : e ∈ lanesOf rs ↔ ∃ x ∈ rs, x.kind = .lane e := by
  unfold lanesOf
  rw [List.mem_filterMap]
  refine exists_congr fun x => and_congr_right fun _ => ?_
  cases x.kind <;> simp

theorem LineBlock.flag_pending (b : LineBlock) (lines : List Line) (on : Line → Bool) (l : Line) :
    (b.flag lines on).ctx[l] =
      { b.ctx[l] with reportPending := if lines.contains l then on l else (b.ctx[l]).reportPending } := by
  unfold LineBlock.flag
  rw [ofFn_at]
  split <;> rfl

theorem Lrx.flag_pending (x : Lrx) (entries : List (Fin 9)) (on : Fin 9 → Bool) (i : InLane) :
    (x.flag entries on).lanes[i] =
      { x.lanes[i] with
        statusPending :=
          if entries.contains (inLaneEntry i) then on (inLaneEntry i) else (x.lanes[i]).statusPending } := by
  unfold Lrx.flag
  rw [ofFn_at]
  simp only []
  split <;> rfl

theorem Ltx.flag_pending (x : Ltx) (entries : List (Fin 9)) (on : Fin 9 → Bool) (o : OutLane) :
    (x.flag entries on).lanes[o] =
      { x.lanes[o] with
        statusPending :=
          if entries.contains (outLaneEntry o) then on (outLaneEntry o) else (x.lanes[o]).statusPending } := by
  unfold Ltx.flag
  rw [ofFn_at]
  simp only []
  split <;> rfl

theorem LineBlock.flag_nil (b : LineBlock) (on : Line → Bool) : b.flag [] on = b := by
  have same : (b.flag [] on).ctx = b.ctx :=
    Vector.ext fun i h => by simpa using b.flag_pending [] on ⟨i, h⟩
  calc
    b.flag [] on = { b with ctx := (b.flag [] on).ctx } := by unfold LineBlock.flag; rfl
    _ = b := by rw [same]

theorem Lrx.flag_nil (x : Lrx) (on : Fin 9 → Bool) : x.flag [] on = x := by
  have same : (x.flag [] on).lanes = x.lanes :=
    Vector.ext fun i h => by simpa using x.flag_pending [] on ⟨i, h⟩
  calc
    x.flag [] on = { x with lanes := (x.flag [] on).lanes } := by unfold Lrx.flag; rfl
    _ = x := by rw [same]

theorem Ltx.flag_nil (x : Ltx) (on : Fin 9 → Bool) : x.flag [] on = x := by
  have same : (x.flag [] on).lanes = x.lanes :=
    Vector.ext fun i h => by simpa using x.flag_pending [] on ⟨i, h⟩
  calc
    x.flag [] on = { x with lanes := (x.flag [] on).lanes } := by unfold Ltx.flag; rfl
    _ = x := by rw [same]

theorem Report.uncompleted_of_round {r : Report} {x : Round} (round : r.round = some x) :
    r.uncompleted = x.uncompleted := by
  simp [Report.uncompleted, round]

/-! ### Interrupt messages (R144, R146, R149) -/

/-- A message sent (R149). -/
def Link.sent (k : Link) (before : Option (Option Message)) : Link :=
  { k with messages := k.messages + 1, lastMessage := some { address := k.msgAddress, data := k.msgData }
           beforeEvent := before }

theorem Link.sendMessage_eq (k : Link) (before : Option (Option Message)) :
    k.sendMessage before = if k.msgEnabled = true ∧ k.busMaster = true then k.sent before else k := by
  unfold Link.sendMessage Link.sent
  simp only [Bool.and_eq_true]

theorem Link.raise_sends (k : Link) (b : Word32) :
    k.raise b =
      if k.notice &&& ~~~k.mask = 0 ∧ (k.notice ||| b) &&& ~~~k.mask ≠ 0 ∧ k.msgEnabled = true ∧ k.busMaster = true then
        Link.sent { k with notice := k.notice ||| b } (some k.lastMessage)
      else { k with notice := k.notice ||| b } := by
  unfold Link.raise
  simp only [Link.sendMessage_eq, Link.unmasked, Bool.and_eq_true]
  grind

theorem Link.answerWrite_alone {k : Link} {atEvent : Bool} (alone : atEvent = false ∨ k.beforeEvent = none) :
    k.answerWrite atEvent =
      if k.notice &&& ~~~k.mask ≠ 0 ∧ k.msgEnabled = true ∧ k.busMaster = true then k.sent none else k := by
  have host : k.answerWrite atEvent = k.afterHostWrite := by
    unfold Link.answerWrite
    obtain rfl | none := alone
    · rfl
    · rw [none]
      cases atEvent <;> rfl
  rw [host, Link.afterHostWrite, Link.sendMessage_eq, Link.unmasked]
  grind

theorem Link.answerWrite_joint {k : Link} {before : Option Message} (event : k.beforeEvent = some before) :
    k.answerWrite true =
      if k.notice &&& ~~~k.mask = 0 then
        { k with messages := k.messages - 1, lastMessage := before, beforeEvent := none }
      else { k with beforeEvent := none } := by
  unfold Link.answerWrite
  rw [event]
  rfl

/-! ### The effective end of a window (R153, R155) -/

theorem effectiveEnd_open {base setEnd : Word64} (h : base.toNat < setEnd.toNat) :
    (effectiveEnd base setEnd).toNat = min setEnd.toNat (base.toNat + 1048576) := by
  unfold effectiveEnd
  rw [if_neg (Nat.not_le.mpr h)]
  have most : Config.windowMax = 1048576 := rfl
  split
  next within => rw [most] at within; omega
  next past =>
    rw [most] at past ⊢
    have small := setEnd.isLt
    rw [BitVec.toNat_add, BitVec.toNat_ofNat]
    omega

end Sys2Proof.Machine

open Sys2Proof Sys2Proof.Machine

/-- Settles O5: both resets leave the reset values, and the soft reset keeps configuration space. -/
theorem powerOnAndSoftReset : Obligations.PowerOnAndSoftReset := by
  unfold Obligations.PowerOnAndSoftReset
  refine fun s => ⟨⟨s.powerOn, rfl, s.powerOn_eq⟩,
    fun placed => ⟨s.softReset, next_placed placed, s.softReset_eq, ?_, fun r read => ?_, fun n stale => ?_⟩⟩
  · rw [s.softReset_link]
  · rw [s.softReset_link]
    exact s.link.mem_dropRead_stale read
  · rw [s.softReset_link]
    exact s.link.stale_sub_dropRead stale

/-- Settles O6: the link reset reaches LINK, INTAKE and the round, and sets the flags of the records not completed. -/
theorem linkResetReach : Obligations.LinkResetReach := by
  unfold Obligations.LinkResetReach
  intro s
  refine ⟨s.linkReset, rfl, s.linkReset_eq, ?_⟩
  rw [s.linkReset_lineFlags, s.linkReset_inFlags, s.linkReset_outFlags, s.linkReset_intake, s.linkReset_report,
    s.linkReset_link]
  refine ⟨⟨rfl, fun l => ?_⟩, ⟨rfl, fun i => ?_⟩, ⟨rfl, fun o => ?_⟩, rfl, rfl, rfl,
    fun r read => s.link.mem_dropRead_stale read, fun none => ?_, fun r round => ⟨fun l => ?_, fun i => ?_, fun o => ?_, ?_⟩⟩
  · rw [LineBlock.flag_pending]
  · rw [Lrx.flag_pending]
  · rw [Ltx.flag_pending]
  · have nothing : s.report.uncompleted = [] := by simp [Report.uncompleted, none]
    rw [nothing]
    exact ⟨LineBlock.flag_nil _ _, Lrx.flag_nil _ _, Ltx.flag_nil _ _, by simp [Report.linkReset, none]⟩
  · rw [← mem_linesOf, ← Report.uncompleted_of_round round, LineBlock.flag_pending]
    simp [or_comm]
  · rw [← mem_lanesOf, ← Report.uncompleted_of_round round, Lrx.flag_pending]
    simp [or_comm]
  · rw [← mem_lanesOf, ← Report.uncompleted_of_round round, Ltx.flag_pending]
    simp [or_comm]
  · simp [Report.linkReset, round]

/-- Settles O7: each plain write sets its own field and nothing else. -/
theorem plainWrites : Obligations.PlainWrites := by
  unfold Obligations.PlainWrites
  refine fun s bits on base a d => ⟨fun placed => ⟨⟨_, next_placed placed, rfl, fun i => ?_⟩, next_placed placed⟩,
    rfl, rfl, rfl, rfl⟩
  exact BitVec.getLsbD_or

/-- Settles O9: a write is answered by the pending set it leaves, and an event sends when the set becomes non-empty. -/
theorem noticesAndMessages : Obligations.NoticesAndMessages := by
  unfold Obligations.NoticesAndMessages
  have answered (k : Link) (atEvent : Bool) :
      (atEvent = false ∨ k.beforeEvent = none →
        (k.notice &&& ~~~k.mask ≠ 0 ∧ k.msgEnabled = true ∧ k.busMaster = true → k.answerWrite atEvent = k.sent none) ∧
          (¬(k.notice &&& ~~~k.mask ≠ 0 ∧ k.msgEnabled = true ∧ k.busMaster = true) → k.answerWrite atEvent = k)) ∧
      ∀ before, atEvent = true → k.beforeEvent = some before →
        (k.notice &&& ~~~k.mask ≠ 0 → k.answerWrite atEvent = { k with beforeEvent := none }) ∧
          (¬k.notice &&& ~~~k.mask ≠ 0 →
            k.answerWrite atEvent = { k with messages := k.messages - 1, lastMessage := before, beforeEvent := none }) := by
    refine ⟨fun alone => ⟨fun sends => ?_, fun sends => ?_⟩, fun before event held => ⟨fun sends => ?_, fun sends => ?_⟩⟩
    · rw [Link.answerWrite_alone alone, if_pos sends]
    · rw [Link.answerWrite_alone alone, if_neg sends]
    · rw [event, Link.answerWrite_joint held, if_neg sends]
    · rw [event, Link.answerWrite_joint held, if_pos (not_not.mp sends)]
  refine ⟨fun s v atEvent placed => ⟨⟨_, next_placed placed, rfl, fun i small => ?_, ?_⟩, ⟨_, next_placed placed, rfl, ?_⟩⟩,
    fun k b => ⟨fun sends => ?_, fun sends => ?_⟩⟩
  · simp [Link.writeNotice, small]
  · have notice : (s.link.writeNotice v atEvent).notice = s.link.notice &&& ~~~v := by simp [Link.writeNotice]
    simp only [notice]
    exact answered { s.link with notice := s.link.notice &&& ~~~v } atEvent
  · exact answered { s.link with mask := v } atEvent
  · rw [Link.raise_sends, if_pos sends]; rfl
  · rw [Link.raise_sends, if_neg sends]

/-- Settles O10: the enable is stored, cleared with a drain, and the engine starts where it may. -/
theorem memoryEngineMoves : Obligations.MemoryEngineMoves := by
  unfold Obligations.MemoryEngineMoves
  refine fun s => ⟨fun placed => ⟨next_placed placed, fun idle => ?_, fun active phase round => ?_, fun active busy => ?_⟩,
    fun stopped enabled master => ?_, fun stays => ?_⟩
  · refine (next_placed placed).trans (congrArg Host.Outcome.next (s.clearEnable_eq.trans ?_))
    rw [if_neg fun h => idle h.1, if_neg idle]
  · refine (next_placed placed).trans (congrArg Host.Outcome.next (s.clearEnable_eq.trans ?_))
    rw [if_pos ⟨active, s.workInFlight_eq_false_iff.mpr ⟨phase, round⟩⟩]
    rfl
  · refine (next_placed placed).trans (congrArg Host.Outcome.next (s.clearEnable_eq.trans ?_))
    rw [if_neg, if_pos active]
    rintro ⟨-, idle⟩
    obtain ⟨phase, round⟩ := s.workInFlight_eq_false_iff.mp idle
    obtain phase' | round' := busy
    · exact phase' phase
    · rw [round] at round'; cases round'
  · have starts : s.link.startsAtTick = true := by simp [Link.startsAtTick, stopped, enabled, master]
    refine congrArg Host.Outcome.next ((if_pos starts).trans ?_)
    rw [Link.engineTick, if_pos starts]
    rfl
  · refine congrArg Host.Outcome.next (if_neg ?_)
    simp only [Link.startsAtTick, Bool.and_eq_true, decide_eq_true_eq]
    rintro ⟨⟨stopped, enabled⟩, master⟩
    obtain running | off | withdrawn := stays
    · exact running stopped
    · exact Bool.false_ne_true (off.symm.trans enabled)
    · exact Bool.false_ne_true (withdrawn.symm.trans master)

/-- Settles O12: a closed window holds no byte, an open one those from its base to its effective end. -/
theorem effectiveEndOfWindow : Obligations.EffectiveEnd := by
  unfold Obligations.EffectiveEnd
  refine fun base setEnd => ⟨fun closed => ?_, fun opened => ⟨effectiveEnd_open opened, fun a => ?_⟩⟩
  · have ends : effectiveEnd base setEnd = setEnd := if_pos closed
    refine ⟨ends, fun a len some => ?_⟩
    rw [insideWindow, ends, Bool.and_eq_false_iff, decide_eq_false_iff_not, decide_eq_false_iff_not]
    omega
  · rw [insideWindow, Bool.and_eq_true, decide_eq_true_eq, decide_eq_true_eq, Nat.succ_le_iff]

end

