-- ==== Sys2Proof/Proofs/PostWord.lean ====
section
/-! PROOFS. The post word: only a reset or a take clears a bit of it (R109, R111). -/

namespace Sys2Proof.Machine

/-! ### What leaves the post word -/

theorem Link.raises.post {k t : Link} {bits : Word32} (h : k.raises bits t) : t.post = k.post := by rw [h.eq]

@[simp] theorem Link.countMiss_post (k : Link) : k.countMiss.post = k.post := Link.raise_post ..

@[simp] theorem Link.dropRead_post (k : Link) : k.dropRead.post = k.post := by
  unfold Link.dropRead
  split <;> rfl

@[simp] theorem Link.engineTick_post (k : Link) : k.engineTick.post = k.post := by
  unfold Link.engineTick
  split <;> rfl

@[simp] theorem Link.configure_post (k : Link) (a : ConfigAccess) : (k.configure a).post = k.post := by
  cases a <;> rfl

@[simp] theorem Link.writeNotice_post (k : Link) (v : Word32) (e : Bool) : (k.writeNotice v e).post = k.post :=
  Link.answerWrite_post ..

@[simp] theorem Link.writeMask_post (k : Link) (v : Word32) (e : Bool) : (k.writeMask v e).post = k.post :=
  Link.answerWrite_post ..

@[simp] theorem Link.writeWindow_post (k : Link) (r : WindowReg) (d : WindowData) : (k.writeWindow r d).post = k.post := by
  by_cases stopped : k.engine = .stopped
  · rw [Link.writeWindow_stopped stopped, Link.setWindow_eq]
  · rw [Link.writeWindow_running stopped, Link.raise_post]

section
variable (s : State)

theorem State.clearEnable_post : s.clearEnable.link.post = s.link.post := by
  rw [State.clearEnable_eq]
  simp only []
  split <;> simp

@[simp] theorem State.writeEnable_post (on : Bool) : (s.writeEnable on).link.post = s.link.post := by
  cases on
  · exact s.clearEnable_post
  · rfl

@[simp] theorem State.missRecord_post (r : Round) (x : RoundRecord) : (s.missRecord r x).link.post = s.link.post :=
  (State.finishRecord_raises (s := s) (u := s.countMiss) r x false rfl rfl s.link.countMiss_raises rfl).post

@[simp] theorem State.withdraw_post : s.withdraw.link.post = s.link.post := by
  by_cases quiet : ∀ r, s.report.round = some r → r.current = none
  · rw [State.withdraw_quiet quiet]
    simp only []
    split <;> rfl
  · obtain ⟨r, round, underway⟩ := by simpa only [not_forall, exists_prop] using quiet
    obtain ⟨u, current⟩ := Option.ne_none_iff_exists'.mp underway
    rw [State.withdraw_underway round current, State.missRecord_post]
    rfl

@[simp] theorem State.beginRecord_post (r : Round) (sent : PartSent) : (s.beginRecord r sent).link.post = s.link.post := by
  unfold State.beginRecord
  split
  · refine State.ite_of (P := fun u => u.link.post = s.link.post) (fun _ => ?_) fun _ => s.missRecord_post _ _
    rw [State.beginWrite_link]
  · rfl

@[simp] theorem State.completeRecord_post (r : Round) : (s.completeRecord r).link.post = s.link.post := by
  unfold State.completeRecord
  split
  · rfl
  · next u _ =>
    have raised := State.finishRecord_raises (s := s.sendRest u) (u := s.sendRest u) r u.item true rfl rfl (Link.raises_none _) rfl
    rw [raised.post, State.sendRest_link]

@[simp] theorem State.issueRead_post (sec : Section) (p : ReadStep) : (s.issueRead sec p).link.post = s.link.post := by
  unfold State.issueRead
  split <;> rfl

@[simp] theorem State.beginFetch_post (sec : Section) : (s.beginFetch sec).link.post = s.link.post := by
  unfold State.beginFetch
  split
  · rfl
  · split
    · exact s.issueRead_post sec .head
    · exact s.link.countMiss_post

@[simp] theorem State.completeRead_post (r : PlanRead) (x : ReadResult) : (s.completeRead r x).link.post = s.link.post := by
  unfold State.completeRead State.readDone
  simp only []
  split
  · rfl
  · split
    · split <;> simp
    · rfl

@[simp] theorem State.timeoutRead_post : s.timeoutRead.link.post = s.link.post := by
  unfold State.timeoutRead
  simp only []
  split <;> simp

@[simp] theorem State.readTick_post : s.readTick.link.post = s.link.post := by
  obtain ⟨-, same⟩ | ⟨r, -, ⟨-, ends⟩ | ⟨-, counts⟩⟩ := s.readTick_cases
  · rw [same]
  · rw [ends, State.timeoutRead_post]
  · rw [counts]

@[simp] theorem State.setRef_post (r : RefMonitor) : (s.setRef r).link.post = s.link.post := by
  unfold State.setRef
  split
  · rfl
  · exact Link.raise_post ..

end

/-! ### What keeps an intake's taken set and number (R111, R112, R120) -/

/-- INTAKE holds the same taken set under the same number. -/
def Intake.sameTake (i j : Intake) : Prop := j.taken = i.taken ∧ j.number = i.number

theorem Intake.close_sameTake (i : Intake) (sec : Section) (v : Verdict) (edition : BitVec 16) (field : Option Nat) :
    i.sameTake (i.close sec v edition field) := by
  obtain ⟨-, -, taken, number, -⟩ := i.close_endsFetch sec v edition field
  exact ⟨taken, number⟩

theorem State.handOver_sameTake (s : State) : s.intake.sameTake s.handOver.intake := by
  unfold State.handOver
  exact ⟨rfl, rfl⟩

theorem State.linePart_sameTake (s : State) : s.intake.sameTake s.linePart.intake := by
  unfold State.linePart State.applyTick
  simp only []
  split
  · split <;> simp only [State.countRoles, State.linePhase_intake] <;> exact s.handOver_sameTake
  · rw [State.linePhase_intake]
    exact ⟨rfl, rfl⟩

theorem State.readTick_sameTake (s : State) : s.intake.sameTake s.readTick.intake := by
  obtain ⟨-, same⟩ | ⟨r, -, ⟨-, ends⟩ | ⟨-, counts⟩⟩ := s.readTick_cases
  · rw [same]
    exact ⟨rfl, rfl⟩
  · rw [ends]
    unfold State.timeoutRead
    simp only []
    split
    · exact ⟨rfl, rfl⟩
    · exact s.intake.close_sameTake ..
  · rw [counts]
    exact ⟨rfl, rfl⟩

/-! ### The block tick (R111) -/

section
variable (s : State) (pins : BitVec 16) (follows first : Bool)

/-- The part after the engine's move and the take at a block tick. -/
def State.takenAt : State := ({ s with link := s.link.engineTick } : State).takePhase

theorem State.blockTick_post : (s.blockTick pins follows first).link.post = s.takenAt.link.post := by
  simp [State.blockTick, State.roundPhase, State.tickEvents, State.audioTick, State.takenAt]

theorem State.blockTick_sameTake : s.takenAt.intake.sameTake (s.blockTick pins follows first).intake := by
  have look : (s.blockTick pins follows first).intake = (s.tickEvents pins follows).intake := by
    simp [State.blockTick, State.roundPhase]
  have events : (s.audioTick pins).intake.sameTake (s.tickEvents pins follows).intake := by
    unfold State.tickEvents
    simp only []
    have read := ((s.audioTick pins).setRef ((s.audioTick pins).ref.tick follows)).readTick_sameTake
    rwa [State.setRef_intake] at read
  have audio : (s.audioTick pins).intake = s.takenAt.countBlock.linePart.intake := by
    simp [State.audioTick, State.takenAt]
  have lines := s.takenAt.countBlock.linePart_sameTake
  rw [look]
  rw [audio] at events
  exact ⟨events.1.trans lines.1, events.2.trans lines.2⟩

/-- The post word stands at a block tick, or INTAKE takes it. -/
theorem State.takenAt_cases :
    (s.takenAt.link.post = s.link.post) ∨
      (s.takenAt.link.post = 0 ∧ s.takenAt.intake.taken = s.link.post ∧ s.takenAt.intake.number = s.intake.number + 1) := by
  unfold State.takenAt State.takePhase State.takeTick
  split
  · exact .inl s.link.engineTick_post
  · split
    · exact .inr ⟨rfl, s.link.engineTick_post, rfl⟩
    · exact .inl s.link.engineTick_post

end

/-! ### A write at an offset (R150) -/

theorem State.writeWord_post (s : State) {m : Nat} {v : Word32} (noReset : Instr.softReset ∉ wordWrite m v) {n : Nat}
    (h : s.link.post.getLsbD n = true) : (s.writeWord m v).link.post.getLsbD n = true := by
  unfold wordWrite at noReset
  unfold State.writeWord
  by_cases control : m = 4
  · rw [if_pos control] at noReset ⊢
    rw [softReset_mem_controlWrite] at noReset
    unfold State.writeControl
    rw [if_neg noReset, State.writeHold_link, State.writeEnable_post]
    exact h
  · rw [if_neg control]
    split
    · simp [Link.writePost, h]
    · split
      · simpa using h
      · split
        · simpa using h
        · split <;> simpa using h

theorem State.registerWrite_post (s : State) {o : BitVec 12} {w : AccessWidth} {v : Word64}
    (noReset : Instr.softReset ∉ hostWrite o w v) {n : Nat} (h : s.link.post.getLsbD n = true) :
    (s.registerWrite o w v).link.post.getLsbD n = true := by
  obtain ⟨rfl, r, reg⟩ | narrow := wholeWindow_or_narrow o w
  · rw [s.registerWrite_whole reg]
    simpa using h
  · rw [s.registerWrite_words narrow]
    refine List.foldlRecOn (motive := fun u : State => u.link.post.getLsbD n = true) _ _ h fun u kept m covered => ?_
    exact u.writeWord_post (fun reset => noReset (mem_hostWrite_of_word narrow covered reset)) kept

end Sys2Proof.Machine

open Sys2Proof Sys2Proof.Machine

/-- Settles O8: every command leaves the post word or adds to it, but for the resets and the takes. -/
theorem pendingBitsStay : Obligations.PendingBitsStay := by
  unfold Obligations.PendingBitsStay
  intro c s t n run h
  have due {p : Prop} {_ : Decidable p} {u : State} (same : u.link.post = s.link.post) :
      (if p then u else s).link.post.getLsbD n = true :=
    State.due_of (P := fun x => x.link.post.getLsbD n = true) h fun _ => by rw [same]; exact h
  cases c with
  | powerOnReset => exact .inr (.inl rfl)
  | softReset => exact .inr (.inr (.inl rfl))
  | linkReset => exact .inr (.inr (.inr (.inl rfl)))
  | ignoredRegisterWrite o w v =>
    by_cases reset : Instr.softReset ∈ hostWrite o w v
    · exact .inr (.inr (.inr (.inr (.inl ⟨o, w, v, rfl, reset⟩))))
    · cases run
      exact .inl (State.due_of (P := fun x => x.link.post.getLsbD n = true) h fun _ => s.registerWrite_post reset h)
  | post bits =>
    cases run
    refine .inl (State.due_of (P := fun x => x.link.post.getLsbD n = true) h fun _ => ?_)
    simp [Link.writePost, h]
  | intakeTake =>
    cases run
    by_cases take : (s.mayTake && !s.inst.take) = true
    · refine .inr (.inr (.inr (.inr (.inr ⟨.inl rfl, ?_⟩))))
      rw [if_pos take]
      exact ⟨h, rfl⟩
    · rw [if_neg take]
      exact .inl h
  | blockTick pins meets =>
    cases run
    obtain ⟨taken, number⟩ := s.blockTick_sameTake pins meets.follows meets.snapFirst
    rw [s.blockTick_post, taken, number]
    obtain same | ⟨-, taken, number⟩ := s.takenAt_cases
    · rw [same]
      exact .inl h
    · rw [taken, number]
      exact .inr (.inr (.inr (.inr (.inr ⟨.inr ⟨pins, meets.follows, meets.snapFirst, rfl⟩, h, rfl⟩))))
  | memoryEnable on => cases run; exact .inl (due (s.writeEnable_post on))
  | busMasteringWithdrawn => cases run; exact .inl (due s.withdraw_post)
  | noticeClear _ | noticeMaskWrite _ | windowRegisterWrite _ _ => cases run; exact .inl (due (by simp))
  | configurationAccess a => cases run; exact .inl (by simpa using h)
  | laneHold _ | partnerRead _ | laneFrame _ _ | elasticArrival _ _ | laneLock _ _ _ | lossOfLock _ _ | keyPress _
  | keyRelease _ | holdCountExpiry _ | outgoingFadeEnd _ | periodicDue => cases run; exact .inl (due rfl)
  | elasticRead _ | seekingSync _ _ _ => cases run; exact .inl h
  | sample => cases run; exact .inl (by simpa using h)
  | engineActive => cases run; exact .inl (due s.link.engineTick_post)
  | refLock => cases run; exact .inl (due (s.setRef_post _))
  | refUnlock => cases run; exact .inl (by rw [State.setRef_post]; exact h)
  | rampEnd i =>
    cases run
    refine .inl (State.ite_of (P := fun x => x.link.post.getLsbD n = true) (fun _ => h) fun _ => ?_)
    rw [s.rampSwitch_link]
    exact h
  | laneLost i =>
    cases run
    refine .inl (State.due_of (P := fun x => x.link.post.getLsbD n = true) h fun _ => ?_)
    rw [s.laneLost_link]
    exact h
  | codeSettle _ | lossCountExpiry _ | shadowCountEnd _ => cases run; exact .inl (due (by simp))
  | sectionFetch =>
    cases run
    split
    · exact .inl h
    · exact .inl (by rw [State.beginFetch_post]; exact h)
  | readCompletion m x =>
    cases run
    split
    · exact .inl h
    · refine .inl (State.ite_of (P := fun u => u.link.post.getLsbD n = true) (fun _ => ?_) fun _ => h)
      rw [State.completeRead_post]
      exact h
  | readTimeout => cases run; exact .inl (due s.timeoutRead_post)
  | apply => cases run; exact .inl (due (by rw [s.applyTick_link]))
  | roundBegin =>
    cases run
    exact .inl (due (by rw [show s.roundAfter.link = (s.lookRound s ReportFlags.clear).link from rfl, State.lookRound_link]))
  | recordWriteBegin sent =>
    cases run
    split
    · exact .inl h
    · exact .inl (by rw [State.beginRecord_post]; exact h)
  | recordWriteComplete =>
    cases run
    split
    · exact .inl h
    · exact .inl (by rw [State.completeRecord_post]; exact h)

end

