-- ==== Sys2Proof/Proofs/RegisterAccess.lean ====
section
/-! PROOFS. The register window: what a read returns, and the commands of a write at every offset (R149 to R153, R171). -/

namespace Sys2Proof.Machine

/-! ### Reads by the byte (R150) -/

/-- Bytes joined into a word, the first the least significant. -/
def joinBytes (f : Nat → Byte) (n : Nat) : Word64 :=
  (List.range n).foldl (fun v i => v ||| ((f i).setWidth 64 <<< (8 * i))) 0

theorem readRegister_eq (s : State) (offset : BitVec 12) (width : AccessWidth) :
    readRegister s offset width = joinBytes (fun i => readByte s (offset.toNat + i)) width.bytes := rfl

theorem joinBytes_getLsbD (f : Nat → Byte) {n : Nat} (small : n ≤ 8) (j : Nat) :
    (joinBytes f n).getLsbD j = (decide (j < 8 * n) && (f (j / 8)).getLsbD (j % 8)) := by
  induction n with
  | zero => simp [joinBytes]
  | succ n ih =>
    have step : joinBytes f (n + 1) = joinBytes f n ||| ((f n).setWidth 64 <<< (8 * n)) := by
      unfold joinBytes
      rw [List.range_succ, List.foldl_append]
      rfl
    rw [step, BitVec.getLsbD_or, ih (by omega), BitVec.getLsbD_shiftLeft, BitVec.getLsbD_setWidth]
    obtain below | own | above : j < 8 * n ∨ (8 * n ≤ j ∧ j < 8 * (n + 1)) ∨ 8 * (n + 1) ≤ j := by omega
    · simp [below, show j < 8 * (n + 1) by omega]
    · have place : j / 8 = n ∧ j % 8 = j - 8 * n := by omega
      simp [own.2, place.1, place.2, show ¬j < 8 * n by omega, show j < 64 by omega, show j - 8 * n < 64 by omega]
    · have high : (f n).getLsbD (j - 8 * n) = false := BitVec.getLsbD_of_ge _ _ (by omega)
      simp [high, show ¬j < 8 * n by omega, show ¬j < 8 * (n + 1) by omega]

theorem joinBytes_lt (f : Nat → Byte) {n : Nat} (small : n ≤ 8) : (joinBytes f n).toNat < 256 ^ n := by
  have power : (256 : Nat) ^ n = 2 ^ (8 * n) := by rw [Nat.pow_mul]
  rw [power]
  refine Nat.lt_pow_two_of_testBit _ fun j far => ?_
  rw [BitVec.testBit_toNat, joinBytes_getLsbD f small]
  simp [show ¬j < 8 * n by omega]

theorem joinBytes_byte (f : Nat → Byte) {n : Nat} (small : n ≤ 8) {i : Nat} (h : i < n) :
    (joinBytes f n).toNat / 256 ^ i % 256 = (f i).toNat := by
  have power : (256 : Nat) ^ i = 2 ^ (8 * i) := by rw [Nat.pow_mul]
  rw [power, show 256 = 2 ^ 8 from rfl]
  refine Nat.eq_of_testBit_eq fun j => ?_
  rw [Nat.testBit_mod_two_pow, Nat.testBit_div_two_pow, BitVec.testBit_toNat, BitVec.testBit_toNat, joinBytes_getLsbD f small]
  by_cases low : j < 8
  · have place : (j + 8 * i) / 8 = i ∧ (j + 8 * i) % 8 = j := by omega
    simp [low, place.1, place.2, show j + 8 * i < 8 * n by omega]
  · simp [low, BitVec.getLsbD_of_ge (f i) j (by omega)]

theorem readByte_toNat (s : State) (o : Nat) :
    (readByte s o).toNat = (readWord s (o - o % 4)).toNat / 256 ^ (o % 4) % 256 := by
  have power : (256 : Nat) ^ (o % 4) = 2 ^ (8 * (o % 4)) := by rw [Nat.pow_mul]
  rw [readByte, BitVec.extractLsb'_toNat, Nat.shiftRight_eq_div_pow, power]

/-- A 32-bit read at an aligned offset returns its word. -/
theorem readRegister_word (s : State) {o : Nat} (inside : o < 4096) (aligned : o % 4 = 0) :
    (readRegister s (BitVec.ofNat 12 o) .four).toNat = (readWord s o).toNat := by
  have place : (BitVec.ofNat 12 o).toNat = o := Nat.mod_eq_of_lt inside
  have same : readRegister s (BitVec.ofNat 12 o) .four = (readWord s o).setWidth 64 := by
    refine BitVec.eq_of_getLsbD_eq fun j _ => ?_
    rw [readRegister_eq, joinBytes_getLsbD _ (by decide), place, BitVec.getLsbD_setWidth]
    simp only [AccessWidth.bytes]
    by_cases low : j < 32
    · have whole : o + j / 8 - (o + j / 8) % 4 = o ∧ (o + j / 8) % 4 = j / 8 := by omega
      rw [readByte, whole.1, whole.2, BitVec.getLsbD_extractLsb']
      have bit : 8 * (j / 8) + j % 8 = j := by omega
      simp [low, bit, show j % 8 < 8 by omega, show j < 64 by omega]
    · have high : (readWord s o).getLsbD j = false := BitVec.getLsbD_of_ge _ _ (by omega)
      simp [low, high]
  rw [same, BitVec.toNat_setWidth]
  exact Nat.mod_eq_of_lt ((readWord s o).isLt.trans (by decide))

theorem accessWidth_bytes_le (w : AccessWidth) : w.bytes ≤ 8 := by cases w <;> decide

theorem readRegister_byte (s : State) (offset : BitVec 12) (width : AccessWidth) {i : Nat} (h : i < width.bytes)
    (inside : offset.toNat + i < 4096) :
    (readRegister s offset width).toNat / 256 ^ i % 256 =
      (readRegister s (BitVec.ofNat 12 (offset.toNat + i - (offset.toNat + i) % 4)) .four).toNat /
        256 ^ ((offset.toNat + i) % 4) % 256 := by
  rw [readRegister_word s (by omega) (by omega), readRegister_eq, joinBytes_byte _ (accessWidth_bytes_le width) h, readByte_toNat]

/-! ### The words read (R150 to R153, R171) -/

theorem extract_halves (v : Word64) :
    (v.extractLsb' 0 32).toNat = v.toNat % 4294967296 ∧ (v.extractLsb' 32 32).toNat = v.toNat / 4294967296 := by
  have small := v.isLt
  rw [BitVec.extractLsb'_toNat, BitVec.extractLsb'_toNat, Nat.shiftRight_zero, Nat.shiftRight_eq_div_pow]
  omega

theorem readWord_none (s : State) {o : Nat} (h : 0x040 ≤ o) : readWord s o = 0 := by
  unfold readWord
  split <;> first | rfl | omega

theorem readWord_mid (s : State) : (readWord s 0x000).toNat = 0x324 * 256 + Config.stepNumber.toNat := by
  change (Config.partCode ++ Config.stepNumber : BitVec 32).toNat = _
  have low := Config.stepNumber.isLt
  rw [BitVec.toNat_append, ← Nat.shiftLeft_add_eq_or_of_lt low, Nat.shiftLeft_eq]
  rfl

theorem readWord_mctl (s : State) :
    (readWord s 0x004).toNat = (if s.link.memEnable = true then 1 else 0) + if s.ltx.hold = true then 2 else 0 := by
  change (BitVec.ofNat 32 (s.link.memEnable.toNat + 2 * s.ltx.hold.toNat)).toNat = _
  cases s.link.memEnable <;> cases s.ltx.hold <;> rfl

theorem readWord_msta (s : State) :
    (readWord s 0x008).toNat =
      s.link.engine.code + 4 * s.intake.phase.code + (if s.ref.locked = true then 16 else 0) +
        if s.ltx.hold = true then 32 else 0 := by
  change (BitVec.ofNat 32 (s.link.engine.code + 4 * s.intake.phase.code + 16 * s.ref.locked.toNat +
    32 * s.ltx.hold.toNat)).toNat = _
  cases s.link.engine <;> cases s.intake.phase <;> cases s.ref.locked <;> cases s.ltx.hold <;> rfl

theorem readWord_miss (s : State) : (readWord s 0x018).toNat = s.link.miss.toNat := by
  change (s.link.miss.setWidth 32).toNat = _
  rw [BitVec.toNat_setWidth]
  exact Nat.mod_eq_of_lt (s.link.miss.isLt.trans (by decide))

/-! ### The words written (R150, R171) -/

theorem wordOf_self (o : Nat) (v : Word64) : wordOf o v o = v.setWidth 32 := by simp [wordOf]

theorem hostWrite_word {o : BitVec 12} (aligned : o.toNat % 4 = 0) (v : Word64) :
    hostWrite o .four v = wordWrite o.toNat (v.setWidth 32) := by
  simp [hostWrite, wholeWords, aligned, wordOf_self]

theorem hostWrite_narrow {o : BitVec 12} {w : AccessWidth} (narrow : w.bytes < 4) (v : Word64) :
    hostWrite o w v = [.ignoredRegisterWrite o w v] := by
  cases w <;> first | rfl | exact absurd narrow (by decide)

theorem windowRegAt_aligned {n : Nat} {r : WindowReg} (h : windowRegAt n = some r) : n % 4 = 0 := by
  unfold windowRegAt at h
  grind

theorem windowRegAt_none {n : Nat} (a : n ≠ 0x020) (b : n ≠ 0x028) (c : n ≠ 0x030) (d : n ≠ 0x038) :
    windowRegAt n = none := by
  simp [windowRegAt, a, b, c, d]

theorem windowRegAt_none_of_unaligned {n : Nat} (h : n % 4 ≠ 0) : windowRegAt n = none :=
  windowRegAt_none (by omega) (by omega) (by omega) (by omega)

theorem wordWrite_ignored {o : BitVec 12}
    (plain : o.toNat = 0x000 ∨ o.toNat = 0x008 ∨ o.toNat = 0x018 ∨ o.toNat = 0x01C ∨ (0x040 ≤ o.toNat ∧ o.toNat % 4 = 0))
    (v : Word32) : wordWrite o.toNat v = [.ignoredRegisterWrite o .four (v.setWidth 64)] := by
  have same : BitVec.ofNat 12 o.toNat = o := by simp
  have low : windowRegAt o.toNat = none := windowRegAt_none (by omega) (by omega) (by omega) (by omega)
  have high : windowRegAt (o.toNat - 4) = none := by
    by_cases first : o.toNat = 0x040
    · rw [first]; rfl
    · exact windowRegAt_none (by omega) (by omega) (by omega) (by omega)
  unfold wordWrite
  rw [if_neg (by omega), if_neg (by omega), if_neg (by omega), if_neg (by omega), low, high]
  exact congrArg (fun a => [Instr.ignoredRegisterWrite a .four (v.setWidth 64)]) same

/-- The word past the last of the window is the window's first, which is read-only. -/
theorem wordWrite_wrap (v : Word32) : wordWrite 4096 v = wordWrite 0 v := by
  rfl

theorem hostWrite_double {o : BitVec 12} (aligned : o.toNat % 4 = 0) (plain : windowRegAt o.toNat = none) (v : Word64) :
    hostWrite o .eight v = hostWrite o .four v ++ hostWrite (o + 4) .four (v >>> 32) := by
  have low : o.toNat < 4096 := o.isLt
  have next : (o + 4).toNat = (o.toNat + 4) % 4096 := by rw [BitVec.toNat_add]; rfl
  have high : wordOf o.toNat v (o.toNat + 4) = (v >>> 32).setWidth 32 := by simp [wordOf]
  rw [hostWrite_word aligned, hostWrite_word (by omega), hostWrite_words (fun _ => plain) v (by simp [wholeWords, aligned])]
  simp only [wholeWords, aligned, if_true, List.flatMap_cons, List.flatMap_nil, List.append_nil, wordOf_self, high]
  congr 1
  by_cases last : o.toNat = 4092
  · rw [next, last]
    exact wordWrite_wrap _
  · rw [next, Nat.mod_eq_of_lt (by omega)]

theorem hostWrite_unaligned {o : BitVec 12} (unaligned : o.toNat % 4 ≠ 0) (v : Word64) :
    hostWrite o .eight v = hostWrite (o + BitVec.ofNat 12 (4 - o.toNat % 4)) .four (v >>> (8 * (4 - o.toNat % 4))) ∧
      hostWrite o .four v = [.ignoredRegisterWrite o .four v] := by
  have low : o.toNat < 4096 := o.isLt
  have next : (o + BitVec.ofNat 12 (4 - o.toNat % 4)).toNat = (o.toNat + (4 - o.toNat % 4)) % 4096 := by
    rw [BitVec.toNat_add, BitVec.toNat_ofNat]
    omega
  have high : wordOf o.toNat v (o.toNat + (4 - o.toNat % 4)) = (v >>> (8 * (4 - o.toNat % 4))).setWidth 32 := by
    simp [wordOf]
  refine ⟨?_, by simp [hostWrite, wholeWords, unaligned]⟩
  rw [hostWrite_word (by omega), hostWrite_words (fun _ => windowRegAt_none_of_unaligned unaligned) v
    (by simp [wholeWords, unaligned])]
  simp only [wholeWords, unaligned, if_false, List.flatMap_cons, List.flatMap_nil, List.append_nil, high]
  by_cases last : o.toNat + (4 - o.toNat % 4) = 4096
  · rw [next, last]
    exact wordWrite_wrap _
  · rw [next, Nat.mod_eq_of_lt (show o.toNat + (4 - o.toNat % 4) < 4096 by omega)]

/-! ### The effect of a write at an offset (R150; entry 25) -/

theorem State.writeWord_ignored (s : State) {n : Nat} (v : Word32) (a : n ≠ 0x004) (b : n ≠ 0x00C) (c : n ≠ 0x010)
    (d : n ≠ 0x014) (low : windowRegAt n = none) (high : windowRegAt (n - 4) = none) : s.writeWord n v = s := by
  unfold State.writeWord
  rw [if_neg a, if_neg b, if_neg c, if_neg d, low, high]

theorem State.writeWord_ignoredOffset (s : State) {n : Nat} (v : Word32) (h : ignoredWordOffset n = true) :
    s.writeWord n v = s := by
  simp only [ignoredWordOffset, Bool.or_eq_true, beq_iff_eq, decide_eq_true_eq] at h
  by_cases far : n = 0x040
  · subst far; rfl
  · exact s.writeWord_ignored v (by omega) (by omega) (by omega) (by omega)
      (windowRegAt_none (by omega) (by omega) (by omega) (by omega))
      (windowRegAt_none (by omega) (by omega) (by omega) (by omega))

theorem State.registerWrite_ignored (s : State) {o : BitVec 12} {w : AccessWidth} (h : ignoredWrite o w = true ∨ w.bytes < 4)
    (v : Word64) : s.registerWrite o w v = s := by
  obtain ⟨rfl, r, reg⟩ | narrow := wholeWindow_or_narrow o w
  · obtain ignored | small := h
    · have aligned := windowRegAt_aligned reg
      simp only [ignoredWrite, wholeWords, aligned, if_true, List.all_cons, Bool.and_eq_true] at ignored
      have first := ignored.1
      unfold windowRegAt at reg
      simp only [ignoredWordOffset, Bool.or_eq_true, beq_iff_eq, decide_eq_true_eq] at first
      grind
    · exact absurd small (by decide)
  · rw [s.registerWrite_words narrow]
    obtain ignored | small := h
    · have each (n : Nat) (mem : n ∈ wholeWords o.toNat w) : ignoredWordOffset n = true := List.all_eq_true.mp ignored n mem
      refine List.foldlRecOn (motive := fun u : State => u = s) _ _ rfl fun u same n mem => ?_
      rw [same]
      exact s.writeWord_ignoredOffset _ (each n mem)
    · cases w <;> first | rfl | exact absurd small (by decide)

theorem State.writeEnable_placement (s : State) (on : Bool) : (s.writeEnable on).link.placement = s.link.placement := by
  cases on
  · change s.clearEnable.link.placement = _
    rw [State.clearEnable_eq]
    simp only []
    split <;> simp
  · rfl

/-- A command taken where every command completes. -/
def State.took (u : State) (c : Instr) : Option State :=
  match exec c u with
  | .next v => some v
  | _ => none

theorem State.took_of {u v : State} {c : Instr} (run : exec c u = .next v) : u.took c = some v := by
  rw [State.took, run]

theorem State.took_one {u v : State} {c : Instr} (run : exec c u = .next v) : [c].foldlM State.took u = some v := by
  simp [State.took_of run]

/-- The commands of a word's write have, one after another, the effect of the write. -/
theorem State.wordWrite_runs {u : State} (placed : u.link.placement.isSome = true) {n : Nat} (inside : n ≤ 4096) (v : Word32) :
    (wordWrite n v).foldlM State.took u = some (u.writeWord n v) := by
  unfold wordWrite
  by_cases control : n = 4
  · subst control
    change (controlWrite v).foldlM State.took u = some (u.writeControl v)
    unfold controlWrite State.writeControl
    split
    · exact State.took_one (next_placed placed)
    · have first : u.took (.memoryEnable (v.getLsbD 0)) = some (u.writeEnable (v.getLsbD 0)) :=
        State.took_of (next_placed placed)
      have second : exec (.laneHold (v.getLsbD 1)) (u.writeEnable (v.getLsbD 0)) =
          .next ((u.writeEnable (v.getLsbD 0)).writeHold (v.getLsbD 1)) :=
        next_placed (by rw [State.writeEnable_placement]; exact placed)
      rw [List.foldlM_cons, first]
      exact State.took_one second
  · unfold State.writeWord
    rw [if_neg control, if_neg control]
    split
    · exact State.took_one (next_placed placed)
    · split
      · exact State.took_one (next_placed placed)
      · split
        · exact State.took_one (next_placed placed)
        · next post notice mask =>
          cases low : windowRegAt n with
          | some r => exact State.took_one (next_placed placed)
          | none =>
            cases high : windowRegAt (n - 4) with
            | some r => exact State.took_one (next_placed placed)
            | none =>
              refine State.took_one ((next_placed placed).trans (congrArg Host.Outcome.next ?_))
              refine u.registerWrite_ignored (.inl ?_) _
              have place : (BitVec.ofNat 12 n).toNat = n % 4096 := by simp
              rw [ignoredWrite, place, wholeWords]
              split
              · next aligned =>
                simp only [List.all_cons, List.all_nil, Bool.and_true, ignoredWordOffset, Bool.or_eq_true, beq_iff_eq,
                  decide_eq_true_eq]
                unfold windowRegAt at low high
                grind
              · rfl

theorem State.writeWord_placement {u : State} (n : Nat) (v : Word32) :
    (u.writeWord n v).link.placement = u.link.placement := by
  unfold State.writeWord
  split
  · unfold State.writeControl
    split
    · rw [State.softReset_link]
    · rw [State.writeHold_link, State.writeEnable_placement]
  · split
    · rfl
    · have window (r : WindowReg) (d : WindowData) : (u.link.writeWindow r d).placement = u.link.placement := by
        by_cases stopped : u.link.engine = .stopped
        · rw [Link.writeWindow_stopped stopped, Link.setWindow_eq]
        · rw [Link.writeWindow_running stopped, Link.raise_placement]
      split
      · simp [Link.writeNotice]
      · split
        · simp [Link.writeMask]
        · split
          · exact window _ _
          · exact window _ _
          · rfl

/-- The commands of a host write have, one after another, the effect of the write. -/
theorem State.hostWrite_runs {s : State} (placed : s.link.placement.isSome = true) (o : BitVec 12) (w : AccessWidth)
    (v : Word64) : (hostWrite o w v).foldlM State.took s = some (s.registerWrite o w v) := by
  have low : o.toNat < 4096 := o.isLt
  obtain ⟨rfl, r, reg⟩ | narrow := wholeWindow_or_narrow o w
  · rw [s.registerWrite_whole reg]
    simp only [hostWrite, reg]
    exact State.took_one (next_placed placed)
  · by_cases none : wholeWords o.toNat w = []
    · have alone : hostWrite o w v = [.ignoredRegisterWrite o w v] := by
        cases w with
        | one | two | three => rfl
        | four => simp only [hostWrite, none]
        | eight => simp only [hostWrite, narrow rfl, none]
      rw [alone]
      exact State.took_one (next_placed placed)
    · rw [hostWrite_words narrow v none, s.registerWrite_words narrow]
      have runs (ns : List Nat) (inside : ∀ n ∈ ns, n ≤ 4096) (u : State) (at_ : u.link.placement.isSome = true) :
          (ns.flatMap fun n => wordWrite n (wordOf o.toNat v n)).foldlM State.took u =
            some (ns.foldl (fun t n => t.writeWord n (wordOf o.toNat v n)) u) := by
        induction ns generalizing u with
        | nil => rfl
        | cons n ns ih =>
          rw [List.flatMap_cons, List.foldlM_append, State.wordWrite_runs at_ (inside n (by simp))]
          exact ih (fun m mem => inside m (List.mem_cons_of_mem _ mem)) _ (by rw [State.writeWord_placement]; exact at_)
      refine runs _ (fun n mem => ?_) s placed
      cases w <;> simp only [wholeWords, List.not_mem_nil] at mem <;> grind

/-! ### While the window is unplaced (R149) -/

theorem next_unplaced {s u : State} (unplaced : s.link.placement = none) :
    (.next (if s.link.placed then u else s) : Host.Outcome State Fault Refusal) = .next s :=
  congrArg Host.Outcome.next (if_neg (by simp [Link.placed, unplaced]))

theorem registerOffset_inside {k : Link} {base : Word64} (placed : k.placement = some base) {address : Word64}
    (low : base.toNat ≤ address.toNat) (high : address.toNat < base.toNat + 4096) :
    registerOffset k address = some (BitVec.ofNat 12 (address.toNat - base.toNat)) := by
  unfold registerOffset
  rw [placed]
  exact if_pos ⟨low, high⟩

theorem registerOffset_outside {k : Link} {base : Word64} (placed : k.placement = some base) {address : Word64}
    (away : address.toNat < base.toNat ∨ base.toNat + 4096 ≤ address.toNat) : registerOffset k address = none := by
  unfold registerOffset
  rw [placed]
  exact if_neg (by omega)

theorem State.access_inside (s : State) {address : Word64} {o : BitVec 12} (place : registerOffset s.link address = some o)
    (width : AccessWidth) (value : Word64) :
    s.readAt address width = some (readRegister s o width) ∧ s.writeAt address width value = hostWrite o width value := by
  simp [State.readAt, State.writeAt, place]

theorem State.access_outside (s : State) {address : Word64} (place : registerOffset s.link address = none)
    (width : AccessWidth) (value : Word64) :
    s.readAt address width = none ∧ s.writeAt address width value = [] := by
  simp [State.readAt, State.writeAt, place]

end Sys2Proof.Machine

open Sys2Proof Sys2Proof.Machine

/-- Settles O13: reads are joined from the words byte by byte, and a write at an offset has the effect of its commands. -/
theorem registerWindow : Obligations.RegisterWindow := by
  unfold Obligations.RegisterWindow
  intro s offset width value address
  refine ⟨fun unplaced => ⟨?_, ?_⟩, fun base placed => ⟨fun ignored => ?_, ?_, fun low high => ?_, fun away => ?_⟩, ?_, ?_⟩
  · rintro c (rfl | ⟨on, rfl⟩ | ⟨on, rfl⟩ | ⟨v, rfl⟩ | ⟨w, rfl⟩ | ⟨w, rfl⟩ | ⟨r, d, rfl⟩ | rfl) <;>
      exact next_unplaced unplaced
  · exact s.access_outside (by rw [registerOffset, unplaced]) width value
  · refine (next_placed (by rw [placed]; rfl)).trans ?_
    rw [s.registerWrite_ignored ignored]
  · have at_ : s.link.placement.isSome = true := by rw [placed]; rfl
    exact ⟨_, next_placed at_, State.hostWrite_runs at_ offset width value⟩
  · exact s.access_inside (registerOffset_inside placed low high) width value
  · exact s.access_outside (registerOffset_outside placed away) width value
  · simp only []
    have word {o : Nat} (inside : o < 4096) (aligned : o % 4 = 0) := readRegister_word s inside aligned
    refine ⟨?_, ?_, ?_, ?_, ?_, ?_, ?_, ?_, ⟨?_, ?_⟩, ⟨?_, ?_⟩, ⟨?_, ?_⟩, ⟨?_, ?_⟩, fun o far inside aligned => ?_, ?_,
      fun i small inside => ?_⟩
    · rw [word (by decide) (by decide), readWord_mid]
    · rw [word (by decide) (by decide), readWord_mctl]
    · rw [word (by decide) (by decide), readWord_msta]
      cases s.link.engine <;> cases s.intake.phase <;> rfl
    · exact word (by decide) (by decide)
    · exact word (by decide) (by decide)
    · exact word (by decide) (by decide)
    · rw [word (by decide) (by decide), readWord_miss]
    · exact word (by decide) (by decide)
    · exact (word (by decide) (by decide)).trans (extract_halves _).1
    · exact (word (by decide) (by decide)).trans (extract_halves _).2
    · exact (word (by decide) (by decide)).trans (extract_halves _).1
    · exact (word (by decide) (by decide)).trans (extract_halves _).2
    · exact (word (by decide) (by decide)).trans (extract_halves _).1
    · exact (word (by decide) (by decide)).trans (extract_halves _).2
    · exact (word (by decide) (by decide)).trans (extract_halves _).1
    · exact (word (by decide) (by decide)).trans (extract_halves _).2
    · rw [word inside aligned, readWord_none s far]; rfl
    · rw [readRegister_eq]
      exact joinBytes_lt _ (accessWidth_bytes_le width)
    · exact readRegister_byte s offset width small inside
  · have word (aligned : offset.toNat % 4 = 0) := hostWrite_word aligned value
    have one {n : Nat} {c : List Instr} (place : offset.toNat = n) (aligned : n % 4 = 0)
        (known : wordWrite n (value.setWidth 32) = c) : hostWrite offset .four value = c := by
      rw [word (by omega), place, known]
    have two {n : Nat} {r : WindowReg} (place : offset.toNat = n) (reg : windowRegAt n = some r) :
        hostWrite offset .eight value = [.windowRegisterWrite r (.whole value)] := by
      simp [hostWrite, place, reg]
    refine ⟨fun o => one o (by decide) rfl, fun o => one o (by decide) rfl, fun o => one o (by decide) rfl,
      fun o => one o (by decide) rfl, fun o => ⟨one o (by decide) rfl, two o rfl⟩, fun o => one o (by decide) rfl,
      fun o => ⟨one o (by decide) rfl, two o rfl⟩, fun o => one o (by decide) rfl,
      fun o => ⟨one o (by decide) rfl, two o rfl⟩, fun o => one o (by decide) rfl,
      fun o => ⟨one o (by decide) rfl, two o rfl⟩, fun o => one o (by decide) rfl, fun plain => ?_,
      fun aligned a b c d => hostWrite_double aligned (windowRegAt_none a b c d) value,
      fun unaligned => hostWrite_unaligned unaligned value, fun narrow => hostWrite_narrow narrow value⟩
    rw [word (by omega)]
    exact wordWrite_ignored plain _

end

