-- ==== Sys2Proof/Proofs/LaneCommands.lean ====
section
/-! PROOFS. Group-indexed ramps, and the commands of one lane: frames, elastic buffers, the hunt for sync and the lock
(R20, R86, R88, R90 to R93, R97, R100). -/

namespace Sys2Proof.Machine

/-! ### Group-indexed ramps (R20) -/

section
variable (g : GroupRamp) (len : Nat)

theorem Ramp.retarget_target (r : Ramp) (t : Int) (len : Nat) : (r.retarget t len).target = t := by
  obtain ⟨same, kept⟩ | ⟨-, -, stopped⟩ | ⟨-, -, begun⟩ := r.retarget_cases t len
  · rw [kept, same]
  · rw [stopped]; rfl
  · rw [begun]; rfl

theorem GroupRamp.retarget_none :
    g.retarget none len = { g with ramp := g.ramp.retarget 0 len, pending := none } := rfl

theorem GroupRamp.retarget_same (t : Int) :
    g.retarget (some (g.index, t)) len = { g with ramp := g.ramp.retarget t len, pending := none } :=
  if_pos rfl

theorem GroupRamp.retarget_take {h : Group} (other : h ≠ g.index) (t : Int) (silent : (g.ramp.retarget 0 len).silent = true) :
    g.retarget (some (h, t)) len = { ramp := (g.ramp.retarget 0 len).retarget t len, index := h, pending := none } := by
  unfold GroupRamp.retarget
  simp only [if_neg other, if_pos silent]

theorem GroupRamp.retarget_wait {h : Group} (other : h ≠ g.index) (t : Int)
    (sounds : (g.ramp.retarget 0 len).silent = false) :
    g.retarget (some (h, t)) len = { g with ramp := g.ramp.retarget 0 len, pending := some h } := by
  unfold GroupRamp.retarget
  simp only [if_neg other, sounds, Bool.false_eq_true, if_false]

/-- A ramp at 0 that is at rest, or whose target is not 0, is silent once its target is 0. -/
theorem Ramp.retarget_zero_silent {r : Ramp} (zero : r.cur = 0) (rest : r.len ≤ r.pos ∨ r.target ≠ 0) :
    (r.retarget 0 len).silent = true := by
  rw [Ramp.silent_iff, r.retarget_cur, zero]
  refine ⟨?_, rfl⟩
  obtain ⟨same, kept⟩ | ⟨-, -, stopped⟩ | ⟨-, moved, -⟩ := r.retarget_cases 0 len
  · rw [kept]
    exact rest.resolve_right (fun moving => moving same.symm)
  · rw [stopped]
    exact Nat.le_refl r.len
  · exact absurd zero.symm moved

end

/-! ### A lane replaced -/

/-- A command that replaces an input lane leaves the lane it put there, and nothing else changes. -/
theorem State.setInLane_eq (s : State) (i : InLane) (c : InLaneCtx) :
    s.setInLane i c = { s with lrx := { s.lrx with lanes := s.lrx.lanes.set i (s.setInLane i c).lrx.lanes[i] } } := by
  have same : (s.setInLane i c).lrx.lanes[i] = c := set_same ..
  rw [same]
  rfl

theorem State.setInLane_at (s : State) (i : InLane) (c : InLaneCtx) : (s.setInLane i c).lrx.lanes[i] = c := set_same ..

theorem State.setOutLane_eq (s : State) (l : OutLane) (c : OutLaneCtx) :
    s.setOutLane l c = { s with ltx := { s.ltx with lanes := s.ltx.lanes.set l (s.setOutLane l c).ltx.lanes[l] } } := by
  have same : (s.setOutLane l c).ltx.lanes[l] = c := set_same ..
  rw [same]
  rfl

theorem State.setOutLane_at (s : State) (l : OutLane) (c : OutLaneCtx) : (s.setOutLane l c).ltx.lanes[l] = c := set_same ..

theorem set_own {α : Type} {n : Nat} (v : Vector α n) (i : Fin n) : v.set i v[i] = v := by
  refine Vector.ext fun k h => ?_
  rw [Vector.getElem_set]
  split
  next same => subst same; rfl
  next => rfl

theorem State.setInLane_own (s : State) (i : InLane) : s.setInLane i s.lrx.lanes[i] = s := by
  unfold State.setInLane
  rw [set_own]

/-! ### A frame taken (R90) -/

theorem damagedSlots_eq (f : SlotWords) : damagedSlots f = (List.finRange 8).countP fun j => !parityOk f[j] :=
  List.countP_eq_length_filter.symm

theorem shownOf_damaged (c : InLaneCtx) (f : SlotWords) {j : Slot} (damaged : parityOk f[j] = false) :
    (shownOf c f).audio[j] = c.lastGood[j] ∧ (shownOf c f).side[j] = none := by
  unfold shownOf
  rw [ofFn_at, ofFn_at, slotShown, slotSide, damaged]
  exact ⟨rfl, rfl⟩

theorem shownOf_good (c : InLaneCtx) (f : SlotWords) {j : Slot} (good : parityOk f[j] = true) :
    (shownOf c f).side[j] = some (slotCode f[j]) ∧
      (shownOf c f).audio[j] = if slotValid f[j] = true then slotAudio c.setup.width f[j] else 0 := by
  unfold shownOf
  rw [ofFn_at, ofFn_at, slotShown, slotSide, good]
  exact ⟨rfl, rfl⟩

theorem InLaneCtx.inStep_iff (c : InLaneCtx) : c.inStep = true ↔ c.state = .locked ∧ c.setup.clocking = .master := by
  simp [InLaneCtx.inStep]

/-! ### Elastic buffers (R92, R93, R97) -/

theorem bufferArrive_room {b : List SlotWords} (room : b.length < 4) (f : SlotWords) : bufferArrive b f = b ++ [f] :=
  if_pos room

theorem bufferArrive_full {b : List SlotWords} (full : 4 ≤ b.length) (f : SlotWords) : bufferArrive b f = b.tail :=
  if_neg (Nat.not_lt.mpr full)

theorem isOverrun_iff (b : List SlotWords) : isOverrun b = true ↔ 4 ≤ b.length := by
  simp [isOverrun, Config.bufferFrames]

theorem InLaneCtx.arrive_room {c : InLaneCtx} (room : c.buffer.length < 4) (f : SlotWords) :
    c.arrive f = { c with buffer := c.buffer ++ [f], frameSeen := true } := by
  rw [InLaneCtx.arrive, bufferArrive_room room, if_neg (mt (isOverrun_iff _).mp (Nat.not_le.mpr room))]

theorem InLaneCtx.arrive_full {c : InLaneCtx} (full : 4 ≤ c.buffer.length) (f : SlotWords) :
    c.arrive f =
      { c with buffer := c.buffer.tail, frameSeen := true, overruns := min 65535 (c.overruns + 1) } := by
  rw [InLaneCtx.arrive, bufferArrive_full full, if_pos ((isOverrun_iff _).mpr full)]
  rfl

/-- A read of an empty buffer that flows is an underrun. -/
theorem InLaneCtx.readBuffer_underrun {c : InLaneCtx} (flowing : c.mode = .flowing) (empty : c.buffer = []) :
    c.readBuffer = { c with mode := .refilling, underruns := min 65535 (c.underruns + 1) } := by
  simp [InLaneCtx.readBuffer, flowing, empty, readTakes, modeAfterRead, isUnderrun, countUp, Config.countTop]

theorem InLaneCtx.readBuffer_refilling {c : InLaneCtx} (refilling : c.mode = .refilling) (few : c.buffer.length < 2) :
    c.readBuffer = c := by
  have takes : readTakes .refilling c.buffer = false := by simp [readTakes, few]
  unfold InLaneCtx.readBuffer modeAfterRead isUnderrun
  rw [refilling, takes]
  cases c
  simp_all

theorem readTakes_cons {mode : FillMode} {f : SlotWords} {rest : List SlotWords} (ready : mode = .flowing ∨ rest ≠ []) :
    readTakes mode (f :: rest) = true := by
  cases mode with
  | flowing => simp [readTakes]
  | refilling =>
    have some : 1 ≤ rest.length := List.length_pos_iff.mpr (ready.resolve_left (by decide))
    simp [readTakes, some]

theorem InLaneCtx.readBuffer_takes {c : InLaneCtx} {f : SlotWords} {rest : List SlotWords} (held : c.buffer = f :: rest)
    (ready : c.mode = .flowing ∨ rest ≠ []) :
    c.readBuffer = { c.takeFrame f with buffer := rest, mode := .flowing } := by
  unfold InLaneCtx.readBuffer modeAfterRead
  simp only [held, readTakes_cons ready, if_true]

theorem InLaneCtx.readOnce_other {c : InLaneCtx} (other : c.state ≠ .locked ∨ c.setup.clocking ≠ .slave ∨ c.readDone = true) :
    c.readOnce = c := by
  refine if_neg ?_
  rw [Bool.and_eq_true, InLaneCtx.buffered_iff, Bool.not_eq_true']
  rintro ⟨⟨locked, slave⟩, fresh⟩
  obtain unlocked | master | done := other
  · exact unlocked locked
  · exact master slave
  · exact Bool.false_ne_true (fresh.symm.trans done)

theorem InLaneCtx.readOnce_due {c : InLaneCtx} (locked : c.state = .locked) (slave : c.setup.clocking = .slave)
    (fresh : c.readDone = false) : c.readOnce = { c.readBuffer with readDone := true } :=
  if_pos (by rw [Bool.and_eq_true, InLaneCtx.buffered_iff, fresh]; exact ⟨⟨locked, slave⟩, rfl⟩)

/-! ### A partner's read (R97) -/

theorem OutLaneCtx.partnerRead_underrun {c : OutLaneCtx} (flowing : c.mode = .flowing) (empty : c.buffer = []) :
    c.partnerRead =
      { c with mode := .refilling, underruns := min 65535 (c.underruns + 1), sent := some (frameWords c.previous) } := by
  simp [OutLaneCtx.partnerRead, flowing, empty, readTakes, modeAfterRead, isUnderrun, countUp, Config.countTop]

theorem OutLaneCtx.partnerRead_refilling {c : OutLaneCtx} (refilling : c.mode = .refilling) (few : c.buffer.length < 2) :
    c.partnerRead = { c with sent := some (frameWords c.previous) } := by
  have takes : readTakes .refilling c.buffer = false := by simp [readTakes, few]
  unfold OutLaneCtx.partnerRead modeAfterRead isUnderrun
  rw [refilling, takes]
  cases c
  simp_all

theorem OutLaneCtx.partnerRead_takes {c : OutLaneCtx} {f : SlotWords} {rest : List SlotWords} (held : c.buffer = f :: rest)
    (ready : c.mode = .flowing ∨ rest ≠ []) :
    c.partnerRead = { c with buffer := rest, mode := .flowing, previous := f, sent := some (frameWords f) } := by
  unfold OutLaneCtx.partnerRead modeAfterRead
  simp only [held, readTakes_cons ready, if_true]

theorem frameWords_sync (f : SlotWords) : (frameWords f)[(0 : Fin 9)] = 0xE8E81717 := by
  unfold frameWords
  rw [ofFn_at]
  rfl

theorem frameWords_slot (f : SlotWords) (i : Slot) : (frameWords f)[i.succ] = f[i] := by
  unfold frameWords
  rw [ofFn_at]
  exact dif_neg (by simp)

/-! ### The hunt for sync (R88, R100) -/

theorem lineLane_eq_iff (l : Line) (i : InLane) : lineLane l = i ↔ l.val / 8 = i.val := by
  have low := l.isLt
  rw [Fin.ext_iff]
  change l.val / 8 % 5 = i.val ↔ _
  omega

theorem InLaneCtx.seek_unlooked {c : InLaneCtx} {p : Nat}
    (unlooked : c.state ≠ .seeking ∨ (c.run ≠ 0 ∧ c.expected ≠ p)) (w : Word32) : c.seek p w = c := by
  refine if_neg ?_
  simp only [InLaneCtx.looksAt, Bool.and_eq_true, decide_eq_true_eq, Bool.or_eq_true]
  rintro ⟨seeking, looked⟩
  obtain other | ⟨running, away⟩ := unlooked
  · exact other seeking
  · exact looked.elim running fun own => away own.symm

theorem InLaneCtx.seek_looked {c : InLaneCtx} {p : Nat} (seeking : c.state = .seeking)
    (looked : c.run = 0 ∨ c.expected = p) (w : Word32) :
    c.seek p w = if w = 0xE8E81717 then c.syncFound p else { c with run := 0 } := by
  refine if_pos ?_
  simp only [InLaneCtx.looksAt, Bool.and_eq_true, decide_eq_true_eq, Bool.or_eq_true]
  exact ⟨seeking, looked.imp id Eq.symm⟩

theorem InLaneCtx.locksAt_iff (c : InLaneCtx) (p : Nat) (w : Word32) :
    c.locksAt p w = true ↔ c.state = .seeking ∧ c.run = 3 ∧ c.expected = p ∧ w = 0xE8E81717 := by
  simp only [InLaneCtx.locksAt, Bool.and_eq_true, decide_eq_true_eq, and_assoc]

theorem Cmap.clearLane_records (m : Cmap) (i : InLane) (l : Line) :
    (m.clearLane i).records[l] =
      if l.val / 8 = i.val then { last := none, count := 0, delivered := false } else m.records[l] := by
  unfold Cmap.clearLane
  rw [ofFn_at]
  simp only [lineLane_eq_iff]
  rfl

theorem State.seekLane_lane (s : State) (i : InLane) (p : Nat) (w : Word32) :
    (s.seekLane i p w).lrx.lanes[i] = (s.lrx.lanes[i]).seek p w := set_same ..

theorem State.seekLane_cmap (s : State) (i : InLane) (p : Nat) (w : Word32) :
    (s.seekLane i p w).cmap = if (s.lrx.lanes[i]).locksAt p w = true then s.cmap.clearLane i else s.cmap := rfl

theorem State.seekLane_eq (s : State) (i : InLane) (p : Nat) (w : Word32) :
    s.seekLane i p w =
      { s with lrx := { s.lrx with lanes := s.lrx.lanes.set i (s.seekLane i p w).lrx.lanes[i] }
               cmap := { s.cmap with records := (s.seekLane i p w).cmap.records } } := by
  rw [s.seekLane_lane, s.seekLane_cmap]
  unfold State.seekLane
  simp only []
  split <;> rfl

theorem State.seekLane_still {s : State} {i : InLane} {p : Nat}
    (unlooked : (s.lrx.lanes[i]).state ≠ .seeking ∨ ((s.lrx.lanes[i]).run ≠ 0 ∧ (s.lrx.lanes[i]).expected ≠ p)) (w : Word32) :
    s.seekLane i p w = s := by
  have stays : (s.lrx.lanes[i]).locksAt p w = false := by
    rw [Bool.eq_false_iff, ne_eq, InLaneCtx.locksAt_iff]
    rintro ⟨seeking, -, own, -⟩
    exact unlooked.elim (fun other => other seeking) fun away => away.2 own
  rw [s.seekLane_eq, s.seekLane_lane, s.seekLane_cmap, InLaneCtx.seek_unlooked unlooked, stays, set_own]
  rfl

theorem exec_laneLock_still {s : State} {i : InLane} {p : Nat} {w : Word32} (stays : (s.lrx.lanes[i]).locksAt p w = false) :
    exec (.laneLock i p w) s = .next s :=
  congrArg Host.Outcome.next (if_neg (by rw [stays]; exact Bool.false_ne_true))

/-! ### A lock lost (R89) -/

theorem State.loseLock_lane (s : State) (i : InLane) (cause : LockLoss) :
    (s.loseLock i cause).lrx.lanes[i] = (s.lrx.lanes[i]).loseLock := set_same ..

end Sys2Proof.Machine

open Sys2Proof Sys2Proof.Machine

/-- Settles O20: the two ways a group-indexed ramp takes a wanted group, at rest at 0 or not at all. -/
theorem groupIndexMoves : Obligations.GroupIndexMoves := by
  unfold Obligations.GroupIndexMoves
  intro g want len
  cases want with
  | none =>
    rw [GroupRamp.retarget_none]
    exact ⟨fun moved => absurd rfl moved, Ramp.retarget_cur _ _ _, fun _ => ⟨rfl, rfl⟩, fun pending => absurd rfl pending,
      fun h v want => by cases want⟩
  | some want =>
    obtain ⟨h, v⟩ := want
    by_cases same : h = g.index
    · subst same
      rw [GroupRamp.retarget_same]
      refine ⟨fun moved => absurd rfl moved, Ramp.retarget_cur _ _ _, fun _ => ⟨rfl, rfl⟩, fun pending => absurd rfl pending,
        fun k u want _ _ => ?_⟩
      cases want
      exact ⟨rfl, rfl, Ramp.retarget_target _ _ _⟩
    · cases silent : (g.ramp.retarget 0 len).silent with
      | true =>
        have zero : g.ramp.cur = 0 := by
          rw [Ramp.silent_iff, Ramp.retarget_cur] at silent
          exact silent.2
        rw [GroupRamp.retarget_take g len same v silent]
        refine ⟨fun _ => ⟨zero, rfl⟩, ?_, fun want => ?_, fun pending => absurd rfl pending, fun k u want _ _ => ?_⟩
        · rw [Ramp.retarget_cur, Ramp.retarget_cur]
        · obtain none | own := want
          · cases none
          · exact absurd (Option.some.inj own) same
        · cases want
          exact ⟨rfl, rfl, Ramp.retarget_target _ _ _⟩
      | false =>
        rw [GroupRamp.retarget_wait g len same v silent]
        refine ⟨fun moved => absurd rfl moved, Ramp.retarget_cur _ _ _, fun want => ?_,
          fun _ => ⟨Ramp.retarget_target _ _ _, rfl⟩, fun k u want zero rest => ?_⟩
        · obtain none | own := want
          · cases none
          · exact absurd (Option.some.inj own) same
        · exact absurd (silent.symm.trans (Ramp.retarget_zero_silent len zero rest)) Bool.false_ne_true

/-- Settles O21: a LOCKED MASTER lane takes its frame slot by slot, and any other lane stands. -/
theorem laneFrameTaken : Obligations.LaneFrameTaken := by
  unfold Obligations.LaneFrameTaken
  refine fun s i f => ⟨fun locked master => ?_, fun other => ?_⟩
  · have inStep := (InLaneCtx.inStep_iff _).mpr ⟨locked, master⟩
    refine ⟨_, congrArg Host.Outcome.next (if_pos inStep), s.setInLane_eq i _, ?_, fun j => ?_⟩
    · rw [s.setInLane_at, ← damagedSlots_eq]
      rfl
    · rw [s.setInLane_at]
      exact ⟨fun damaged => shownOf_damaged _ f damaged, fun good => shownOf_good _ f good⟩
  · refine congrArg Host.Outcome.next (if_neg ?_)
    rw [InLaneCtx.inStep_iff]
    exact fun step => other.elim (fun unlocked => unlocked step.1) fun slave => slave step.2

/-- Settles O22: arrivals join or are discarded, and the one read of a sample follows the table of R93. -/
theorem elasticBuffer : Obligations.ElasticBuffer := by
  unfold Obligations.ElasticBuffer
  intro s i f
  have unread (other : (s.lrx.lanes[i]).readOnce = s.lrx.lanes[i]) : exec (.elasticRead i) s = .next s :=
    congrArg Host.Outcome.next (by rw [other, s.setInLane_own])
  refine ⟨fun other => ⟨congrArg Host.Outcome.next (if_neg ?_), unread (InLaneCtx.readOnce_other ?_)⟩,
    fun done => unread (InLaneCtx.readOnce_other (.inr (.inr done))), fun locked slave => ⟨?_, fun fresh => ?_⟩⟩
  · rw [InLaneCtx.buffered_iff]
    exact fun both => other.elim (fun unlocked => unlocked both.1) fun master => master both.2
  · exact other.imp id .inl
  · refine ⟨_, congrArg Host.Outcome.next (if_pos ((InLaneCtx.buffered_iff _).mpr ⟨locked, slave⟩)), s.setInLane_eq i _,
      fun room => ?_, fun full => ?_⟩
    · rw [s.setInLane_at, InLaneCtx.arrive_room room]
    · rw [s.setInLane_at, InLaneCtx.arrive_full full]
  · refine ⟨_, rfl, s.setInLane_eq i _, ?_⟩
    rw [s.setInLane_at, InLaneCtx.readOnce_due locked slave fresh]
    refine ⟨rfl, fun flowing empty => ?_, fun refilling few => ?_, fun g rest held ready => ?_⟩
    · rw [InLaneCtx.readBuffer_underrun flowing empty]
    · rw [InLaneCtx.readBuffer_refilling refilling few]
    · rw [InLaneCtx.readBuffer_takes held ready]

/-- Settles O23: the partner's read follows the same table, behind the sync word. -/
theorem partnerReadTaken : Obligations.PartnerReadTaken := by
  unfold Obligations.PartnerReadTaken
  refine fun s l => ⟨fun running slave => ?_, fun f => ⟨frameWords_sync f, frameWords_slot f⟩, fun other => ?_⟩
  · refine ⟨_, congrArg Host.Outcome.next (if_pos ((OutLaneCtx.buffered_iff _).mpr ⟨running, slave⟩)), s.setOutLane_eq l _, ?_⟩
    rw [s.setOutLane_at]
    exact ⟨OutLaneCtx.partnerRead_underrun, OutLaneCtx.partnerRead_refilling, fun f rest => OutLaneCtx.partnerRead_takes⟩
  · refine congrArg Host.Outcome.next (if_neg ?_)
    rw [OutLaneCtx.buffered_iff]
    rintro ⟨running, slave⟩
    obtain off | master := other
    · exact Bool.false_ne_true (off.symm.trans running)
    · rw [slave] at master; cases master

/-- Settles O24: a word not looked for changes nothing, one looked for moves the run, and the fourth sync locks. -/
theorem seekingAndLock : Obligations.SeekingAndLock := by
  unfold Obligations.SeekingAndLock
  refine fun s i p w => ⟨fun unlooked => ?_, fun other => ?_, fun seeking looked most => ?_⟩
  · refine ⟨congrArg Host.Outcome.next (State.seekLane_still unlooked w), exec_laneLock_still ?_⟩
    rw [Bool.eq_false_iff, ne_eq, InLaneCtx.locksAt_iff]
    rintro ⟨seeking, -, own, -⟩
    exact unlooked.elim (fun other => other seeking) fun away => away.2 own
  · refine exec_laneLock_still ?_
    rw [Bool.eq_false_iff, ne_eq, InLaneCtx.locksAt_iff]
    rintro ⟨-, three, -, sync⟩
    exact other.elim (fun run => run three) fun wrong => wrong sync
  · have locks := (s.lrx.lanes[i]).locksAt_iff p w
    have lane := InLaneCtx.seek_looked seeking looked w
    refine ⟨s.seekLane i p w, rfl, s.seekLane_eq i p w, fun still => ?_, fun wrong => ?_, fun sync few => ?_, fun sync three => ?_⟩
    · rw [s.seekLane_cmap, if_neg]
      rw [locks]
      rintro ⟨-, three, -, sync⟩
      exact still.elim (fun wrong => wrong sync) fun few => absurd three (by omega)
    · rw [s.seekLane_lane, lane, if_neg wrong]
    · rw [s.seekLane_lane, lane, if_pos sync]
      exact if_neg (by omega)
    · have locked := locks.mpr ⟨seeking, three, looked.resolve_left (by omega), sync⟩
      refine ⟨congrArg Host.Outcome.next (if_pos locked), ?_, fun l => ?_⟩
      · rw [s.seekLane_lane, lane, if_pos sync]
        exact if_pos three
      · rw [s.seekLane_cmap, if_pos locked]
        exact s.cmap.clearLane_records i l

end

