-- ==== Sys2Proof/Proofs/SlotWords.lean ====
section
/-! PROOFS. Slot words, their parity and their fields, the conversion of outputs, and the bits of a frame (R86, R91, R95,
R165). -/

namespace Sys2Proof.Machine

/-! ### Parity (R86) -/

/-- A running parity is the parity of the bits counted. -/
theorem foldl_xor_eq (p : Nat → Bool) (l : List Nat) (acc : Bool) :
    l.foldl (fun odd i => odd ^^ p i) acc = (acc ^^ decide (l.countP p % 2 = 1)) := by
  induction l generalizing acc with
  | nil => simp
  | cons i rest ih =>
    rw [List.foldl_cons, ih, List.countP_cons, Bool.xor_assoc]
    congr 1
    cases p i
    · simp
    · have flips : (rest.countP p + 1) % 2 = 1 ↔ ¬ rest.countP p % 2 = 1 := by omega
      rw [if_pos rfl, decide_eq_decide.mpr flips, decide_not, Bool.true_xor]

theorem oddOnes_eq {w : Nat} (x : BitVec w) :
    oddOnes x = decide (((List.range w).countP fun i => x.getLsbD i) % 2 = 1) := by
  unfold oddOnes
  rw [foldl_xor_eq]
  exact Bool.false_xor _

/-- A word closed by its parity bit holds an odd number of ones. -/
theorem oddOnes_append_parity {w : Nat} (x : BitVec w) :
    oddOnes (x ++ BitVec.ofBool (!oddOnes x)) = true := by
  have bits : ((List.range (w + 1)).countP fun i => (x ++ BitVec.ofBool (!oddOnes x)).getLsbD i) =
      ((List.range w).countP fun i => x.getLsbD i) + if oddOnes x then 0 else 1 := by
    rw [List.range_succ_eq_map, List.countP_cons, List.countP_map]
    congr 1
    · refine List.countP_congr fun i _ => ?_
      simp [BitVec.getLsbD_append]
    · rw [BitVec.getLsbD_append]
      cases oddOnes x <;> rfl
  rw [oddOnes_eq, bits]
  cases odd : oddOnes x
  all_goals
    rw [oddOnes_eq] at odd
    simp only [decide_eq_true_eq, decide_eq_false_iff_not, if_true, Bool.false_eq_true, if_false] at odd ⊢
    omega

/-! ### The fields of a slot word (R91, R165) -/

theorem slotCode_toNat (w : Word32) : (slotCode w).toNat = w.toNat / 2 ^ 2 % 64 := by
  unfold slotCode
  rw [BitVec.extractLsb'_toNat, Nat.shiftRight_eq_div_pow]

theorem slotValid_iff (w : Word32) : slotValid w = true ↔ w.toNat / 2 ^ 1 % 2 = 1 := by
  unfold slotValid
  rw [BitVec.getLsbD, Nat.testBit_eq_decide_div_mod_eq, decide_eq_true_eq]

theorem parityOk_iff (w : Word32) :
    parityOk w = true ↔ ((List.range 32).countP fun b => w.getLsbD b) % 2 = 1 := by
  unfold parityOk
  rw [oddOnes_eq, decide_eq_true_eq]

/-- The signed number in the bits of a word from bit n on. -/
theorem extract_top_toInt (w : Word32) (n len : Nat) (whole : n + (len + 1) = 32) :
    (w.extractLsb' n (len + 1)).toInt =
      (w.toNat / 2 ^ n : Nat) - (if w.getLsbD 31 = true then 2 ^ (len + 1) else 0) := by
  have small := w.isLt
  have sign : w.getLsbD 31 = true ↔ 2 ^ 31 ≤ w.toNat := by
    have msb := BitVec.msb_eq_decide w
    rw [BitVec.msb_eq_getLsbD_last] at msb
    rw [msb, decide_eq_true_eq]
  have split32 : 2 ^ 32 = 2 ^ n * 2 ^ (len + 1) := by rw [← pow_add, whole]
  have split31 : 2 ^ 31 = 2 ^ n * 2 ^ len := by rw [← pow_add, show n + len = 31 by omega]
  have below : w.toNat / 2 ^ n < 2 ^ (len + 1) := by
    rw [Nat.div_lt_iff_lt_mul (by positivity), mul_comm, ← split32]
    exact small
  have high : 2 ^ 31 ≤ w.toNat ↔ 2 ^ len ≤ w.toNat / 2 ^ n := by
    rw [Nat.le_div_iff_mul_le (by positivity), mul_comm, ← split31]
  rw [BitVec.toInt_eq_toNat_cond, BitVec.extractLsb'_toNat, Nat.shiftRight_eq_div_pow, Nat.mod_eq_of_lt below]
  simp only [sign, high]
  split <;> split <;> push_cast <;> omega

theorem slotAudio_wide (w : Word32) :
    slotAudio .wide w = (w.toNat / 2 ^ 8 : Nat) - (if w.getLsbD 31 = true then 2 ^ 24 else 0) :=
  extract_top_toInt w 8 23 rfl

theorem slotAudio_narrow (w : Word32) :
    slotAudio .narrow w = 256 * ((w.toNat / 2 ^ 16 : Nat) - (if w.getLsbD 31 = true then 2 ^ 16 else 0)) :=
  (mul_comm _ _).trans (congrArg (256 * ·) (extract_top_toInt w 16 15 rfl))

/-! ### A slot word formed (R86, R95) -/

section
variable (a : Int) (code : BitVec 6) (valid : Bool)

theorem slotCode_makeSlot : slotCode (makeSlot a code valid) = code := by
  refine BitVec.eq_of_getLsbD_eq fun i h => ?_
  simp only [slotCode, makeSlot, BitVec.getLsbD_extractLsb', BitVec.getLsbD_append]
  simp [h, show ¬ 2 + i < 1 by omega]

theorem slotValid_makeSlot : slotValid (makeSlot a code valid) = valid := by
  simp only [slotValid, makeSlot, BitVec.getLsbD_append]
  cases valid <;> rfl

theorem slotBits_makeSlot : (makeSlot a code valid).extractLsb' 8 24 = BitVec.ofInt 24 a := by
  refine BitVec.eq_of_getLsbD_eq fun i h => ?_
  simp only [makeSlot, BitVec.getLsbD_extractLsb', BitVec.getLsbD_append]
  simp [h, show ¬ 8 + i < 1 by omega]

theorem slotAudio_makeSlot (low : -8388608 ≤ a) (high : a ≤ 8388607) :
    slotAudio .wide (makeSlot a code valid) = a := by
  show ((makeSlot a code valid).extractLsb' 8 24).toInt = a
  rw [slotBits_makeSlot, BitVec.toInt_ofInt]
  exact Int.bmod_eq_of_le (by omega) (by omega)

theorem parityOk_makeSlot : parityOk (makeSlot a code valid) = true := oddOnes_append_parity _

/-- The sync word has even parity, so that no slot word formed is one. -/
theorem makeSlot_ne_sync : makeSlot a code valid ≠ 0xE8E81717 := by
  intro same
  have odd := parityOk_makeSlot a code valid
  rw [same] at odd
  exact absurd odd (by decide)

end

theorem convertOut_narrow {out n : Int} (low : 256 * n ≤ out + 128) (high : out + 128 < 256 * (n + 1)) :
    convertOut .narrow out = 256 * (if n < -32768 then -32768 else if 32767 < n then 32767 else n) := by
  have whole : (out + 128) / 256 = n := by omega
  show max (-32768) (min 32767 ((out + 128) / 256)) * 256 = _
  rw [whole]
  split
  · omega
  · split <;> omega

/-! ### The bits of a frame (R86) -/

/-- An entry of a flattened family of lists that are all of one length. -/
theorem getElem?_flatMap_const {α β : Type} {len b : Nat} {f : α → List β} (each : ∀ a, (f a).length = len) (inside : b < len)
    (l : List α) (i : Nat) : (l.flatMap f)[len * i + b]? = l[i]?.bind fun a => (f a)[b]? := by
  induction l generalizing i with
  | nil => simp
  | cons a rest ih =>
    rw [List.flatMap_cons]
    cases i with
    | zero => rw [List.getElem?_append_left (by rw [each]; omega)]; simp
    | succ i =>
      rw [List.getElem?_append_right (by rw [each, Nat.mul_succ]; omega), each,
        show len * (i + 1) + b - len = len * i + b by rw [Nat.mul_succ]; omega, ih]
      rfl

theorem frameBits_length (f : FrameWords) : (frameBits f).length = 288 := by
  unfold frameBits
  simp [List.length_flatMap]

theorem frameBits_at (f : FrameWords) (i : Fin 9) {b : Nat} (h : b < 32) :
    (frameBits f)[32 * i.val + b]? = some (f[i].getLsbD (31 - b)) := by
  have each : ∀ i : Fin 9, ((List.range 32).map fun b => f[i].getMsbD b).length = 32 := by simp
  unfold frameBits
  rw [getElem?_flatMap_const each h, List.getElem?_eq_getElem (by simp), List.getElem_finRange, Option.bind_some,
    List.getElem?_map, List.getElem?_range h, Option.map_some]
  have own : Fin.cast (List.length_finRange (n := 9)) ⟨i.val, by simp⟩ = i := rfl
  rw [own, BitVec.getMsbD, decide_eq_true h, Bool.true_and]

end Sys2Proof.Machine

open Sys2Proof Sys2Proof.Machine

/-- Settles O19: a slot word is its audio, code, flag and parity bit appended, so that each field is read back as it was
formed, and the even parity of the sync word tells it from every slot word. -/
theorem slotRoundTrip : Obligations.SlotRoundTrip := by
  unfold Obligations.SlotRoundTrip
  refine ⟨fun w => ⟨slotCode_toNat w, slotValid_iff w, parityOk_iff w, slotAudio_wide w, slotAudio_narrow w⟩,
    fun out n => ⟨rfl, convertOut_narrow⟩,
    fun a code valid low high => ⟨slotAudio_makeSlot a code valid low high, slotCode_makeSlot a code valid,
      slotValid_makeSlot a code valid, parityOk_makeSlot a code valid, makeSlot_ne_sync a code valid⟩,
    fun f => ⟨frameBits_length _, fun b h => ?_, fun j b h => ?_⟩⟩
  · have first := frameBits_at (frameWords f) 0 h
    rw [frameWords_sync] at first
    simpa using first
  · have slot := frameBits_at (frameWords f) j.succ h
    rwa [frameWords_slot] at slot
end

