-- ==== Sys2Proof/Proofs/Returns.lean ====
section
/-! PROOFS. The six terms of a return without its own line and partners, and the outputs of lane 3 (R3 to R11, R85). -/

namespace Sys2Proof.Machine

/-- The lines that a return hears: every line but its own and the partners (R8). -/
def othersOf (k : Line) (partners : List Line) : Finset Line :=
  Finset.univ.filter fun j : Line => j ≠ k ∧ j ∉ partners

/-- A bus less the own line's share and the partners' is the sum over the other lines (R8). -/
theorem busSum_sub_ownShare (f : Line → Int) {k : Line} {partners : List Line} (once : partners.Nodup)
    (own : k ∉ partners) : busSum f - ownShare f k partners = ∑ j ∈ othersOf k partners, f j := by
  have rest : (Finset.univ.filter fun j : Line => ¬ (j ≠ k ∧ j ∉ partners)) = insert k partners.toFinset := by
    ext j
    simp only [Finset.mem_filter, Finset.mem_univ, true_and, Finset.mem_insert, List.mem_toFinset]
    tauto
  have whole := Finset.sum_filter_add_sum_filter_not Finset.univ (fun j : Line => j ≠ k ∧ j ∉ partners) f
  rw [rest, Finset.sum_insert (by simpa using own), List.sum_toFinset f once] at whole
  exact sub_eq_of_eq_add whole.symm

section
variable (m : Mix) (x : Inputs) {k : Line} {partners : List Line}

theorem airTerm_eq (once : partners.Nodup) (own : k ∉ partners) :
    airTerm m x k partners =
      scale ((∑ i, sourcePart m x i) + ∑ j ∈ othersOf k partners, airPart m x j) (m.returns[k]).air.cur := by
  unfold airTerm airBus callerBus
  rw [add_sub_assoc, busSum_sub_ownShare _ once own]
  rfl

theorem groupTerm_eq (once : partners.Nodup) (own : k ∉ partners) :
    groupTerm m x k partners =
      scale (∑ j ∈ (othersOf k partners).filter fun j => (m.contribs[j]).group.index = (m.returns[k]).group.index,
        groupPart m x j) (m.returns[k]).group.ramp.cur := by
  unfold groupTerm groupBus
  simp only [busSum_sub_ownShare _ once own]
  rw [Finset.sum_filter]
  rfl

end

theorem isSome_ite {α β : Type} (o : Option α) (a b : β) [Decidable (o = none)] :
    (if o.isSome = true then a else b) = if o = none then b else a := by
  cases o <;> simp

/-- The raw return as the sum of its terms, each over what it hears (R8 to R11). -/
theorem rawReturn_eq (m : Mix) (x : Inputs) (t : ScreeningTable) {c : LineCtx} (q : CueReturn) {k : Line}
    (once : c.plan.partners.Nodup) (own : k ∉ c.plan.partners) :
    rawReturn m x t c q k =
      scale ((∑ i, sourcePart m x i) + ∑ j ∈ othersOf k c.plan.partners, airPart m x j) (m.returns[k]).air.cur +
        scale (∑ j ∈ (othersOf k c.plan.partners).filter
          fun j => (m.contribs[j]).group.index = (m.returns[k]).group.index, groupPart m x j)
          (m.returns[k]).group.ramp.cur +
        scale x.sources[m.holdFeed] (m.returns[k]).hold.cur +
        scale (talkerInput x ((m.returns[k]).position.bind fun p => (t.positions[p]).talker))
          (m.returns[k]).screener.cur +
        (if q.winner = none then 0 else scale (talkerInput x q.talker) (m.returns[k]).cueIn.cur) +
        (if q.outgoing = none then 0 else scale (talkerInput x q.outTalker) (m.returns[k]).cueOut.cur) := by
  unfold rawReturn cueTerm outgoingTerm
  rw [airTerm_eq m x once own, groupTerm_eq m x once own, isSome_ite, isSome_ite]
  rfl

/-- A return hears the sources and the lines that are neither its own nor its partners'. -/
theorem rawReturn_congr (m : Mix) {x y : Inputs} (t : ScreeningTable) {c : LineCtx} (q : CueReturn) {k : Line}
    (once : c.plan.partners.Nodup) (own : k ∉ c.plan.partners) (sources : x.sources = y.sources)
    (lines : ∀ j : Line, j ≠ k → j ∉ c.plan.partners → x.lines[j] = y.lines[j]) :
    rawReturn m x t c q k = rawReturn m y t c q k := by
  have heard : ∀ j ∈ othersOf k c.plan.partners, x.lines[j] = y.lines[j] := by
    intro j other
    obtain ⟨-, notOwn, notPartner⟩ := Finset.mem_filter.mp other
    exact lines j notOwn notPartner
  have air : ∑ j ∈ othersOf k c.plan.partners, airPart m x j = ∑ j ∈ othersOf k c.plan.partners, airPart m y j :=
    Finset.sum_congr rfl fun j other => by unfold airPart; rw [heard j other]
  have group : ∀ g : Group,
      ∑ j ∈ (othersOf k c.plan.partners).filter fun j => (m.contribs[j]).group.index = g, groupPart m x j =
      ∑ j ∈ (othersOf k c.plan.partners).filter fun j => (m.contribs[j]).group.index = g, groupPart m y j :=
    fun g => Finset.sum_congr rfl fun j other => by
      unfold groupPart
      rw [heard j (Finset.mem_of_mem_filter j other)]
  have talker : ∀ i, talkerInput x i = talkerInput y i := fun i => by unfold talkerInput; rw [sources]
  have source : ∀ i, sourcePart m x i = sourcePart m y i := fun i => by unfold sourcePart; rw [sources]
  rw [rawReturn_eq m x t q once own, rawReturn_eq m y t q once own, air, group, sources]
  simp only [talker, source]

/-! ### The outputs of lane 3 (R5 to R7, R85) -/

section
variable (m : Mix) (x : Inputs) (t : ScreeningTable) (ctx : Vector LineCtx 24)

theorem busOutput_feed (p : Position) : busOutput m x t ctx (Fin.ofNat 8 (p.val + 1)) = listenFeed m x t ctx p := by
  revert p
  exact Fin.forall_fin_succ.mpr ⟨rfl, Fin.forall_fin_succ.mpr ⟨rfl, Fin.forall_fin_succ.mpr ⟨rfl, fun p => p.elim0⟩⟩⟩

theorem busOutput_group (g : Group) : busOutput m x t ctx (Fin.ofNat 8 (g.val + 4)) = groupBus m x g := by
  revert g
  exact Fin.forall_fin_succ.mpr ⟨rfl, Fin.forall_fin_succ.mpr ⟨rfl, Fin.forall_fin_succ.mpr ⟨rfl,
    Fin.forall_fin_succ.mpr ⟨rfl, fun g => g.elim0⟩⟩⟩⟩

theorem listenFeed_hears {p : Position} {j : Line} (selected : (t.positions[p]).selected = some j)
    (screen : (ctx[j]).state = .screen) (own : (ctx[j]).position = some p) :
    listenFeed m x t ctx p = scale x.lines[j] (m.contribs[j]).voice := by
  unfold listenFeed
  rw [selected]
  simp only [screen, own, decide_true, Bool.and_self, if_true]

theorem listenFeed_silent {p : Position}
    (none : ∀ j : Line, ¬ ((t.positions[p]).selected = some j ∧ (ctx[j]).state = .screen ∧ (ctx[j]).position = some p)) :
    listenFeed m x t ctx p = 0 := by
  unfold listenFeed
  split
  next => rfl
  next j selected =>
    refine if_neg ?_
    rw [Bool.and_eq_true, decide_eq_true_eq, decide_eq_true_eq]
    exact fun hears => none j ⟨selected, hears⟩

theorem groupBus_eq (g : Group) :
    groupBus m x g = ∑ j ∈ Finset.univ.filter fun j : Line => (m.contribs[j]).group.index = g, groupPart m x j := by
  rw [Finset.sum_filter]
  rfl

end

end Sys2Proof.Machine

open Sys2Proof Sys2Proof.Machine

/-- Settles O18: what is subtracted from a bus is exactly the share of the own line and the partners, so that the sum over
the other lines is left. -/
theorem ownVoiceCancelled : Obligations.OwnVoiceCancelled := by
  unfold Obligations.OwnVoiceCancelled
  refine ⟨fun m x y t c q k once own => ⟨rawReturn_eq m x t q once own, rawReturn_congr m t q once own⟩,
    fun m x t ctx => ⟨rfl, fun p => ⟨fun j hears => ?_, fun silent => ?_⟩, fun g => ?_⟩⟩
  · obtain ⟨selected, screen, position⟩ := hears
    exact (busOutput_feed m x t ctx p).trans (listenFeed_hears m x t ctx selected screen position)
  · exact (busOutput_feed m x t ctx p).trans (listenFeed_silent m x t ctx silent)
  · exact (busOutput_group m x t ctx g).trans (groupBus_eq m x g)
end

