-- ==== Sys2Proof/Proofs/Samples.lean ====
section
/-! PROOFS. A sample: its inputs, what it measures, and the frames it sends (R11 to R13, R90 to R97). -/

namespace Sys2Proof.Machine

/-! ### The inputs of a sample (R85, R91, R93) -/

theorem State.readLanes_lane (s : State) (i : InLane) : s.readLanes.lrx.lanes[i] = (s.lrx.lanes[i]).readOnce := ofFn_at ..

theorem State.inputs_line (s : State) {i : InLane} {j : Slot} {k : Line} (carried : k.val = 8 * i.val + j.val) :
    s.inputs.lines[k] = (s.lrx.lanes[i]).present j := by
  have lane : lineLane k = i := Fin.ext (by rw [lineLane, Fin.val_ofNat]; omega)
  have slot : lineSlot k = j := Fin.ext (by rw [lineSlot, Fin.val_ofNat]; omega)
  subst lane slot
  exact ofFn_at ..

theorem State.inputs_source (s : State) {i : InLane} {j : Slot} {y : Source} (carried : 24 + y.val = 8 * i.val + j.val) :
    s.inputs.sources[y] = (s.lrx.lanes[i]).present j := by
  have lane : sourceLane y = i := Fin.ext (by rw [sourceLane, Fin.val_ofNat]; omega)
  have slot : sourceSlot y = j := Fin.ext (by rw [sourceSlot, Fin.val_ofNat]; omega)
  subst lane slot
  exact ofFn_at ..

theorem exec_elasticRead (s : State) (i : InLane) :
    exec (.elasticRead i) s = .next (s.setInLane i (s.lrx.lanes[i]).readOnce) := rfl

/-- The inputs of a sample are those that its lanes carry after their one read. -/
theorem State.inSample_carries (s : State) : s.carries s.inSample.inputs := by
  intro i j u run
  obtain rfl : s.setInLane i (s.lrx.lanes[i]).readOnce = u := Host.Outcome.next.inj ((exec_elasticRead s i).symm.trans run)
  rw [State.setInLane_at]
  have lane : s.inSample.lrx.lanes[i] = (s.lrx.lanes[i]).readOnce := s.readLanes_lane i
  refine ⟨fun k carried => ?_, fun y carried => ?_⟩
  · rw [s.inSample.inputs_line carried, lane]
    rfl
  · rw [s.inSample.inputs_source carried, lane]
    rfl

/-! ### What a sample measures (R11 to R13) -/

theorem exec_sample (s : State) : exec .sample s = .next s.takeSample := rfl

theorem clampSample_eq_iff (v : Int) : clampSample v = v ↔ -8388608 ≤ v ∧ v ≤ 8388607 := by
  show max (-8388608) (min 8388607 v) = v ↔ _
  omega

theorem clampSample_range (v : Int) : -8388608 ≤ clampSample v ∧ clampSample v ≤ 8388607 := by
  show -8388608 ≤ max (-8388608) (min 8388607 v) ∧ max (-8388608) (min 8388607 v) ≤ 8388607
  omega

theorem clipAfter_eq (clip : BitVec 32) (raw : Int) :
    clipAfter clip raw = clip + if -8388608 ≤ raw ∧ raw ≤ 8388607 then 0 else 1 := by
  unfold clipAfter
  simp only [clampSample_eq_iff]
  split
  · exact (BitVec.add_zero clip).symm
  · rfl

section
variable (s : State)

/-- The raw return of a line in a sample. -/
def State.rawAt (k : Line) : Int :=
  rawReturn s.mix.advance s.inSample.inputs s.scrn.table s.line.ctx[k] s.cue.returns[k] k

/-- A raw output of lane 3 in a sample. -/
def State.busAt (i : Slot) : Int := busOutput s.mix.advance s.inSample.inputs s.scrn.table s.line.ctx i

theorem State.outputs_return (k : Line) : s.inSample.outputs.returns[k] = s.rawAt k := ofFn_at ..

theorem State.outputs_bus (i : Slot) : s.inSample.outputs.buses[i] = s.busAt i := ofFn_at ..

theorem State.takeSample_source (i : Source) :
    s.takeSample.mix.sources[i] =
      { s.mix.sources[i] with
        air := (s.mix.sources[i]).air.advance
        peak := max (s.mix.sources[i]).peak (s.inSample.inputs.sources[i]).natAbs } := by
  show (s.mix.advance.measure s.inSample.inputs s.inSample.outputs).sources[i] = _
  unfold Mix.measure
  rw [ofFn_at]
  unfold Mix.advance
  rw [ofFn_at]
  rfl

theorem State.takeSample_contrib (k : Line) :
    s.takeSample.mix.contribs[k] =
      { s.mix.contribs[k] with
        air := (s.mix.contribs[k]).air.advance
        group := (s.mix.contribs[k]).group.advance
        peak := max (s.mix.contribs[k]).peak (s.inSample.inputs.lines[k]).natAbs } := by
  show (s.mix.advance.measure s.inSample.inputs s.inSample.outputs).contribs[k] = _
  unfold Mix.measure
  rw [ofFn_at]
  unfold Mix.advance
  rw [ofFn_at]
  rfl

theorem State.takeSample_return (k : Line) :
    s.takeSample.mix.returns[k] =
      { s.mix.advance.returns[k] with
        peak := max (s.mix.returns[k]).peak (clampSample (s.rawAt k)).natAbs
        clip := (s.mix.returns[k]).clip + if -8388608 ≤ s.rawAt k ∧ s.rawAt k ≤ 8388607 then 0 else 1 } := by
  show (s.mix.advance.measure s.inSample.inputs s.inSample.outputs).returns[k] = _
  unfold Mix.measure
  rw [ofFn_at, s.outputs_return k, clipAfter_eq]
  unfold Mix.advance
  rw [ofFn_at]
  rfl

theorem State.takeSample_output (i : Slot) :
    s.takeSample.mix.outputs[i] =
      { peak := max (s.mix.outputs[i]).peak (clampSample (s.busAt i)).natAbs
        clip := (s.mix.outputs[i]).clip + if -8388608 ≤ s.busAt i ∧ s.busAt i ≤ 8388607 then 0 else 1 } := by
  show (s.mix.advance.measure s.inSample.inputs s.inSample.outputs).outputs[i] = _
  unfold Mix.measure
  rw [ofFn_at, s.outputs_bus i, clipAfter_eq]
  rfl

theorem Mix.advance_return (m : Mix) (k : Line) :
    m.advance.returns[k] =
      { m.returns[k] with
        air := (m.returns[k]).air.advance, group := (m.returns[k]).group.advance, hold := (m.returns[k]).hold.advance,
        screener := (m.returns[k]).screener.advance, cueIn := (m.returns[k]).cueIn.advance,
        cueOut := (m.returns[k]).cueOut.advance } := ofFn_at ..

theorem State.takeSample_inLane (i : InLane) :
    s.takeSample.lrx.lanes[i] =
      { (s.lrx.lanes[i]).readOnce with
        readDone := false
        sideSample :=
          if ((s.lrx.lanes[i]).readOnce).state = .locked then ((s.lrx.lanes[i]).readOnce).shown.side
          else Vector.replicate 8 none } := by
  have ended : s.takeSample.lrx.lanes[i] = (s.readLanes.lrx.lanes[i]).endSample := ofFn_at ..
  rw [ended, s.readLanes_lane i]
  rfl

theorem State.takeSample_outLane (l : OutLane) :
    s.takeSample.ltx.lanes[l] = (s.ltx.lanes[l]).put (s.inSample.frame s.inSample.outputs l) := ofFn_at ..

theorem State.takeSample_eq :
    s.takeSample =
      { s with mix := s.takeSample.mix, lrx := s.takeSample.lrx, ltx := s.takeSample.ltx, inst := s.takeSample.inst } := by
  rw [← s.takeSample_line, ← s.takeSample_scrn, ← s.takeSample_cue, ← s.takeSample_cmap, ← s.takeSample_ref,
    ← s.takeSample_intake, ← s.takeSample_report, ← s.takeSample_link, ← s.takeSample_hostMem, ← s.takeSample_pending]

theorem State.takeSample_mix :
    s.takeSample.mix =
      { s.mix with sources := s.takeSample.mix.sources, contribs := s.takeSample.mix.contribs,
                   returns := s.takeSample.mix.returns, outputs := s.takeSample.mix.outputs } := rfl

theorem State.takeSample_lrx : s.takeSample.lrx = { s.lrx with lanes := s.takeSample.lrx.lanes } := rfl

end

/-! ### The frames sent (R94 to R97) -/

theorem convertOut_range (width : Width) {v : Int} (low : -8388608 ≤ v) (high : v ≤ 8388607) :
    -8388608 ≤ convertOut width v ∧ convertOut width v ≤ 8388607 := by
  cases width
  · exact ⟨low, high⟩
  · show -8388608 ≤ max (-32768) (min 32767 ((v + 128) / 256)) * 256 ∧
      max (-32768) (min 32767 ((v + 128) / 256)) * 256 ≤ 8388607
    omega

section
variable (hold : Bool) (width : Width) (v : Int) (code : BitVec 6)

theorem formSlot_parity : parityOk (formSlot hold width v code) = true := by
  unfold formSlot
  cases hold
  · exact parityOk_makeSlot ..
  · exact parityOk_makeSlot ..

theorem formSlot_hold : formSlot true width v code = 1 := by
  show makeSlot 0 0 false = 1
  decide

theorem formSlot_valid : slotValid (formSlot false width v code) = true := slotValid_makeSlot ..

theorem formSlot_code : slotCode (formSlot false width v code) = code := slotCode_makeSlot ..

theorem formSlot_audio : slotAudio .wide (formSlot false width (clampSample v) code) = convertOut width (clampSample v) := by
  obtain ⟨low, high⟩ := clampSample_range v
  obtain ⟨least, greatest⟩ := convertOut_range width low high
  exact slotAudio_makeSlot _ _ _ least greatest

end

theorem returnCode_toNat (c : LineCtx) (q : CueReturn) :
    (returnCode c q).toNat = c.state.index + if q.winner.isSome then 8 else 0 := by
  unfold returnCode
  rw [BitVec.toNat_ofNat]
  refine Nat.mod_eq_of_lt ?_
  have small : c.state.index ≤ 7 := by cases c.state <;> decide
  split <;> omega

section
variable (s : State) (l : OutLane) (i : Slot)

/-- The slot word of a return. -/
theorem State.frame_return {k : Line} (carried : k.val = 8 * l.val + i.val) :
    (s.inSample.frame s.inSample.outputs l)[i] =
      formSlot s.ltx.hold (s.ltx.lanes[l]).setup.width (clampSample (s.rawAt k))
        (returnCode s.line.ctx[k] s.cue.returns[k]) := by
  have line : laneLine l i = k := Fin.ext (by rw [laneLine, Fin.val_ofNat]; omega)
  have notLast : l.val ≠ 3 := by have := k.isLt; omega
  subst line
  rw [← s.outputs_return]
  unfold State.frame formFrame
  rw [ofFn_at, if_neg notLast]
  rfl

/-- The slot word of an output of lane 3. -/
theorem State.frame_bus (last : l.val = 3) :
    (s.inSample.frame s.inSample.outputs l)[i] =
      formSlot s.ltx.hold (s.ltx.lanes[l]).setup.width (clampSample (s.busAt i)) 0 := by
  rw [← s.outputs_bus i]
  unfold State.frame formFrame
  rw [ofFn_at, if_pos last]
  rfl

/-- Every slot word is formed of a clamped output. -/
theorem State.frame_formed :
    ∃ v code, (s.inSample.frame s.inSample.outputs l)[i] =
      formSlot s.ltx.hold (s.ltx.lanes[l]).setup.width (clampSample v) code := by
  by_cases last : l.val = 3
  · exact ⟨_, _, s.frame_bus l i last⟩
  · have inside : 8 * l.val + i.val < 24 := by omega
    exact ⟨_, _, s.frame_return l i (k := ⟨8 * l.val + i.val, inside⟩) rfl⟩

end

section
variable {c : OutLaneCtx} (f : SlotWords)

theorem OutLaneCtx.put_off (off : c.running = false) : c.put f = c := by
  unfold OutLaneCtx.put
  rw [off]
  rfl

theorem OutLaneCtx.put_master (running : c.running = true) (master : c.setup.clocking = .master) :
    c.put f = { c with sent := some (frameWords f) } := by
  unfold OutLaneCtx.put
  rw [running, master]
  rfl

theorem OutLaneCtx.put_slave (running : c.running = true) (slave : c.setup.clocking = .slave) :
    c.put f =
      { c with
        buffer := bufferArrive c.buffer f
        overruns := if isOverrun c.buffer then countUp c.overruns else c.overruns } := by
  unfold OutLaneCtx.put
  rw [running, slave]
  rfl

theorem OutLaneCtx.put_room (running : c.running = true) (slave : c.setup.clocking = .slave) (room : c.buffer.length < 4) :
    c.put f = { c with buffer := c.buffer ++ [f] } := by
  rw [c.put_slave f running slave, bufferArrive_room room, if_neg (mt (isOverrun_iff _).mp (Nat.not_le.mpr room))]

theorem OutLaneCtx.put_full (running : c.running = true) (slave : c.setup.clocking = .slave) (full : 4 ≤ c.buffer.length) :
    c.put f = { c with buffer := c.buffer.tail, overruns := min 65535 (c.overruns + 1) } := by
  rw [c.put_slave f running slave, bufferArrive_full full, if_pos ((isOverrun_iff _).mpr full)]
  rfl

end

end Sys2Proof.Machine

open Sys2Proof Sys2Proof.Machine

/-- Settles O17: each slot word is formed of the clamped output that the lane carries there, and `put` sends it or
buffers it. -/
theorem sampleSends : Obligations.SampleSends := by
  unfold Obligations.SampleSends
  intro s t l run
  obtain rfl : s.takeSample = t := Host.Outcome.next.inj ((exec_sample s).symm.trans run)
  rw [s.takeSample_outLane l]
  refine ⟨s.inSample.inputs, s.inSample_carries, OutLaneCtx.put_off _, fun running =>
    ⟨s.inSample.frame s.inSample.outputs l, fun i => ?_, fun master =>
      ⟨frameWords _, OutLaneCtx.put_master _ running master, frameWords_sync _, frameWords_slot _⟩,
      fun slave => ⟨OutLaneCtx.put_room _ running slave, OutLaneCtx.put_full _ running slave⟩⟩⟩
  obtain ⟨v, code, formed⟩ := s.frame_formed l i
  refine ⟨?_, fun hold => ?_, fun live => ⟨?_, fun k carried => ?_, fun last => ?_⟩⟩
  · rw [formed]
    exact formSlot_parity ..
  · rw [formed, hold]
    exact formSlot_hold ..
  · rw [formed, live]
    exact formSlot_valid ..
  · rw [s.frame_return l i carried, live]
    exact ⟨formSlot_audio .., (congrArg BitVec.toNat (formSlot_code ..)).trans (returnCode_toNat ..)⟩
  · rw [s.frame_bus l i last, live]
    exact ⟨formSlot_audio .., formSlot_code ..⟩

/-- Settles O16: `Mix.measure` over the outputs of the advanced multipliers, and `endSample` over the lanes read. -/
theorem sampleMeasures : Obligations.SampleMeasures := by
  unfold Obligations.SampleMeasures
  intro s
  refine ⟨s.takeSample, exec_sample s, s.takeSample_eq, s.takeSample_mix, fun i => ?_, fun k => ?_, s.takeSample_lrx,
    fun i => ?_, s.inSample.inputs, s.inSample_carries, fun k => ?_, fun i => ?_, fun i => ?_⟩
  · rw [s.takeSample_source i]
  · rw [s.takeSample_contrib k, s.takeSample_return k, s.mix.advance_return k]
    exact ⟨rfl, rfl, rfl, rfl, rfl, rfl, rfl⟩
  · refine ⟨_, exec_elasticRead s i, ?_⟩
    rw [State.setInLane_at]
    exact s.takeSample_inLane i
  · rw [s.takeSample_contrib k, s.takeSample_return k]
    exact ⟨rfl, rfl, rfl⟩
  · rw [s.takeSample_output i]
    exact ⟨rfl, rfl⟩
  · rw [s.takeSample_source i]
end

