-- ==== Sys2Proof/Proofs/CueEvents.lean ====
section
/-! PROOFS. The events of keys, hold counts, fades and ramps taken ahead of their tick (R17, R20, R53, R56 to R58, R67). -/

namespace Sys2Proof.Machine

theorem State.applyDue_false {s : State} (h : s.intake.phase ≠ .ready ∨ s.inst.begun = true) : s.applyDue = false := by
  unfold State.applyDue
  obtain other | begun := h
  · rw [decide_eq_false other, Bool.false_and]
  · rw [begun, Bool.not_true, Bool.and_false]

/-! ### A route takes an event (R56 to R58) -/

section
variable {x : RouteCtx}

/-- A route let go, as the manual says it. -/
theorem RouteCtx.letGo_eq (x : RouteCtx) :
    x.letGo =
      { x with activity := if x.entry.hold = 0 then .idle else .holding, holdCount := x.entry.hold.val } := by
  unfold RouteCtx.letGo
  by_cases zero : x.entry.hold = 0
  · have none : x.entry.hold.val = 0 := congrArg Fin.val zero
    rw [if_pos none, if_pos zero, none]
  · have some : ¬ x.entry.hold.val = 0 := fun none => zero (Fin.ext none)
    rw [if_neg some, if_neg zero]

theorem RouteCtx.event_invalid (invalid : x.entry.valid = false) (e : KeyEvent) : x.event e = x := by
  unfold RouteCtx.event
  rw [invalid]
  rfl

theorem RouteCtx.event_momentary (valid : x.entry.valid = true) (mode : x.entry.mode = .momentary) (e : KeyEvent) :
    x.event e = x.momentaryEvent e := by
  unfold RouteCtx.event
  rw [valid, mode]
  rfl

theorem RouteCtx.event_latch (valid : x.entry.valid = true) (mode : x.entry.mode = .latch) (e : KeyEvent) :
    x.event e = x.latchEvent e := by
  unfold RouteCtx.event
  rw [valid, mode]
  rfl

theorem RouteCtx.latch_press_lets (latched : x.activity = .latched) : x.latchEvent .press = x.letGo := if_pos latched

theorem RouteCtx.latch_press_sets (other : x.activity ≠ .latched) :
    x.latchEvent .press = { x with activity := .latched, holdCount := 0 } := if_neg other

/-- A release moves an ACTIVE MOMENTARY route alone. -/
theorem RouteCtx.event_release_stays (stays : ¬ (x.entry.valid = true ∧ x.entry.mode = .momentary ∧ x.activity = .active)) :
    x.event .release = x := by
  cases valid : x.entry.valid with
  | false => exact RouteCtx.event_invalid valid _
  | true =>
    cases mode : x.entry.mode with
    | momentary =>
      rw [RouteCtx.event_momentary valid mode]
      exact if_neg fun active => stays ⟨valid, mode, active⟩
    | latch => exact RouteCtx.event_latch valid mode _

end

/-! ### A key taken (R53, R55) -/

section
variable (s : State) (k : Key) (e : KeyEvent) (r : Route)

theorem State.keyReady_of {s : State} {k : Key} (run : (s.cue.keys[k]).run = 3) (fresh : s.inst.keys[k] = false)
    (free : s.intake.phase ≠ .ready ∨ s.inst.begun = true) : s.keyReady k = true := by
  unfold State.keyReady
  rw [run, fresh, State.applyDue_false free]
  rfl

theorem State.takeKey_eq :
    s.takeKey k e =
      { s with
        cue := { s.cue with keys := (s.takeKey k e).cue.keys, routes := (s.takeKey k e).cue.routes }
        inst := (s.takeKey k e).inst } := rfl

theorem State.takeKey_keys :
    (s.takeKey k e).cue.keys = s.cue.keys.set k { s.cue.keys[k] with down := e = .press, run := 0 } := rfl

theorem State.takeKey_route : (s.takeKey k e).cue.routes[r] = s.routeEvent k e r := ofFn_at ..

theorem State.routeEvent_away (away : (s.cue.routes[r]).entry.key ≠ k ∨ s.inst.replaced[r] = true) :
    s.routeEvent k e r = s.cue.routes[r] := by
  refine if_neg ?_
  rw [Bool.and_eq_true, decide_eq_true_eq, Bool.not_eq_true']
  rintro ⟨own, held⟩
  obtain other | replaced := away
  · exact other own
  · exact Bool.noConfusion (held.symm.trans replaced)

theorem State.routeEvent_own {k : Key} {r : Route} (own : (s.cue.routes[r]).entry.key = k) (held : s.inst.replaced[r] = false) :
    s.routeEvent k e r = (s.cue.routes[r]).event e := by
  refine if_pos ?_
  rw [held, decide_eq_true own]
  rfl

theorem exec_keyPress {s : State} {k : Key} (up : (s.cue.keys[k]).down = false) (ready : s.keyReady k = true) :
    exec (.keyPress k) s = .next (s.takeKey k .press) := by
  have due : s.pressDue k = true := by
    unfold State.pressDue
    rw [up, ready]
    rfl
  exact congrArg Host.Outcome.next (if_pos due)

theorem exec_keyRelease {s : State} {k : Key} (down : (s.cue.keys[k]).down = true) (clear : (s.cue.keys[k]).soft = false)
    (ready : s.keyReady k = true) : exec (.keyRelease k) s = .next (s.takeKey k .release) := by
  have due : s.releaseDue k = true := by
    unfold State.releaseDue
    rw [down, clear, ready]
    rfl
  exact congrArg Host.Outcome.next (if_pos due)

end

/-! ### Hold counts and fades (R58, R67) -/

theorem RouteCtx.slowTick_last {x : RouteCtx} (holding : x.activity = .holding) (last : x.holdCount = 1) :
    x.slowTick = { x with activity := .idle, holdCount := 0 } := by
  unfold RouteCtx.slowTick
  rw [if_pos holding, if_pos last.le]

theorem exec_holdCountExpiry {s : State} {r : Route} (valid : (s.cue.routes[r]).entry.valid = true)
    (holding : (s.cue.routes[r]).activity = .holding) (last : (s.cue.routes[r]).holdCount = 1)
    (slow : (s.report.blockCount + 1).toNat % 16 = 0) (fresh : s.inst.holds[r] = false)
    (kept : s.inst.replaced[r] = false) (free : s.intake.phase ≠ .ready ∨ s.inst.begun = true) :
    exec (.holdCountExpiry r) s = .next (s.expireRoute r) := by
  have coming : s.comingSlow = true := beq_iff_eq.mpr slow
  have due : s.expiryDue r = true := by
    unfold State.expiryDue
    simp only [valid, holding, last, coming, fresh, kept, State.applyDue_false free, decide_true, Bool.and_self,
      Bool.not_false]
  exact congrArg Host.Outcome.next (if_pos due)

theorem exec_outgoingFadeEnd {s : State} {k : Line} (outgoing : (s.cue.returns[k]).outgoing.isSome = true)
    (zero : (s.mix.returns[k]).cueOut.cur = 0) (rest : (s.mix.returns[k]).cueOut.len ≤ (s.mix.returns[k]).cueOut.pos) :
    exec (.outgoingFadeEnd k) s =
      .next (s.setCue k { s.cue.returns[k] with outgoing := none, outTalker := none }).markOther := by
  have ended : s.fadeEnded k = true := by
    unfold State.fadeEnded
    rw [outgoing, (Ramp.silent_iff _).mpr ⟨rest, zero⟩]
    rfl
  exact congrArg Host.Outcome.next (if_pos ended)

/-! ### Ramps replaced (R17) -/

section
variable (m : Mix) (r : Ramp) (i : RampId)

theorem Mix.setRamp_source (x : Source) :
    (m.setRamp r i).sources[x] =
      { m.sources[x] with air := if i = .sourceAir x then r else (m.sources[x]).air } := by
  cases i with
  | sourceAir y =>
    by_cases same : y = x
    · subst same
      rw [if_pos rfl]
      exact set_same ..
    · rw [if_neg (by simpa using same)]
      exact set_other _ _ (Ne.symm same)
  | _ => rfl

theorem Mix.setRamp_contrib (l : Line) :
    (m.setRamp r i).contribs[l] =
      { m.contribs[l] with
        air := if i = .lineAir l then r else (m.contribs[l]).air
        group :=
          { (m.contribs[l]).group with ramp := if i = .lineGroup l then r else (m.contribs[l]).group.ramp } } := by
  have own : ∀ (k : Line) (b : ContribCtx), k ≠ l → (m.contribs.set k b)[l] = m.contribs[l] :=
    fun k b other => set_other _ _ (Ne.symm other)
  cases i with
  | lineAir k | lineGroup k =>
    by_cases same : k = l
    · subst same
      simp only [if_true, reduceCtorEq, if_false]
      exact set_same ..
    · simp only [RampId.lineAir.injEq, RampId.lineGroup.injEq, same, reduceCtorEq, if_false]
      exact own _ _ same
  | _ => rfl

theorem Mix.setRamp_return (l : Line) :
    (m.setRamp r i).returns[l] =
      { m.returns[l] with
        air := if i = .airTerm l then r else (m.returns[l]).air
        group := { (m.returns[l]).group with ramp := if i = .groupTerm l then r else (m.returns[l]).group.ramp }
        hold := if i = .holdTerm l then r else (m.returns[l]).hold
        screener := if i = .screenerTerm l then r else (m.returns[l]).screener
        cueIn := if i = .cueIn l then r else (m.returns[l]).cueIn
        cueOut := if i = .cueOut l then r else (m.returns[l]).cueOut } := by
  have own : ∀ (k : Line) (b : ReturnCtx), k ≠ l → (m.returns.set k b)[l] = m.returns[l] :=
    fun k b other => set_other _ _ (Ne.symm other)
  cases i with
  | airTerm k | groupTerm k | holdTerm k | screenerTerm k | cueIn k | cueOut k =>
    by_cases same : k = l
    · subst same
      simp only [if_true, reduceCtorEq, if_false]
      exact set_same ..
    · simp only [RampId.airTerm.injEq, RampId.groupTerm.injEq, RampId.holdTerm.injEq, RampId.screenerTerm.injEq,
        RampId.cueIn.injEq, RampId.cueOut.injEq, same, reduceCtorEq, if_false]
      exact own _ _ same
  | _ => rfl

/-- Of all the ramps of MIX, the one named alone is replaced. -/
theorem Mix.setRamp_ramp (j : RampId) : (m.setRamp r i).ramp j = if i = j then r else m.ramp j := by
  cases j with
  | sourceAir x => exact congrArg SourceCtx.air (m.setRamp_source r i x)
  | lineAir l => exact congrArg ContribCtx.air (m.setRamp_contrib r i l)
  | lineGroup l => exact congrArg (fun b => b.group.ramp) (m.setRamp_contrib r i l)
  | airTerm l => exact congrArg ReturnCtx.air (m.setRamp_return r i l)
  | groupTerm l => exact congrArg (fun b => b.group.ramp) (m.setRamp_return r i l)
  | holdTerm l => exact congrArg ReturnCtx.hold (m.setRamp_return r i l)
  | screenerTerm l => exact congrArg ReturnCtx.screener (m.setRamp_return r i l)
  | cueIn l => exact congrArg ReturnCtx.cueIn (m.setRamp_return r i l)
  | cueOut l => exact congrArg ReturnCtx.cueOut (m.setRamp_return r i l)

theorem Mix.setRamp_eq :
    m.setRamp r i =
      { m with sources := (m.setRamp r i).sources, contribs := (m.setRamp r i).contribs,
               returns := (m.setRamp r i).returns } := by
  cases i <;> rfl

end

theorem exec_rampEnd_ending {s : State} {i : RampId} (last : (s.mix.ramp i).pos + 1 = (s.mix.ramp i).len) :
    exec (.rampEnd i) s = .next { s with mix := s.mix.setRamp (s.mix.ramp i).finish i } :=
  congrArg Host.Outcome.next (if_pos (beq_iff_eq.mpr last))

theorem exec_rampEnd_rest {s : State} {i : RampId} (rest : (s.mix.ramp i).len ≤ (s.mix.ramp i).pos) :
    exec (.rampEnd i) s = .next (s.rampSwitch i) :=
  congrArg Host.Outcome.next (if_neg fun last => by
    have ending : (s.mix.ramp i).pos + 1 = (s.mix.ramp i).len := beq_iff_eq.mp last
    omega)

/-! ### Pending groups (R20) -/

section
variable {g : GroupRamp}

/-- A group-indexed ramp at rest at 0 leaves nothing pending: it takes the group wanted, or keeps its own where none is. -/
theorem GroupRamp.retarget_silent (zero : g.ramp.cur = 0) (rest : g.ramp.len ≤ g.ramp.pos) (want : Option (Group × Int))
    (len : Nat) :
    (g.retarget want len).pending = none ∧ (g.retarget want len).ramp.cur = 0 ∧
      (∀ h v, want = some (h, v) → (g.retarget want len).index = h ∧ (g.retarget want len).ramp.target = v) ∧
      (want = none → (g.retarget want len).index = g.index ∧ (g.retarget want len).ramp.target = 0) := by
  cases want with
  | none =>
    rw [GroupRamp.retarget_none]
    exact ⟨rfl, (Ramp.retarget_cur ..).trans zero, fun _ _ named => (nomatch named),
      fun _ => ⟨rfl, Ramp.retarget_target ..⟩⟩
  | some wanted =>
    obtain ⟨h, v⟩ := wanted
    by_cases same : h = g.index
    · subst same
      rw [GroupRamp.retarget_same]
      refine ⟨rfl, (Ramp.retarget_cur ..).trans zero, fun h w named => ?_, fun none => nomatch none⟩
      obtain ⟨rfl, rfl⟩ := Prod.mk.inj (Option.some.inj named)
      exact ⟨rfl, Ramp.retarget_target ..⟩
    · rw [GroupRamp.retarget_take g len same v (Ramp.retarget_zero_silent len zero (.inl rest))]
      refine ⟨rfl, (Ramp.retarget_cur ..).trans ((Ramp.retarget_cur ..).trans zero), fun h w named => ?_,
        fun none => nomatch none⟩
      obtain ⟨rfl, rfl⟩ := Prod.mk.inj (Option.some.inj named)
      exact ⟨rfl, Ramp.retarget_target ..⟩

theorem GroupRamp.switches_of (zero : g.ramp.cur = 0) (rest : g.ramp.len ≤ g.ramp.pos)
    (pending : g.pending.isSome = true) : g.switches = true := by
  unfold GroupRamp.switches
  rw [(Ramp.silent_iff _).mpr ⟨rest, zero⟩, pending]
  rfl

theorem groupMemberWant_confer {c : LineCtx} {h : Group} (confer : c.state = .confer) (role : c.plan.role = .confer h)
    (voice : Int) : groupMemberWant c voice = some (h, voice) := by
  unfold groupMemberWant
  rw [if_pos confer, role]
  rfl

theorem groupMemberWant_other {c : LineCtx} (other : c.state ≠ .confer) (voice : Int) : groupMemberWant c voice = none :=
  if_neg other

end

section
variable {s : State} {l : Line}

theorem exec_rampEnd_member (free : s.intake.phase ≠ .ready ∨ s.inst.begun = true)
    (zero : (s.mix.contribs[l]).group.ramp.cur = 0)
    (rest : (s.mix.contribs[l]).group.ramp.len ≤ (s.mix.contribs[l]).group.ramp.pos)
    (pending : (s.mix.contribs[l]).group.pending.isSome = true) :
    exec (.rampEnd (.lineGroup l)) s = .next (s.switchMember l) := by
  rw [exec_rampEnd_rest (i := .lineGroup l) rest]
  refine congrArg Host.Outcome.next (if_pos ?_)
  rw [GroupRamp.switches_of zero rest pending, State.applyDue_false free]
  rfl

theorem exec_rampEnd_term (free : s.intake.phase ≠ .ready ∨ s.inst.begun = true)
    (zero : (s.mix.returns[l]).group.ramp.cur = 0)
    (rest : (s.mix.returns[l]).group.ramp.len ≤ (s.mix.returns[l]).group.ramp.pos)
    (pending : (s.mix.returns[l]).group.pending.isSome = true) :
    exec (.rampEnd (.groupTerm l)) s = .next (s.switchTerm l) := by
  rw [exec_rampEnd_rest (i := .groupTerm l) rest]
  refine congrArg Host.Outcome.next (if_pos ?_)
  rw [GroupRamp.switches_of zero rest pending, State.applyDue_false free]
  rfl

end

end Sys2Proof.Machine

open Sys2Proof Sys2Proof.Machine

/-- Settles O35: a key that is ready takes its event, and each route moves as its mode gives. -/
theorem keyEventsTaken : Obligations.KeyEventsTaken := by
  unfold Obligations.KeyEventsTaken
  intro s k run fresh free
  have ready := State.keyReady_of run fresh free
  refine ⟨fun up => ⟨_, exec_keyPress up ready, s.takeKey_eq k .press, s.takeKey_keys k .press, fun r => ?_⟩,
    fun down clear => ⟨_, exec_keyRelease down clear ready, s.takeKey_eq k .release, s.takeKey_keys k .release,
      fun r => ?_⟩⟩
  · rw [s.takeKey_route k .press r]
    refine ⟨fun away => ?_, fun own valid held => ?_⟩
    · by_cases invalid : (s.cue.routes[r]).entry.valid = false
      · unfold State.routeEvent
        simp only [RouteCtx.event_invalid invalid, ite_self]
      · refine s.routeEvent_away k .press r ?_
        tauto
    · rw [s.routeEvent_own .press own held]
      refine ⟨fun mode => ?_, fun mode other => ?_, fun mode latched => ?_⟩
      · exact RouteCtx.event_momentary valid mode _
      · rw [RouteCtx.event_latch valid mode, RouteCtx.latch_press_sets other]
      · rw [RouteCtx.event_latch valid mode, RouteCtx.latch_press_lets latched, RouteCtx.letGo_eq]
  · rw [s.takeKey_route k .release r]
    refine ⟨fun stays => ?_, fun lets => ?_⟩
    · by_cases away : (s.cue.routes[r]).entry.key ≠ k ∨ s.inst.replaced[r] = true
      · exact s.routeEvent_away k .release r away
      · obtain ⟨own, held⟩ := not_or.mp away
        have kept : s.inst.replaced[r] = false := Bool.eq_false_iff.mpr held
        rw [s.routeEvent_own .release (not_not.mp own) kept]
        exact RouteCtx.event_release_stays fun moves => stays ⟨not_not.mp own, moves.1, kept, moves.2⟩
    · obtain ⟨own, valid, held, mode, active⟩ := lets
      rw [s.routeEvent_own .release own held, RouteCtx.event_momentary valid mode, ← RouteCtx.letGo_eq]
      exact if_pos active

/-- Settles O36: the slow tick of a count of 1, and the end of a fade, each taken ahead of its tick. -/
theorem cueEnds : Obligations.CueEnds := by
  unfold Obligations.CueEnds
  refine ⟨fun s r valid holding last slow fresh kept free => ?_, fun s k outgoing zero rest => ?_⟩
  · rw [exec_holdCountExpiry valid holding last slow fresh kept free]
    unfold State.expireRoute
    rw [RouteCtx.slowTick_last holding last]
  · rw [exec_outgoingFadeEnd outgoing zero rest]
    rfl

/-- Settles O37: `Mix.setRamp` replaces the ramp named alone, and a ramp at rest at 0 takes the group that its line wants. -/
theorem rampEnds : Obligations.RampEnds := by
  unfold Obligations.RampEnds
  refine ⟨fun s i last => ?_, fun s l free => ⟨fun zero rest pending => ?_, fun zero rest pending => ?_⟩⟩
  · refine ⟨_, exec_rampEnd_ending last, rfl, ?_, fun j other => ?_, fun l => ?_, fun x => ?_, Mix.setRamp_eq ..⟩
    · exact (Mix.setRamp_ramp ..).trans (if_pos rfl)
    · exact (Mix.setRamp_ramp ..).trans (if_neg (Ne.symm other))
    · have contrib := Mix.setRamp_contrib s.mix (s.mix.ramp i).finish i l
      have ret := Mix.setRamp_return s.mix (s.mix.ramp i).finish i l
      simp only [contrib, ret, and_self]
    · have source := Mix.setRamp_source s.mix (s.mix.ramp i).finish i x
      simp only [source, and_self]
  · have ends := GroupRamp.retarget_silent zero rest
      (groupMemberWant s.line.ctx[l] (s.mix.contribs[l]).voice) (rampSamples s.mix.mainBlocks)
    obtain ⟨none, silent, taken, dropped⟩ := ends
    refine ⟨_, exec_rampEnd_member free zero rest pending, none, silent, fun h confer role => ?_, fun other => ?_⟩
    · exact taken h _ (groupMemberWant_confer confer role _)
    · exact dropped (groupMemberWant_other other _)
  · have ends := GroupRamp.retarget_silent zero rest
      (groupTermWant (s.mix.returns[l]).duck s.line.ctx[l] (composition s.scrn.table l s.line.ctx[l]))
      (rampSamples s.mix.mainBlocks)
    exact ⟨_, exec_rampEnd_term free zero rest pending, ends⟩
end

