-- ==== Sys2Proof/Proofs/IntakeSteps.lean ====
section
/-! PROOFS. The steps of an intake: the take, the fetch of a section, its reads and their failures (R107, R111 to R114,
R159). -/

namespace Sys2Proof.Machine

/-! ### The take (R111) -/

/-- INTAKE with the post word taken. -/
def Intake.takes (i : Intake) (post : Word32) : Intake :=
  { i with
    phase := .fetching, taken := post, position := nextTaken post 0, staging := Staging.empty, verdicts := [],
    reportRequest := false, number := i.number + 1, head := none, record := none }

theorem State.takePost_eq (s : State) :
    s.takePost = { s with intake := s.intake.takes s.link.post, link := { s.link with post := 0 } } := rfl

/-- A post word with a bit pending has a lowest one. -/
theorem nextTaken_of_pending {post : Word32} (pending : post ≠ 0) :
    ∃ p : Section, nextTaken post 0 = some p ∧ post.getLsbD p.val = true ∧ ∀ n < p.val, post.getLsbD n = false := by
  cases next : nextTaken post 0 with
  | none =>
    refine absurd (BitVec.eq_of_getLsbD_eq fun n h => ?_) pending
    rw [(nextTaken_eq_none_iff post 0).mp next ⟨n, h⟩ (Nat.zero_le _)]
    exact BitVec.getLsbD_zero.symm
  | some p =>
    obtain ⟨-, set, lowest⟩ := (nextTaken_eq_some_iff post 0 p).mp next
    exact ⟨p, rfl, set, fun n below => lowest ⟨n, by omega⟩ (Nat.zero_le _) below⟩

theorem State.mayTake_iff (s : State) :
    s.mayTake = true ↔ s.intake.phase = .idle ∧ s.link.engine = .active ∧ s.link.post ≠ 0 := by
  unfold State.mayTake
  rw [Bool.and_eq_true, Bool.and_eq_true, decide_eq_true_eq, decide_eq_true_eq, decide_eq_true_eq, and_assoc]

theorem Link.engineTick_active_iff (k : Link) :
    k.engineTick.engine = .active ↔
      k.engine = .active ∨ (k.engine = .stopped ∧ k.memEnable = true ∧ k.busMaster = true) := by
  have starts : k.startsAtTick = true ↔ k.engine = .stopped ∧ k.memEnable = true ∧ k.busMaster = true := by
    unfold Link.startsAtTick
    rw [Bool.and_eq_true, Bool.and_eq_true, decide_eq_true_eq, and_assoc]
  unfold Link.engineTick
  split
  next starting => exact ⟨fun _ => .inr (starts.mp starting), fun _ => rfl⟩
  next stays => exact ⟨.inl, fun active => active.resolve_right fun starting => stays (starts.mpr starting)⟩

section
variable (s : State)

theorem State.takenAt_takes (idle : s.intake.phase = .idle) (active : s.link.engineTick.engine = .active)
    (pending : s.link.post ≠ 0) (fresh : s.inst.take = false) :
    s.takenAt = ({ s with link := s.link.engineTick } : State).takePost := by
  have may : ({ s with link := s.link.engineTick } : State).mayTake = true :=
    (State.mayTake_iff _).mpr ⟨idle, active, s.link.engineTick_post.symm ▸ pending⟩
  unfold State.takenAt State.takePhase State.takeTick
  rw [if_pos may]
  exact if_neg (Bool.eq_false_iff.mp fresh)

theorem State.takenAt_stands
    (stands : s.intake.phase ≠ .idle ∨ s.link.engineTick.engine ≠ .active ∨ s.link.post = 0 ∨ s.inst.take = true) :
    s.takenAt = { s with link := s.link.engineTick } := by
  unfold State.takenAt State.takePhase State.takeTick
  split
  next => rfl
  next fresh =>
    refine if_neg fun may => ?_
    obtain ⟨idle, active, pending⟩ := (State.mayTake_iff _).mp may
    have post : s.link.engineTick.post = s.link.post := s.link.engineTick_post
    obtain other | inactive | none | taken := stands
    · exact other idle
    · exact inactive active
    · exact pending (post.trans none)
    · exact fresh taken

theorem State.linePart_intake_of (free : s.applyDue = false) : s.linePart.intake = s.intake := by
  unfold State.linePart
  rw [free]
  exact s.linePhase_intake ..

end

/-! ### INTAKE and the read outstanding at a block tick (R111, R114) -/

section
variable (s : State) (pins : BitVec 16) (follows first : Bool)

/-- The part before the read outstanding has its tick. -/
def State.beforeRead : State := (s.audioTick pins).setRef ((s.audioTick pins).ref.tick follows)

theorem State.tickEvents_eq : s.tickEvents pins follows = (s.beforeRead pins follows).readTick := rfl

theorem State.blockTick_intake :
    (s.blockTick pins follows first).intake = (s.beforeRead pins follows).readTick.intake := by
  unfold State.blockTick
  rw [State.endTick_intake, State.roundPhase_intake, State.tickEvents_eq]

theorem State.blockTick_link :
    (s.blockTick pins follows first).link = (s.beforeRead pins follows).readTick.link := by
  unfold State.blockTick
  rw [State.endTick_link, State.roundPhase_link, State.tickEvents_eq]

theorem State.beforeRead_intake : (s.beforeRead pins follows).intake = s.takenAt.countBlock.linePart.intake := by
  unfold State.beforeRead
  rw [State.setRef_intake]
  simp [State.audioTick, State.takenAt]

theorem State.audioTick_link : (s.audioTick pins).link = s.takenAt.link := by
  simp [State.audioTick, State.takenAt]

theorem Link.raise_read_stale (k : Link) (bits : Word32) : (k.raise bits).read = k.read ∧ (k.raise bits).stale = k.stale := by
  rw [(k.raise_raises bits).eq]
  exact ⟨rfl, rfl⟩

theorem Link.engineTick_read (k : Link) : k.engineTick.read = k.read ∧ k.engineTick.stale = k.stale := by
  unfold Link.engineTick
  split <;> exact ⟨rfl, rfl⟩

/-- Neither the engine, the take nor the reference monitor touches the read outstanding. -/
theorem State.beforeRead_read :
    (s.beforeRead pins follows).link.read = s.link.read ∧ (s.beforeRead pins follows).link.stale = s.link.stale := by
  have taken : s.takenAt.link.read = s.link.engineTick.read ∧ s.takenAt.link.stale = s.link.engineTick.stale := by
    unfold State.takenAt State.takePhase State.takeTick
    split
    · exact ⟨rfl, rfl⟩
    · split <;> exact ⟨rfl, rfl⟩
  have engine := s.link.engineTick_read
  have audio : (s.audioTick pins).link.read = s.link.read ∧ (s.audioTick pins).link.stale = s.link.stale := by
    rw [State.audioTick_link]
    exact ⟨taken.1.trans engine.1, taken.2.trans engine.2⟩
  unfold State.beforeRead State.setRef
  split
  · exact audio
  · have raised := (s.audioTick pins).link.raise_read_stale noticeRef
    exact ⟨raised.1.trans audio.1, raised.2.trans audio.2⟩

theorem State.readTick_none {s : State} (none : s.link.read = none) : s.readTick = s := by
  unfold State.readTick
  rw [none]

/-- A block tick without a read outstanding, and with no apply due, leaves INTAKE as the take leaves it. -/
theorem State.blockTick_intake_of (none : s.link.read = none) (free : s.takenAt.countBlock.applyDue = false) :
    (s.blockTick pins follows first).intake = s.takenAt.intake := by
  have noRead := State.readTick_none ((s.beforeRead_read pins follows).1.trans none)
  rw [State.blockTick_intake, noRead, State.beforeRead_intake, State.linePart_intake_of _ free]
  rfl

end

/-! ### The end of a fetch without its data (R114, R159) -/

section
variable (s : State) (sec : Section)

theorem State.fetchFault_ends :
    (s.fetchFault sec).intake.staging = s.intake.staging ∧
      s.intake.endsFetch (s.fetchFault sec).intake sec
        { sec := sec, verdict := .fetchFault, edition := s.intake.head.getD 0, field := none, number := s.intake.number } :=
  ⟨Intake.close_staging .., Intake.close_endsFetch ..⟩

theorem State.issueRead_barred {s : State} (barred : s.link.busMaster = false) (step : ReadStep) :
    s.issueRead sec step = s.fetchFault sec := by
  unfold State.issueRead
  rw [barred]
  rfl

/-- A record read that may not be followed is the fault of its fetch (R159). -/
theorem State.readDone_record_barred {s : State} (barred : s.link.busMaster = false) (b : List Byte) :
    s.readDone sec .record b =
      ({ s with intake := { s.intake with record := some b } } : State).fetchFault sec :=
  State.issueRead_barred (s := { s with intake := { s.intake with record := some b } }) sec barred .tail

/-- A head read that may not be followed is the fault of its fetch, with the head value just read (R159). -/
theorem State.readDone_head_barred {s : State} (barred : s.link.busMaster = false) (b : List Byte) :
    s.readDone sec .head b =
      ({ s with intake := { s.intake with head := some (stampOf b) } } : State).fetchFault sec :=
  State.issueRead_barred (s := { s with intake := { s.intake with head := some (stampOf b) } }) sec barred .record

theorem State.issueRead_permitted {s : State} (permitted : s.link.busMaster = true) (step : ReadStep) :
    s.issueRead sec step =
      { s with
        link :=
          s.link.issueRead step (sectionAddress s.link sec + readOffset step) (readLength (sectionKind sec) step)
            s.inst.started } := by
  unfold State.issueRead
  rw [permitted]
  rfl

theorem recordLength_sectionKind : recordLength (sectionKind sec) = sectionRecordBytes sec := by
  revert sec
  decide

end

/-! ### The completion of a read (R114) -/

section
variable {s : State} {sec : Section} {r : PlanRead} (position : s.intake.position = some sec) (read : s.link.read = some r)
include position read

theorem exec_readCompletion_fault {x : ReadResult} (fails : readData r.length x = none) :
    exec (.readCompletion r.id x) s = .next (({ s with link := { s.link with read := none } } : State).fetchFault sec) := by
  simp [exec, execReadCompletion, State.completeRead, position, read, fails]

theorem exec_readCompletion_data {bytes : List Byte} (whole : bytes.length = r.length) :
    exec (.readCompletion r.id (.data bytes)) s =
      .next (({ s with link := { s.link with read := none } } : State).readDone sec r.step bytes) := by
  simp [exec, execReadCompletion, State.completeRead, readData, position, read, whole]

theorem exec_readTimeout_due (late : r.late = false) (fourth : r.age = 3) :
    exec .readTimeout s =
      .next (({ s with link := { s.link with read := none, stale := r.id :: s.link.stale } } : State).fetchFault
        sec).markOther := by
  simp [exec, execReadTimeout, State.timeoutDue, State.timeoutRead, Link.dropRead, PlanRead.times, Config.readTicks,
    position, read, late, fourth]

end

theorem exec_readCompletion_other {s : State} {r : PlanRead} (read : s.link.read = some r) {n : Nat} (other : n ≠ r.id)
    (x : ReadResult) :
    exec (.readCompletion n x) s = .next { s with link := { s.link with stale := s.link.stale.erase n } } := by
  simp [exec, execReadCompletion, Link.discard, read, other.symm]

theorem PlanRead.times_iff (r : PlanRead) : r.times = true ↔ r.late = false ∧ 3 ≤ r.age := by
  simp [PlanRead.times, Config.readTicks]

theorem exec_readTimeout_early {s : State} {r : PlanRead} (read : s.link.read = some r) (early : r.late = true ∨ r.age < 3) :
    exec .readTimeout s = .next s := by
  refine congrArg Host.Outcome.next (if_neg ?_)
  unfold State.timeoutDue
  rw [read, Option.any_some, PlanRead.times_iff]
  rintro ⟨prompt, old⟩
  obtain late | young := early
  · exact Bool.noConfusion (prompt.symm.trans late)
  · omega

/-! ### The read outstanding at a block tick (R114) -/

section
variable {s : State} {sec : Section} {r : PlanRead} (position : s.intake.position = some sec) (read : s.link.read = some r)

include read in
theorem State.readTick_early (early : r.times = false) :
    s.readTick = { s with link := { s.link with read := some r.counted } } := by
  unfold State.readTick
  rw [read]
  simp only [early, Bool.false_eq_true, if_false]

include position read in
theorem State.readTick_timeout (times : r.times = true) :
    s.readTick =
      ({ s with link := { s.link with read := none, stale := r.id :: s.link.stale } } : State).fetchFault sec := by
  unfold State.readTick State.timeoutRead Link.dropRead
  rw [read]
  simp only [times, if_true, position]

end

theorem PlanRead.times_false {r : PlanRead} (early : r.late = true ∨ r.age < 3) : r.times = false := by
  refine Bool.eq_false_iff.mpr fun times => ?_
  obtain ⟨prompt, old⟩ := r.times_iff.mp times
  obtain late | young := early
  · exact Bool.noConfusion (prompt.symm.trans late)
  · omega

theorem PlanRead.counted_issued_late {r : PlanRead} (late : r.late = true) : r.counted = { r with late := false } := by
  unfold PlanRead.counted
  rw [if_pos late]

theorem PlanRead.counted_prompt {r : PlanRead} (prompt : r.late = false) : r.counted = { r with age := r.age + 1 } := by
  unfold PlanRead.counted
  rw [prompt]
  rfl

/-- INTAKE before the read's tick while it is FETCHING: neither the take nor the apply reaches it. -/
theorem State.beforeRead_intake_fetching {s : State} (fetching : s.intake.phase = .fetching) (pins : BitVec 16)
    (follows : Bool) : (s.beforeRead pins follows).intake = s.intake := by
  have stands := s.takenAt_stands (.inl (by rw [fetching]; decide))
  have intake : s.takenAt.intake = s.intake := by rw [stands]
  have free : s.takenAt.countBlock.applyDue = false :=
    State.applyDue_false (.inl (by rw [show s.takenAt.countBlock.intake = s.takenAt.intake from rfl, intake, fetching]; decide))
  rw [State.beforeRead_intake, State.linePart_intake_of _ free]
  exact intake

/-! ### The fetch of a section begins (R112, R113) -/

section
variable {s : State} {sec : Section}

theorem exec_sectionFetch (fetching : s.intake.phase = .fetching) (none : s.link.read = none)
    (position : s.intake.position = some sec) : exec .sectionFetch s = .next (s.beginFetch sec) := by
  simp [exec, execSectionFetch, State.fetchable, fetching, none, position]

theorem State.beginFetch_inside (other : sec ≠ 31) (inside : sectionInside s.link sec = true) :
    s.beginFetch sec = s.issueRead sec .head := by
  unfold State.beginFetch
  rw [if_neg other, if_pos inside]

theorem State.beginFetch_outside (other : sec ≠ 31) (outside : sectionInside s.link sec = false) :
    s.beginFetch sec = ({ s with intake := s.intake.close sec .window 0 none } : State).countMiss := by
  unfold State.beginFetch
  rw [if_neg other, outside]
  rfl

/-- The fetch of a section reaches INTAKE and LINK alone. -/
theorem State.beginFetch_eq (s : State) (sec : Section) :
    s.beginFetch sec = { s with intake := (s.beginFetch sec).intake, link := (s.beginFetch sec).link } := by
  unfold State.beginFetch State.issueRead
  split
  · rfl
  · split
    · split <;> rfl
    · rfl

end

end Sys2Proof.Machine

open Sys2Proof Sys2Proof.Machine

/-- Settles O42: the take after the engine's start, which nothing else of the tick touches while no apply is due and no read
is outstanding. -/
theorem intakeTaken : Obligations.IntakeTaken := by
  unfold Obligations.IntakeTaken
  refine ⟨fun s pins follows first => ⟨s.blockTick pins follows first, rfl, fun idle active pending fresh none => ?_,
    fun stands => ?_⟩, fun s => ⟨fun idle active pending fresh => ?_, fun stands => ?_⟩⟩
  · have takes := s.takenAt_takes idle ((Link.engineTick_active_iff _).mpr active) pending fresh
    have post : s.link.engineTick.post = s.link.post := s.link.engineTick_post
    have intake : s.takenAt.intake = s.intake.takes s.link.post := by
      rw [takes, State.takePost_eq]
      exact congrArg s.intake.takes post
    have free : s.takenAt.countBlock.applyDue = false := State.applyDue_false (.inl (by
      rw [show s.takenAt.countBlock.intake = s.takenAt.intake from rfl, intake]
      exact fun ready => (nomatch ready)))
    beta_reduce
    rw [State.blockTick_post, s.blockTick_intake_of pins follows first none free, intake]
    refine ⟨?_, rfl, rfl, rfl, rfl, rfl, rfl, rfl, rfl, nextTaken_of_pending pending⟩
    rw [takes]
    rfl
  · have kept := s.takenAt_stands (stands.imp id (Or.imp (mt (Link.engineTick_active_iff _).mp) id))
    refine ⟨?_, fun idle none => ?_⟩
    · rw [State.blockTick_post, kept]
      exact s.link.engineTick_post
    · have intake : s.takenAt.intake = s.intake := by rw [kept]
      have free : s.takenAt.countBlock.applyDue = false := State.applyDue_false (.inl (by
        rw [show s.takenAt.countBlock.intake = s.takenAt.intake from rfl, intake, idle]
        decide))
      rw [s.blockTick_intake_of pins follows first none free, intake]
  · have may : (s.mayTake && !s.inst.take) = true := by
      rw [s.mayTake_iff.mpr ⟨idle, active, pending⟩, fresh]
      rfl
    exact ⟨_, congrArg Host.Outcome.next (if_pos may), rfl, rfl, rfl, rfl, rfl, rfl, rfl, rfl, rfl, rfl,
      nextTaken_of_pending pending⟩
  · refine congrArg Host.Outcome.next (if_neg fun takes => ?_)
    rw [Bool.and_eq_true, State.mayTake_iff, Bool.not_eq_true'] at takes
    obtain ⟨⟨idle, active, pending⟩, fresh⟩ := takes
    obtain other | inactive | none | taken := stands
    · exact other idle
    · exact inactive active
    · exact pending none
    · exact Bool.noConfusion (fresh.symm.trans taken)

/-- Settles O43: the branches of `beginFetch`, by the window and by bus mastering. -/
theorem sectionFetched : Obligations.SectionFetched := by
  unfold Obligations.SectionFetched
  intro s sec fetching none position
  have run := exec_sectionFetch fetching none position
  refine ⟨fun below => ?_, fun last => ?_⟩
  · have other : sec ≠ 31 := fun same => absurd (congrArg Fin.val same) (Nat.ne_of_lt below)
    refine ⟨_, run, s.beginFetch_eq sec, fun outside => ?_, fun inside permitted => ?_, fun inside barred head => ?_⟩
    · rw [State.beginFetch_outside other outside]
      exact ⟨rfl, Intake.close_endsFetch .., Intake.close_staging ..⟩
    · rw [State.beginFetch_inside other inside, State.issueRead_permitted sec permitted]
      exact ⟨rfl, rfl⟩
    · rw [State.beginFetch_inside other inside, State.issueRead_barred sec barred]
      obtain ⟨staging, ends⟩ := s.fetchFault_ends sec
      rw [head] at ends
      exact ⟨rfl, ends, staging⟩
  · obtain rfl : sec = 31 := Fin.ext last
    exact run

/-- Settles O44: each read that returns its bytes issues the next at its place. -/
theorem readsFollow : Obligations.ReadsFollow := by
  unfold Obligations.ReadsFollow
  intro s sec r bytes position read permitted whole
  have run := exec_readCompletion_data position read whole
  refine ⟨fun step a b pair => ?_, fun step => ?_⟩
  · subst pair
    rw [run, step, ← stampOf_pair, ← recordLength_sectionKind]
    exact congrArg Host.Outcome.next (if_pos permitted)
  · rw [run, step]
    exact congrArg Host.Outcome.next (if_pos permitted)

/-- Settles O46: every failure of a read is the fault of its fetch, and the block tick counts the read's age up to its
timeout. -/
theorem readFails : Obligations.ReadFails := by
  unfold Obligations.ReadFails
  intro s sec r position read
  refine ⟨?_, ?_, fun bytes short => ?_, fun barred bytes whole => ⟨fun step => ?_, fun step a b pair => ?_⟩,
    fun prompt fourth => ?_, exec_readTimeout_early read, fun fetching pins follows first => ?_,
    fun n x other => exec_readCompletion_other read other x⟩
  · exact ⟨_, exec_readCompletion_fault position read rfl, State.fetchFault_ends _ sec, rfl⟩
  · exact ⟨_, exec_readCompletion_fault position read rfl, State.fetchFault_ends _ sec, rfl⟩
  · exact ⟨_, exec_readCompletion_fault position read (if_neg short), State.fetchFault_ends _ sec, rfl⟩
  · have run := exec_readCompletion_data position read whole
    rw [step, State.readDone_record_barred (s := { s with link := { s.link with read := none } }) sec barred] at run
    exact ⟨_, run, State.fetchFault_ends _ sec, rfl⟩
  · have run := exec_readCompletion_data position read whole
    rw [step, State.readDone_head_barred (s := { s with link := { s.link with read := none } }) sec barred, pair,
      stampOf_pair] at run
    obtain ⟨staging, ends⟩ := State.fetchFault_ends
      ({ s with intake := { s.intake with head := some (b ++ a) }, link := { s.link with read := none } }) sec
    rw [pair]
    exact ⟨_, run, rfl, staging, ends⟩
  · exact ⟨_, exec_readTimeout_due position read prompt fourth, State.fetchFault_ends _ sec, rfl⟩
  · obtain ⟨same, stale⟩ := s.beforeRead_read pins follows
    have intake := State.beforeRead_intake_fetching fetching pins follows
    have outstanding := same.trans read
    refine ⟨s.blockTick pins follows first, rfl, fun late => ?_, fun prompt young => ?_, fun prompt fourth => ?_⟩
    · rw [State.blockTick_link, State.blockTick_intake, State.readTick_early outstanding (PlanRead.times_false (.inl late)),
        ← PlanRead.counted_issued_late late]
      exact ⟨rfl, stale, intake⟩
    · rw [State.blockTick_link, State.blockTick_intake, State.readTick_early outstanding (PlanRead.times_false (.inr young)),
        ← PlanRead.counted_prompt prompt]
      exact ⟨rfl, stale, intake⟩
    · have held : (s.beforeRead pins follows).intake.position = some sec := by rw [intake, position]
      beta_reduce
      rw [State.blockTick_link, State.blockTick_intake,
        State.readTick_timeout held outstanding (r.times_iff.mpr ⟨prompt, fourth.ge⟩), ← intake]
      exact ⟨rfl, congrArg (r.id :: ·) stale, State.fetchFault_ends _ sec⟩
end

