-- ==== Sys2Proof/Proofs/RecordBytes.lean ====
section
/-! PROOFS. The bytes of every record of a round at their offsets, and the room they take in the report area (R130, R133 to
R135, R164, R169, R170). -/

namespace Sys2Proof.Machine

/-! ### Fields as bytes (R164) -/

theorem byte8_toNat (n : Nat) : (byte8 n).toNat = n % 256 := BitVec.toNat_ofNat n 8

theorem byte8_of_lt {n : Nat} (small : n < 256) : (byte8 n).toNat = n := (byte8_toNat n).trans (Nat.mod_eq_of_lt small)

theorem byteOpt_some {n : Nat} (small : n ≤ 256) (x : Fin n) : (byteOpt (some x)).toNat = x.val :=
  byte8_of_lt (x.isLt.trans_le small)

/-- The two bytes of a field, least significant first. -/
theorem bytes16_value (v : Nat) : (BitVec.ofNat 8 v).toNat + 256 * (BitVec.ofNat 8 (v / 256)).toNat = v % 65536 := by
  rw [BitVec.toNat_ofNat, BitVec.toNat_ofNat]
  omega

/-- The four bytes of a field, least significant first. -/
theorem bytes32_value (v : Nat) :
    (BitVec.ofNat 8 v).toNat + 256 * (BitVec.ofNat 8 (v / 256)).toNat +
      65536 * ((BitVec.ofNat 8 (v / 65536)).toNat + 256 * (BitVec.ofNat 8 (v / 65536 / 256)).toNat) = v % 4294967296 := by
  rw [bytes16_value, bytes16_value]
  omega

theorem bytes16_bits (v : BitVec 16) :
    (BitVec.ofNat 8 v.toNat).toNat + 256 * (BitVec.ofNat 8 (v.toNat / 256)).toNat = v.toNat :=
  (bytes16_value v.toNat).trans (Nat.mod_eq_of_lt v.isLt)

theorem bytes32_bits (v : BitVec 32) :
    (BitVec.ofNat 8 v.toNat).toNat + 256 * (BitVec.ofNat 8 (v.toNat / 256)).toNat +
      65536 * ((BitVec.ofNat 8 (v.toNat / 65536)).toNat + 256 * (BitVec.ofNat 8 (v.toNat / 65536 / 256)).toNat) =
      v.toNat :=
  (bytes32_value v.toNat).trans (Nat.mod_eq_of_lt v.isLt)

/-! ### The records of a round (R136, R137) -/

theorem mem_roundRecords {s : State} {w : Work} {x : RoundRecord} (h : x ∈ roundRecords s w) :
    (∃ v ∈ w.verdicts, x = plainRecord (.verdict v.sec) (verdictBody v)) ∨
      x = plainRecord .part (partBody s s.report.blockCount) ∨
      (∃ e, x = { kind := .lane e, body := laneBody s e, stateChange := lanePending s e }) ∨
      (∃ l, x = plainRecord (.line l) (lineBody l s.line.ctx[l] (s.cue.returns[l]).winner s.report.blockCount)) ∨
      ∃ i, x = plainRecord (.meter i) (meterBody s.mix i) := by
  simp only [roundRecords, List.mem_append, List.mem_map] at h
  obtain (((⟨v, held, rfl⟩ | part) | ⟨e, -, rfl⟩) | ⟨l, -, rfl⟩) | meter := h
  · exact .inl ⟨v, held, rfl⟩
  · split at part
    · exact .inr (.inl (List.mem_singleton.mp part))
    · exact absurd part List.not_mem_nil
  · exact .inr (.inr (.inl ⟨e, rfl⟩))
  · exact .inr (.inr (.inr (.inl ⟨l, rfl⟩)))
  · split at meter
    · obtain ⟨i, -, rfl⟩ := List.mem_map.mp meter
      exact .inr (.inr (.inr (.inr ⟨i, rfl⟩)))
    · exact absurd meter List.not_mem_nil

/-! ### Sizes (R130) -/

theorem meterBody_length (m : Mix) (i : Fin 48) : (meterBody m i).length = 12 := by
  unfold meterBody
  split
  · rfl
  · split <;> rfl

theorem laneBody_length (s : State) (e : Fin 9) : (laneBody s e).length = 12 := by
  unfold laneBody
  split <;> rfl

theorem RecordKind.offset_size_le (k : RecordKind) : k.offset + k.size ≤ 8192 := by
  cases k <;> simp only [RecordKind.offset, RecordKind.size] <;> omega

theorem recordContents_length {s : State} {w : Work} {x : RoundRecord} (h : x ∈ roundRecords s w) (stamp : BitVec 16) :
    (recordContents x stamp).length + 4 = x.kind.size := by
  obtain ⟨v, -, rfl⟩ | rfl | ⟨e, rfl⟩ | ⟨l, rfl⟩ | ⟨i, rfl⟩ := mem_roundRecords h
  · rfl
  · rfl
  · exact congrArg (· + 4) (laneBody_length s e)
  · rfl
  · exact congrArg (· + 4) (meterBody_length s.mix i)

/-! ### Lane and meter records (R130, R135, R170) -/

section
variable (s : State)

theorem laneBody_in {e : Fin 9} {i : InLane} (place : e.val = i.val) : laneBody s e = inLaneBody s.lrx.lanes[i] := by
  have own : Fin.ofNat 5 e.val = i := Fin.ext (by rw [Fin.val_ofNat]; omega)
  unfold laneBody
  rw [if_pos (by omega)]
  subst own
  rfl

theorem laneBody_out {e : Fin 9} {o : OutLane} (place : e.val = 5 + o.val) : laneBody s e = outLaneBody s.ltx.lanes[o] := by
  have own : Fin.ofNat 4 (e.val - 5) = o := Fin.ext (by rw [Fin.val_ofNat]; omega)
  unfold laneBody
  rw [if_neg (by omega)]
  subst own
  rfl

theorem meterBody_line (m : Mix) {i : Fin 48} {k : Line} (place : i.val = k.val) :
    meterBody m i = meterBytes (m.contribs[k]).peak (m.returns[k]).peak (m.returns[k]).clip := by
  have own : Fin.ofNat 24 i.val = k := Fin.ext (by rw [Fin.val_ofNat]; omega)
  unfold meterBody
  rw [if_pos (by omega)]
  subst own
  rfl

theorem meterBody_source (m : Mix) {i : Fin 48} {y : Source} (place : i.val = 24 + y.val) :
    meterBody m i = meterBytes (m.sources[y]).peak 0 0 := by
  have own : Fin.ofNat 16 (i.val - 24) = y := Fin.ext (by rw [Fin.val_ofNat]; omega)
  unfold meterBody
  rw [if_neg (by omega), if_pos (by omega)]
  subst own
  rfl

theorem meterBody_output (m : Mix) {i : Fin 48} {o : Slot} (place : i.val = 40 + o.val) :
    meterBody m i = meterBytes 0 (m.outputs[o]).peak (m.outputs[o]).clip := by
  have own : Fin.ofNat 8 (i.val - 40) = o := Fin.ext (by rw [Fin.val_ofNat]; omega)
  unfold meterBody
  rw [if_neg (by omega), if_neg (by omega)]
  subst own
  rfl

end

/-! ### Values of codes (R30, R164, R166, R169) -/

theorem role_bytes (r : Role) :
    ((byte8 r.code).toNat, (byte8 r.arg).toNat) =
      match r with
      | .off => (0, 0) | .auto => (1, 0) | .screen p => (2, p.val) | .hold => (3, 0) | .air => (4, 0)
      | .confer g => (5, g.val) := by
  cases r with
  | screen p => exact Prod.ext rfl (byte8_of_lt (n := p.val) (by omega))
  | confer g => exact Prod.ext rfl (byte8_of_lt (n := g.val) (by omega))
  | _ => rfl

theorem stateArg_screen {c : LineCtx} {p : Position} (screen : c.state = .screen) (position : c.position = some p) :
    (byte8 (stateArg c)).toNat = p.val := by
  unfold stateArg
  rw [screen, position]
  exact byte8_of_lt (by simp only [Option.map_some, Option.getD_some]; omega)

theorem stateArg_confer {c : LineCtx} {g : Group} (confer : c.state = .confer) (role : c.plan.role = .confer g) :
    (byte8 (stateArg c)).toNat = g.val := by
  unfold stateArg
  rw [confer, role]
  exact byte8_of_lt (by simp only [Role.group, Option.map_some, Option.getD_some]; omega)

theorem stateArg_other {c : LineCtx} (notScreen : c.state ≠ .screen) (notConfer : c.state ≠ .confer) :
    (byte8 (stateArg c)).toNat = 0 := by
  unfold stateArg
  cases state : c.state with
  | screen => exact absurd state notScreen
  | confer => exact absurd state notConfer
  | _ => rfl

/-! ### The contents of each kind of record at their offsets (R133 to R135, R169, R170) -/

/-- The byte at an offset of a record, whose contents begin at offset 2. -/
def recordByte (body : List Byte) (n : Nat) : Nat := (body.getD (n - 2) 0).toNat

/-- The two-byte field at an offset of a record. -/
def recordWord (body : List Byte) (n : Nat) : Nat := recordByte body n + 256 * recordByte body (n + 1)

/-- The four-byte field at an offset of a record. -/
def recordLong (body : List Byte) (n : Nat) : Nat := recordWord body n + 65536 * recordWord body (n + 2)

/-- The bytes left at the end of a record are 0. -/
theorem recordByte_padding {front : List Byte} {m n : Nat} (past : front.length + 2 ≤ n) :
    recordByte (front ++ List.replicate m 0) n = 0 := by
  unfold recordByte
  rw [List.getD_append_right _ _ _ _ (by omega), List.getD_eq_getElem?_getD, List.getElem?_getD_replicate_default_eq]
  rfl

theorem partBody_fields (s : State) (stamp : BitVec 16) :
    let b := bytes16 stamp.toNat ++ partBody s s.report.blockCount
    recordWord b 2 = stamp.toNat ∧ recordLong b 4 = s.report.blockCount.toNat ∧ recordWord b 8 = s.intake.number.toNat ∧
      recordByte b 10 = (match s.link.engine with | .stopped => 0 | .active => 1 | .draining => 2) ∧
      recordByte b 11 = (if s.ref.locked = true then 1 else 0) ∧ recordByte b 12 = s.scrn.arrivals.toNat ∧
      ∀ n, 13 ≤ n → n ≤ 29 → recordByte b n = 0 := by
  refine ⟨bytes16_bits stamp, bytes32_bits s.report.blockCount, bytes16_bits s.intake.number, ?_, ?_,
    byte8_of_lt s.scrn.arrivals.isLt, fun n low high => ?_⟩
  · show (byte8 s.link.engine.code).toNat = _
    cases s.link.engine <;> rfl
  · show (byte8 s.ref.locked.toNat).toNat = _
    cases s.ref.locked <;> rfl
  · interval_cases n <;> rfl

theorem verdictBody_fields (v : VerdictEntry) :
    let b := verdictBody v
    recordByte b 2 = v.sec.val ∧ recordWord b 4 = v.edition.toNat ∧ recordWord b 8 = v.number.toNat ∧
      (∀ n, 10 ≤ n → n ≤ 13 → recordByte b n = 0) ∧
      recordByte b 3 = (match v.verdict with
        | .accepted => 0 | .window => 1 | .fetchFault => 2 | .torn => 3 | .range => 4 | .groupFull => 5) ∧
      recordWord b 6 = (match v.field with | none => 65535 | some f => f % 65536) := by
  refine ⟨byte8_of_lt (by omega), bytes16_bits v.edition, bytes16_bits v.number, fun n low high => ?_, ?_,
    (bytes16_value (v.field.getD 65535)).trans ?_⟩
  · interval_cases n <;> rfl
  · show (byte8 v.verdict.code).toNat = _
    cases v.verdict <;> rfl
  · cases v.field <;> rfl

theorem laneBytes_fields (code lost overruns underruns syncs parity fill : Nat) :
    let b := laneBytes code lost overruns underruns syncs parity fill
    recordByte b 2 = code % 256 ∧ recordByte b 3 = lost % 256 ∧ recordWord b 4 = overruns % 65536 ∧
      recordWord b 6 = underruns % 65536 ∧ recordWord b 8 = syncs % 65536 ∧ recordWord b 10 = parity % 65536 ∧
      recordByte b 12 = fill % 256 ∧ recordByte b 13 = 0 :=
  ⟨byte8_toNat code, byte8_toNat lost, bytes16_value overruns, bytes16_value underruns, bytes16_value syncs,
    bytes16_value parity, byte8_toNat fill, rfl⟩

theorem meterBytes_fields (input output : Nat) (clip : BitVec 32) :
    let b := meterBytes input output clip
    recordLong b 2 = input % 4294967296 ∧ recordLong b 6 = output % 4294967296 ∧ recordLong b 10 = clip.toNat :=
  ⟨bytes32_value input, bytes32_value output, bytes32_bits clip⟩

section
variable (c : InLaneCtx)

theorem inLaneBody_fields :
    let b := inLaneBody c
    let slave := c.setup.clocking = .slave
    recordByte b 2 = (match c.state with | .off => 0 | .seeking => 1 | .locked => 2) ∧
      recordByte b 3 = (if c.state = .seeking ∧ c.lostShown = true then 1 else 0) ∧
      recordWord b 4 = (if slave then c.overruns % 65536 else 0) ∧
      recordWord b 6 = (if slave then c.underruns % 65536 else 0) ∧
      recordWord b 8 = c.syncLosses % 65536 ∧ recordWord b 10 = c.parityRepeats % 65536 ∧
      recordByte b 12 = (if c.state = .locked ∧ slave then c.buffer.length % 256 else 0) := by
  obtain ⟨code, lost, overruns, underruns, syncs, parity, fill, -⟩ := laneBytes_fields c.state.code
    (c.state = .seeking && c.lostShown).toNat (if c.setup.clocking = .slave then c.overruns else 0)
    (if c.setup.clocking = .slave then c.underruns else 0) c.syncLosses c.parityRepeats
    (if c.buffered then c.buffer.length else 0)
  have buffered : c.buffered = true ↔ c.state = .locked ∧ c.setup.clocking = .slave := by
    rw [InLaneCtx.buffered, Bool.and_eq_true, decide_eq_true_eq, decide_eq_true_eq]
  refine ⟨code.trans ?_, lost.trans ?_, overruns.trans ?_, underruns.trans ?_, syncs, parity, fill.trans ?_⟩
  · cases c.state <;> rfl
  · cases c.state <;> cases c.lostShown <;> rfl
  · split <;> rfl
  · split <;> rfl
  · simp only [buffered]
    split <;> rfl

end

theorem outLaneBody_fields (c : OutLaneCtx) :
    let b := outLaneBody c
    let slave := c.setup.clocking = .slave
    recordByte b 2 = (if c.running = true then 1 else 0) ∧ recordByte b 3 = 0 ∧
      recordWord b 4 = (if slave then c.overruns % 65536 else 0) ∧
      recordWord b 6 = (if slave then c.underruns % 65536 else 0) ∧
      (∀ n, 8 ≤ n → n ≤ 11 → recordByte b n = 0) ∧
      recordByte b 12 = (if slave then c.buffer.length % 256 else 0) := by
  obtain ⟨code, lost, overruns, underruns, -, -, fill, -⟩ := laneBytes_fields c.running.toNat 0
    (if c.setup.clocking = .slave then c.overruns else 0) (if c.setup.clocking = .slave then c.underruns else 0) 0 0
    (if c.setup.clocking = .slave then c.buffer.length else 0)
  refine ⟨code.trans ?_, lost, overruns.trans ?_, underruns.trans ?_, fun n low high => ?_, fill.trans ?_⟩
  · cases c.running <;> rfl
  · split <;> rfl
  · split <;> rfl
  · interval_cases n <;> rfl
  · split <;> rfl

theorem laneBody_last (s : State) (e : Fin 9) : recordByte (laneBody s e) 13 = 0 := by
  unfold laneBody
  split <;> rfl

/-- The bytes of a line status record, one by one, before the bytes left. -/
theorem lineBody_eq (k : Line) (c : LineCtx) (winner : Option Route) (count : BitVec 32) :
    lineBody k c winner count =
      [byte8 k.val, byte8 c.state.index, byte8 (stateArg c), byte8 c.plan.role.code, byte8 c.plan.role.arg,
        byte8 c.condition.code, byte8 count.toNat, byte8 (count.toNat / 256), byte8 (count.toNat / 65536),
        byte8 (count.toNat / 65536 / 256), byte8 c.lossCount, byte8 (c.lossCount / 256), byte8 c.shadowCount,
        byte8 (c.shadowCount / 256), (c.lostFrom.map fun x => byte8 x.index).getD 255, byteOpt c.autoScreener,
        byte8 ((c.arrivalNumber.map (·.toNat)).getD 65535), byte8 ((c.arrivalNumber.map (·.toNat)).getD 65535 / 256),
        byteOpt winner, byte8 c.plan.threshold.val, byte8 c.plan.levels.voice.val, byte8 c.plan.levels.ret.val,
        byte8 c.plan.levels.conferAir.val, byte8 c.plan.levels.hold.val, byte8 c.plan.levels.bed.val,
        byte8 c.plan.levels.duck.val, byteOpt c.plan.partners[0]?, byteOpt c.plan.partners[1]?,
        byteOpt c.plan.partners[2]?] ++ List.replicate 31 0 := rfl

/-- The fields of a line status record up to its cue winner. -/
theorem lineBody_fields (k : Line) (c : LineCtx) (winner : Option Route) (count : BitVec 32) :
    let b := lineBody k c winner count
    recordByte b 2 = k.val ∧ recordByte b 3 = c.state.index ∧ recordByte b 4 = (byte8 (stateArg c)).toNat ∧
      recordByte b 5 = (byte8 c.plan.role.code).toNat ∧ recordByte b 6 = (byte8 c.plan.role.arg).toNat ∧
      recordByte b 7 = (match c.condition with | .connected => 1 | .disconnected => 2 | .alerting => 3) ∧
      recordLong b 8 = count.toNat ∧ recordWord b 12 = c.lossCount % 65536 ∧ recordWord b 14 = c.shadowCount % 65536 ∧
      recordByte b 16 = (match c.lostFrom with | none => 255 | some x => x.index) ∧
      recordByte b 17 = (match c.autoScreener with | none => 255 | some p => p.val) ∧
      recordWord b 18 = (match c.arrivalNumber with | none => 65535 | some n => n.toNat) ∧
      recordByte b 20 = (match winner with | none => 255 | some r => r.val) := by
  have index : ∀ x : LineState, (byte8 x.index).toNat = x.index := fun x => by cases x <;> rfl
  simp only [lineBody_eq, recordByte, recordWord, recordLong, Nat.reduceSub, Nat.reduceAdd, List.cons_append,
    List.getD_cons_succ, List.getD_cons_zero]
  refine ⟨byte8_of_lt (by omega), index c.state, trivial, trivial, trivial, ?_, bytes32_bits count,
    bytes16_value c.lossCount, bytes16_value c.shadowCount, ?_, ?_, (bytes16_value _).trans ?_, ?_⟩
  · cases c.condition <;> rfl
  · cases c.lostFrom with
    | none => rfl
    | some x => exact index x
  · cases c.autoScreener with
    | none => rfl
    | some p => exact byteOpt_some (by decide) p
  · cases c.arrivalNumber with
    | none => rfl
    | some n => exact Nat.mod_eq_of_lt (n.isLt.trans (by decide))
  · cases winner with
    | none => rfl
    | some r => exact byteOpt_some (by decide) r

/-- The fields of a line status record after its cue winner. -/
theorem lineBody_settings (k : Line) (c : LineCtx) (winner : Option Route) (count : BitVec 32) :
    let b := lineBody k c winner count
    recordByte b 21 = c.plan.threshold.val ∧ recordByte b 22 = c.plan.levels.voice.val ∧
      recordByte b 23 = c.plan.levels.ret.val ∧ recordByte b 24 = c.plan.levels.conferAir.val ∧
      recordByte b 25 = c.plan.levels.hold.val ∧ recordByte b 26 = c.plan.levels.bed.val ∧
      recordByte b 27 = c.plan.levels.duck.val ∧
      (∀ i < 3, recordByte b (28 + i) = (match c.plan.partners[i]? with | none => 255 | some j => j.val)) ∧
      ∀ n, 31 ≤ n → n ≤ 61 → recordByte b n = 0 := by
  have gain : ∀ g : GainCode, (byte8 g.val).toNat = g.val := fun g => byte8_of_lt g.isLt
  refine ⟨?_, ?_, ?_, ?_, ?_, ?_, ?_, fun i h => ?_, fun n low _ => ?_⟩
  case refine_9 => exact recordByte_padding low
  case refine_8 =>
    interval_cases i
    all_goals
      simp only [lineBody_eq, recordByte, Nat.reduceSub, Nat.reduceAdd, List.cons_append, List.getD_cons_succ,
        List.getD_cons_zero]
      split
      next none => rw [none]; rfl
      next j named => rw [named]; exact byteOpt_some (by decide) j
  all_goals
    simp only [lineBody_eq, recordByte, Nat.reduceSub, List.cons_append, List.getD_cons_succ, List.getD_cons_zero]
  case refine_1 => exact byte8_of_lt (by omega)
  all_goals exact gain _

end Sys2Proof.Machine

open Sys2Proof Sys2Proof.Machine

/-- Settles O51: each record of a round is one of five kinds, whose contents are lists of bytes at fixed offsets. -/
theorem recordSizes : Obligations.RecordSizes := by
  unfold Obligations.RecordSizes
  intro s w stamp x h
  refine ⟨recordContents_length h stamp, x.kind.offset_size_le, ?_⟩
  obtain ⟨v, held, rfl⟩ | rfl | ⟨e, rfl⟩ | ⟨l, rfl⟩ | ⟨i, rfl⟩ := mem_roundRecords h
  · refine ⟨fun kind => (nomatch kind), fun sec kind => ?_, fun l kind => (nomatch kind), fun i kind => (nomatch kind),
      fun e kind => (nomatch kind)⟩
    obtain rfl := RecordKind.verdict.inj kind
    exact ⟨v, held, rfl, verdictBody_fields v⟩
  · exact ⟨fun _ => partBody_fields s stamp, fun sec kind => (nomatch kind), fun l kind => (nomatch kind),
      fun i kind => (nomatch kind), fun e kind => (nomatch kind)⟩
  · refine ⟨fun kind => (nomatch kind), fun sec kind => (nomatch kind), fun l kind => (nomatch kind),
      fun i kind => (nomatch kind), fun f kind => ?_⟩
    obtain rfl := RecordKind.lane.inj kind
    refine ⟨fun i place => ?_, fun o place => ?_, laneBody_last s e⟩
    · have fields := inLaneBody_fields s.lrx.lanes[i]
      rw [← laneBody_in s place] at fields
      exact fields
    · have fields := outLaneBody_fields s.ltx.lanes[o]
      rw [← laneBody_out s place] at fields
      exact fields
  · refine ⟨fun kind => (nomatch kind), fun sec kind => (nomatch kind), fun k kind => ?_, fun i kind => (nomatch kind),
      fun e kind => (nomatch kind)⟩
    obtain rfl := RecordKind.line.inj kind
    obtain ⟨own, state, arg, code, number, condition, count, loss, shadow, lostFrom, screener, arrival, winner⟩ :=
      lineBody_fields l s.line.ctx[l] (s.cue.returns[l]).winner s.report.blockCount
    refine ⟨own, state, fun p screen position => arg.trans (stateArg_screen screen position),
      fun g confer role => arg.trans (stateArg_confer confer role),
      fun notScreen notConfer => arg.trans (stateArg_other notScreen notConfer),
      (Prod.ext code number).trans (role_bytes _), condition, count, loss, shadow, lostFrom, screener, arrival, winner,
      lineBody_settings l s.line.ctx[l] (s.cue.returns[l]).winner s.report.blockCount⟩
  · refine ⟨fun kind => (nomatch kind), fun sec kind => (nomatch kind), fun l kind => (nomatch kind), fun j kind => ?_,
      fun e kind => (nomatch kind)⟩
    obtain rfl := RecordKind.meter.inj kind
    refine ⟨fun k place => ?_, fun y place => ?_, fun o place => ?_⟩
    · have fields := meterBytes_fields (s.mix.contribs[k]).peak (s.mix.returns[k]).peak (s.mix.returns[k]).clip
      rw [← meterBody_line s.mix place] at fields
      exact fields
    · have fields := meterBytes_fields (s.mix.sources[y]).peak 0 0
      have blank : ∀ n, 6 ≤ n → n ≤ 13 → recordByte (meterBytes (s.mix.sources[y]).peak 0 0) n = 0 := fun n low high => by
        interval_cases n <;> rfl
      rw [← meterBody_source s.mix place] at fields blank
      exact ⟨fields.1, blank⟩
    · obtain ⟨-, output, clip⟩ := meterBytes_fields 0 (s.mix.outputs[o]).peak (s.mix.outputs[o]).clip
      have blank : ∀ n, 2 ≤ n → n ≤ 5 → recordByte (meterBytes 0 (s.mix.outputs[o]).peak (s.mix.outputs[o]).clip) n = 0 :=
        fun n low high => by interval_cases n <;> rfl
      rw [← meterBody_output s.mix place] at output clip blank
      exact ⟨blank, output, clip⟩
end

