-- ==== Sys2Proof/Proofs/TickParts.lean ====
section
/-! PROOFS. The block tick, part by part: what each block holds after it, read from the lines' part of the tick, with the
engine, the take and the block count before it and REPORT's look for a round after it. -/

namespace Sys2Proof.Machine

/-! ### What the engine, the take and the block count leave to the lines' part -/

/-- The part with another LINK, INTAKE and REPORT. -/
def State.outer (s : State) (k : Link) (i : Intake) (r : Report) : State := { s with link := k, intake := i, report := r }

section
variable (s : State) (k : Link) (i : Intake) (r : Report)

theorem State.linePhase_outer (plans : Vector (Option LinePlan) 24) (delta : Int) :
    (s.outer k i r).linePhase plans delta = (s.linePhase plans delta).outer k i r := by
  have moved : (s.outer k i r).linesMoved plans delta = (s.linesMoved plans delta).outer k i r := rfl
  unfold State.linePhase
  rw [moved]
  rfl

/-- The apply, with another LINK and block count. -/
theorem State.applyTick_outer (n : BitVec 32) :
    (s.outer k s.intake { s.report with blockCount := n }).applyTick =
      s.applyTick.outer k s.applyTick.intake { s.applyTick.report with blockCount := n } := by
  have handed : (s.outer k s.intake { s.report with blockCount := n }).handOver =
      s.handOver.outer k s.handOver.intake { s.handOver.report with blockCount := n } := rfl
  have plans : (s.outer k s.intake { s.report with blockCount := n }).admittedPlans = s.admittedPlans := rfl
  have lines (p : Vector (Option LinePlan) 24) (d : Int) :
      (s.handOver.outer k s.handOver.intake { s.handOver.report with blockCount := n }).linePhase p d =
        (s.handOver.linePhase p d).outer k (s.handOver.linePhase p d).intake
          { (s.handOver.linePhase p d).report with blockCount := n } := by
    rw [State.linePhase_outer, State.linePhase_intake, State.linePhase_report]
  have counted (u : State) (j : Intake) (q : Report) : (u.outer k j q).countRoles = u.countRoles.outer k j q := rfl
  have line (u : State) (j : Intake) (q : Report) : (u.outer k j q).line = u.line := rfl
  have intake (u : State) (j : Intake) (q : Report) : (u.outer k j q).intake = j := rfl
  unfold State.applyTick
  simp only [handed, plans, line, intake, lines, counted]
  generalize s.handOver.linePhase _ _ = u
  split <;> rfl

end

section
variable (s : State)

/-- The part as the lines' part of a tick finds it: after the engine's move, the take and the block count. -/
def State.atTick : State := s.takenAt.countBlock

/-- The part after the lines' part of a tick. -/
def State.afterLines : State := s.atTick.linePart

theorem State.takenAt_eq : s.takenAt = { s with link := s.takenAt.link, intake := s.takenAt.intake } := by
  unfold State.takenAt State.takePhase State.takeTick
  split
  · rfl
  · split <;> rfl

theorem State.atTick_eq :
    s.atTick =
      s.outer s.takenAt.link s.takenAt.intake { s.report with blockCount := s.report.blockCount + 1 } := by
  unfold State.atTick
  rw [s.takenAt_eq]
  rfl

/-- The take neither makes an apply due nor puts one off. -/
theorem State.atTick_applyDue : s.atTick.applyDue = s.applyDue := by
  have begun : s.atTick.inst = s.inst := by
    rw [s.atTick_eq]
    rfl
  have intake : s.atTick.intake = s.takenAt.intake := rfl
  have ready : (s.takenAt.intake.phase = .ready) = (s.intake.phase = .ready) := by
    unfold State.takenAt State.takePhase State.takeTick
    split
    · rfl
    · split
      next may =>
        have idle := ((State.mayTake_iff _).mp may).1
        refine propext ⟨fun taken => (nomatch taken), fun held => ?_⟩
        exact absurd (idle.symm.trans held) (by decide)
      next => rfl
  unfold State.applyDue
  rw [begun, intake]
  simp only [ready]

theorem State.takenAt_intake_of_due (due : s.applyDue = true) : s.takenAt.intake = s.intake := by
  have ready := State.applyDue_ready due
  rw [s.takenAt_stands (.inl (by rw [ready]; decide))]

/-- INTAKE after the lines' part of a tick: the apply finds it READY, which the take does not. -/
theorem State.afterLines_eq :
    ∃ i, s.afterLines =
      s.linePart.outer s.takenAt.link i { s.linePart.report with blockCount := s.report.blockCount + 1 } := by
  have due := s.atTick_applyDue
  unfold State.afterLines State.linePart
  rw [due, s.atTick_eq]
  cases applies : s.applyDue with
  | true =>
    refine ⟨s.applyTick.intake, ?_⟩
    rw [s.takenAt_intake_of_due applies]
    exact s.applyTick_outer _ _
  | false =>
    refine ⟨s.takenAt.intake, ?_⟩
    rw [if_neg Bool.false_ne_true, if_neg Bool.false_ne_true, State.linePhase_report]
    exact State.linePhase_outer s _ _ _ _ _

theorem State.linePart_due {s : State} (due : s.applyDue = true) : s.linePart = s.applyTick := if_pos due

theorem State.linePart_plain {s : State} (free : s.applyDue = false) :
    s.linePart = s.linePhase (Vector.replicate 24 none) 0 := if_neg (Bool.eq_false_iff.mp free)

/-- The part as the apply of a tick leaves it, where one is due. -/
def State.applied : State := if s.applyDue then s.applyTick else s

theorem exec_apply : exec .apply s = .next s.applied := rfl

/-- What the lines' part of a tick shows of CUE's keys and routes, of REPORT and of the marks of the tick is as the apply
leaves it. -/
theorem State.linePart_applied :
    s.linePart.cue.keys = s.applied.cue.keys ∧ s.linePart.cue.routes = s.applied.cue.routes ∧
      s.linePart.report = s.applied.report ∧ s.linePart.inst.keys = s.applied.inst.keys ∧
      s.linePart.inst.holds = s.applied.inst.holds ∧ s.linePart.inst.replaced = s.applied.inst.replaced ∧
      s.linePart.inst.period = s.applied.inst.period := by
  unfold State.applied
  cases due : s.applyDue with
  | true =>
    rw [State.linePart_due due]
    exact ⟨rfl, rfl, rfl, rfl, rfl, rfl, rfl⟩
  | false =>
    rw [State.linePart_plain due]
    exact ⟨State.linePhase_keys .., State.linePhase_routes .., State.linePhase_report .., rfl, rfl, rfl, rfl⟩

theorem State.applied_blockCount : s.applied.report.blockCount = s.report.blockCount := by
  rw [← s.linePart_applied.2.2.1]
  exact s.linePart_blockCount

end

/-! ### What REPORT's look for a round leaves (R136) -/

section
variable (s seen : State) (left : ReportFlags)

theorem Lrx.flag_lane (x : Lrx) (entries : List (Fin 9)) (on : Fin 9 → Bool) (i : InLane) :
    ∃ pending, (x.flag entries on).lanes[i] = { x.lanes[i] with statusPending := pending } := by
  have own : (x.flag entries on).lanes[i] = _ := ofFn_at ..
  rw [own]
  dsimp only
  split
  · exact ⟨_, rfl⟩
  · exact ⟨_, rfl⟩

theorem Ltx.flag_lane (x : Ltx) (entries : List (Fin 9)) (on : Fin 9 → Bool) (o : OutLane) :
    ∃ pending, (x.flag entries on).lanes[o] = { x.lanes[o] with statusPending := pending } := by
  have own : (x.flag entries on).lanes[o] = _ := ofFn_at ..
  rw [own]
  dsimp only
  split
  · exact ⟨_, rfl⟩
  · exact ⟨_, rfl⟩

/-- A look for a round leaves all as it is, or begins the round of the work seen. -/
theorem State.lookRound_cases :
    (seen.mayRound = false ∧ s.lookRound seen left = s) ∨
      (seen.mayRound = true ∧ s.lookRound seen left = s.startRound seen left seen.work) := by
  unfold State.lookRound
  cases may : seen.mayRound with
  | true => exact .inr ⟨rfl, rfl⟩
  | false => exact .inl ⟨rfl, rfl⟩

theorem State.lookRound_inLane (i : InLane) :
    ∃ pending, (s.lookRound seen left).lrx.lanes[i] = { s.lrx.lanes[i] with statusPending := pending } := by
  obtain ⟨-, same⟩ | ⟨-, begun⟩ := s.lookRound_cases seen left
  · rw [same]
    exact ⟨_, rfl⟩
  · rw [begun]
    exact s.lrx.flag_lane ..

theorem State.lookRound_outLane (o : OutLane) :
    ∃ pending, (s.lookRound seen left).ltx.lanes[o] = { s.ltx.lanes[o] with statusPending := pending } := by
  obtain ⟨-, same⟩ | ⟨-, begun⟩ := s.lookRound_cases seen left
  · rw [same]
    exact ⟨_, rfl⟩
  · rw [begun]
    exact s.ltx.flag_lane ..

theorem State.lookRound_laneLoss : (s.lookRound seen left).lrx.laneLoss = s.lrx.laneLoss := by
  obtain ⟨-, same⟩ | ⟨-, begun⟩ := s.lookRound_cases seen left
  · rw [same]
  · rw [begun]
    rfl

theorem State.mayRound_iff : seen.mayRound = true ↔ seen.report.round = none ∧ seen.work.present = true := by
  unfold State.mayRound
  rw [Bool.and_eq_true, Option.isNone_iff_eq_none]

/-- A round in progress that the look leaves is the one it found. -/
theorem State.lookRound_same {s seen : State} (report : seen.report = s.report) (left : ReportFlags)
    (same : (s.lookRound seen left).report.round = s.report.round) : s.lookRound seen left = s := by
  obtain ⟨-, kept⟩ | ⟨may, begun⟩ := s.lookRound_cases seen left
  · exact kept
  · have none := (seen.mayRound_iff.mp may).1
    rw [begun] at same
    rw [report] at none
    exact absurd (same.trans none) (by rintro ⟨⟩)

end

/-! ### Each block after a block tick -/

section
variable (s : State) (pins : BitVec 16) (follows first : Bool)

theorem exec_blockTick : exec (.blockTick pins ⟨follows, first⟩) s = .next (s.blockTick pins follows first) := rfl

theorem State.beforeCue_eq : s.beforeCue pins = s.afterLines.periodPhase.keyPhase pins := rfl

theorem State.afterLines_cmap : s.afterLines.cmap = s.linePart.cmap := by
  obtain ⟨i, same⟩ := s.afterLines_eq
  rw [same]
  rfl

theorem State.afterLines_lrx : s.afterLines.lrx = s.linePart.lrx := by
  obtain ⟨i, same⟩ := s.afterLines_eq
  rw [same]
  rfl

theorem State.afterLines_ltx : s.afterLines.ltx = s.linePart.ltx := by
  obtain ⟨i, same⟩ := s.afterLines_eq
  rw [same]
  rfl

theorem State.afterLines_line : s.afterLines.line = s.linePart.line := by
  obtain ⟨i, same⟩ := s.afterLines_eq
  rw [same]
  rfl

theorem State.afterLines_scrn : s.afterLines.scrn = s.linePart.scrn := by
  obtain ⟨i, same⟩ := s.afterLines_eq
  rw [same]
  rfl

theorem State.afterLines_cue : s.afterLines.cue = s.linePart.cue := by
  obtain ⟨i, same⟩ := s.afterLines_eq
  rw [same]
  rfl

theorem State.afterLines_mix : s.afterLines.mix = s.linePart.mix := by
  obtain ⟨i, same⟩ := s.afterLines_eq
  rw [same]
  rfl

theorem State.afterLines_inst : s.afterLines.inst = s.linePart.inst := by
  obtain ⟨i, same⟩ := s.afterLines_eq
  rw [same]
  rfl

theorem State.afterLines_report :
    s.afterLines.report = { s.applied.report with blockCount := s.report.blockCount + 1 } := by
  obtain ⟨i, same⟩ := s.afterLines_eq
  rw [same, ← s.linePart_applied.2.2.1]
  rfl

/-- The events of a tick reach CMAP, LRX, LTX, LINE and SCRN by the lines' part alone. -/
theorem State.tickEvents_parts :
    (s.tickEvents pins follows).cmap = s.linePart.cmap ∧ (s.tickEvents pins follows).lrx = s.linePart.lrx ∧
      (s.tickEvents pins follows).ltx = s.linePart.ltx ∧ (s.tickEvents pins follows).line = s.linePart.line ∧
      (s.tickEvents pins follows).scrn = s.linePart.scrn := by
  rw [← s.afterLines_cmap, ← s.afterLines_lrx, ← s.afterLines_ltx, ← s.afterLines_line, ← s.afterLines_scrn]
  simp [State.tickEvents, State.audioTick_eq, State.beforeCue_eq]

theorem State.tickEvents_report :
    (s.tickEvents pins follows).report = s.afterLines.periodPhase.report := by
  simp [State.tickEvents, State.audioTick_eq, State.beforeCue_eq]

theorem State.blockTick_cmap : (s.blockTick pins follows first).cmap = s.linePart.cmap := by
  rw [← (s.tickEvents_parts pins follows).1]
  simp [State.blockTick]

theorem State.blockTick_scrn : (s.blockTick pins follows first).scrn = s.linePart.scrn := by
  obtain ⟨-, -, -, -, scrn⟩ := s.tickEvents_parts pins follows
  rw [← scrn]
  simp [State.blockTick]

theorem State.blockTick_ref : (s.blockTick pins follows first).ref = s.ref.tick follows := by
  have audio : (s.audioTick pins).ref = s.ref := s.audioTick_ref pins
  have set (u : State) (r : RefMonitor) : (u.setRef r).ref = r := by
    unfold State.setRef
    split
    · rfl
    · exact State.raise_ref ..
  unfold State.blockTick
  rw [State.endTick_ref, State.roundPhase_ref, State.tickEvents_eq, State.readTick_ref, State.beforeRead, set, audio]

theorem InLaneCtx.endTick_flagged (c : InLaneCtx) (pending : Bool) :
    ({ c with statusPending := pending } : InLaneCtx).endTick = { c.endTick with statusPending := pending } := rfl

/-- An input lane after a block tick is that of the lines' part, its block ended; a round may still have taken its mark. -/
theorem State.blockTick_inLane (i : InLane) :
    ∃ pending, (s.blockTick pins follows first).lrx.lanes[i] =
      { (s.linePart.lrx.lanes[i]).endTick with statusPending := pending } := by
  obtain ⟨pending, look⟩ := (s.tickEvents pins follows).lookRound_inLane
    ((s.tickEvents pins follows).seenAt s pins first) (if first then s.tickFlags pins else ReportFlags.clear) i
  have own : (s.blockTick pins follows first).lrx.lanes[i] =
      (((s.tickEvents pins follows).roundPhase s pins first).lrx.lanes[i]).endTick := ofFn_at ..
  rw [(s.tickEvents_parts pins follows).2.1] at look
  exact ⟨pending, own.trans (congrArg InLaneCtx.endTick look)⟩

theorem State.blockTick_laneLoss : (s.blockTick pins follows first).lrx.laneLoss = s.linePart.lrx.laneLoss := by
  rw [← (s.tickEvents_parts pins follows).2.1]
  exact State.lookRound_laneLoss ..

theorem State.blockTick_outLane (o : OutLane) :
    ∃ pending, (s.blockTick pins follows first).ltx.lanes[o] =
      { s.linePart.ltx.lanes[o] with statusPending := pending } := by
  obtain ⟨pending, look⟩ := (s.tickEvents pins follows).lookRound_outLane
    ((s.tickEvents pins follows).seenAt s pins first) (if first then s.tickFlags pins else ReportFlags.clear) o
  rw [(s.tickEvents_parts pins follows).2.2.1] at look
  exact ⟨pending, look⟩

theorem State.blockTick_line (l : Line) :
    ∃ pending, (s.blockTick pins follows first).line.ctx[l] =
      { s.linePart.line.ctx[l] with reportPending := pending } := by
  obtain ⟨pending, own⟩ := s.blockTick_lineCtx pins follows first l
  obtain ⟨-, -, -, line, -⟩ := s.tickEvents_parts pins follows
  rw [← s.tickEvents_line pins follows, line] at own
  exact ⟨pending, own⟩

theorem State.seenAt_report (t : State) : (t.seenAt s pins first).report = t.report := by
  unfold State.seenAt
  split
  · exact State.seenBefore_report ..
  · rfl

/-- A tick that begins no round leaves every flag to the events of the tick. -/
theorem State.blockTick_noRound (same : (s.blockTick pins follows first).report.round = s.report.round)
    (round : (s.tickEvents pins follows).report.round = s.report.round) :
    (s.tickEvents pins follows).roundPhase s pins first = s.tickEvents pins follows := by
  have ended : (s.blockTick pins follows first).report = ((s.tickEvents pins follows).roundPhase s pins first).report :=
    State.endTick_report ..
  rw [ended] at same
  exact State.lookRound_same (s.seenAt_report pins first _) _ (same.trans round.symm)

end

end Sys2Proof.Machine
end

