-- ==== Sys2Proof/Proofs/TickLanesKeys.lean ====
section
/-! PROOFS. Locks lost, the reference monitor, the meter period, and keys and routes, at a block tick and by their own rows
(R53 to R60, R89, R98, R138). -/

namespace Sys2Proof.Machine

/-! ### Locks lost (R89) -/

theorem State.linePhase_lane (s : State) (plans : Vector (Option LinePlan) 24) (delta : Int) (i : InLane) :
    (s.linePhase plans delta).lrx.lanes[i] = s.laneAfter i := by
  have lrx : (s.linePhase plans delta).lrx = (s.linesMoved plans delta).lrx := by simp [State.linePhase]
  rw [lrx]
  exact ofFn_at ..

theorem State.linePhase_laneLoss (s : State) (plans : Vector (Option LinePlan) 24) (delta : Int) :
    (s.linePhase plans delta).lrx.laneLoss = s.lrx.laneLoss := by
  have lrx : (s.linePhase plans delta).lrx = (s.linesMoved plans delta).lrx := by simp [State.linePhase]
  rw [lrx]
  rfl

/-- An input lane after a block tick that takes no apply. -/
theorem State.blockTick_laneAfter {s : State} (free : s.applyDue = false) (pins : BitVec 16) (follows first : Bool)
    (i : InLane) :
    ∃ pending, (s.blockTick pins follows first).lrx.lanes[i] =
      { (s.laneAfter i).endTick with statusPending := pending } := by
  obtain ⟨pending, lane⟩ := s.blockTick_inLane pins follows first i
  rw [State.linePart_plain free, State.linePhase_lane] at lane
  exact ⟨pending, lane⟩

section
variable {c : InLaneCtx}

theorem InLaneCtx.syncMissing_of (locked : c.state = .locked) (slave : c.setup.clocking = .slave)
    (unseen : c.frameSeen = false) : c.syncMissing = true := by
  unfold InLaneCtx.syncMissing
  rw [c.buffered_iff.mpr ⟨locked, slave⟩, unseen]
  rfl

theorem InLaneCtx.syncMissing_iff : c.syncMissing = true ↔
    c.state = .locked ∧ c.setup.clocking = .slave ∧ c.frameSeen = false := by
  unfold InLaneCtx.syncMissing
  rw [Bool.and_eq_true, c.buffered_iff, Bool.not_eq_true', and_assoc]

theorem InLaneCtx.tick_missing (missing : c.syncMissing = true) (laneLoss : Nat) :
    c.tick laneLoss false = c.loseLock.showLost laneLoss := by
  unfold InLaneCtx.tick
  rw [if_neg Bool.false_ne_true, if_pos missing]

theorem InLaneCtx.tick_counts (whole : c.syncMissing = false) (laneLoss : Nat) :
    c.tick laneLoss false = c.seekTick.showLost laneLoss := by
  unfold InLaneCtx.tick
  rw [if_neg Bool.false_ne_true, whole, if_neg Bool.false_ne_true]

theorem InLaneCtx.tick_taken (laneLoss : Nat) : c.tick laneLoss true = c.showLost laneLoss := if_pos rfl

/-- A lane out of LOCKED presents 0. -/
theorem InLaneCtx.present_zero (out : c.state ≠ .locked) (j : Slot) : c.present j = 0 := if_neg out

end

theorem exec_lossOfLock {s : State} {i : InLane} {cause : LockLoss} (locked : (s.lrx.lanes[i]).state = .locked)
    (loses : (∃ w, cause = .wrongSync w ∧ w ≠ 0xE8E81717) ∨
      (cause = .missingSync ∧ (s.lrx.lanes[i]).setup.clocking = .slave ∧ (s.lrx.lanes[i]).frameSeen = false)) :
    exec (.lossOfLock i cause) s = .next (s.loseLock i cause) := by
  have due : (s.lrx.lanes[i]).losesBy cause = true := by
    obtain ⟨w, rfl, wrong⟩ | ⟨rfl, slave, unseen⟩ := loses
    · simp only [InLaneCtx.losesBy, Bool.and_eq_true, decide_eq_true_eq]
      exact ⟨locked, wrong⟩
    · exact InLaneCtx.syncMissing_of locked slave unseen
  exact congrArg Host.Outcome.next (if_pos due)

theorem State.loseLock_eq (s : State) (i : InLane) (cause : LockLoss) :
    s.loseLock i cause =
      { s with
        lrx := { s.lrx with lanes := s.lrx.lanes.set i (s.loseLock i cause).lrx.lanes[i] }
        cmap := { s.cmap with records := (s.loseLock i cause).cmap.records }, inst := (s.loseLock i cause).inst } := by
  rw [State.loseLock_lane]
  rfl

theorem State.loseLock_record (s : State) (i : InLane) (cause : LockLoss) (l : Line) :
    (s.loseLock i cause).cmap.records[l] =
      if l.val / 8 = i.val then { last := none, count := 0, delivered := false } else s.cmap.records[l] :=
  s.cmap.clearLane_records i l

/-! ### The reference monitor (R98) -/

theorem noticeRef_eq : noticeRef = 0x80000000 := rfl

theorem State.setRef_changed {s : State} {r : RefMonitor} (changed : r.locked ≠ s.ref.locked) :
    s.setRef r = { s with ref := r, link := s.link.raise 0x80000000 } := if_neg changed

theorem State.setRef_kept {s : State} {r : RefMonitor} (kept : r.locked = s.ref.locked) :
    s.setRef r = { s with ref := r } := if_pos kept

theorem exec_refLock {s : State} (unlocked : s.ref.locked = false) (sound : s.ref.failed = false) (last : s.ref.count = 63) :
    exec .refLock s = .next (s.setRef s.ref.lock).markOther := by
  have now : s.ref.locksNow = true := by
    unfold RefMonitor.locksNow
    rw [unlocked, sound, last]
    rfl
  exact congrArg Host.Outcome.next (if_pos now)

section
variable {r : RefMonitor}

theorem RefMonitor.tick_follows (sound : r.failed = false) :
    r.tick true =
      if r.locked = true then r
      else if 64 ≤ r.count + 1 then { r.lock with failed := false } else { r with count := r.count + 1 } := by
  unfold RefMonitor.tick
  rw [sound]
  rfl

theorem RefMonitor.tick_fails {follows : Bool} (fails : follows = false ∨ r.failed = true) :
    r.tick follows =
      { locked := false, count := 0, failed := false, clock := if r.locked = true then .held else r.clock } := by
  unfold RefMonitor.tick
  obtain missed | failed := fails
  · rw [missed]
    rfl
  · rw [failed, Bool.not_true, Bool.and_false]
    rfl

end

/-- The notice word over the read outstanding: a timeout sets none. -/
theorem State.readTick_notice (s : State) : s.readTick.link.notice = s.link.notice := by
  obtain ⟨-, same⟩ | ⟨r, -, ⟨-, ends⟩ | ⟨-, counts⟩⟩ := s.readTick_cases
  · rw [same]
  · rw [ends]
    have link : s.timeoutRead.link = s.link.dropRead := by
      unfold State.timeoutRead
      dsimp only
      split <;> rfl
    rw [link]
    unfold Link.dropRead
    split <;> rfl
  · rw [counts]

theorem Link.engineTick_notice (k : Link) : k.engineTick.notice = k.notice := by
  unfold Link.engineTick
  split <;> rfl

theorem State.takenAt_notice (s : State) : s.takenAt.link.notice = s.link.notice := by
  rw [← s.link.engineTick_notice]
  unfold State.takenAt State.takePhase State.takeTick
  split
  · rfl
  · split <;> rfl

theorem State.blockTick_notice (s : State) (pins : BitVec 16) (follows first : Bool) :
    (s.blockTick pins follows first).link.notice =
      s.link.notice ||| if (s.ref.tick follows).locked = s.ref.locked then 0 else 0x80000000 := by
  have audio : (s.audioTick pins).link.notice = s.link.notice := by rw [State.audioTick_link, State.takenAt_notice]
  have ref : (s.audioTick pins).ref = s.ref := s.audioTick_ref pins
  rw [State.blockTick_link, State.readTick_notice, State.beforeRead, ref]
  by_cases kept : (s.ref.tick follows).locked = s.ref.locked
  · rw [State.setRef_kept (kept.trans (congrArg RefMonitor.locked ref).symm), if_pos kept]
    exact audio.trans BitVec.or_zero.symm
  · rw [State.setRef_changed fun same => kept (same.trans (congrArg RefMonitor.locked ref)), if_neg kept, ← audio]
    have raised := ((s.audioTick pins).link.raise_raises 0x80000000).eq
    exact congrArg Link.notice raised

/-! ### The meter period (R138) -/

section
variable (s : State)

/-- The meter period counter reaches the period at the tick. -/
def State.periodHit : Prop := s.inst.period = false ∧ s.report.period ≤ s.report.meterCounter + 1

theorem State.periodPhase_due_iff : s.periodPhase.report.due = true ↔ s.report.due = true ∨ s.periodHit := by
  unfold State.periodPhase State.periodHit Report.periodTick
  cases s.inst.period with
  | true => simp
  | false => by_cases reached : s.report.period ≤ s.report.meterCounter + 1 <;> simp [reached]

theorem State.periodPhase_counter [Decidable s.periodHit] :
    s.periodPhase.report.meterCounter =
      if s.periodHit then 0
      else if s.inst.period = true then s.report.meterCounter else s.report.meterCounter + 1 := by
  have hit : s.periodHit ↔ s.inst.period = false ∧ s.report.period ≤ s.report.meterCounter + 1 := Iff.rfl
  simp only [hit]
  unfold State.periodPhase Report.periodTick
  cases s.inst.period with
  | true => simp
  | false => by_cases reached : s.report.period ≤ s.report.meterCounter + 1 <;> simp [reached]

theorem State.periodPhase_round : s.periodPhase.report.round = s.report.round := by
  unfold State.periodPhase Report.periodTick
  split
  · rfl
  · dsimp only
    split <;> rfl

theorem exec_periodicDue {s : State} (last : s.report.meterCounter + 1 = s.report.period) (fresh : s.inst.period = false)
    (free : s.intake.phase ≠ .ready ∨ s.inst.begun = true) :
    exec .periodicDue s =
      .next { s with report := { s.report with meterCounter := 0, due := true }, inst := { s.inst with period := true } } := by
  have due : s.periodDue = true := by
    unfold State.periodDue
    rw [fresh, State.applyDue_false free, decide_eq_true last.ge]
    rfl
  have counts : s.report.periodTick = { s.report with meterCounter := 0, due := true } := if_pos last.ge
  rw [← counts]
  exact congrArg Host.Outcome.next (if_pos due)

end

theorem State.roundPhase_eq (t s : State) (pins : BitVec 16) (first : Bool) :
    t.roundPhase s pins first =
      t.lookRound (t.seenAt s pins first) (if first then s.tickFlags pins else ReportFlags.clear) := by
  unfold State.roundPhase
  rfl

/-- REPORT after a look for a round: as it was, or with the work seen taken into a round. -/
theorem State.lookRound_report_cases (t seen : State) (left : ReportFlags) (report : seen.report = t.report) :
    (seen.mayRound = false ∧ (t.lookRound seen left).report = t.report) ∨
      (t.report.round = none ∧ seen.work.present = true ∧
        (t.lookRound seen left).report = t.report.takeWork seen.work (newRound seen seen.work)) := by
  obtain ⟨idle, kept⟩ | ⟨may, begun⟩ := t.lookRound_cases seen left
  · exact .inl ⟨idle, by rw [kept]⟩
  · obtain ⟨none, work⟩ := seen.mayRound_iff.mp may
    rw [report] at none
    exact .inr ⟨none, work, by rw [begun]; rfl⟩

/-- REPORT after a block tick: as the events of the tick leave it, or with the work seen taken into a round. -/
theorem State.blockTick_report_cases (s : State) (pins : BitVec 16) (follows first : Bool) :
    (s.blockTick pins follows first).report = (s.tickEvents pins follows).report ∨
      ((s.tickEvents pins follows).report.round = none ∧ ∃ w round, round.full = w.full ∧ round.meters = w.meters ∧
        (s.blockTick pins follows first).report = (s.tickEvents pins follows).report.takeWork w round) := by
  have ended : (s.blockTick pins follows first).report =
      ((s.tickEvents pins follows).lookRound ((s.tickEvents pins follows).seenAt s pins first)
        (if first then s.tickFlags pins else ReportFlags.clear)).report := by
    rw [← State.roundPhase_eq]
    exact State.endTick_report ..
  obtain ⟨-, kept⟩ | ⟨none, -, begun⟩ := (s.tickEvents pins follows).lookRound_report_cases
    ((s.tickEvents pins follows).seenAt s pins first) (if first then s.tickFlags pins else ReportFlags.clear)
    (s.seenAt_report pins first _)
  · exact .inl (ended.trans kept)
  · exact .inr ⟨none, _, _, rfl, rfl, ended.trans begun⟩

/-! ### Keys and routes (R53 to R60) -/

section
variable (v : State) (pins : BitVec 16) (follows first : Bool)

theorem State.blockTick_keys : (v.blockTick pins follows first).cue.keys = (v.beforeCue pins).cue.keys := by
  rw [v.blockTick_cue pins follows first]
  rfl

theorem State.blockTick_routes : (v.blockTick pins follows first).cue.routes = (v.beforeCue pins).cue.routes := by
  rw [v.blockTick_cue pins follows first]
  rfl

theorem State.blockTick_key (k : Key) :
    (v.blockTick pins follows first).cue.keys[k] =
      if v.applied.inst.keys[k] then v.applied.cue.keys[k]
      else keySample v.applied.cue.keys[k] (rawKey pins v.applied.cue.keys[k] k) := by
  obtain ⟨keys, -, -, taken, -⟩ := v.linePart_applied
  have cue : v.afterLines.periodPhase.cue = v.linePart.cue := by simp [v.afterLines_cue]
  have inst : v.afterLines.periodPhase.inst = v.linePart.inst := by simp [v.afterLines_inst]
  rw [State.blockTick_keys, State.beforeCue_eq, State.keyPhase_key]
  unfold State.keyAfter
  rw [cue, inst, keys, taken]

/-- The event of a key at the tick, with the keys as the apply leaves them. -/
def State.keyEventApplied (k : Key) : Option KeyEvent :=
  if v.applied.inst.keys[k] then none
  else keyEvent v.applied.cue.keys[k] (rawKey pins v.applied.cue.keys[k] k)

theorem State.blockTick_route (r : Route) :
    (v.blockTick pins follows first).cue.routes[r] =
      (v.applied.cue.routes[r]).tick v.applied.inst.replaced[r] v.applied.inst.holds[r]
        (isSlowTick (v.report.blockCount + 1))
        ((v.blockTick pins follows first).cue.keys[(v.applied.cue.routes[r]).entry.key]).down
        (v.keyEventApplied pins (v.applied.cue.routes[r]).entry.key) := by
  obtain ⟨keys, routes, report, taken, holds, replaced, -⟩ := v.linePart_applied
  have key (k : Key) : (v.blockTick pins follows first).cue.keys[k] = v.afterLines.periodPhase.keyAfter pins k := by
    rw [State.blockTick_keys, State.beforeCue_eq, State.keyPhase_key]
  have count : v.afterLines.periodPhase.report.blockCount = v.report.blockCount + 1 := by
    have kept : v.afterLines.periodPhase.report.blockCount = v.afterLines.report.blockCount := by
      unfold State.periodPhase Report.periodTick
      split
      · rfl
      · dsimp only
        split <;> rfl
    rw [kept, v.afterLines_report]
  have cue : v.afterLines.periodPhase.cue = v.linePart.cue := by simp [v.afterLines_cue]
  have inst : v.afterLines.periodPhase.inst = v.linePart.inst := by simp [v.afterLines_inst]
  have route : (v.blockTick pins follows first).cue.routes[r] = v.afterLines.periodPhase.routeAfter pins r := by
    rw [State.blockTick_routes, State.beforeCue_eq, State.keyPhase_route]
  rw [route]
  unfold State.routeAfter State.keyEventAt State.keyEventApplied
  simp only [key, count, cue, inst, keys, routes, taken, holds, replaced]

end

/-! ### A key's sample (R53) -/

section
variable {k : KeyCtx} {raw : Bool}

theorem keySample_equal (equal : raw = k.down) : keySample k raw = { k with run := 0 } := if_pos equal

theorem keySample_differs (differs : raw ≠ k.down) (early : k.run < 3) : keySample k raw = { k with run := k.run + 1 } := by
  unfold keySample
  rw [if_neg differs, if_neg (Nat.not_le.mpr early)]

theorem keySample_fourth (differs : raw ≠ k.down) (last : k.run = 3) : keySample k raw = { k with down := raw, run := 0 } := by
  unfold keySample
  rw [if_neg differs, if_pos last.ge]

theorem keySample_soft (k : KeyCtx) (raw : Bool) : (keySample k raw).soft = k.soft := by
  unfold keySample
  split
  · rfl
  · split <;> rfl

/-- A press is the fourth sample that finds an UP key DOWN, a release the fourth that finds a DOWN key UP. -/
theorem keyEvent_eq_some_iff (bound : k.run ≤ 3) (e : KeyEvent) :
    keyEvent k raw = some e ↔ raw ≠ k.down ∧ k.run = 3 ∧ (e = .press ↔ k.down = false) := by
  have last : 3 ≤ k.run ↔ k.run = 3 := by omega
  unfold keyEvent
  by_cases takes : raw ≠ k.down ∧ k.run = 3
  · rw [if_pos (takes.imp_right fun full => full.ge)]
    obtain ⟨differs, full⟩ := takes
    cases raw <;> cases down : k.down <;> cases e <;> simp_all
  · rw [if_neg fun taken => takes ⟨taken.1, last.mp taken.2⟩]
    exact ⟨fun none => (nomatch none), fun event => absurd ⟨event.1, event.2.1⟩ takes⟩

end

/-! ### A route's tick (R55 to R60) -/

section
variable {x : RouteCtx} {loaded slow down : Bool} {e : Option KeyEvent}

theorem RouteCtx.tick_invalid (invalid : x.entry.valid = false) (replaced : Bool) :
    x.tick replaced loaded slow down e = { x with activity := .idle, holdCount := 0 } := by
  unfold RouteCtx.tick
  rw [invalid]
  rfl

theorem RouteCtx.tick_replaced (valid : x.entry.valid = true) : x.tick true loaded slow down e = x.restart down := by
  unfold RouteCtx.tick
  rw [valid]
  rfl

/-- The route after the tick's decrease of its hold count. -/
def RouteCtx.counted (x : RouteCtx) (loaded slow : Bool) : RouteCtx := if slow && !loaded then x.slowTick else x

theorem RouteCtx.tick_event (valid : x.entry.valid = true) (event : KeyEvent) :
    x.tick false loaded slow down (some event) = (x.counted loaded slow).event event := by
  unfold RouteCtx.tick
  rw [valid]
  rfl

theorem RouteCtx.tick_none (valid : x.entry.valid = true) :
    x.tick false loaded slow down none = x.counted loaded slow := by
  unfold RouteCtx.tick
  rw [valid]
  rfl

theorem RouteCtx.slowTick_entry (x : RouteCtx) : x.slowTick.entry = x.entry := by
  unfold RouteCtx.slowTick
  split
  · split <;> rfl
  · rfl

theorem RouteCtx.slowTick_other (other : x.activity ≠ .holding) : x.slowTick = x := if_neg other

theorem RouteCtx.slowTick_more (holding : x.activity = .holding) (more : 1 < x.holdCount) :
    x.slowTick = { x with holdCount := x.holdCount - 1 } := by
  unfold RouteCtx.slowTick
  rw [if_pos holding, if_neg (Nat.not_le.mpr more)]

theorem RouteCtx.slowTick_ends (holding : x.activity = .holding) (few : x.holdCount ≤ 1) :
    x.slowTick = { x with activity := .idle, holdCount := 0 } := by
  unfold RouteCtx.slowTick
  rw [if_pos holding, if_pos few]

theorem RouteCtx.counted_other (other : x.activity ≠ .holding) : x.counted loaded slow = x := by
  unfold RouteCtx.counted
  rw [RouteCtx.slowTick_other other, ite_self]

/-- A hold count falls at a slow tick at which it was not loaded. -/
theorem RouteCtx.counted_stands (stands : ¬ (x.activity = .holding ∧ slow = true ∧ loaded = false)) :
    x.counted loaded slow = x := by
  by_cases holding : x.activity = .holding
  · refine if_neg fun falls => stands ⟨holding, ?_⟩
    rwa [Bool.and_eq_true, Bool.not_eq_true'] at falls
  · exact RouteCtx.counted_other holding

theorem RouteCtx.counted_falls (tick : slow = true) (fresh : loaded = false) : x.counted loaded slow = x.slowTick := by
  unfold RouteCtx.counted
  rw [tick, fresh]
  rfl

theorem RouteCtx.counted_entry (x : RouteCtx) (loaded slow : Bool) : (x.counted loaded slow).entry = x.entry := by
  unfold RouteCtx.counted
  split
  · exact x.slowTick_entry
  · rfl

/-- A route other than in HOLDING has not been counted out of it; one in HOLDING is not LATCHED either way. -/
theorem RouteCtx.counted_activity (a : Activity) (other : a = .active ∨ a = .latched) :
    (x.counted loaded slow).activity = a ↔ x.activity = a := by
  by_cases holding : x.activity = .holding
  · have ends : (x.counted loaded slow).activity = .holding ∨ (x.counted loaded slow).activity = .idle := by
      unfold RouteCtx.counted RouteCtx.slowTick
      rw [if_pos holding]
      split
      · split
        · exact .inr rfl
        · exact .inl holding
      · exact .inl holding
    obtain rfl | rfl := other <;> obtain same | same := ends <;> rw [same, holding] <;> decide
  · rw [RouteCtx.counted_other holding]

/-- A press sets an entry's route, whatever its hold count was at the tick. -/
theorem RouteCtx.event_press_momentary (valid : x.entry.valid = true) (mode : x.entry.mode = .momentary) :
    (x.counted loaded slow).event .press = { x with activity := .active, holdCount := 0 } := by
  have entry := x.counted_entry loaded slow
  rw [RouteCtx.event_momentary (by rw [entry, valid]) (by rw [entry, mode])]
  unfold RouteCtx.momentaryEvent
  rw [entry]

theorem RouteCtx.event_press_latch (valid : x.entry.valid = true) (mode : x.entry.mode = .latch)
    (other : x.activity ≠ .latched) :
    (x.counted loaded slow).event .press = { x with activity := .latched, holdCount := 0 } := by
  have entry := x.counted_entry loaded slow
  rw [RouteCtx.event_latch (by rw [entry, valid]) (by rw [entry, mode]),
    RouteCtx.latch_press_sets (mt (RouteCtx.counted_activity .latched (.inr rfl)).mp other), entry]

theorem RouteCtx.event_press_unlatch (valid : x.entry.valid = true) (mode : x.entry.mode = .latch)
    (latched : x.activity = .latched) : (x.counted loaded slow).event .press = x.letGo := by
  rw [RouteCtx.counted_other (by rw [latched]; decide), RouteCtx.event_latch valid mode, RouteCtx.latch_press_lets latched]

theorem RouteCtx.event_release_momentary (valid : x.entry.valid = true) (mode : x.entry.mode = .momentary)
    (active : x.activity = .active) : (x.counted loaded slow).event .release = x.letGo := by
  rw [RouteCtx.counted_other (by rw [active]; decide), RouteCtx.event_momentary valid mode]
  exact if_pos active

theorem RouteCtx.event_release_other (other : ¬ (x.entry.mode = .momentary ∧ x.activity = .active)) :
    (x.counted loaded slow).event .release = x.counted loaded slow := by
  refine RouteCtx.event_release_stays fun ⟨_, mode, active⟩ => other ⟨?_, ?_⟩
  · rwa [RouteCtx.counted_entry] at mode
  · exact (RouteCtx.counted_activity .active (.inl rfl)).mp active

end

end Sys2Proof.Machine

open Sys2Proof Sys2Proof.Machine

/-- Settles O25: a lane that the tick finds without a frame loses its lock, and `loseLock` is what the row gives. -/
theorem lockLost : Obligations.LockLost := by
  unfold Obligations.LockLost
  refine ⟨fun s pins follows first i free fresh locked slave unseen => ?_, fun s i cause locked loses => ?_⟩
  · obtain ⟨pending, lane⟩ := State.blockTick_laneAfter (State.applyDue_false free) pins follows first i
    have lost : s.laneAfter i = ((s.lrx.lanes[i]).loseLock).showLost s.lrx.laneLoss := by
      unfold State.laneAfter
      rw [fresh, InLaneCtx.tick_missing (InLaneCtx.syncMissing_of locked slave unseen)]
    rw [lost] at lane
    refine ⟨_, exec_blockTick s pins follows first, ?_⟩
    rw [lane]
    exact ⟨rfl, rfl, rfl, rfl, rfl, rfl, InLaneCtx.present_zero nofun⟩
  · refine ⟨_, exec_lossOfLock locked loses, s.loseLock_eq i cause, fun w wrong => ?_, ?_⟩
    · rw [wrong]
      rfl
    · have records := s.loseLock_record i cause
      rw [State.loseLock_lane]
      exact ⟨rfl, rfl, rfl, rfl, rfl, rfl, rfl, rfl, rfl, rfl, rfl, InLaneCtx.present_zero nofun, records⟩

/-- Settles O26: the monitor's tick in its four cases, and REF at each change of the lock. -/
theorem referenceLock : Obligations.ReferenceLock := by
  unfold Obligations.ReferenceLock
  refine ⟨fun s => ⟨fun unlocked sound last => ?_, ?_⟩, fun s pins follows first => ?_⟩
  · refine ⟨_, exec_refLock unlocked sound last, ?_⟩
    have changed : s.ref.lock.locked ≠ s.ref.locked := by
      rw [unlocked]
      exact nofun
    rw [State.setRef_changed changed]
    exact ⟨rfl, rfl, rfl⟩
  · refine ⟨s.setRef { s.ref.lose with failed := true }, rfl, ?_⟩
    cases locked : s.ref.locked with
    | true =>
      rw [State.setRef_changed (by rw [locked]; exact nofun)]
      exact ⟨rfl, rfl, rfl, by simp [RefMonitor.lose, locked]⟩
    | false =>
      rw [State.setRef_kept (by rw [locked]; rfl)]
      exact ⟨rfl, rfl, rfl, by simp [RefMonitor.lose, locked]⟩
  · refine ⟨_, exec_blockTick s pins follows first, ?_⟩
    rw [State.blockTick_ref, State.blockTick_notice]
    refine ⟨fun on sound => ?_, RefMonitor.tick_fails, rfl⟩
    rw [on, RefMonitor.tick_follows sound]
    refine ⟨fun locked => if_pos locked, fun unlocked early => ?_, fun unlocked last => ?_⟩
    · rw [if_neg (Bool.eq_false_iff.mp unlocked), if_neg (Nat.not_le.mpr early)]
    · rw [if_neg (Bool.eq_false_iff.mp unlocked), if_pos last]
      exact ⟨rfl, rfl⟩

/-- Settles O41: the counter's tick with the period as the apply leaves it, and what a round takes of it. -/
theorem periodicDueSet : Obligations.PeriodicDueSet := by
  unfold Obligations.PeriodicDueSet
  refine ⟨fun s last fresh free => exec_periodicDue last fresh free, fun v s pins follows first run => ?_⟩
  obtain rfl : v.applied = s := Host.Outcome.next.inj ((exec_apply v).symm.trans run)
  refine ⟨_, exec_blockTick v pins follows first, ?_⟩
  have classical : ∀ p : Prop, Nonempty (Decidable p) := fun p => ⟨Classical.dec p⟩
  obtain ⟨-, -, -, -, -, -, marked⟩ := v.linePart_applied
  have inst : v.afterLines.inst.period = v.applied.inst.period := by rw [v.afterLines_inst, marked]
  have hit : v.afterLines.periodHit ↔
      v.applied.inst.period = false ∧ v.applied.report.period ≤ v.applied.report.meterCounter + 1 := by
    unfold State.periodHit
    rw [inst, v.afterLines_report]
  have due := v.afterLines.periodPhase_due_iff
  have round : (v.tickEvents pins follows).report.round = v.applied.report.round := by
    rw [v.tickEvents_report, State.periodPhase_round, v.afterLines_report]
  obtain ⟨decides⟩ := classical v.afterLines.periodHit
  have counter := v.afterLines.periodPhase_counter
  rw [v.afterLines_report] at due counter
  rw [← v.tickEvents_report pins follows] at due counter
  simp only [hit, inst] at due counter
  obtain kept | ⟨none, w, round', full, meters, begun⟩ := v.blockTick_report_cases pins follows first
  · rw [kept]
    refine ⟨fun _ => ⟨counter.trans ?_, due⟩, fun r none begun => ?_⟩
    · congr
    · exact absurd (none.symm.trans (round.symm.trans begun)) nofun
  · rw [begun]
    refine ⟨fun same => ?_, fun r _ taken => ?_⟩
    · exact absurd (same.trans (round.symm.trans none)) nofun
    · obtain rfl := Option.some.inj taken
      rw [full, meters]
      refine ⟨?_, ?_⟩
      · show (if _ then _ else _) = if _ then _ else _
        rw [counter]
      · show (_ && _) = true ↔ _
        rw [Bool.and_eq_true, due, Bool.not_eq_true']

/-- Settles O28: keys and routes have the tick of the keys and routes that the apply leaves. -/
theorem blockTickKeys : Obligations.BlockTickKeys := by
  unfold Obligations.BlockTickKeys
  intro v s t pins follows first run applied
  obtain rfl : v.applied = s := Host.Outcome.next.inj ((exec_apply v).symm.trans applied)
  obtain rfl : v.blockTick pins follows first = t := Host.Outcome.next.inj ((exec_blockTick v pins follows first).symm.trans run)
  have count := v.applied_blockCount
  refine ⟨fun k fresh bound => ?_, fun r => ?_⟩
  · rw [v.blockTick_key pins follows first k, fresh, if_neg Bool.false_ne_true]
    refine ⟨keySample_soft .., fun equal => ?_, fun differs early => ?_, fun differs last => ?_⟩
    · rw [keySample_equal (raw := rawKey pins v.applied.cue.keys[k] k) equal]
      exact ⟨rfl, rfl⟩
    · rw [keySample_differs (raw := rawKey pins v.applied.cue.keys[k] k) differs early]
      exact ⟨rfl, rfl⟩
    · rw [keySample_fourth (raw := rawKey pins v.applied.cue.keys[k] k) differs last]
      exact ⟨rfl, rfl⟩
  · have tick := v.blockTick_route pins follows first r
    intro x k keyEvents pressed released letGo counts
    have slow : isSlowTick (v.report.blockCount + 1) = true ↔ (v.applied.report.blockCount + 1).toNat % 16 = 0 := by
      rw [count]
      exact beq_iff_eq
    refine ⟨fun invalid => ?_, fun valid replaced => ?_, fun valid kept bound => ?_⟩
    · rw [tick, RouteCtx.tick_invalid invalid]
    · rw [tick, replaced, RouteCtx.tick_replaced valid]
      simp only [RouteCtx.restart, Bool.and_eq_true, decide_eq_true_eq]
      rfl
    · have event (e : KeyEvent) : v.keyEventApplied pins x.entry.key = some e ↔
          v.applied.inst.keys[x.entry.key] = false ∧
            (rawKey pins v.applied.cue.keys[x.entry.key] x.entry.key ≠ (v.applied.cue.keys[x.entry.key]).down ∧
              (v.applied.cue.keys[x.entry.key]).run = 3 ∧
              (e = .press ↔ (v.applied.cue.keys[x.entry.key]).down = false)) := by
        unfold State.keyEventApplied
        cases v.applied.inst.keys[x.entry.key] with
        | true => simp
        | false => exact (keyEvent_eq_some_iff bound e).trans (and_iff_right rfl).symm
      rw [kept] at tick
      refine ⟨fun mode pressed => ?_, fun mode released active => ?_, fun mode pressed other => ?_,
        fun mode pressed latched => ?_, fun notPressed notReleased => ?_⟩
      · obtain ⟨⟨fresh, differs, last⟩, up⟩ := pressed
        rw [tick, (event .press).mpr ⟨fresh, differs, last, iff_of_true rfl up⟩, RouteCtx.tick_event valid,
          RouteCtx.event_press_momentary valid mode]
      · obtain ⟨⟨fresh, differs, last⟩, down⟩ := released
        rw [tick, (event .release).mpr ⟨fresh, differs, last, iff_of_false nofun (by rw [down]; exact nofun)⟩,
          RouteCtx.tick_event valid, RouteCtx.event_release_momentary valid mode active, RouteCtx.letGo_eq]
      · obtain ⟨⟨fresh, differs, last⟩, up⟩ := pressed
        rw [tick, (event .press).mpr ⟨fresh, differs, last, iff_of_true rfl up⟩, RouteCtx.tick_event valid,
          RouteCtx.event_press_latch valid mode other]
      · obtain ⟨⟨fresh, differs, last⟩, up⟩ := pressed
        rw [tick, (event .press).mpr ⟨fresh, differs, last, iff_of_true rfl up⟩, RouteCtx.tick_event valid,
          RouteCtx.event_press_unlatch valid mode latched, RouteCtx.letGo_eq]
      · have counted : (v.blockTick pins follows first).cue.routes[r] =
            x.counted v.applied.inst.holds[r] (isSlowTick (v.report.blockCount + 1)) := by
          rw [tick]
          cases taken : v.keyEventApplied pins x.entry.key with
          | none => exact RouteCtx.tick_none valid
          | some e =>
            obtain ⟨fresh, differs, last, kind⟩ := (event e).mp taken
            rw [RouteCtx.tick_event valid]
            cases e with
            | press => exact absurd ⟨⟨fresh, differs, last⟩, kind.mp rfl⟩ notPressed
            | release =>
              have down : (v.applied.cue.keys[x.entry.key]).down = true :=
                Bool.not_eq_false _ ▸ fun up => (nomatch kind.mpr up)
              exact RouteCtx.event_release_other fun moves => notReleased ⟨⟨⟨fresh, differs, last⟩, down⟩, moves⟩
        rw [counted]
        refine ⟨fun stands => ?_, fun falls few => ?_, fun falls more => ?_⟩
        · exact RouteCtx.counted_stands fun ⟨holding, tick, fresh⟩ => stands ⟨holding, slow.mp tick, fresh⟩
        · obtain ⟨holding, tick, fresh⟩ := falls
          rw [RouteCtx.counted_falls (slow.mpr tick) fresh, RouteCtx.slowTick_ends holding few]
        · obtain ⟨holding, tick, fresh⟩ := falls
          rw [RouteCtx.counted_falls (slow.mpr tick) fresh, RouteCtx.slowTick_more holding more]
end

