-- ==== Sys2Proof/Proofs/LineRules.lean ====
section
/-! PROOFS. One line at a tick with any record applied, any delivery and any change of depth (R29, R33 to R50). -/

namespace Sys2Proof.Machine

/-! ### The moves of a delivery (R29, R37, R40, R42) -/

section
variable {c : LineCtx} {i : LineInput}

theorem lineMove_lose {x : Delivery} (connected : c.state.connected = true) (held : c.condition = .connected)
    (delivered : i.delivery = some x) (other : x.condition ≠ .connected) : lineMove c i = .lose := by
  unfold lineMove
  rw [delivered]
  dsimp only
  rw [held, if_neg other, if_neg other, if_pos connected]

theorem lineMove_reconnect {x : Delivery} (lost : c.state = .lost) (held : c.condition ≠ .connected)
    (delivered : i.delivery = some x) (arrives : x.condition = .connected) : lineMove c i = .reconnect := by
  unfold lineMove
  rw [delivered]
  dsimp only
  rw [arrives, if_neg held.symm, if_pos rfl, lost]

theorem lineMove_stay_connected (connected : c.state.connected = true)
    (delivered : ∀ x, i.delivery = some x → x.condition = .connected) : lineMove c i = .stay :=
  (lineMove_eq_stay_iff_of_connected c i connected).mpr fun x given => .inl (delivered x given)

theorem lineMove_stay_off (off : c.state.connected = false)
    (delivered : ∀ x, i.delivery = some x → x.condition ≠ .connected) : lineMove c i = .stay := by
  unfold lineMove
  cases given : i.delivery with
  | none => rfl
  | some x =>
    dsimp only
    rw [if_neg (delivered x given), off]
    exact ite_self _

end

/-! ### The parts of a line's tick (R34, R38, R41, R45, R47 to R49) -/

section
variable {e : LineEnv} {c : LineCtx} {i : LineInput} {n : BitVec 8}

theorem inAirAfter_iff : inAirAfter c i = true ↔ connectedAfter c i = true ∧ (planAfter c i).role = .air := by
  unfold inAirAfter
  rw [Bool.and_eq_true, decide_eq_true_eq]

theorem leavesAir_iff : leavesAir c i = true ↔ c.state = .air ∧ inAirAfter c i = false := by
  unfold leavesAir
  rw [Bool.and_eq_true, decide_eq_true_eq, Bool.not_eq_true']

theorem roleChanged_iff : roleChanged c i = true ↔ (planAfter c i).role ≠ c.plan.role := by
  unfold roleChanged
  rw [decide_eq_true_eq]

/-- A shadow count that goes on: adjusted, and less the tick's decrease (R48, R49). -/
def runningCount (e : LineEnv) (c : LineCtx) (i : LineInput) : Nat :=
  if c.shadowCount = 0 then 0 else adjustedCount c.shadowCount e.delta - i.counted.toNat

theorem shadowAfter_out (out : inAirAfter c i = false) :
    shadowAfter e c i = if c.state = .air then e.shadowStart else runningCount e c i := by
  have leaves : leavesAir c i = true ↔ c.state = .air := leavesAir_iff.trans (and_iff_left out)
  unfold shadowAfter runningCount
  rw [out, if_neg Bool.false_ne_true]
  simp only [leaves]

theorem runningCount_counted (counted : i.counted = true) :
    runningCount e c i =
      if c.shadowCount = 0 then 0 else (max 0 (min 65535 ((c.shadowCount : Int) + e.delta))).toNat - 1 := by
  have clamp : adjustedCount c.shadowCount e.delta = (max 0 (min 65535 ((c.shadowCount : Int) + e.delta))).toNat := by
    unfold adjustedCount
    omega
  unfold runningCount
  rw [counted, clamp]
  rfl

/-- The auto screener where neither an arrival nor an expiry sets it: it goes with a role that leaves AUTO (R45). -/
theorem screenerAfter_kept (noArrival : takesArrival c i = false) (noExpiry : lossExpires e c i = false) :
    screenerAfter e c i n = if c.plan.role = .auto ∧ (planAfter c i).role ≠ .auto then none else c.autoScreener := by
  have leaves : (roleChanged c i && c.plan.role = .auto) = true ↔ c.plan.role = .auto ∧ (planAfter c i).role ≠ .auto := by
    rw [Bool.and_eq_true, decide_eq_true_eq, roleChanged_iff]
    constructor
    · rintro ⟨changed, auto⟩
      exact ⟨auto, auto ▸ changed⟩
    · rintro ⟨auto, changed⟩
      exact ⟨auto.symm ▸ changed, auto⟩
  unfold screenerAfter
  rw [noArrival, noExpiry, if_neg Bool.false_ne_true, if_neg Bool.false_ne_true]
  simp only [leaves]

theorem screenerAfter_arrives (arrives : takesArrival c i = true) :
    screenerAfter e c i n = arrivalAnswer e.table n := if_pos arrives

theorem screenerAfter_expires (noArrival : takesArrival c i = false) (expires : lossExpires e c i = true) :
    screenerAfter e c i n = none := by
  unfold screenerAfter
  rw [noArrival, expires]
  rfl

theorem not_takesArrival_off (off : connectedAfter c i = false) : takesArrival c i = false := by
  refine Bool.eq_false_iff.mpr fun arrives => ?_
  exact Bool.noConfusion (off.symm.trans (takesArrival_connectedAfter arrives))

theorem not_takesArrival_same (same : (planAfter c i).role = c.plan.role) (move : lineMove c i ≠ .connect) :
    takesArrival c i = false := by
  refine Bool.eq_false_iff.mpr fun arrives => ?_
  obtain ⟨-, connects | ⟨-, changed, -⟩⟩ := (takesArrival_iff_move c i).mp arrives
  · exact move connects
  · exact changed same

theorem not_takesArrival_other (other : (planAfter c i).role ≠ .auto) : takesArrival c i = false :=
  Bool.eq_false_iff.mpr fun arrives => other ((takesArrival_iff_move c i).mp arrives).1

/-- The state after a tick is AIR exactly where the line enters or stays in it (R34). -/
theorem stateAfter_air_iff : stateAfter e c i n = .air ↔ inAirAfter c i = true := by
  rw [inAirAfter_iff]
  cases connected : connectedAfter c i with
  | true =>
    rw [stateAfter_connected connected, connectedState_eq_air_iff]
    exact (and_iff_right rfl).symm
  | false =>
    refine iff_of_false (fun air => ?_) nofun
    unfold stateAfter at air
    rw [connected, if_neg Bool.false_ne_true] at air
    by_cases lose : lineMove c i = .lose
    · rw [if_pos lose] at air
      exact nomatch air
    · rw [if_neg lose] at air
      split at air
      · exact nomatch air
      · have live : connectedAfter c i = true := by
          unfold connectedAfter
          cases move : lineMove c i with
          | connect | reconnect => rfl
          | lose => exact absurd move lose
          | stay => exact congrArg LineState.connected air
        exact Bool.noConfusion (connected.symm.trans live)

end

/-! ### The report flag of a line's tick (R50) -/

section
variable {e : LineEnv} {l : Line} {c : LineCtx} {i : LineInput} {n : BitVec 8}

theorem conditionChanged_iff : conditionChanged c i = true ↔ conditionAfter c i ≠ c.condition := by
  unfold conditionChanged conditionAfter
  cases i.delivery with
  | none => simp
  | some d => simp

theorem notified_iff : (i.delivery.map (·.notify)).getD false = true ↔ ∃ x, i.delivery = some x ∧ x.notify = true := by
  cases i.delivery <;> simp

/-- A line that takes an arrival changes its state or its role. -/
theorem arrival_changes (arrives : takesArrival c i = true) :
    stateAfter e c i n ≠ c.state ∨ (planAfter c i).role ≠ c.plan.role := by
  obtain ⟨-, move | ⟨-, changed, -⟩⟩ := (takesArrival_iff_move c i).mp arrives
  · refine .inl fun same => ?_
    have vacant := ((lineMove_eq_connect_iff c i).mp move).1
    have live : (stateAfter e c i n).connected = true := by
      rw [stateAfter_connected (takesArrival_connectedAfter arrives)]
      exact connectedState_connected ..
    rw [same, vacant] at live
    exact nomatch live
  · exact .inr changed

/-- The events that mark a line for its status record, read from the line before and after its tick. -/
theorem lineMarked_iff (sound : c.sound l = true) :
    lineMarked e c i n = true ↔
      stateAfter e c i n ≠ c.state ∨ conditionAfter c i ≠ c.condition ∨
        (∃ x, i.delivery = some x ∧ x.notify = true) ∨ (planAfter c i).role ≠ c.plan.role ∨
        (c.autoScreener.isSome = true ∧ screenerAfter e c i n = none) ∨
        (c.shadowCount ≠ 0 ∧ (shadowAfter e c i = 0 ∨ (e.delta ≠ 0 ∧ stateAfter e c i n ≠ .air))) := by
  obtain ⟨-, -, -, -, -, -, noShadow, -, -⟩ := (LineCtx.sound_iff l c).mp sound
  have arrival : takesArrival c i = true → stateAfter e c i n ≠ c.state ∨ (planAfter c i).role ≠ c.plan.role :=
    arrival_changes
  have leaving : leavesAir c i = true → stateAfter e c i n ≠ c.state := fun leaves same => by
    obtain ⟨air, out⟩ := leavesAir_iff.mp leaves
    exact Bool.noConfusion (out.symm.trans (stateAfter_air_iff.mp (same.trans air)))
  have adjusted : shadowAdjusted e c i = true ↔ c.shadowCount ≠ 0 ∧ e.delta ≠ 0 ∧ stateAfter e c i n ≠ .air := by
    have stays : inAirAfter c i = true ↔ stateAfter e c i n = .air := stateAfter_air_iff.symm
    have leaves : leavesAir c i = true → c.shadowCount = 0 := fun leaves => noShadow (leavesAir_iff.mp leaves).1
    unfold shadowAdjusted
    simp only [Bool.and_eq_true, Bool.not_eq_true', ← Bool.not_eq_true, decide_eq_true_eq, stays]
    exact ⟨fun ⟨⟨⟨out, _⟩, runs⟩, deeper⟩ => ⟨runs, deeper, out⟩,
      fun ⟨runs, deeper, out⟩ => ⟨⟨⟨out, fun left => runs (leaves left)⟩, runs⟩, deeper⟩⟩
  have lost : (screenerAfter e c i n).isNone = true ↔ screenerAfter e c i n = none := Option.isNone_iff_eq_none
  unfold lineMarked
  simp only [Bool.or_eq_true, Bool.and_eq_true, decide_eq_true_eq, conditionChanged_iff, notified_iff, roleChanged_iff,
    adjusted, lost]
  constructor
  · rintro ((((((((moved | changed) | notified) | role) | arrives) | gone) | ⟨left, -⟩) | ⟨some, zero⟩) | ⟨some, deeper⟩)
    · exact .inl moved
    · exact .inr (.inl changed)
    · exact .inr (.inr (.inl notified))
    · exact .inr (.inr (.inr (.inl role)))
    · exact (arrival arrives).imp_right fun role => .inr (.inr (.inl role))
    · exact .inr (.inr (.inr (.inr (.inl gone))))
    · exact .inl (leaving left)
    · exact .inr (.inr (.inr (.inr (.inr ⟨some, .inl zero⟩))))
    · exact .inr (.inr (.inr (.inr (.inr ⟨some, .inr deeper⟩))))
  · rintro (moved | changed | notified | role | gone | ⟨some, zero | deeper⟩)
    · exact .inl (.inl (.inl (.inl (.inl (.inl (.inl (.inl moved)))))))
    · exact .inl (.inl (.inl (.inl (.inl (.inl (.inl (.inr changed)))))))
    · exact .inl (.inl (.inl (.inl (.inl (.inl (.inr notified))))))
    · exact .inl (.inl (.inl (.inl (.inl (.inr role)))))
    · exact .inl (.inl (.inl (.inr gone)))
    · exact .inl (.inr ⟨some, zero⟩)
    · exact .inr ⟨some, deeper⟩

theorem lineTick_reportPending_iff (sound : c.sound l = true) :
    (lineTick e c i n).reportPending = true ↔
      c.reportPending = true ∨ (lineTick e c i n).state ≠ c.state ∨ (lineTick e c i n).condition ≠ c.condition ∨
        (∃ x, i.delivery = some x ∧ x.notify = true) ∨ (planAfter c i).role ≠ c.plan.role ∨
        (c.autoScreener.isSome = true ∧ (lineTick e c i n).autoScreener = none) ∨
        (c.shadowCount ≠ 0 ∧
          ((lineTick e c i n).shadowCount = 0 ∨ (e.delta ≠ 0 ∧ (lineTick e c i n).state ≠ .air))) := by
  refine Iff.trans ?_ (or_congr_right (lineMarked_iff sound))
  show (c.reportPending || lineMarked e c i n) = true ↔ _
  rw [Bool.or_eq_true]

/-- A change of state marks a line. -/
theorem lineTick_marked (sound : c.sound l = true) (moved : (lineTick e c i n).state ≠ c.state) :
    (lineTick e c i n).reportPending = true := (lineTick_reportPending_iff sound).mpr (.inr (.inl moved))

end

/-! ### A line's tick by its move (section 2.8) -/

section
variable {e : LineEnv} {c : LineCtx} {i : LineInput} {n : BitVec 8}

/-- What an arrival that is not taken leaves of a line. -/
def LineCtx.keeps (c t : LineCtx) (p : LinePlan) : Prop :=
  t.arrivalNumber = c.arrivalNumber ∧
    t.autoScreener = if c.plan.role = .auto ∧ p.role ≠ .auto then none else c.autoScreener

theorem lineTick_keeps (noArrival : takesArrival c i = false) (noExpiry : lossExpires e c i = false) :
    c.keeps (lineTick e c i n) (planAfter c i) :=
  ⟨lineTick_arrivalNumber_kept e c i n (Bool.eq_false_iff.mp noArrival), screenerAfter_kept noArrival noExpiry⟩

/-- A connected line that loses its connection. -/
theorem lineTick_lose (move : lineMove c i = .lose) :
    (lineTick e c i n).state = .lost ∧ (lineTick e c i n).lossCount = e.holdoff ∧
      (lineTick e c i n).lostFrom = some c.state ∧ c.keeps (lineTick e c i n) (planAfter c i) ∧
      (lineTick e c i n).shadowCount = if c.state = .air then e.shadowStart else runningCount e c i := by
  have off : connectedAfter c i = false := by
    unfold connectedAfter
    rw [move]
  have out : inAirAfter c i = false := Bool.eq_false_iff.mpr fun air =>
    Bool.noConfusion (off.symm.trans (inAirAfter_iff.mp air).1)
  refine ⟨?_, ?_, ?_, lineTick_keeps (not_takesArrival_off off) (not_lossExpires (.inl (by rw [move]; exact nofun))),
    shadowAfter_out out⟩
  · show stateAfter e c i n = .lost
    unfold stateAfter
    rw [off, if_neg Bool.false_ne_true, if_pos move]
  · show lossAfter e c i = e.holdoff
    unfold lossAfter
    rw [move]
  · show (match lineMove c i with | .connect | .reconnect => none | .lose => some c.state | .stay => c.lostFrom) = _
    rw [move]

/-- The shadow count of a line that is connected after its tick. -/
theorem lineTick_shadow_connected (connected : connectedAfter c i = true) :
    (lineTick e c i n).shadowCount =
      if (planAfter c i).role = .air then 0 else if c.state = .air then e.shadowStart else runningCount e c i := by
  show shadowAfter e c i = _
  by_cases air : (planAfter c i).role = .air
  · rw [if_pos air]
    exact shadowAfter_inAir (inAirAfter_iff.mpr ⟨connected, air⟩)
  · rw [if_neg air]
    exact shadowAfter_out (Bool.eq_false_iff.mpr fun inAir => air (inAirAfter_iff.mp inAir).2)

/-- A line that connects, from VACANT or from LOST. -/
theorem lineTick_connects (move : lineMove c i = .connect ∨ lineMove c i = .reconnect) (before : c.state ≠ .air) :
    (lineTick e c i n).state =
        connectedState (planAfter c i).role (lineTick e c i n).shadowCount (lineTick e c i n).autoScreener ∧
      (lineTick e c i n).lossCount = 0 ∧ (lineTick e c i n).lostFrom = none ∧
      (lineTick e c i n).shadowCount = if (planAfter c i).role = .air then 0 else runningCount e c i := by
  have connected : connectedAfter c i = true := by
    unfold connectedAfter
    obtain move | move := move <;> rw [move]
  have shadow := lineTick_shadow_connected (e := e) (n := n) connected
  rw [if_neg before] at shadow
  refine ⟨stateAfter_connected connected, ?_, ?_, shadow⟩
  · show lossAfter e c i = 0
    unfold lossAfter
    obtain move | move := move <;> rw [move]
  · show (match lineMove c i with | .connect | .reconnect => none | .lose => some c.state | .stay => c.lostFrom) = _
    obtain move | move := move <;> rw [move]

/-- What a taken arrival gives a line. -/
theorem lineTick_arrives (arrives : takesArrival c i = true) :
    (lineTick e c i n).arrivalNumber = some n ∧ (lineTick e c i n).autoScreener = arrivalAnswer e.table n :=
  ⟨lineTick_arrivalNumber_taken e c i n arrives, screenerAfter_arrives arrives⟩

theorem lineTick_lostFrom_stay (move : lineMove c i = .stay) : (lineTick e c i n).lostFrom = c.lostFrom := by
  show (match lineMove c i with | .connect | .reconnect => none | .lose => some c.state | .stay => c.lostFrom) = _
  rw [move]

theorem connectedAfter_stay (move : lineMove c i = .stay) : connectedAfter c i = c.state.connected := by
  unfold connectedAfter
  rw [move]

theorem lossAfter_stay (move : lineMove c i = .stay) :
    lossAfter e c i = if c.state = .lost then c.lossCount - i.counted.toNat else c.lossCount := by
  unfold lossAfter
  rw [move]

/-- A connected line that stays connected. -/
theorem lineTick_stays (move : lineMove c i = .stay) (live : c.state.connected = true) :
    (lineTick e c i n).state =
        connectedState (planAfter c i).role (lineTick e c i n).shadowCount (lineTick e c i n).autoScreener ∧
      (lineTick e c i n).lossCount = c.lossCount ∧
      (lineTick e c i n).shadowCount =
        if (planAfter c i).role = .air then 0 else if c.state = .air then e.shadowStart else runningCount e c i := by
  have connected : connectedAfter c i = true := (connectedAfter_stay move).trans live
  refine ⟨stateAfter_connected connected, (lossAfter_stay move).trans (if_neg fun lost => ?_),
    lineTick_shadow_connected connected⟩
  rw [lost] at live
  exact nomatch live

/-- A line that stays VACANT or LOST, or becomes VACANT at the end of its loss count. -/
theorem lineTick_off (move : lineMove c i = .stay) (off : c.state.connected = false) (counted : i.counted = true)
    (running : c.lossCount ≠ 0 ↔ c.state = .lost) :
    (lineTick e c i n).state = (if c.state = .lost ∧ c.lossCount ≠ 1 then .lost else .vacant) ∧
      (lineTick e c i n).shadowCount = runningCount e c i ∧ (lineTick e c i n).arrivalNumber = c.arrivalNumber ∧
      (lineTick e c i n).lossCount = (if c.state = .lost then c.lossCount - 1 else 0) ∧
      (lineTick e c i n).autoScreener =
        if (c.state = .lost ∧ c.lossCount = 1) ∨ (c.plan.role = .auto ∧ (planAfter c i).role ≠ .auto) then none
        else c.autoScreener := by
  have offAfter : connectedAfter c i = false := (connectedAfter_stay move).trans off
  have noArrival := not_takesArrival_off offAfter
  have out : inAirAfter c i = false := Bool.eq_false_iff.mpr fun air =>
    Bool.noConfusion (offAfter.symm.trans (inAirAfter_iff.mp air).1)
  have notAir : c.state ≠ .air := fun air => by
    rw [air] at off
    exact nomatch off
  have loss : lossAfter e c i = if c.state = .lost then c.lossCount - 1 else 0 := by
    rw [lossAfter_stay move, counted]
    by_cases lost : c.state = .lost
    · rw [if_pos lost, if_pos lost]
      rfl
    · rw [if_neg lost, if_neg lost]
      exact not_not.mp (mt running.mp lost)
  have expires : lossExpires e c i = true ↔ c.state = .lost ∧ c.lossCount = 1 := by
    rw [lossExpires_iff, loss]
    refine ⟨fun ⟨_, lost, _, zero⟩ => ⟨lost, ?_⟩, fun ⟨lost, last⟩ => ⟨move, lost, counted, ?_⟩⟩
    · rw [if_pos lost] at zero
      have some := running.mpr lost
      omega
    · rw [if_pos lost, last]
  have state : stateAfter e c i n = if lossExpires e c i = true then .vacant else c.state := by
    unfold stateAfter
    rw [offAfter, if_neg Bool.false_ne_true, if_neg (by rw [move]; exact nofun)]
  have shadow : shadowAfter e c i = runningCount e c i := by
    rw [shadowAfter_out out, if_neg notAir]
  refine ⟨state.trans ?_, shadow, lineTick_arrivalNumber_kept e c i n (Bool.eq_false_iff.mp noArrival), loss, ?_⟩
  · obtain vacant | lost := (LineState.not_connected_iff c.state).mp off
    · rw [if_neg (mt expires.mp (by rw [vacant]; exact nofun)), if_neg (by rw [vacant]; exact nofun), vacant]
    · by_cases last : c.lossCount = 1
      · rw [if_pos (expires.mpr ⟨lost, last⟩), if_neg (fun more => more.2 last)]
      · rw [if_neg (mt expires.mp fun ends => last ends.2), if_pos ⟨lost, last⟩, lost]
  · show screenerAfter e c i n = _
    by_cases ends : c.state = .lost ∧ c.lossCount = 1
    · rw [screenerAfter_expires noArrival (expires.mpr ends), if_pos (.inl ends)]
    · rw [screenerAfter_kept noArrival (Bool.eq_false_iff.mpr (mt expires.mp ends))]
      simp only [ends, false_or]

/-- A line to which nothing happens. -/
theorem lineTick_untouched {l : Line} (sound : c.sound l = true) (delta : e.delta = 0) :
    lineTick e c { plan := none, delivery := none, counted := false } n = c := by
  obtain ⟨-, live, -, -, bound, running, noShadow, -, -⟩ := (LineCtx.sound_iff l c).mp sound
  generalize hi : ({ plan := none, delivery := none, counted := false } : LineInput) = i
  have none : i.delivery = none := by rw [← hi]
  have counted : i.counted = false := by rw [← hi]
  have plan : planAfter c i = c.plan := by rw [← hi]; rfl
  have move : lineMove c i = .stay := by
    unfold lineMove
    rw [none]
  have condition : conditionAfter c i = c.condition := by
    unfold conditionAfter
    rw [none]
    rfl
  have noArrival : takesArrival c i = false := not_takesArrival_same (by rw [plan]) (by rw [move]; exact nofun)
  have noExpiry : lossExpires e c i = false := Bool.eq_false_iff.mpr fun expires => by
    obtain ⟨-, -, counts, -⟩ := lossExpires_iff.mp expires
    exact Bool.noConfusion (counted.symm.trans counts)
  have connected := connectedAfter_stay move
  have screener : screenerAfter e c i n = c.autoScreener := by
    rw [screenerAfter_kept noArrival noExpiry, plan, if_neg fun both => both.2 both.1]
  have count : runningCount e c i = c.shadowCount := by
    unfold runningCount adjustedCount
    rw [counted, delta]
    split
    · omega
    · simp only [Bool.toNat_false]
      omega
  have shadow : shadowAfter e c i = c.shadowCount := by
    cases air : inAirAfter c i with
    | true =>
      obtain ⟨on, role⟩ := inAirAfter_iff.mp air
      rw [connected] at on
      rw [plan] at role
      have state : c.state = .air := (live on).1.trans ((connectedState_eq_air_iff ..).mpr role)
      rw [shadowAfter_inAir air, noShadow state]
    | false =>
      rw [shadowAfter_out air, if_neg fun state => ?_, count]
      have on : c.state.connected = true := by rw [state]; rfl
      have role : c.plan.role = .air := (connectedState_eq_air_iff ..).mp ((live on).1.symm.trans state)
      exact Bool.noConfusion (air.symm.trans (inAirAfter_iff.mpr ⟨connected.trans on, by rw [plan, role]⟩))
  have loss : lossAfter e c i = c.lossCount := by
    rw [lossAfter_stay move, counted]
    exact ite_self _
  have state : stateAfter e c i n = c.state := by
    cases on : c.state.connected with
    | true => rw [stateAfter_connected (connected.trans on), plan, shadow, screener, ← (live on).1]
    | false =>
      unfold stateAfter
      rw [connected, on, noExpiry, if_neg Bool.false_ne_true, if_neg (by rw [move]; exact nofun), if_neg Bool.false_ne_true]
  have unmarked : lineMarked e c i n = false := Bool.eq_false_iff.mpr fun marked => by
    rw [lineMarked_iff sound, state, condition, none, plan, screener, shadow, delta] at marked
    obtain moved | changed | ⟨x, given, -⟩ | role | ⟨some, gone⟩ | ⟨some, zero | ⟨adjusted, -⟩⟩ := marked
    · exact moved rfl
    · exact changed rfl
    · exact nomatch given
    · exact role rfl
    · rw [gone] at some
      exact nomatch some
    · exact some zero
    · exact adjusted rfl
  have number : (lineTick e c i n).arrivalNumber = c.arrivalNumber :=
    lineTick_arrivalNumber_kept e c i n (Bool.eq_false_iff.mp noArrival)
  have lostFrom := lineTick_lostFrom_stay (e := e) (n := n) move
  unfold lineTick at number lostFrom ⊢
  dsimp only at number lostFrom
  rw [number, lostFrom, state, plan, loss, shadow, screener, unmarked, Bool.or_false]
  exact congrArg (fun x => { c with condition := x }) condition

end

/-! ### The tables of roles and of arrivals (R34, R76) -/

theorem connectedState_table (role : Role) (count : Nat) (auto : Option Position) :
    connectedState role count auto =
      match role with
      | .off => .parked
      | .air => .air
      | .confer _ => .confer
      | .hold => if count = 0 then .hold else .shadow
      | .screen _ => if count = 0 then .screen else .shadow
      | .auto => if count ≠ 0 then .shadow else if auto = none then .hold else .screen := by
  cases role with
  | auto => cases auto <;> rfl
  | _ => rfl

theorem arrivalAnswer_entry (table : ScreeningTable) (n : BitVec 8) {i : Fin 16}
    (place : i.val = n.toNat % 2 ^ table.spreadBits) :
    (table.spread[i] = none → arrivalAnswer table n = none) ∧
      ∀ p, table.spread[i] = some p →
        arrivalAnswer table n = if (table.positions[p]).talker = none then none else some p := by
  have own : Fin.ofNat 16 (n.toNat % 2 ^ table.spreadBits) = i := Fin.ext (by rw [Fin.val_ofNat, ← place]; omega)
  subst own
  unfold arrivalAnswer
  refine ⟨fun none => by rw [none], fun p named => ?_⟩
  rw [named]
  dsimp only
  cases (table.positions[p]).talker <;> rfl

end Sys2Proof.Machine
end

