-- ==== Sys2Proof/Proofs/TickLines.lean ====
section
/-! PROOFS. The lines at a block tick: what CMAP delivers to each, and what each gets of the tick (R29, R39, R41, R46 to R48,
R99 to R102). -/

namespace Sys2Proof.Machine

/-! ### LINE, CMAP and SCRN at a tick that takes no apply -/

section
variable (s : State) (pins : BitVec 16) (follows first : Bool)

theorem LineBlock.flag_eq (b : LineBlock) (lines : List Line) (on : Line → Bool) :
    b.flag lines on = { b with ctx := (b.flag lines on).ctx } := by
  unfold LineBlock.flag
  rfl

theorem State.lookRound_line (t seen : State) (left : ReportFlags) :
    (t.lookRound seen left).line = { t.line with ctx := (t.lookRound seen left).line.ctx } := by
  obtain ⟨-, kept⟩ | ⟨-, begun⟩ := t.lookRound_cases seen left
  · rw [kept]
  · rw [begun]
    exact t.line.flag_eq ..

theorem State.blockTick_lineBlock :
    (s.blockTick pins follows first).line =
      { s.linePart.line with ctx := (s.blockTick pins follows first).line.ctx } := by
  obtain ⟨-, -, -, line, -⟩ := s.tickEvents_parts pins follows
  have ended : (s.blockTick pins follows first).line =
      ((s.tickEvents pins follows).lookRound ((s.tickEvents pins follows).seenAt s pins first)
        (if first then s.tickFlags pins else ReportFlags.clear)).line := by
    rw [← State.roundPhase_eq]
    exact State.endTick_line ..
  rw [ended, ← line]
  exact State.lookRound_line ..

theorem State.applyTick_report : s.applyTick.report = s.handOver.report := by
  unfold State.applyTick
  dsimp only
  split
  · rw [State.countRoles_report, State.linePhase_report]
  · rw [State.linePhase_report]

theorem State.applied_round : s.applied.report.round = s.report.round := by
  unfold State.applied
  split
  · rw [State.applyTick_report]
    unfold State.handOver Report.applied
    rfl
  · rfl

theorem State.tickEvents_round : (s.tickEvents pins follows).report.round = s.report.round := by
  rw [s.tickEvents_report, State.periodPhase_round, s.afterLines_report, ← s.applied_round]

/-- A tick that begins no round leaves every line's flag to the events of the tick. -/
theorem State.blockTick_line_noRound (same : (s.blockTick pins follows first).report.round = s.report.round) :
    (s.blockTick pins follows first).line = s.linePart.line := by
  obtain ⟨-, -, -, line, -⟩ := s.tickEvents_parts pins follows
  have look := s.blockTick_noRound pins follows first same (s.tickEvents_round pins follows)
  unfold State.blockTick
  rw [State.endTick_line, look, line]

theorem State.linePhase_cmap (plans : Vector (Option LinePlan) 24) (delta : Int) :
    (s.linePhase plans delta).cmap =
      { s.cmap with records := Vector.ofFn fun l => if s.inst.lines[l] then s.cmap.records[l] else s.settleAfter l } := by
  have cmap : (s.linePhase plans delta).cmap = (s.linesMoved plans delta).cmap := by simp [State.linePhase]
  rw [cmap]
  rfl

theorem State.linePhase_lineBlock (plans : Vector (Option LinePlan) 24) (delta : Int) :
    (s.linePhase plans delta).line =
      { s.line with ctx := linesTick (s.lineEnv delta) s.line.ctx (s.lineInputs plans) s.scrn.arrivals } := by
  rw [State.linePhase_ctx]
  rfl

theorem State.linePhase_scrn (plans : Vector (Option LinePlan) 24) (delta : Int) :
    (s.linePhase plans delta).scrn =
      { s.scrn with arrivals := arrivalsTick s.line.ctx (s.lineInputs plans) s.scrn.arrivals } := by
  have scrn : (s.linePhase plans delta).scrn = (s.linesMoved plans delta).scrn := by simp [State.linePhase]
  rw [scrn]
  rfl

end

/-! ### What CMAP delivers (R99, R100, R102) -/

section
variable {s : State} (free : s.applyDue = false) (pins : BitVec 16) (follows first : Bool) (l : Line)
include free

/-- What the tick leaves of a line's lane is what CMAP read of it. -/
theorem State.blockTick_ownLane :
    ((s.blockTick pins follows first).lrx.lanes[lineLane l]).state = (s.laneAfter (lineLane l)).state ∧
      ((s.blockTick pins follows first).lrx.lanes[lineLane l]).seeking = (s.laneAfter (lineLane l)).seeking := by
  obtain ⟨pending, lane⟩ := State.blockTick_laneAfter free pins follows first (lineLane l)
  rw [lane]
  exact ⟨rfl, rfl⟩

theorem State.sampleAt_eq :
    s.sampleAt (s.blockTick pins follows first) l =
      if (s.laneAfter (lineLane l)).state = .locked then (s.laneAfter (lineLane l)).sideSample[lineSlot l] else none := by
  obtain ⟨state, -⟩ := State.blockTick_ownLane free pins follows first l
  have side : (s.laneAfter (lineLane l)).sideSample = (s.lrx.lanes[lineLane l]).sideSample :=
    InLaneCtx.tick_sideSample ..
  unfold State.sampleAt
  rw [state, side]

/-- A settle record before the check of a tick: the record held, with the sample of the tick. -/
theorem State.settleRecord_eq :
    s.settleRecord l =
      (s.heldAt (s.blockTick pins follows first) l).withSample (s.sampleAt (s.blockTick pins follows first) l) := by
  obtain ⟨state, -⟩ := State.blockTick_ownLane free pins follows first l
  rw [State.sampleAt_eq free, ← SettleRec.sampled_withSample]
  unfold State.settleRecord State.heldAt
  rw [state]
  by_cases locked : (s.laneAfter (lineLane l)).state = .locked
  · rw [settleSampled_locked _ _ _ locked, if_pos locked, if_pos locked]
  · rw [settleSampled_cleared _ _ _ locked, if_neg locked, if_neg locked]
    rfl

theorem State.blockTick_cmapSettings :
    (s.blockTick pins follows first).cmap.table = s.cmap.table ∧
      (s.blockTick pins follows first).cmap.settle = s.cmap.settle := by
  rw [State.blockTick_cmap, State.linePart_plain free, State.linePhase_cmap]
  exact ⟨rfl, rfl⟩

theorem State.blockTick_laneLoss_of : (s.blockTick pins follows first).lrx.laneLoss = s.lrx.laneLoss := by
  rw [State.blockTick_laneLoss, State.linePart_plain free, State.linePhase_laneLoss]

theorem State.disconnects_iff :
    (s.laneAfter (lineLane l)).disconnects s.lrx.laneLoss =
      (((s.blockTick pins follows first).lrx.lanes[lineLane l]).state = .off ||
        (((s.blockTick pins follows first).lrx.lanes[lineLane l]).state = .seeking &&
          (s.blockTick pins follows first).lrx.laneLoss ≤
            ((s.blockTick pins follows first).lrx.lanes[lineLane l]).seeking) : Bool) := by
  obtain ⟨state, seeking⟩ := State.blockTick_ownLane free pins follows first l
  rw [state, seeking, State.blockTick_laneLoss_of free]
  rfl

theorem State.delivery_eq :
    s.delivery l =
      s.deliveredAt (s.blockTick pins follows first) (s.heldAt (s.blockTick pins follows first) l) l := by
  obtain ⟨table, settle⟩ := State.blockTick_cmapSettings free pins follows first
  have lost := State.disconnects_iff free pins follows first l
  have record := State.settleRecord_eq free pins follows first l
  unfold State.delivery State.deliveredAt lineDelivery
  rw [lost]
  refine if_congr Iff.rfl rfl ?_
  rw [show settleSampled s.cmap (s.laneAfter (lineLane l)) l = s.settleRecord l from rfl, record, table, settle]
  generalize (s.heldAt _ l).withSample _ = r
  cases last : r.last with
  | none =>
    unfold settledDelivery SettleRec.settles
    rw [last]
    rfl
  | some code =>
    rw [settledDelivery_entry _ _ _ code last]
    simp only [Bool.or_eq_true, decide_eq_true_eq]

/-- What every line is given of a tick that takes no apply. -/
theorem State.envAt_eq : s.envAt (s.blockTick pins follows first) = s.lineEnv 0 := by
  have line := s.blockTick_lineBlock pins follows first
  rw [State.linePart_plain free, State.linePhase_lineBlock] at line
  have scrn := s.blockTick_scrn pins follows first
  rw [State.linePart_plain free, State.linePhase_scrn] at scrn
  unfold State.envAt State.lineEnv
  rw [line, scrn]
  simp only [sub_self]

theorem State.blockTick_lines :
    s.linePart.line.ctx =
      linesTick (s.lineEnv 0) s.line.ctx (s.lineInputs (Vector.replicate 24 none)) s.scrn.arrivals := by
  rw [State.linePart_plain free, State.linePhase_lineBlock]

theorem State.blockTick_arrivals :
    (s.blockTick pins follows first).scrn.arrivals =
      arrivalsTick s.line.ctx (s.lineInputs (Vector.replicate 24 none)) s.scrn.arrivals := by
  rw [State.blockTick_scrn, State.linePart_plain free, State.linePhase_scrn]

/-- A line after a tick that takes no apply, with the arrivals served before it. -/
theorem State.blockTick_lineTick :
    ∃ n pending, (s.blockTick pins follows first).line.ctx[l] =
      { lineTick (s.lineEnv 0) s.line.ctx[l] (s.lineInput none l) n with reportPending := pending } := by
  obtain ⟨pending, line⟩ := s.blockTick_line pins follows first l
  obtain ⟨n, own⟩ := s.linePhase_line (Vector.replicate 24 none) 0 l
  rw [State.linePart_plain free, own, show (Vector.replicate 24 (none : Option LinePlan))[l] = none by simp] at line
  exact ⟨n, pending, line⟩

end

theorem State.lineInput_fresh {s : State} {l : Line} (fresh : s.inst.lines[l] = false) (plan : Option LinePlan) :
    s.lineInput plan l = { plan := plan, delivery := s.delivery l, counted := true } :=
  if_neg (Bool.eq_false_iff.mp fresh)

theorem State.lineInput_taken {s : State} {l : Line} (taken : s.inst.lines[l] = true) (plan : Option LinePlan) :
    s.lineInput plan l = { plan := none, delivery := none, counted := false } := if_pos taken

end Sys2Proof.Machine

open Sys2Proof Sys2Proof.Machine

/-- Settles O33: every line has its tick with what CMAP delivers, and the tick of a line follows its move. -/
theorem lossAndReconnection : Obligations.LossAndReconnection := by
  unfold Obligations.LossAndReconnection
  refine ⟨fun s t pins follows first run stands => ?_, connectedState_table,
    fun e l c n sound delta => lineTick_untouched sound delta, fun table n i place => arrivalAnswer_entry table n place,
    fun e l c plan d n sound => ?_⟩
  · obtain rfl : s.blockTick pins follows first = t :=
      Host.Outcome.next.inj ((exec_blockTick s pins follows first).symm.trans run)
    have free := State.applyDue_false stands
    have inputs : (Vector.ofFn fun l => if s.inst.lines[l] = true then
        ({ plan := none, delivery := none, counted := false } : LineInput)
      else { plan := none, counted := true, delivery :=
        s.deliveredAt (s.blockTick pins follows first) (s.heldAt (s.blockTick pins follows first) l) l }) =
        s.lineInputs (Vector.replicate 24 none) := by
      unfold State.lineInputs
      refine congrArg Vector.ofFn (funext fun l => ?_)
      rw [← State.delivery_eq free, show (Vector.replicate 24 (none : Option LinePlan))[l] = none by simp]
      rfl
    dsimp only
    rw [inputs, State.envAt_eq free, ← State.blockTick_lines free]
    refine ⟨State.blockTick_arrivals free pins follows first, fun l => ⟨State.delivery_eq free pins follows first l, ?_, fun same => ?_⟩⟩
    · obtain ⟨pending, line⟩ := s.blockTick_line pins follows first l
      rw [line]
    · rw [s.blockTick_line_noRound pins follows first same]
  · obtain ⟨-, live, unheld, -, -, running, noShadow, -, -⟩ := (LineCtx.sound_iff l c).mp sound
    generalize hi : ({ plan := plan, delivery := d, counted := true } : LineInput) = i
    have delivery : i.delivery = d := by rw [← hi]
    have counted : i.counted = true := by rw [← hi]
    have planAt : planAfter c i = plan.getD c.plan := by rw [← hi]; rfl
    have condition : (lineTick e c i n).condition = conditionAfter c i := rfl
    have given : ∀ x, d = some x → conditionAfter c i = x.condition := fun x own => by
      unfold conditionAfter
      rw [delivery, own]
      rfl
    have marked := lineTick_reportPending_iff (e := e) (i := i) (n := n) sound
    rw [delivery, planAt] at marked
    have runs := runningCount_counted (e := e) (c := c) counted
    refine ⟨planAt, fun connected x own other => ?_, fun lost x own arrives => ?_, fun vacant x own arrives => ?_,
      fun connected all => ?_, fun off all => ?_, marked⟩
    · have move := lineMove_lose connected (live connected).2 (delivery.trans own) other
      obtain ⟨state, loss, lostFrom, kept, shadow⟩ := lineTick_lose (e := e) (n := n) move
      rw [runs] at shadow
      rw [planAt] at kept
      have moved : (lineTick e c i n).state ≠ c.state := fun same => by
        rw [← same, state] at connected
        exact nomatch connected
      exact ⟨state, loss, lostFrom, given x own, lineTick_marked sound moved, kept, shadow⟩
    · have out : c.state.connected = false := by rw [lost]; rfl
      have move := lineMove_reconnect lost (unheld out) (delivery.trans own) arrives
      obtain ⟨state, loss, lostFrom, shadow⟩ :=
        lineTick_connects (e := e) (n := n) (.inr move) (by rw [lost]; exact nofun)
      have noArrival : takesArrival c i = false := Bool.eq_false_iff.mpr fun taken => by
        obtain ⟨-, connects | ⟨-, -, stays⟩⟩ := (takesArrival_iff_move c i).mp taken
        · exact nomatch move.symm.trans connects
        · exact nomatch move.symm.trans stays
      have kept := lineTick_keeps (e := e) (n := n) noArrival (not_lossExpires (.inl (by rw [move]; exact nofun)))
      rw [runs, planAt] at shadow
      rw [planAt] at state kept
      have moved : (lineTick e c i n).state ≠ c.state := fun same => by
        have on := connectedState_connected (plan.getD c.plan).role (lineTick e c i n).shadowCount
          (lineTick e c i n).autoScreener
        rw [← state, same, out] at on
        exact nomatch on
      exact ⟨state, loss, lostFrom, shadow, kept, lineTick_marked sound moved, (given x own).trans arrives⟩
    · have out : c.state.connected = false := by rw [vacant]; rfl
      have move := (lineMove_eq_connect_iff c i).mpr ⟨vacant, unheld out, x, delivery.trans own, arrives⟩
      obtain ⟨state, loss, lostFrom, shadow⟩ :=
        lineTick_connects (e := e) (n := n) (.inl move) (by rw [vacant]; exact nofun)
      have expiry : lossExpires e c i = false := not_lossExpires (.inl (by rw [move]; exact nofun))
      rw [runs, planAt] at shadow
      rw [planAt] at state
      have moved : (lineTick e c i n).state ≠ c.state := fun same => by
        have on := connectedState_connected (plan.getD c.plan).role (lineTick e c i n).shadowCount
          (lineTick e c i n).autoScreener
        rw [← state, same, out] at on
        exact nomatch on
      have flag := lineTick_marked (e := e) (i := i) (n := n) sound moved
      refine ⟨state, loss, lostFrom, shadow, fun auto => ?_, fun other => ?_, flag, (given x own).trans arrives⟩
      · obtain ⟨number, answer⟩ := lineTick_arrives (e := e) (n := n)
          ((takesArrival_iff_move c i).mpr ⟨by rw [planAt, auto], .inl move⟩)
        exact ⟨number, answer, flag⟩
      · have kept := lineTick_keeps (e := e) (n := n) (not_takesArrival_other (by rw [planAt]; exact other)) expiry
        rwa [planAt] at kept
    · have move : lineMove c i = .stay := lineMove_stay_connected connected (by rw [delivery]; exact all)
      obtain ⟨state, loss, shadow⟩ := lineTick_stays (e := e) (n := n) move connected
      have notLost : c.state ≠ .lost := fun lost => by
        rw [lost] at connected
        exact nomatch connected
      have expiry : lossExpires e c i = false := not_lossExpires (.inr notLost)
      have none : c.lossCount = 0 := not_not.mp (mt running.mp notLost)
      have conditionIs : conditionAfter c i = .connected := by
        cases own : d with
        | none =>
          unfold conditionAfter
          rw [delivery, own]
          exact (live connected).2
        | some x => exact (given x own).trans (all x own)
      rw [runs, planAt] at shadow
      rw [planAt] at state
      have changes : (plan.getD c.plan).role ≠ c.plan.role → (lineTick e c i n).reportPending = true :=
        fun changed => marked.mpr (.inr (.inr (.inr (.inr (.inl changed)))))
      refine ⟨state, lineTick_lostFrom_stay move, conditionIs, loss.trans none, shadow, fun auto changed => ?_,
        fun same => ?_, changes⟩
      · obtain ⟨number, answer⟩ := lineTick_arrives (e := e) (n := n)
          ((takesArrival_iff_move c i).mpr ⟨by rw [planAt, auto], .inr ⟨connected, by rw [planAt]; exact changed, move⟩⟩)
        exact ⟨number, answer, changes changed⟩
      · have noArrival : takesArrival c i = false := by
          obtain other | same := same
          · exact not_takesArrival_other (by rw [planAt]; exact other)
          · exact not_takesArrival_same (by rw [planAt]; exact not_not.mp same) (by rw [move]; exact nofun)
        have kept := lineTick_keeps (e := e) (n := n) noArrival expiry
        rwa [planAt] at kept
    · have move : lineMove c i = .stay := lineMove_stay_off off (by rw [delivery]; exact all)
      obtain ⟨state, shadow, number, loss, screener⟩ := lineTick_off (e := e) (n := n) move off counted running
      rw [runs] at shadow
      rw [planAt] at screener
      refine ⟨state, shadow, number, lineTick_lostFrom_stay move, loss, ?_, screener⟩
      rw [condition]
      unfold conditionAfter
      rw [delivery]
      cases d <;> rfl
end

