-- ==== Sys2Proof/Proofs/LinesAhead.lean ====
section
/-! PROOFS. The lines taken ahead of a block tick: the part of the tick of one line, and of several in ascending line number
(R29, R39, R41, R48, R68, R100). -/

namespace Sys2Proof.Machine

/-! ### One line's part of a tick -/

/-- A line as its part of this tick leaves it, where no apply is taken, with this arrival counter. -/
def State.lineTicked (s : State) (l : Line) (n : BitVec 8) : LineCtx :=
  lineTick (s.lineEnv 0) s.line.ctx[l] (s.lineInput none l) n

section
variable (s : State) (l : Line)

theorem State.tickLine_lineBlock :
    (s.tickLine l).line = { s.line with ctx := s.line.ctx.set l (s.lineTicked l s.scrn.arrivals) } :=
  s.tickLine_ctx l

theorem State.tickLine_cmap :
    (s.tickLine l).cmap = { s.cmap with records := s.cmap.records.set l (s.settleAfter l) } := by
  unfold State.tickLine
  rw [State.vacate_cmap]
  rfl

theorem State.tickLine_scrn :
    (s.tickLine l).scrn =
      { s.scrn with arrivals := if s.arrivalDue l = true then s.scrn.arrivals + 1 else s.scrn.arrivals } := by
  unfold State.tickLine
  rw [State.vacate_scrn]
  rfl

theorem State.tickLine_inst : (s.tickLine l).inst = { s.inst with lines := s.inst.lines.set l true } := by
  unfold State.tickLine
  rw [State.vacate_inst]
  rfl

theorem State.tickLine_cue : (s.tickLine l).cue = { s.cue with returns := (s.tickLine l).cue.returns } := by
  unfold State.tickLine State.vacate
  rw [State.lineMoved_cue]

theorem State.tickLine_mix : (s.tickLine l).mix = { s.mix with returns := (s.tickLine l).mix.returns } := by
  unfold State.tickLine State.vacate
  rw [State.lineMoved_mix]

/-- The cue of a return at a line's part of a tick: cleared where its line enters VACANT. -/
theorem State.tickLine_cueReturn (j : Line) :
    (s.tickLine l).cue.returns[j] =
      if ((s.tickLine l).line.ctx[j]).state = .vacant ∧ (s.line.ctx[j]).state ≠ .vacant then CueReturn.clear
      else s.cue.returns[j] := by
  rw [State.tickLine_ctx]
  unfold State.tickLine
  rw [State.vacate_cueReturn, State.lineMoved_cue]
  simp only [Bool.and_eq_true, decide_eq_true_eq]

theorem State.tickLine_mixReturn (j : Line) :
    (s.tickLine l).mix.returns[j] =
      if ((s.tickLine l).line.ctx[j]).state = .vacant ∧ (s.line.ctx[j]).state ≠ .vacant then (s.mix.returns[j]).vacate
      else s.mix.returns[j] := by
  rw [State.tickLine_ctx]
  unfold State.tickLine
  rw [State.vacate_return, State.lineMoved_mix]
  simp only [Bool.and_eq_true, decide_eq_true_eq]

/-! What another line's part leaves. -/

variable {l} {j : Line} (other : j ≠ l)
include other

theorem State.tickLine_otherLine : (s.tickLine l).line.ctx[j] = s.line.ctx[j] := by
  rw [State.tickLine_lineBlock]
  exact set_other _ _ other

theorem State.tickLine_otherRecord : (s.tickLine l).cmap.records[j] = s.cmap.records[j] := by
  rw [State.tickLine_cmap]
  exact set_other _ _ other

theorem State.tickLine_otherReturns :
    (s.tickLine l).cue.returns[j] = s.cue.returns[j] ∧ (s.tickLine l).mix.returns[j] = s.mix.returns[j] := by
  rw [State.tickLine_cueReturn, State.tickLine_mixReturn, s.tickLine_otherLine other, if_neg (fun h => h.2 h.1),
    if_neg (fun h => h.2 h.1)]
  exact ⟨rfl, rfl⟩

omit other in
theorem State.tickLine_laneAfter (i : InLane) : (s.tickLine l).laneAfter i = s.laneAfter i := by
  unfold State.laneAfter
  rw [State.tickLine_lrx, State.tickLine_inst]

omit other in
theorem State.tickLine_lineEnv (delta : Int) : (s.tickLine l).lineEnv delta = s.lineEnv delta := by
  unfold State.lineEnv
  rw [State.tickLine_lineBlock, State.tickLine_scrn]

theorem State.tickLine_otherSampled :
    settleSampled (s.tickLine l).cmap (s.laneAfter (lineLane j)) j =
      settleSampled s.cmap (s.laneAfter (lineLane j)) j := by
  unfold settleSampled
  rw [s.tickLine_otherRecord other]

theorem State.tickLine_otherSettleAfter : (s.tickLine l).settleAfter j = s.settleAfter j := by
  unfold State.settleAfter settleTick
  rw [State.tickLine_laneAfter, s.tickLine_otherSampled other, State.tickLine_cmap]

theorem State.tickLine_otherDelivery : (s.tickLine l).delivery j = s.delivery j := by
  unfold State.delivery lineDelivery
  rw [State.tickLine_laneAfter, s.tickLine_otherSampled other, State.tickLine_cmap, State.tickLine_lrx]

theorem State.tickLine_otherInput : (s.tickLine l).lineInput none j = s.lineInput none j := by
  unfold State.lineInput
  rw [s.tickLine_otherDelivery other, State.tickLine_inst, set_other _ _ other]

theorem State.tickLine_otherTicked (n : BitVec 8) : (s.tickLine l).lineTicked j n = s.lineTicked j n := by
  unfold State.lineTicked
  rw [State.tickLine_lineEnv, s.tickLine_otherLine other, s.tickLine_otherInput other]

theorem State.tickLine_otherArrival : (s.tickLine l).arrivalDue j = s.arrivalDue j := by
  unfold State.arrivalDue
  rw [s.tickLine_otherLine other, s.tickLine_otherInput other]

end

/-! ### Several lines, in ascending line number -/

/-- `t` is `s` with the parts of this tick of these lines taken, each with the arrivals of the lower ones among them
served before it. -/
structure State.Ahead (s t : State) (ls : List Line) : Prop where
  line : ∀ l ∈ ls, t.line.ctx[l] =
    s.lineTicked l (s.scrn.arrivals + BitVec.ofNat 8 (ls.countP fun j => decide (j < l) && s.arrivalDue j))
  record : ∀ l ∈ ls, t.cmap.records[l] = s.settleAfter l
  cueReturn : ∀ l ∈ ls, t.cue.returns[l] =
    if (t.line.ctx[l]).state = .vacant ∧ (s.line.ctx[l]).state ≠ .vacant then CueReturn.clear else s.cue.returns[l]
  mixReturn : ∀ l ∈ ls, t.mix.returns[l] =
    if (t.line.ctx[l]).state = .vacant ∧ (s.line.ctx[l]).state ≠ .vacant then (s.mix.returns[l]).vacate
    else s.mix.returns[l]
  arrivals : t.scrn.arrivals = s.scrn.arrivals + BitVec.ofNat 8 (ls.countP s.arrivalDue)
  others : ∀ j, j ∉ ls → t.line.ctx[j] = s.line.ctx[j] ∧ t.cmap.records[j] = s.cmap.records[j] ∧
    t.cue.returns[j] = s.cue.returns[j] ∧ t.mix.returns[j] = s.mix.returns[j]
  frame : t = { s with
    cmap := { s.cmap with records := t.cmap.records }, line := { s.line with ctx := t.line.ctx }
    scrn := { s.scrn with arrivals := t.scrn.arrivals }, inst := t.inst
    cue := { s.cue with returns := t.cue.returns }, mix := { s.mix with returns := t.mix.returns } }

theorem State.Ahead.of_nil (s : State) : s.Ahead s [] where
  line := nofun
  record := nofun
  cueReturn := nofun
  mixReturn := nofun
  arrivals := by simp
  others _ _ := ⟨rfl, rfl, rfl, rfl⟩
  frame := rfl

theorem State.tickLine_frame (s : State) (l : Line) :
    s.tickLine l = { s with
      cmap := { s.cmap with records := (s.tickLine l).cmap.records }, line := { s.line with ctx := (s.tickLine l).line.ctx }
      scrn := { s.scrn with arrivals := (s.tickLine l).scrn.arrivals }, inst := (s.tickLine l).inst
      cue := { s.cue with returns := (s.tickLine l).cue.returns }
      mix := { s.mix with returns := (s.tickLine l).mix.returns } } := by
  unfold State.tickLine State.vacate State.lineMoved
  rfl

/-- What a state of which only the lines' blocks differ from another has outside of them. -/
theorem aheadFrame_trans {s u t : State}
    (first : u = { s with
      cmap := { s.cmap with records := u.cmap.records }, line := { s.line with ctx := u.line.ctx }
      scrn := { s.scrn with arrivals := u.scrn.arrivals }, inst := u.inst
      cue := { s.cue with returns := u.cue.returns }, mix := { s.mix with returns := u.mix.returns } }) :
    ({ u with
      cmap := { u.cmap with records := t.cmap.records }, line := { u.line with ctx := t.line.ctx }
      scrn := { u.scrn with arrivals := t.scrn.arrivals }, inst := t.inst
      cue := { u.cue with returns := t.cue.returns }, mix := { u.mix with returns := t.mix.returns } } : State) =
    { s with
      cmap := { s.cmap with records := t.cmap.records }, line := { s.line with ctx := t.line.ctx }
      scrn := { s.scrn with arrivals := t.scrn.arrivals }, inst := t.inst
      cue := { s.cue with returns := t.cue.returns }, mix := { s.mix with returns := t.mix.returns } } := by
  rw [first]

/-- One more line below the others, taken first. -/
theorem State.Ahead.cons {s t : State} {l : Line} {ls : List Line} (below : ∀ j ∈ ls, l < j)
    (rest : (s.tickLine l).Ahead t ls) : s.Ahead t (l :: ls) := by
  have fresh : l ∉ ls := fun h => absurd (below l h) (lt_irrefl l)
  have apart {j : Line} (h : j ∈ ls) : j ≠ l := (below j h).ne'
  have due : ∀ j ∈ ls, (s.tickLine l).arrivalDue j = s.arrivalDue j := fun j h => s.tickLine_otherArrival (apart h)
  obtain ⟨ownLine, ownRecord, ownCue, ownMix⟩ := rest.others l fresh
  have first : (s.tickLine l).scrn.arrivals = s.scrn.arrivals + BitVec.ofNat 8 (s.arrivalDue l).toNat := by
    rw [State.tickLine_scrn]
    cases s.arrivalDue l <;> simp
  have count (p q : Line → Bool) (same : ∀ j ∈ ls, p j = q j) (x : Nat) (added : x = (q l).toNat) :
      BitVec.ofNat 8 x + BitVec.ofNat 8 (ls.countP p) = BitVec.ofNat 8 ((l :: ls).countP q) := by
    rw [List.countP_congr (fun j h => by rw [same j h]), List.countP_cons, added, ← BitVec.ofNat_add, Nat.add_comm]
    cases q l <;> rfl
  refine ⟨fun j h => ?_, fun j h => ?_, fun j h => ?_, fun j h => ?_, ?_, fun j h => ?_, ?_⟩
  · obtain rfl | h := List.mem_cons.mp h
    · have none : (j :: ls).countP (fun k => decide (k < j) && s.arrivalDue k) = 0 := by
        refine List.countP_eq_zero.mpr fun k among => ?_
        obtain rfl | among := List.mem_cons.mp among
        · simp
        · simp [(below k among).not_gt]
      rw [ownLine, none, State.tickLine_lineBlock, set_same]
      simp
    · rw [rest.line j h, s.tickLine_otherTicked (apart h), first, BitVec.add_assoc]
      refine congrArg (fun x => s.lineTicked j (s.scrn.arrivals + x)) (count _ _ (fun k among => by rw [due k among]) _ ?_)
      simp [below j h]
  · obtain rfl | h := List.mem_cons.mp h
    · rw [ownRecord, State.tickLine_cmap, set_same]
    · rw [rest.record j h, s.tickLine_otherSettleAfter (apart h)]
  · obtain rfl | h := List.mem_cons.mp h
    · rw [ownCue, ownLine]
      exact s.tickLine_cueReturn j j
    · rw [rest.cueReturn j h, s.tickLine_otherLine (apart h), (s.tickLine_otherReturns (apart h)).1]
  · obtain rfl | h := List.mem_cons.mp h
    · rw [ownMix, ownLine]
      exact s.tickLine_mixReturn j j
    · rw [rest.mixReturn j h, s.tickLine_otherLine (apart h), (s.tickLine_otherReturns (apart h)).2]
  · rw [rest.arrivals, first, BitVec.add_assoc]
    exact congrArg (s.scrn.arrivals + ·) (count _ _ due _ rfl)
  · obtain ⟨notOwn, notRest⟩ := not_or.mp (mt List.mem_cons.mpr h)
    obtain ⟨line, record, cue, mix⟩ := rest.others j notRest
    obtain ⟨cueKept, mixKept⟩ := s.tickLine_otherReturns notOwn
    exact ⟨line.trans (s.tickLine_otherLine notOwn), record.trans (s.tickLine_otherRecord notOwn), cue.trans cueKept,
      mix.trans mixKept⟩
  · exact rest.frame.trans (aheadFrame_trans (s := s) (u := s.tickLine l) (t := t) (s.tickLine_frame l))

/-- The parts of the tick of several lines, taken in ascending line number. -/
theorem State.foldl_tickLine_ahead {ls : List Line} (sorted : ls.Pairwise (· < ·)) (s : State) :
    s.Ahead (ls.foldl State.tickLine s) ls := by
  induction ls generalizing s with
  | nil => exact .of_nil s
  | cons l ls ih =>
    obtain ⟨below, sorted⟩ := List.pairwise_cons.mp sorted
    rw [List.foldl_cons]
    exact State.Ahead.cons below (ih sorted (s.tickLine l))

theorem sorted_filter_lines (p : Line → Bool) : ((List.finRange 24).filter p).Pairwise (· < ·) :=
  (List.pairwise_lt_finRange 24).filter p

theorem State.mem_servedBefore {s : State} {l j : Line} :
    j ∈ s.servedBefore l ↔ j < l ∧ s.arrivalDue l = true ∧ s.arrivalDue j = true := by
  unfold State.servedBefore
  simp [and_assoc]

/-- A line's part of the tick in its place: the lower lines that SCRN serves first, then the line. -/
theorem State.tickLineInOrder_ahead (s : State) (l : Line) :
    s.Ahead (s.tickLineInOrder l) (s.servedBefore l ++ [l]) := by
  have sorted : (s.servedBefore l ++ [l]).Pairwise (· < ·) :=
    List.pairwise_append.mpr ⟨sorted_filter_lines _, List.pairwise_singleton _ _, fun j served k own => by
      rw [List.mem_singleton.mp own]
      exact (State.mem_servedBefore.mp served).1⟩
  have folded := State.foldl_tickLine_ahead sorted s
  rwa [List.foldl_append] at folded

/-- A line that takes no arrival waits for no other. -/
theorem State.servedBefore_nil {s : State} {l : Line} (none : s.arrivalDue l = false) : s.servedBefore l = [] := by
  refine List.eq_nil_iff_forall_not_mem.mpr fun j served => ?_
  obtain ⟨-, due, -⟩ := State.mem_servedBefore.mp served
  exact Bool.noConfusion (none.symm.trans due)

/-- The parts of several lines none of which has been taken: each is taken. -/
theorem State.foldl_tickLineOnce {ls : List Line} (nodup : ls.Nodup) {s : State}
    (fresh : ∀ l ∈ ls, s.inst.lines[l] = false) : ls.foldl State.tickLineOnce s = ls.foldl State.tickLine s := by
  induction ls generalizing s with
  | nil => rfl
  | cons l ls ih =>
    obtain ⟨apart, nodup⟩ := List.nodup_cons.mp nodup
    have own : s.tickLineOnce l = s.tickLine l := if_neg (Bool.eq_false_iff.mp (fresh l List.mem_cons_self))
    rw [List.foldl_cons, List.foldl_cons, own]
    refine ih nodup fun j among => ?_
    rw [State.tickLine_inst, set_other _ _ (ne_of_mem_of_not_mem among apart)]
    exact fresh j (List.mem_cons_of_mem l among)

end Sys2Proof.Machine
end

