-- ==== Sys2Proof/Proofs/LineCounts.lean ====
section
/-! PROOFS. The loss count and the shadow count of a line that is delivered nothing (R41, R48). -/

namespace Sys2Proof.Machine

/-! ### A line to which a tick gives nothing but its decrease -/

/-- What a tick that delivers and applies nothing gives a line. -/
def LineInput.plain : LineInput := { plan := none, delivery := none, counted := true }

/-- A line's state after its counts alone have fallen (R41, R48). -/
def LineCtx.countedState (c : LineCtx) : LineState :=
  if c.state.connected = true then connectedState c.plan.role (c.shadowCount - 1) c.autoScreener
  else if c.state = .lost ∧ c.lossCount ≠ 1 then .lost
  else .vacant

section
variable {e : LineEnv} {c : LineCtx} {l : Line} (n : BitVec 8)

theorem lineMove_plain : lineMove c .plain = .stay := rfl

theorem takesArrival_plain : takesArrival c .plain = false :=
  not_takesArrival_same rfl (by rw [lineMove_plain]; exact nofun)

theorem runningCount_plain (bound : c.shadowCount ≤ 65535) (delta : e.delta = 0) :
    runningCount e c .plain = c.shadowCount - 1 := by
  rw [runningCount_counted rfl, delta]
  split <;> omega

variable (sound : c.sound l = true) (delta : e.delta = 0)
include sound delta

/-- A line that is delivered nothing: its counts fall, and its state follows them (R41, R48). -/
theorem lineTick_plain :
    ∃ pending, lineTick e c .plain n =
      { c with
        state := c.countedState, lossCount := c.lossCount - 1, shadowCount := c.shadowCount - 1
        autoScreener := if c.state = .lost ∧ c.lossCount = 1 then none else c.autoScreener, reportPending := pending } := by
  obtain ⟨-, live, -, -, bound, running, noShadow, -, -⟩ := (LineCtx.sound_iff l c).mp sound
  have count := runningCount_plain bound delta
  have number : (lineTick e c .plain n).arrivalNumber = c.arrivalNumber :=
    lineTick_arrivalNumber_kept e c _ n (Bool.eq_false_iff.mp takesArrival_plain)
  have lostFrom := lineTick_lostFrom_stay (e := e) (n := n) (lineMove_plain (c := c))
  have parts : (lineTick e c .plain n).state = c.countedState ∧
      (lineTick e c .plain n).lossCount = c.lossCount - 1 ∧ (lineTick e c .plain n).shadowCount = c.shadowCount - 1 ∧
      (lineTick e c .plain n).autoScreener =
        if c.state = .lost ∧ c.lossCount = 1 then none else c.autoScreener := by
    unfold LineCtx.countedState
    cases on : c.state.connected with
    | true =>
      obtain ⟨state, loss, shadow⟩ := lineTick_stays (e := e) (n := n) (lineMove_plain (c := c)) on
      have notLost : c.state ≠ .lost := fun lost => by
        rw [lost] at on
        exact nomatch on
      have kept : (lineTick e c .plain n).autoScreener = c.autoScreener := by
        refine (screenerAfter_kept takesArrival_plain (not_lossExpires (.inr notLost))).trans (if_neg fun both => ?_)
        exact both.2 both.1
      have none : c.lossCount = 0 := not_not.mp (mt running.mp notLost)
      have fallen : (lineTick e c .plain n).shadowCount = c.shadowCount - 1 := by
        have air : c.state = .air ↔ c.plan.role = .air := by
          rw [(live on).1]
          exact connectedState_eq_air_iff ..
        rw [shadow, show planAfter c .plain = c.plan from rfl, count]
        by_cases inAir : c.state = .air
        · rw [if_pos (air.mp inAir), noShadow inAir]
        · rw [if_neg (mt air.mpr inAir), if_neg inAir]
      rw [if_pos rfl, state, fallen, kept, if_neg (fun both => notLost both.1)]
      exact ⟨rfl, by rw [loss, none], rfl, rfl⟩
    | false =>
      obtain ⟨state, shadow, -, loss, screener⟩ :=
        lineTick_off (e := e) (n := n) (lineMove_plain (c := c)) on rfl running
      rw [if_neg Bool.false_ne_true, shadow, count]
      refine ⟨state, loss.trans ?_, rfl, screener.trans (if_congr ?_ rfl rfl)⟩
      · split
        next => rfl
        next notLost =>
          have none : c.lossCount = 0 := not_not.mp (mt running.mp notLost)
          rw [none]
      · exact or_iff_left fun both => both.2 both.1
  obtain ⟨state, loss, shadow, screener⟩ := parts
  refine ⟨(lineTick e c .plain n).reportPending, ?_⟩
  rw [← state, ← loss, ← shadow, ← screener]
  unfold lineTick at number lostFrom ⊢
  dsimp only at number lostFrom ⊢
  rw [number, lostFrom]
  rfl

omit delta in
/-- A connected line out of SHADOW keeps its state when its count falls. -/
theorem countedState_kept (live : c.state.connected = true) (out : c.state ≠ .shadow) : c.countedState = c.state := by
  obtain ⟨-, on, -⟩ := (LineCtx.sound_iff l c).mp sound
  unfold LineCtx.countedState
  rw [if_pos live]
  have state := (on live).1
  rw [state] at out ⊢
  rw [connectedState_table] at out ⊢
  rw [connectedState_table]
  cases role : c.plan.role with
  | off | air | confer => rfl
  | hold | screen | auto =>
    rw [role] at out
    dsimp only at out ⊢
    have none : c.shadowCount = 0 := by
      by_contra some
      simp [some] at out
    rw [none]

omit delta in
/-- A line in SHADOW stays while its count runs. -/
theorem countedState_shadow (shadow : c.state = .shadow) :
    c.countedState = if c.shadowCount = 1 then connectedState c.plan.role 0 c.autoScreener else .shadow := by
  obtain ⟨-, on, -⟩ := (LineCtx.sound_iff l c).mp sound
  have live : c.state.connected = true := by rw [shadow]; rfl
  have state := shadow.symm.trans (on live).1
  unfold LineCtx.countedState
  rw [if_pos live]
  rw [connectedState_table] at state
  cases role : c.plan.role with
  | off | air | confer =>
    rw [role] at state
    exact nomatch state
  | hold | screen | auto =>
    rw [role] at state
    have some : c.shadowCount ≠ 0 := fun zero => by
      rw [zero] at state
      revert state
      cases c.autoScreener <;> simp
    split
    next one => rw [one]
    next more =>
      rw [connectedState_table]
      simp [show c.shadowCount - 1 ≠ 0 by omega]

omit sound delta in
theorem countedState_lost (lost : c.state = .lost) :
    c.countedState = if c.lossCount = 1 then .vacant else .lost := by
  unfold LineCtx.countedState
  rw [if_neg (by rw [lost]; exact nofun)]
  by_cases last : c.lossCount = 1
  · rw [if_pos last, if_neg fun both => both.2 last]
  · rw [if_neg last, if_pos ⟨lost, last⟩]

omit sound delta in
theorem countedState_vacant (vacant : c.state = .vacant) : c.countedState = .vacant := by
  simp [LineCtx.countedState, vacant, LineState.connected]

end

theorem LineState.out_cases {x : LineState} (off : ¬x.connected = true) : x = .vacant ∨ x = .lost := by
  cases x with
  | vacant => exact .inl rfl
  | lost => exact .inr rfl
  | parked | screen | hold | shadow | air | confer => exact absurd rfl off

/-- A line that nothing is delivered for, where no apply is taken, is given nothing but its decrease. -/
theorem State.lineInput_plain {s : State} {l : Line} (fresh : s.inst.lines[l] = false) (nothing : s.delivery l = none) :
    s.lineInput none l = .plain := by
  rw [State.lineInput_fresh fresh, nothing]
  rfl

theorem State.lineTicked_plain {s : State} {l : Line} (fresh : s.inst.lines[l] = false) (nothing : s.delivery l = none)
    (n : BitVec 8) : s.lineTicked l n = lineTick (s.lineEnv 0) s.line.ctx[l] .plain n := by
  unfold State.lineTicked
  rw [State.lineInput_plain fresh nothing]

/-- A line's part of the tick taken ahead, where it takes no arrival. -/
theorem State.tickLineInOrder_alone {s : State} {l : Line} (nothing : s.arrivalDue l = false) :
    s.tickLineInOrder l = s.tickLine l := by
  unfold State.tickLineInOrder
  rw [State.servedBefore_nil nothing]
  rfl

theorem State.arrivalDue_plain {s : State} {l : Line} (fresh : s.inst.lines[l] = false) (nothing : s.delivery l = none) :
    s.arrivalDue l = false := by
  unfold State.arrivalDue
  rw [State.lineInput_plain fresh nothing]
  exact takesArrival_plain

end Sys2Proof.Machine

open Sys2Proof Sys2Proof.Machine

/-- Settles O32: a tick that delivers nothing to a line makes its counts fall, and its state follows them. -/
theorem blockTickLineCounts : Obligations.BlockTickLineCounts := by
  unfold Obligations.BlockTickLineCounts
  intro s t pins follows first l run stands fresh nothing sound
  obtain rfl : s.blockTick pins follows first = t :=
    Host.Outcome.next.inj ((exec_blockTick s pins follows first).symm.trans run)
  obtain ⟨n, pending, line⟩ := State.blockTick_lineTick (State.applyDue_false stands) pins follows first l
  obtain ⟨marked, own⟩ := lineTick_plain (e := s.lineEnv 0) n sound rfl
  rw [State.lineInput_plain fresh nothing, own] at line
  obtain ⟨-, -, -, -, -, running, -, -, -⟩ := (LineCtx.sound_iff l _).mp sound
  dsimp only
  rw [line]
  refine ⟨rfl, rfl, rfl, rfl, fun lost => ⟨rfl, countedState_lost lost⟩, fun other => ?_,
    fun shadow => countedState_shadow sound shadow, fun notLost notShadow => ?_⟩
  · show _ - 1 = 0
    rw [not_not.mp (mt running.mp other)]
  · by_cases live : (s.line.ctx[l]).state.connected = true
    · exact countedState_kept sound live notShadow
    · obtain vacant | lost := LineState.out_cases live
      · exact (countedState_vacant vacant).trans vacant.symm
      · exact absurd lost notLost

end

