-- ==== Sys2Proof/Proofs/CountsEnd.lean ====
section
/-! PROOFS. A loss count and a shadow count that reach 0, by their own rows (R41, R48, R68). -/

namespace Sys2Proof.Machine

theorem vector_ext_fin {α : Type} {n : Nat} {v w : Vector α n} (same : ∀ i : Fin n, v[i] = w[i]) : v = w :=
  Vector.ext fun k h => same ⟨k, h⟩

section
variable {s : State} {l : Line}

/-- A line's part of the tick that takes no arrival leaves SCRN. -/
theorem State.tickLine_frame_noArrival (none : s.arrivalDue l = false) :
    s.tickLine l = { s with
      cmap := (s.tickLine l).cmap, line := { s.line with ctx := (s.tickLine l).line.ctx }, inst := (s.tickLine l).inst
      cue := { s.cue with returns := (s.tickLine l).cue.returns }
      mix := { s.mix with returns := (s.tickLine l).mix.returns } } := by
  have scrn : (s.tickLine l).scrn = s.scrn := by
    rw [State.tickLine_scrn, none]
    rfl
  have whole : s.tickLine l = { s with
      cmap := (s.tickLine l).cmap, line := { s.line with ctx := (s.tickLine l).line.ctx }, scrn := (s.tickLine l).scrn
      inst := (s.tickLine l).inst, cue := { s.cue with returns := (s.tickLine l).cue.returns }
      mix := { s.mix with returns := (s.tickLine l).mix.returns } } := by
    unfold State.tickLine State.vacate State.lineMoved
    rfl
  rw [scrn] at whole
  exact whole

/-- No line enters VACANT: every return stands. -/
theorem State.tickLine_returns (kept : ((s.tickLine l).line.ctx[l]).state = .vacant → (s.line.ctx[l]).state = .vacant) :
    (s.tickLine l).cue.returns = s.cue.returns ∧ (s.tickLine l).mix.returns = s.mix.returns := by
  have stays (j : Line) : ¬(((s.tickLine l).line.ctx[j]).state = .vacant ∧ (s.line.ctx[j]).state ≠ .vacant) := by
    rintro ⟨vacant, out⟩
    by_cases own : j = l
    · subst own
      exact out (kept vacant)
    · rw [s.tickLine_otherLine own] at vacant
      exact out vacant
  constructor
  · exact vector_ext_fin fun j => by rw [State.tickLine_cueReturn, if_neg (stays j)]
  · exact vector_ext_fin fun j => by rw [State.tickLine_mixReturn, if_neg (stays j)]

variable (fresh : s.inst.lines[l] = false) (nothing : s.delivery l = none) (sound : (s.line.ctx[l]).sound l = true)
include fresh nothing sound

/-- A line that is delivered nothing, taken ahead, where its state changes. -/
theorem State.tickLine_plain (moves : (s.line.ctx[l]).countedState ≠ (s.line.ctx[l]).state) :
    (s.tickLine l).line.ctx[l] =
      { s.line.ctx[l] with
        state := (s.line.ctx[l]).countedState, lossCount := (s.line.ctx[l]).lossCount - 1
        shadowCount := (s.line.ctx[l]).shadowCount - 1
        autoScreener :=
          if (s.line.ctx[l]).state = .lost ∧ (s.line.ctx[l]).lossCount = 1 then none else (s.line.ctx[l]).autoScreener
        reportPending := true } := by
  obtain ⟨pending, own⟩ := lineTick_plain (e := s.lineEnv 0) s.scrn.arrivals sound rfl
  have marked : pending = true := by
    have flag := lineTick_marked (e := s.lineEnv 0) (i := .plain) (n := s.scrn.arrivals) sound (by rw [own]; exact moves)
    rwa [own] at flag
  rw [State.tickLine_lineBlock, set_same, State.lineTicked_plain fresh nothing, own, marked]

end

section
variable {s : State} {l : Line} (fresh : s.inst.lines[l] = false) (nothing : s.delivery l = none)
  (stands : s.intake.phase ≠ .ready ∨ s.inst.begun = true)
include fresh stands

theorem State.lineFree_of : s.lineFree l = true := by
  unfold State.lineFree
  rw [fresh, State.applyDue_false stands]
  rfl

include nothing

theorem exec_lossCountExpiry (lost : (s.line.ctx[l]).state = .lost) (last : (s.line.ctx[l]).lossCount = 1) :
    exec (.lossCountExpiry l) s = .next (s.tickLine l) := by
  have due : s.lossDue l = true := by
    unfold State.lossDue
    rw [State.lineFree_of fresh stands, State.lineInput_plain fresh nothing]
    refine lossExpires_iff.mpr ⟨lineMove_plain, lost, rfl, ?_⟩
    rw [lossAfter_stay lineMove_plain, if_pos lost, last]
    rfl
  show Host.Outcome.next (if s.lossDue l then s.tickLineInOrder l else s) = _
  rw [if_pos due, State.tickLineInOrder_alone (State.arrivalDue_plain fresh nothing)]

theorem exec_shadowCountEnd (sound : (s.line.ctx[l]).sound l = true) (shadow : (s.line.ctx[l]).state = .shadow)
    (last : (s.line.ctx[l]).shadowCount = 1) : exec (.shadowCountEnd l) s = .next (s.tickLine l) := by
  obtain ⟨-, on, -⟩ := (LineCtx.sound_iff l _).mp sound
  have live : (s.line.ctx[l]).state.connected = true := by rw [shadow]; rfl
  have out : inAirAfter s.line.ctx[l] .plain = false := Bool.eq_false_iff.mpr fun air => by
    obtain ⟨-, role⟩ := inAirAfter_iff.mp air
    exact nomatch shadow.symm.trans ((on live).1.trans ((connectedState_eq_air_iff ..).mpr role))
  have none : shadowAfter (s.lineEnv 0) s.line.ctx[l] .plain = 0 := by
    obtain ⟨pending, own⟩ := lineTick_plain (e := s.lineEnv 0) s.scrn.arrivals sound rfl
    show (lineTick (s.lineEnv 0) s.line.ctx[l] .plain s.scrn.arrivals).shadowCount = 0
    rw [own, last]
  have due : s.shadowDue l = true := by
    unfold State.shadowDue
    dsimp only
    rw [State.lineFree_of fresh stands, State.lineInput_plain fresh nothing, out, none, last]
    rfl
  show Host.Outcome.next (if s.shadowDue l then s.tickLineInOrder l else s) = _
  rw [if_pos due, State.tickLineInOrder_alone (State.arrivalDue_plain fresh nothing)]

end

/-- A line leaves SHADOW for HOLD or SCREEN (R34, R48). -/
theorem connectedState_shadow_ends {c : LineCtx} {l : Line} (sound : c.sound l = true) (shadow : c.state = .shadow) :
    connectedState c.plan.role 0 c.autoScreener = .hold ∨ connectedState c.plan.role 0 c.autoScreener = .screen := by
  obtain ⟨-, on, -⟩ := (LineCtx.sound_iff l c).mp sound
  have state := shadow.symm.trans (on (by rw [shadow]; rfl)).1
  rw [connectedState_table] at state ⊢
  cases role : c.plan.role with
  | off | air | confer =>
    rw [role] at state
    exact nomatch state
  | hold => exact .inl rfl
  | screen => exact .inr rfl
  | auto =>
    cases c.autoScreener with
    | none => exact .inl rfl
    | some => exact .inr rfl

end Sys2Proof.Machine

open Sys2Proof Sys2Proof.Machine

/-- Settles O39: either row takes the line's own part of the tick, in which nothing but its counts moves. -/
theorem lineCountsEnd : Obligations.LineCountsEnd := by
  unfold Obligations.LineCountsEnd
  intro s l sound nothing fresh stands
  have frame := State.tickLine_frame_noArrival (State.arrivalDue_plain fresh nothing)
  have others (j : Line) (other : j ≠ l) : (s.tickLine l).line.ctx[j] = s.line.ctx[j] := s.tickLine_otherLine other
  refine ⟨fun lost last => ?_, fun shadow last => ?_⟩
  · have state : (s.line.ctx[l]).countedState = .vacant := (countedState_lost lost).trans (if_pos last)
    have own := State.tickLine_plain fresh nothing sound (by rw [state, lost]; exact nofun)
    have entered : ((s.tickLine l).line.ctx[l]).state = .vacant ∧ (s.line.ctx[l]).state ≠ .vacant :=
      ⟨by rw [own]; exact state, by rw [lost]; exact nofun⟩
    have mix : (s.tickLine l).mix.returns[l] = (s.mix.returns[l]).vacate := by
      rw [State.tickLine_mixReturn, if_pos entered]
    refine ⟨s.tickLine l, exec_lossCountExpiry fresh nothing stands lost last, ?_, ?_, ?_, ?_, ?_, ?_,
      fun j other => ⟨others j other, s.tickLine_otherReturns other⟩, frame⟩
    · rw [own, state, last, if_pos ⟨lost, rfl⟩]
    · rw [State.tickLine_cueReturn, if_pos entered]
    all_goals rw [mix]; rfl
  · have state : (s.line.ctx[l]).countedState =
        connectedState (s.line.ctx[l]).plan.role 0 (s.line.ctx[l]).autoScreener :=
      (countedState_shadow sound shadow).trans (if_pos last)
    have ends := connectedState_shadow_ends sound shadow
    have own := State.tickLine_plain fresh nothing sound fun same => by
      rw [state] at same
      rw [same, shadow] at ends
      exact ends.elim nofun nofun
    obtain ⟨cue, mix⟩ := State.tickLine_returns (s := s) (l := l) fun vacant => by
      rw [own] at vacant
      rw [← state, show (s.line.ctx[l]).countedState = .vacant from vacant] at ends
      exact ends.elim nofun nofun
    rw [cue, mix] at frame
    refine ⟨s.tickLine l, exec_shadowCountEnd fresh nothing stands sound shadow last, ?_, ?_, others, frame⟩
    · obtain ⟨-, -, -, -, -, running, -, -, -⟩ := (LineCtx.sound_iff l _).mp sound
      have none : (s.line.ctx[l]).lossCount = 0 := not_not.mp (mt running.mp (by rw [shadow]; exact nofun))
      have stays : (s.line.ctx[l]).lossCount - 1 = (s.line.ctx[l]).lossCount := by rw [none]
      rw [own, state, last, stays, if_neg fun both => by rw [shadow] at both; exact nomatch both.1]
    · rw [own]
      show (s.line.ctx[l]).countedState = .hold ∨ (s.line.ctx[l]).countedState = .screen
      rw [state]
      exact ends

end

