-- ==== Sys2Proof/Proofs/LanesLost.lean ====
section
/-! PROOFS. A SEEKING lane at a block tick, and the lane that is lost with its lines (R102, R103). -/

namespace Sys2Proof.Machine

/-! ### A lane after a tick -/

/-- A tick that begins no round leaves every lane's flag to the events of the tick. -/
theorem State.blockTick_inLane_noRound (s : State) (pins : BitVec 16) (follows first : Bool)
    (same : (s.blockTick pins follows first).report.round = s.report.round) (i : InLane) :
    (s.blockTick pins follows first).lrx.lanes[i] = (s.linePart.lrx.lanes[i]).endTick := by
  obtain ⟨-, lrx, -⟩ := s.tickEvents_parts pins follows
  have look := s.blockTick_noRound pins follows first same (s.tickEvents_round pins follows)
  have own : (s.blockTick pins follows first).lrx.lanes[i] =
      (((s.tickEvents pins follows).roundPhase s pins first).lrx.lanes[i]).endTick := ofFn_at ..
  rw [own, look, lrx]

/-- A SEEKING lane that is counted (R102, R103). -/
theorem InLaneCtx.tick_seeking {c : InLaneCtx} (seeking : c.state = .seeking) (laneLoss : Nat) :
    c.tick laneLoss false =
      { c with
        seeking := min 65535 (c.seeking + 1), lostShown := decide (laneLoss ≤ min 65535 (c.seeking + 1))
        statusPending := c.statusPending || decide (c.lostShown ≠ decide (laneLoss ≤ min 65535 (c.seeking + 1))) } := by
  have whole : c.syncMissing = false := Bool.eq_false_iff.mpr fun missing =>
    nomatch seeking.symm.trans (InLaneCtx.syncMissing_iff.mp missing).1
  have count : countUp c.seeking = min 65535 (c.seeking + 1) := rfl
  rw [InLaneCtx.tick_counts whole]
  unfold InLaneCtx.seekTick InLaneCtx.showLost InLaneCtx.isLost
  rw [if_pos seeking, count, decide_eq_true seeking, Bool.true_and]
  simp only [ne_comm]

theorem State.Ahead.envAt {s t : State} {ls : List Line} (ahead : s.Ahead t ls) : s.envAt t = s.lineEnv 0 := by
  have frame := ahead.frame
  have line : t.line = { s.line with ctx := t.line.ctx } := by rw [frame]
  have scrn : t.scrn = { s.scrn with arrivals := t.scrn.arrivals } := by rw [frame]
  unfold State.envAt State.lineEnv
  rw [line, scrn]
  simp only [sub_self]

theorem mem_linesOfLane {i : InLane} {l : Line} : l ∈ linesOfLane i ↔ l.val / 8 = i.val := by
  unfold linesOfLane
  rw [← lineLane_eq_iff]
  simp

/-! ### The lane that is lost -/

section
variable {s : State} {i : InLane} (seeking : (s.lrx.lanes[i]).state = .seeking)
  (last : (s.lrx.lanes[i]).seeking + 1 = s.lrx.laneLoss) (bound : s.lrx.laneLoss ≤ 65535)
  (unlost : (s.lrx.lanes[i]).lostShown = false) (fresh : s.inst.lanes[i] = false)
include seeking last bound unlost fresh

theorem State.laneAfter_lost :
    s.laneAfter i =
      { s.lrx.lanes[i] with seeking := s.lrx.laneLoss, lostShown := true, statusPending := true } := by
  unfold State.laneAfter
  rw [fresh, InLaneCtx.tick_seeking seeking, last, Nat.min_eq_right bound, decide_eq_true (le_refl _), unlost]
  simp

theorem exec_laneLost (stands : s.intake.phase ≠ .ready ∨ s.inst.begun = true)
    (lines : ∀ l : Line, s.inst.lines[l] = false) :
    exec (.laneLost i) s = .next ((linesOfLane i).foldl State.tickLine (s.tickLane i)) := by
  have due : s.lostDue i = true := by
    unfold State.lostDue InLaneCtx.isLost
    have before : ¬s.lrx.laneLoss ≤ (s.lrx.lanes[i]).seeking := by omega
    rw [State.laneAfter_lost seeking last bound unlost fresh, fresh, State.applyDue_false stands]
    dsimp only
    rw [seeking, decide_eq_false before, decide_eq_true (le_refl _)]
    rfl
  have each : (linesOfLane i).foldl State.tickLineOnce (s.tickLane i) =
      (linesOfLane i).foldl State.tickLine (s.tickLane i) :=
    State.foldl_tickLineOnce ((List.nodup_finRange 24).filter _) fun l _ => lines l
  show Host.Outcome.next (if s.lostDue i then (linesOfLane i).foldl State.tickLineOnce (s.tickLane i) else s) = _
  rw [if_pos due, each]

/-- Every line of the lane is delivered DISCONNECTED (R102). -/
theorem State.tickLane_delivery {l : Line} (own : l.val / 8 = i.val) :
    (s.tickLane i).delivery l = some laneDelivery := by
  obtain rfl : lineLane l = i := (lineLane_eq_iff l i).mpr own
  have lane : (s.tickLane (lineLane l)).lrx.lanes[lineLane l] = s.laneAfter (lineLane l) := set_same ..
  have taken : (s.tickLane (lineLane l)).inst.lanes[lineLane l] = true := set_same ..
  have loss : (s.tickLane (lineLane l)).lrx.laneLoss = s.lrx.laneLoss := rfl
  unfold State.delivery lineDelivery
  refine if_pos ?_
  unfold InLaneCtx.disconnects InLaneCtx.isLost State.laneAfter
  rw [lane, taken, loss, InLaneCtx.tick_taken, State.laneAfter_lost seeking last bound unlost fresh]
  unfold InLaneCtx.showLost
  dsimp only
  rw [seeking, decide_eq_true (le_refl _)]
  rfl

end

theorem takesArrival_disconnected (c : LineCtx) :
    takesArrival c { plan := none, delivery := some laneDelivery, counted := true } = false := by
  refine Bool.eq_false_iff.mpr fun arrives => ?_
  obtain ⟨-, ⟨-, -, d, given, connected⟩ | ⟨-, changed, -⟩⟩ := (takesArrival_iff _ _).mp arrives
  · obtain rfl := Option.some.inj given
    exact nomatch connected
  · exact changed rfl

end Sys2Proof.Machine

open Sys2Proof Sys2Proof.Machine

/-- Settles O40: a SEEKING lane is counted at the tick, and at the lane-loss time its lines, and no other, are each given
their part of the tick with DISCONNECTED delivered. -/
theorem laneLostTaken : Obligations.LaneLostTaken := by
  unfold Obligations.LaneLostTaken
  refine ⟨fun s pins follows first i stands fresh seeking => ?_, fun s i seeking last bound unlost fresh lines stands sound => ?_⟩
  · have free := State.applyDue_false stands
    have after : s.laneAfter i = _ := (congrArg (fun x => (s.lrx.lanes[i]).tick s.lrx.laneLoss x) fresh).trans
      (InLaneCtx.tick_seeking seeking s.lrx.laneLoss)
    refine ⟨s.blockTick pins follows first, exec_blockTick s pins follows first, ?_, fun same => ?_⟩
    · obtain ⟨pending, lane⟩ := State.blockTick_laneAfter free pins follows first i
      rw [lane, after]
      rfl
    · rw [s.blockTick_inLane_noRound pins follows first same, State.linePart_plain free, State.linePhase_lane, after]
      unfold InLaneCtx.endTick
      simp
  · have run := exec_laneLost seeking last bound unlost fresh stands lines
    have ahead := State.foldl_tickLine_ahead (sorted_filter_lines fun l => lineLane l = i) (s.tickLane i)
    change (s.tickLane i).Ahead ((linesOfLane i).foldl State.tickLine (s.tickLane i)) (linesOfLane i) at ahead
    generalize (linesOfLane i).foldl State.tickLine (s.tickLane i) = t at run ahead
    have input (l : Line) (own : l.val / 8 = i.val) : (s.tickLane i).lineInput none l =
        { plan := none, delivery := some laneDelivery, counted := true } := by
      rw [State.lineInput_fresh (s := s.tickLane i) (lines l), State.tickLane_delivery seeking last bound unlost fresh own]
    have noArrival (l : Line) (own : l ∈ linesOfLane i) : (s.tickLane i).arrivalDue l = false := by
      unfold State.arrivalDue
      rw [input l (mem_linesOfLane.mp own)]
      exact takesArrival_disconnected _
    have env : s.envAt t = (s.tickLane i).lineEnv 0 := ahead.envAt
    refine ⟨t, run, ?_, fun l own => ?_, fun l other => ?_⟩
    · have arrivals : t.scrn.arrivals = s.scrn.arrivals := by
        rw [ahead.arrivals, List.countP_eq_zero.mpr fun l own => Bool.eq_false_iff.mp (noArrival l own)]
        exact BitVec.add_zero _
      have frame := ahead.frame
      rw [arrivals] at frame
      unfold State.tickLane State.setInLane at frame
      rw [State.laneAfter_lost seeking last bound unlost fresh] at frame
      exact frame
    · have line := ahead.line l (mem_linesOfLane.mpr own)
      have none : (linesOfLane i).countP (fun j => decide (j < l) && (s.tickLane i).arrivalDue j) = 0 :=
        List.countP_eq_zero.mpr fun j among => by rw [noArrival j among, Bool.and_false]; exact nofun
      rw [none, show BitVec.ofNat 8 0 = 0#8 from rfl, BitVec.add_zero] at line
      unfold State.lineTicked at line
      rw [← env, input l own, State.tickLane_line, State.tickLane_scrn] at line
      refine ⟨?_, ?_, line, fun live => ?_⟩
      · rw [line]
        rfl
      · rw [line]
        rfl
      · obtain ⟨-, on, -⟩ := (LineCtx.sound_iff l _).mp (sound l)
        obtain ⟨state, loss, lostFrom, -⟩ := lineTick_lose (e := s.envAt t) (n := s.scrn.arrivals)
          (lineMove_lose (i := { plan := .none, delivery := some laneDelivery, counted := true }) live (on live).2 rfl nofun)
        rw [line]
        refine ⟨state, loss.trans ?_, lostFrom⟩
        rw [env]
        rfl
    · obtain ⟨line, record, cue, mix⟩ := ahead.others l (mt mem_linesOfLane.mp other)
      exact ⟨line, record, cue, mix⟩

end

