-- ==== Sys2Proof/Proofs/CodesSettle.lean ====
section
/-! PROOFS. The settle records of a block tick, and a settled code delivered to its line after the arrivals of the lower lines
(R39, R89, R99 to R102). -/

namespace Sys2Proof.Machine

/-! ### The settle record of a line at a block tick -/

/-- Without a sample a clear settle record stays clear. -/
theorem SettleRec.clear_settled (settle : Nat) : SettleRec.clear.settled none settle = SettleRec.clear := rfl

section
variable {s : State} (free : s.applyDue = false) (pins : BitVec 16) (follows first : Bool) {l : Line}
include free

theorem State.blockTick_record (fresh : s.inst.lines[l] = false) :
    (s.blockTick pins follows first).cmap.records[l] =
      (s.heldAt (s.blockTick pins follows first) l).settled (s.sampleAt (s.blockTick pins follows first) l)
        s.cmap.settle := by
  have record : (s.blockTick pins follows first).cmap.records[l] = s.settleAfter l := by
    rw [State.blockTick_cmap, State.linePart_plain free, State.linePhase_cmap]
    exact (ofFn_at ..).trans (if_neg (Bool.eq_false_iff.mp fresh))
  rw [record, ← SettleRec.check_settled, SettleRec.sampled_withSample, ← State.settleRecord_eq free]
  rfl

theorem State.blockTick_record_cleared (fresh : s.inst.lines[l] = false)
    (out : ((s.blockTick pins follows first).lrx.lanes[lineLane l]).state ≠ .locked) :
    (s.blockTick pins follows first).cmap.records[l] = SettleRec.clear := by
  have held : s.heldAt (s.blockTick pins follows first) l = SettleRec.clear := if_neg out
  have sample : s.sampleAt (s.blockTick pins follows first) l = none := if_neg out
  rw [State.blockTick_record free pins follows first fresh, held, sample, SettleRec.clear_settled]

/-- The condition a line records at a tick that takes no apply is the one delivered. -/
theorem State.blockTick_condition (fresh : s.inst.lines[l] = false) :
    ((s.blockTick pins follows first).line.ctx[l]).condition =
      ((s.delivery l).map (·.condition)).getD (s.line.ctx[l]).condition := by
  obtain ⟨n, pending, line⟩ := State.blockTick_lineTick free pins follows first l
  rw [line, State.lineInput_fresh fresh]
  rfl

end

/-- A code that settles at a tick is delivered as its entry says. -/
theorem State.deliveredAt_settled {s t : State} {held : SettleRec} {l : Line} {code : BitVec 6} {d : Condition}
    (settle : t.cmap.settle = s.cmap.settle)
    (live : ¬((t.lrx.lanes[lineLane l]).state = .off ∨
      ((t.lrx.lanes[lineLane l]).state = .seeking ∧ t.lrx.laneLoss ≤ (t.lrx.lanes[lineLane l]).seeking)))
    (undelivered : (held.withSample (s.sampleAt t l)).delivered = false)
    (delivered : (held.settled (s.sampleAt t l) s.cmap.settle).delivered = true)
    (last : (held.settled (s.sampleAt t l) s.cmap.settle).last = some code)
    (entry : (t.cmap.table[code.toFin]).condition = some d) :
    s.deliveredAt t held l = some { condition := d, notify := (t.cmap.table[code.toFin]).notify } := by
  unfold SettleRec.settled at delivered last
  unfold State.deliveredAt
  dsimp only at delivered last ⊢
  generalize held.withSample (s.sampleAt t l) = r at undelivered delivered last ⊢
  rw [undelivered, last] at delivered
  have reached : s.cmap.settle ≤ r.count := by simpa using delivered
  rw [if_neg (by simpa using live), last]
  dsimp only
  rw [undelivered, settle, if_neg (by simpa using reached), entry]
  rfl

/-! ### A line that takes an arrival (R38, R39) -/

theorem State.arrivalDue_iff {s : State} {j : Line} :
    s.arrivalDue j = true ↔ s.inst.lines[j] = false ∧ (s.line.ctx[j]).state = .vacant ∧
      (s.line.ctx[j]).plan.role = .auto ∧ (s.line.ctx[j]).condition ≠ .connected ∧
      ∃ x, s.delivery j = some x ∧ x.condition = .connected := by
  unfold State.arrivalDue
  rw [takesArrival_iff]
  cases taken : s.inst.lines[j] with
  | true =>
    rw [State.lineInput_taken taken]
    constructor
    · rintro ⟨-, ⟨-, -, x, given, -⟩ | ⟨-, changed, -⟩⟩
      · exact nomatch given
      · exact absurd rfl changed
    · rintro ⟨fresh, -⟩
      exact nomatch fresh
  | false =>
    rw [State.lineInput_fresh taken]
    constructor
    · rintro ⟨auto, ⟨vacant, out, given⟩ | ⟨-, changed, -⟩⟩
      · exact ⟨rfl, vacant, auto, out, given⟩
      · exact absurd rfl changed
    · rintro ⟨-, vacant, auto, out, given⟩
      exact ⟨auto, .inl ⟨vacant, out, given⟩⟩

/-- A line that records another condition is marked for its status record (R50). -/
theorem lineTick_condition_marked {e : LineEnv} {c : LineCtx} {i : LineInput} {n : BitVec 8} {x : Delivery}
    (given : i.delivery = some x) (other : x.condition ≠ c.condition) : (lineTick e c i n).reportPending = true := by
  have changed : conditionChanged c i = true := by
    unfold conditionChanged
    rw [given]
    exact decide_eq_true other
  show (c.reportPending || lineMarked e c i n) = true
  unfold lineMarked
  rw [changed]
  simp

theorem countP_eq_card {ls : List Line} (nodup : ls.Nodup) (p : Line → Bool) :
    ls.countP p = (ls.toFinset.filter fun j => p j = true).card := by
  rw [List.countP_eq_length_filter, ← List.toFinset_filter, List.toFinset_card_of_nodup (nodup.filter p)]

/-! ### CODE_SETTLE -/

section
variable {s : State} {l : Line} {code : BitVec 6}
  (locked : (s.lrx.lanes[lineLane l]).state = .locked)
  (whole : (s.lrx.lanes[lineLane l]).setup.clocking = .master ∨ (s.lrx.lanes[lineLane l]).frameSeen = true)
include locked whole

theorem State.laneAfter_locked : (s.laneAfter (lineLane l)).state = .locked := by
  have found : (s.lrx.lanes[lineLane l]).syncMissing = false := Bool.eq_false_iff.mpr fun missing => by
    obtain ⟨-, slave, unseen⟩ := InLaneCtx.syncMissing_iff.mp missing
    obtain master | seen := whole
    · exact nomatch slave.symm.trans master
    · exact Bool.noConfusion (unseen.symm.trans seen)
  unfold State.laneAfter
  cases s.inst.lanes[lineLane l] with
  | true => exact (congrArg InLaneCtx.state (InLaneCtx.tick_taken _)).trans locked
  | false =>
    rw [InLaneCtx.tick_counts found]
    unfold InLaneCtx.seekTick
    rw [if_neg (by rw [locked]; exact nofun)]
    exact locked

theorem State.laneAfter_connects : (s.laneAfter (lineLane l)).disconnects s.lrx.laneLoss = false := by
  unfold InLaneCtx.disconnects InLaneCtx.isLost
  rw [State.laneAfter_locked locked whole]
  rfl

variable (sampled : (s.lrx.lanes[lineLane l]).sideSample[lineSlot l] = some code)
  (last : (s.cmap.records[l]).last = some code) (undelivered : (s.cmap.records[l]).delivered = false)
include sampled last undelivered

theorem State.settleRecord_again :
    s.settleRecord l =
      { last := some code, count := min 16 ((s.cmap.records[l]).count + 1), delivered := false } := by
  have side : (s.laneAfter (lineLane l)).sideSample = (s.lrx.lanes[lineLane l]).sideSample :=
    InLaneCtx.tick_sideSample ..
  unfold State.settleRecord
  rw [settleSampled_locked _ _ _ (State.laneAfter_locked locked whole), side, sampled]
  show (s.cmap.records[l]).take code = _
  unfold SettleRec.take
  rw [if_pos last, last, undelivered]

variable (reached : s.cmap.settle ≤ (s.cmap.records[l]).count + 1) (bound : s.cmap.settle ≤ 16)
include reached bound

theorem State.settleRecord_settles : (s.settleRecord l).settles s.cmap.settle = true := by
  unfold SettleRec.settles
  rw [State.settleRecord_again locked whole sampled last undelivered, decide_eq_true (le_min bound reached)]
  rfl

theorem State.settleAfter_settles :
    s.settleAfter l =
      { last := some code, count := min 16 ((s.cmap.records[l]).count + 1), delivered := true } := by
  show (s.settleRecord l).check s.cmap.settle = _
  unfold SettleRec.check
  rw [if_pos (State.settleRecord_settles locked whole sampled last undelivered reached bound),
    State.settleRecord_again locked whole sampled last undelivered]

theorem State.delivery_settles {d : Condition} (entry : (s.cmap.table[code.toFin]).condition = some d) :
    s.delivery l = some { condition := d, notify := (s.cmap.table[code.toFin]).notify } := by
  unfold State.delivery lineDelivery
  rw [State.laneAfter_connects locked whole, if_neg Bool.false_ne_true]
  show settledDelivery s.cmap.table (s.settleRecord l) s.cmap.settle = _
  unfold settledDelivery
  rw [if_pos (State.settleRecord_settles locked whole sampled last undelivered reached bound),
    State.settleRecord_again locked whole sampled last undelivered]
  show ((s.cmap.table[code.toFin]).condition).map _ = _
  rw [entry]
  rfl

theorem exec_codeSettle (fresh : s.inst.lines[l] = false) (stands : s.intake.phase ≠ .ready ∨ s.inst.begun = true) :
    exec (.codeSettle l) s = .next (s.tickLineInOrder l) := by
  have due : s.settleDue l = true := by
    unfold State.settleDue
    rw [State.lineFree_of fresh stands, State.laneAfter_connects locked whole,
      State.settleRecord_settles locked whole sampled last undelivered reached bound]
    rfl
  exact congrArg Host.Outcome.next (if_pos due)

end

/-! ### The arrivals served before a line (R39) -/

section
variable (s : State) (l : Line)

theorem State.servedBefore_nodup : (s.servedBefore l).Nodup := (List.nodup_finRange 24).filter _

/-- The arrivals served before the line itself: those of every line that SCRN serves before it. -/
theorem State.servedBefore_own :
    (s.servedBefore l ++ [l]).countP (fun j => decide (j < l) && s.arrivalDue j) = (s.servedBefore l).length := by
  rw [List.countP_append, List.countP_singleton, decide_eq_false (lt_irrefl l), Bool.false_and,
    if_neg Bool.false_ne_true, Nat.add_zero, List.countP_eq_length]
  intro j served
  obtain ⟨below, -, due⟩ := State.mem_servedBefore.mp served
  rw [due, decide_eq_true below]
  rfl

/-- The arrivals of the line's own row. -/
theorem State.servedBefore_all :
    (s.servedBefore l ++ [l]).countP s.arrivalDue = (s.servedBefore l).length + (s.arrivalDue l).toNat := by
  have each : (s.servedBefore l).countP s.arrivalDue = (s.servedBefore l).length :=
    List.countP_eq_length.mpr fun j served => (State.mem_servedBefore.mp served).2.2
  rw [List.countP_append, List.countP_singleton, each]
  cases s.arrivalDue l <;> rfl

/-- The arrivals served before a line that is itself served before this one. -/
theorem State.servedBefore_lower {j : Line} (served : j ∈ s.servedBefore l) :
    (s.servedBefore l ++ [l]).countP (fun k => decide (k < j) && s.arrivalDue k) =
      ((s.servedBefore l).toFinset.filter fun k => k < j).card := by
  obtain ⟨below, -, -⟩ := State.mem_servedBefore.mp served
  rw [List.countP_append, List.countP_singleton, decide_eq_false below.not_gt, Bool.false_and,
    if_neg Bool.false_ne_true, Nat.add_zero, countP_eq_card (s.servedBefore_nodup l)]
  refine congrArg Finset.card (Finset.filter_congr fun k among => ?_)
  obtain ⟨-, -, due⟩ := State.mem_servedBefore.mp (List.mem_toFinset.mp among)
  rw [due, Bool.and_true, decide_eq_true_eq]

end

end Sys2Proof.Machine

open Sys2Proof Sys2Proof.Machine

/-- Settles O38: a settle record follows its lane's sample and the check, and the row that takes a settled code gives its
line, and the lines served before it, their parts of the tick. -/
theorem codeSettles : Obligations.CodeSettles := by
  unfold Obligations.CodeSettles
  refine ⟨fun s pins follows first l stands fresh => ?_, fun s l code d locked whole sampled last undelivered reached bound
    entry fresh stands => ?_⟩
  · have free := State.applyDue_false stands
    have record := State.blockTick_record free pins follows first fresh
    have condition := State.blockTick_condition free pins follows first fresh
    obtain ⟨state, seeking⟩ := State.blockTick_ownLane free pins follows first l
    obtain ⟨table, settle⟩ := State.blockTick_cmapSettings free pins follows first
    have loss := State.blockTick_laneLoss_of free pins follows first
    refine ⟨s.blockTick pins follows first, exec_blockTick s pins follows first, record, fun out => ?_,
      fun hunting unlost => ?_, fun lost => ?_, fun code d live undelivered delivered last entry => ?_⟩
    · exact State.blockTick_record_cleared free pins follows first fresh out
    · rw [state] at hunting
      rw [seeking] at unlost
      have none : s.delivery l = none := lineDelivery_seeking s.cmap _ _ l hunting unlost
      exact ⟨none, by rw [condition, none]; rfl⟩
    · have disconnects := State.disconnects_iff free pins follows first l
      rw [loss] at disconnects
      have given : s.delivery l = some laneDelivery := by
        unfold State.delivery lineDelivery
        rw [disconnects]
        exact if_pos (by simpa using lost)
      rw [condition, given]
      rfl
    · rw [record] at delivered last
      rw [condition, State.delivery_eq free pins follows first l,
        State.deliveredAt_settled (held := s.heldAt (s.blockTick pins follows first) l) settle (by rw [loss]; exact live)
          undelivered delivered last (by rw [table]; exact entry)]
      rfl
  · have run := exec_codeSettle locked whole sampled last undelivered reached bound fresh stands
    have delivery := State.delivery_settles locked whole sampled last undelivered reached bound entry
    have record := State.settleAfter_settles locked whole sampled last undelivered reached bound
    have ahead := s.tickLineInOrder_ahead l
    generalize s.tickLineInOrder l = t at run ahead
    dsimp only
    have own : l ∈ s.servedBefore l ++ [l] := by simp
    have env := ahead.envAt
    have arrives : s.arrivalDue l = true ↔ (s.line.ctx[l]).state = .vacant ∧ (s.line.ctx[l]).plan.role = .auto ∧
        d = .connected ∧ (s.line.ctx[l]).condition ≠ .connected := by
      rw [State.arrivalDue_iff, delivery]
      constructor
      · rintro ⟨-, vacant, auto, out, x, given, connected⟩
        obtain rfl := Option.some.inj given
        exact ⟨vacant, auto, connected, out⟩
      · rintro ⟨vacant, auto, connected, out⟩
        exact ⟨fresh, vacant, auto, out, _, rfl, connected⟩
    have served (j : Line) : j ∈ s.servedBefore l ↔ ((s.line.ctx[l]).state = .vacant ∧
        (s.line.ctx[l]).plan.role = .auto ∧ d = .connected ∧ (s.line.ctx[l]).condition ≠ .connected) ∧ j < l ∧
        s.inst.lines[j] = false ∧ (s.line.ctx[j]).state = .vacant ∧ (s.line.ctx[j]).plan.role = .auto ∧
        (s.line.ctx[j]).condition ≠ .connected ∧ ∃ x, s.delivery j = some x ∧ x.condition = .connected := by
      rw [State.mem_servedBefore, arrives, State.arrivalDue_iff]
      exact and_left_comm
    have line : t.line.ctx[l] = lineTick (s.envAt t) s.line.ctx[l]
        { plan := none, delivery := some { condition := d, notify := (s.cmap.table[code.toFin]).notify }, counted := true }
        (s.scrn.arrivals + BitVec.ofNat 8 (s.servedBefore l).length) := by
      rw [ahead.line l own, s.servedBefore_own, env, ← delivery, ← State.lineInput_fresh fresh]
      rfl
    have arrivals := ahead.arrivals
    rw [s.servedBefore_all] at arrivals
    have lower (j : Line) (among : j ∈ s.servedBefore l) : t.line.ctx[j] = lineTick (s.envAt t) s.line.ctx[j]
        { plan := none, delivery := s.delivery j, counted := true }
        (s.scrn.arrivals + BitVec.ofNat 8 ((s.servedBefore l).toFinset.filter fun k => k < j).card) := by
      have freshLower : s.inst.lines[j] = false := ((served j).mp among).2.2.1
      rw [ahead.line j (List.mem_append_left _ among), s.servedBefore_lower l among, env,
        ← State.lineInput_fresh freshLower]
      rfl
    have frame := ahead.frame
    have cmap : t.cmap = { s.cmap with records := t.cmap.records } := by rw [frame]
    rw [← cmap] at frame
    refine ⟨t, run, (ahead.record l own).trans record, cmap, ?_, ?_, fun other => ?_, fun taken => ?_, fun none => ?_,
      fun j among => ?_, fun j other notServed => ?_, frame⟩
    · rw [line]
      rfl
    · rw [line]
      rfl
    · rw [line]
      exact lineTick_condition_marked rfl other
    · have due := arrives.mpr taken
      have card : (s.servedBefore l).toFinset.card = (s.servedBefore l).length :=
        List.toFinset_card_of_nodup (s.servedBefore_nodup l)
      refine ⟨(s.servedBefore l).toFinset, fun j => List.mem_toFinset.trans (served j), ?_, ?_, ?_,
        fun j among => lower j (List.mem_toFinset.mp among)⟩
      · rw [line, card]
        refine lineTick_arrivalNumber_taken _ _ _ _ ?_
        rw [← delivery, ← State.lineInput_fresh fresh]
        exact due
      · rw [arrivals, due, card]
        rfl
      · rw [card]
        exact line
    · have idle : s.arrivalDue l = false := Bool.eq_false_iff.mpr (mt arrives.mp none)
      rw [State.servedBefore_nil idle, List.length_nil, show BitVec.ofNat 8 0 = 0#8 from rfl, BitVec.add_zero] at line
      rw [State.servedBefore_nil idle, idle] at arrivals
      refine ⟨arrivals.trans (BitVec.add_zero _), line, ?_⟩
      rw [line]
      refine lineTick_arrivalNumber_kept _ _ _ _ ?_
      rw [← delivery, ← State.lineInput_fresh fresh]
      exact Bool.eq_false_iff.mp idle
    · have inList := (served j).mpr among
      obtain ⟨-, -, -, -, -, out, x, given, connected⟩ := among
      rw [lower j inList]
      refine ⟨?_, lineTick_condition_marked given (by rw [connected]; exact out.symm)⟩
      rw [given]
      exact connected
    · refine ahead.others j fun among => ?_
      obtain among | same := List.mem_append.mp among
      · exact notServed ((served j).mp among)
      · exact other (List.mem_singleton.mp same)

end

