-- ==== Sys2Proof/Proofs/TickMix.lean ====
section
/-! PROOFS. MIX at a block tick: every target recomputed on the lines, the cue and the settings as they stand after it, from the
ramps as they stood before it (R14 to R22). -/

namespace Sys2Proof.Machine

/-! ### MIX after the lines' part of a tick -/

section
variable (s : State)

theorem Mix.applied_source (m : Mix) (g : Staging) (i : Source) :
    ∃ code, (m.applied g).sources[i] = { m.sources[i] with airCode := code } := by
  unfold Mix.applied
  dsimp only
  cases g.sources with
  | none => exact ⟨_, rfl⟩
  | some t => exact ⟨_, ofFn_at ..⟩

/-- What the lines' part of a tick leaves of a return and of its cue: the cue is cleared where the line enters VACANT. -/
theorem State.linePhase_return (plans : Vector (Option LinePlan) 24) (delta : Int) (k : Line) :
    (s.linePhase plans delta).mix.returns[k] =
        (if ((s.linePhase plans delta).line.ctx[k]).state = .vacant && (s.line.ctx[k]).state ≠ .vacant then
          (s.mix.returns[k]).vacate else s.mix.returns[k]) ∧
      (s.linePhase plans delta).cue.returns[k] =
        (if ((s.linePhase plans delta).line.ctx[k]).state = .vacant && (s.line.ctx[k]).state ≠ .vacant then
          CueReturn.clear else s.cue.returns[k]) := by
  have line : (s.linePhase plans delta).line = (s.linesMoved plans delta).line := State.vacate_line ..
  have mix : (s.linesMoved plans delta).mix = s.mix := by simp
  have cue : (s.linesMoved plans delta).cue = s.cue := by simp
  rw [line, ← mix, ← cue]
  exact ⟨State.vacate_return .., State.vacate_cueReturn ..⟩

theorem State.linePhase_mix (plans : Vector (Option LinePlan) 24) (delta : Int) :
    (s.linePhase plans delta).mix = { s.mix with returns := (s.linePhase plans delta).mix.returns } := by
  have mix : (s.linesMoved plans delta).mix = s.mix := by simp
  unfold State.linePhase
  rw [State.vacate_mix, mix]

theorem State.linePhase_inst (plans : Vector (Option LinePlan) 24) (delta : Int) :
    (s.linePhase plans delta).inst = s.inst.allLines := by
  unfold State.linePhase
  rw [State.vacate_inst]
  rfl

theorem State.applyTick_split {P : State → Prop}
    (moved : P (s.handOver.linePhase s.admittedPlans ((s.handOver.line.dumpDepth : Int) - s.line.dumpDepth)))
    (counted : ∀ u : State, P u → P u.countRoles) : P s.applyTick :=
  State.ite_of (fun _ => counted _ moved) fun _ => moved

theorem State.linePart_split {P : State → Prop}
    (applied : P (s.handOver.linePhase s.admittedPlans ((s.handOver.line.dumpDepth : Int) - s.line.dumpDepth)))
    (counted : ∀ u : State, P u → P u.countRoles) (plain : P (s.linePhase (Vector.replicate 24 none) 0)) : P s.linePart :=
  State.ite_of (fun _ => s.applyTick_split applied counted) fun _ => plain

/-- The lines' part of a tick keeps the marks of what MIX has taken ahead of it. -/
theorem State.linePart_marks : s.linePart.inst.members = s.inst.members ∧ s.linePart.inst.terms = s.inst.terms := by
  have handed : s.handOver.inst = s.inst.applied (restartedLanes s.lrx s.intake.staging)
      (replacedRoutes s.cue s.intake.staging) := by
    unfold State.handOver
    rfl
  refine s.linePart_split (P := fun u => u.inst.members = s.inst.members ∧ u.inst.terms = s.inst.terms) ?_
    (fun u kept => by rw [u.countRoles_inst]; exact kept) ?_
  · rw [State.linePhase_inst, handed]
    unfold Instant.allLines Instant.applied
    exact ⟨rfl, rfl⟩
  · rw [State.linePhase_inst]
    unfold Instant.allLines
    exact ⟨rfl, rfl⟩

theorem State.linePart_source (i : Source) :
    ∃ code, s.linePart.mix.sources[i] = { s.mix.sources[i] with airCode := code } := by
  refine s.linePart_split (P := fun u => ∃ code, u.mix.sources[i] = { s.mix.sources[i] with airCode := code }) ?_
    (fun u kept => by rw [u.countRoles_mix]; exact kept) ?_
  swap
  · rw [State.linePhase_mix]
    exact ⟨(s.mix.sources[i]).airCode, rfl⟩
  have handed : s.handOver.mix = s.mix.applied s.intake.staging := by
    unfold State.handOver
    rfl
  rw [State.linePhase_mix, handed]
  exact Mix.applied_source s.mix s.intake.staging i

theorem State.linePart_contribs : s.linePart.mix.contribs = s.mix.contribs := by
  refine s.linePart_split (P := fun u => u.mix.contribs = s.mix.contribs) ?_
    (fun u kept => by rw [u.countRoles_mix]; exact kept) (by rw [State.linePhase_mix])
  rw [State.linePhase_mix]
  unfold State.handOver Mix.applied
  rfl

/-- A return and its cue after the lines' part of a tick: they stand, but for the cue of a line that is VACANT after it. -/
theorem State.linePart_return (k : Line) :
    (s.linePart.mix.returns[k] = s.mix.returns[k] ∧ s.linePart.cue.returns[k] = s.cue.returns[k]) ∨
      ((s.linePart.line.ctx[k]).state = .vacant ∧ s.linePart.mix.returns[k] = (s.mix.returns[k]).vacate) := by
  have phase (v : State) (mix : v.mix.returns = s.mix.returns) (cue : v.cue.returns = s.cue.returns)
      (plans : Vector (Option LinePlan) 24) (delta : Int) :
      ((v.linePhase plans delta).mix.returns[k] = s.mix.returns[k] ∧
        (v.linePhase plans delta).cue.returns[k] = s.cue.returns[k]) ∨
      (((v.linePhase plans delta).line.ctx[k]).state = .vacant ∧
        (v.linePhase plans delta).mix.returns[k] = (s.mix.returns[k]).vacate) := by
    obtain ⟨ret, own⟩ := v.linePhase_return plans delta k
    rw [mix] at ret
    rw [cue] at own
    split at ret
    next entered =>
      rw [Bool.and_eq_true, decide_eq_true_eq] at entered
      exact .inr ⟨entered.1, ret⟩
    next out =>
      rw [if_neg out] at own
      exact .inl ⟨ret, own⟩
  exact s.linePart_split
    (P := fun u => (u.mix.returns[k] = s.mix.returns[k] ∧ u.cue.returns[k] = s.cue.returns[k]) ∨
      ((u.line.ctx[k]).state = .vacant ∧ u.mix.returns[k] = (s.mix.returns[k]).vacate))
    (phase s.handOver s.handOver_mixReturns s.handOver_cueReturns _ _)
    (fun u kept => by rw [u.countRoles_mix, u.countRoles_cue, u.countRoles_line]; exact kept) (phase s rfl rfl _ _)

/-- What the lines' part of a tick leaves of every return, whatever its line does. -/
theorem State.linePart_returnKept (k : Line) :
    ∃ cueIn cueOut, s.linePart.mix.returns[k] = { s.mix.returns[k] with cueIn := cueIn, cueOut := cueOut } := by
  obtain ⟨same, -⟩ | ⟨-, entered⟩ := s.linePart_return k
  · exact ⟨_, _, same⟩
  · exact ⟨_, _, entered⟩

end

/-! ### MIX after a tick -/

theorem Mix.restartPeaks_source (m : Mix) (i : Source) : m.restartPeaks.sources[i] = { m.sources[i] with peak := 0 } :=
  ofFn_at ..

theorem Mix.restartPeaks_contrib (m : Mix) (l : Line) : m.restartPeaks.contribs[l] = { m.contribs[l] with peak := 0 } :=
  ofFn_at ..

theorem Mix.restartPeaks_return (m : Mix) (l : Line) : m.restartPeaks.returns[l] = { m.returns[l] with peak := 0 } :=
  ofFn_at ..

theorem Mix.restartPeaks_output (m : Mix) (o : Fin 8) : m.restartPeaks.outputs[o] = { m.outputs[o] with peak := 0 } :=
  ofFn_at ..

theorem State.lookRound_mix (s seen : State) (left : ReportFlags) :
    (s.lookRound seen left).mix =
      if seen.mayRound = true ∧ seen.work.meters = true then s.mix.restartPeaks else s.mix := by
  obtain ⟨may, kept⟩ | ⟨may, begun⟩ := s.lookRound_cases seen left
  · rw [kept, may, if_neg fun both => nomatch both.1]
  · rw [begun, may]
    refine (if_congr ?_ rfl rfl)
    exact (and_iff_right rfl).symm

section
variable (s : State) (pins : BitVec 16) (follows first : Bool)

theorem State.blockTick_mix :
    (s.blockTick pins follows first).mix =
      ((s.tickEvents pins follows).lookRound ((s.tickEvents pins follows).seenAt s pins first)
        (if first then s.tickFlags pins else ReportFlags.clear)).mix := by
  rw [← State.roundPhase_eq]
  exact State.endTick_mix ..

theorem State.tickEvents_mix :
    (s.tickEvents pins follows).mix =
      (s.linePart.mix.rewind s.inst.members s.inst.terms).tick s.linePart.scrn.table s.linePart.line.ctx
        (s.blockTick pins follows first).cue.returns (s.blockTick pins follows first).cue.routes := by
  obtain ⟨members, terms⟩ := s.linePart_marks
  have audio : (s.tickEvents pins follows).mix = (s.audioTick pins).mix := by simp [State.tickEvents]
  rw [audio, State.audioTick_eq, State.mixPhase_mix, State.blockTick_cue, ← members, ← terms, ← s.afterLines_mix,
    ← s.afterLines_inst, ← s.afterLines_scrn, ← s.afterLines_line, State.beforeCue_eq]
  simp

theorem State.lookRound_mixParts (t seen : State) (left : ReportFlags) :
    (∀ i : Source, ∃ peak, (t.lookRound seen left).mix.sources[i] = { t.mix.sources[i] with peak := peak }) ∧
    (∀ l : Line, ∃ peak, (t.lookRound seen left).mix.contribs[l] = { t.mix.contribs[l] with peak := peak }) ∧
    (∀ l : Line, ∃ peak, (t.lookRound seen left).mix.returns[l] = { t.mix.returns[l] with peak := peak }) ∧
    (t.lookRound seen left).mix.mainBlocks = t.mix.mainBlocks ∧
    (t.lookRound seen left).mix.cueBlocks = t.mix.cueBlocks := by
  rw [State.lookRound_mix]
  split
  · exact ⟨fun i => ⟨0, Mix.restartPeaks_source ..⟩, fun l => ⟨0, Mix.restartPeaks_contrib ..⟩,
      fun l => ⟨0, Mix.restartPeaks_return ..⟩, rfl, rfl⟩
  · exact ⟨fun i => ⟨_, rfl⟩, fun l => ⟨_, rfl⟩, fun l => ⟨_, rfl⟩, rfl, rfl⟩

theorem State.blockTick_blocks :
    (s.blockTick pins follows first).mix.mainBlocks = s.linePart.mix.mainBlocks ∧
      (s.blockTick pins follows first).mix.cueBlocks = s.linePart.mix.cueBlocks := by
  obtain ⟨-, -, -, main, cue⟩ := State.lookRound_mixParts (s.tickEvents pins follows)
    ((s.tickEvents pins follows).seenAt s pins first) (if first then s.tickFlags pins else ReportFlags.clear)
  rw [s.blockTick_mix, main, cue, s.tickEvents_mix pins follows first]
  simp

/-- A studio source after a block tick. -/
theorem State.blockTick_source (i : Source) :
    ((s.blockTick pins follows first).mix.sources[i]).air =
      ((s.mix.sources[i]).air).retarget (mult ((s.blockTick pins follows first).mix.sources[i]).airCode)
        (rampSamples (s.blockTick pins follows first).mix.mainBlocks) := by
  obtain ⟨sources, -⟩ := State.lookRound_mixParts (s.tickEvents pins follows)
    ((s.tickEvents pins follows).seenAt s pins first) (if first then s.tickFlags pins else ReportFlags.clear)
  obtain ⟨peak, own⟩ := sources i
  obtain ⟨code, held⟩ := s.linePart_source i
  obtain ⟨main, -⟩ := s.blockTick_blocks pins follows first
  rw [main, s.blockTick_mix, own, s.tickEvents_mix pins follows first, Mix.tick_source, Mix.rewind_sources]
  unfold SourceCtx.tick
  rw [held, Mix.rewind_mainBlocks]

theorem ContribCtx.tick_reportPending (b : ContribCtx) (m : Mix) (c : LineCtx) (pending : Bool) :
    b.tick m { c with reportPending := pending } = b.tick m c := rfl

theorem ReturnCtx.tick_reportPending (r : ReturnCtx) (m : Mix) (t : ScreeningTable) (k : Line) (c : LineCtx) (q : CueReturn)
    (routes : Vector RouteCtx 32) (pending : Bool) :
    r.tick m t k { c with reportPending := pending } q routes = r.tick m t k c q routes := rfl

/-- A contribution after a block tick. -/
theorem State.blockTick_contrib (l : Line) :
    let t := s.blockTick pins follows first
    (t.mix.contribs[l]).voice = mult (t.line.ctx[l]).plan.levels.voice ∧
      (t.mix.contribs[l]).air =
        ((s.mix.contribs[l]).air).retarget (airMemberTarget t.line.ctx[l] (t.mix.contribs[l]).voice)
          (rampSamples t.mix.mainBlocks) ∧
      (t.mix.contribs[l]).group =
        ((s.mix.contribs[l]).group.rewind s.inst.members[l]).retarget
          (groupMemberWant t.line.ctx[l] (t.mix.contribs[l]).voice) (rampSamples t.mix.mainBlocks) := by
  intro t
  obtain ⟨-, contribs, -⟩ := State.lookRound_mixParts (s.tickEvents pins follows)
    ((s.tickEvents pins follows).seenAt s pins first) (if first then s.tickFlags pins else ReportFlags.clear)
  obtain ⟨peak, own⟩ := contribs l
  obtain ⟨pending, line⟩ := s.blockTick_line pins follows first l
  obtain ⟨main, -⟩ := s.blockTick_blocks pins follows first
  have whole : t.mix.contribs[l] =
      { ({ s.mix.contribs[l] with group := (s.mix.contribs[l]).group.rewind s.inst.members[l] } : ContribCtx).tick
          (s.linePart.mix.rewind s.inst.members s.inst.terms) t.line.ctx[l] with peak := peak } := by
    rw [line, ContribCtx.tick_reportPending, ← s.linePart_contribs, ← Mix.rewind_contrib _ _ s.inst.terms,
      ← Mix.tick_contrib _ s.linePart.scrn.table _ t.cue.returns t.cue.routes, ← s.tickEvents_mix pins follows first, ← own,
      ← s.blockTick_mix]
  have length : (s.linePart.mix.rewind s.inst.members s.inst.terms).mainBlocks = t.mix.mainBlocks :=
    (Mix.rewind_mainBlocks ..).trans main.symm
  rw [whole, ← length]
  exact ⟨rfl, rfl, rfl⟩

/-- A return after a block tick. -/
theorem State.blockTick_mixReturn (k : Line) :
    let t := s.blockTick pins follows first
    ∃ peak, t.mix.returns[k] =
      { ({ s.linePart.mix.returns[k] with
            group := (s.linePart.mix.returns[k]).group.rewind s.inst.terms[k] } : ReturnCtx).tick t.mix t.scrn.table k
          t.line.ctx[k] t.cue.returns[k] t.cue.routes with peak := peak } := by
  intro t
  obtain ⟨-, -, returns, -⟩ := State.lookRound_mixParts (s.tickEvents pins follows)
    ((s.tickEvents pins follows).seenAt s pins first) (if first then s.tickFlags pins else ReportFlags.clear)
  obtain ⟨peak, own⟩ := returns k
  obtain ⟨pending, line⟩ := s.blockTick_line pins follows first k
  obtain ⟨main, cue⟩ := s.blockTick_blocks pins follows first
  have length (r : ReturnCtx) (c : LineCtx) (q : CueReturn) (x : ScreeningTable) (routes : Vector RouteCtx 32) :
      r.tick t.mix x k c q routes = r.tick (s.linePart.mix.rewind s.inst.members s.inst.terms) x k c q routes := by
    unfold ReturnCtx.tick programLength
    rw [Mix.rewind_mainBlocks, Mix.rewind_cueBlocks, ← main, ← cue]
  have table : t.scrn.table = s.linePart.scrn.table := by
    show (s.blockTick pins follows first).scrn.table = _
    rw [State.blockTick_scrn]
  refine ⟨peak, ?_⟩
  rw [length, line, ReturnCtx.tick_reportPending, table, ← Mix.rewind_return _ s.inst.members,
    ← Mix.tick_return _ s.linePart.scrn.table s.linePart.line.ctx, ← s.tickEvents_mix pins follows first, ← own,
    ← s.blockTick_mix]

end

end Sys2Proof.Machine
end

