-- ==== Sys2Proof/Proofs/TickTargets.lean ====
section
/-! PROOFS. The gain law, and the targets of MIX after a block tick (R1, R15, R16, R20 to R23). -/

namespace Sys2Proof.Machine

/-! ### The gain law (R1) -/

/-- The multiplier of a gain code is not 0 and is rounded to the nearest integer, with the power of ten of the code on both
sides. -/
def gainRounded (c : Nat) : Bool :=
  let m := gainTable.getD c 0
  decide (0 < m) && decide ((2 * m - 1) ^ 40 * 10 ^ 200 ≤ (2 ^ 240) ^ 4 * 10 ^ c) &&
    decide ((2 ^ 240) ^ 4 * 10 ^ c < (2 * m + 1) ^ 40 * 10 ^ 200)

/-- A quarter of the table, calculated: the multipliers of 64 codes, but for code 0, which is mute. -/
def gainsRounded (first : Nat) : Bool :=
  (List.range 64).all fun i => first + i = 0 || gainRounded (first + i)

theorem gainsRounded_first : gainsRounded 0 = true := by decide
theorem gainsRounded_second : gainsRounded 64 = true := by decide
theorem gainsRounded_third : gainsRounded 128 = true := by decide
theorem gainsRounded_fourth : gainsRounded 192 = true := by decide

theorem gainRounded_of {first : Nat} (all : gainsRounded first = true) {c : Nat} (on : 0 < c) (low : first ≤ c)
    (high : c < first + 64) : gainRounded c = true := by
  have own := List.all_eq_true.mp all (c - first) (List.mem_range.mpr (by omega))
  rw [Nat.add_sub_cancel' low, decide_eq_false (by omega), Bool.false_or] at own
  exact own

theorem gain_law (c : GainCode) (on : 0 < c.val) :
    0 < gainTable.getD c.val 0 ∧
      (2 * gainTable.getD c.val 0 - 1) ^ 40 * 10 ^ 200 ≤ (2 ^ 240) ^ 4 * 10 ^ c.val ∧
      (2 ^ 240) ^ 4 * 10 ^ c.val < (2 * gainTable.getD c.val 0 + 1) ^ 40 * 10 ^ 200 := by
  have rounded : gainRounded c.val = true := by
    by_cases first : c.val < 64
    · exact gainRounded_of gainsRounded_first on (Nat.zero_le _) (by omega)
    by_cases second : c.val < 128
    · exact gainRounded_of gainsRounded_second on (by omega) (by omega)
    by_cases third : c.val < 192
    · exact gainRounded_of gainsRounded_third on (by omega) (by omega)
    · exact gainRounded_of gainsRounded_fourth on (by omega) (by omega)
  unfold gainRounded at rounded
  simp only [Bool.and_eq_true, decide_eq_true_eq, and_assoc] at rounded
  exact rounded

/-! ### The targets of group-indexed ramps (R20) -/

section
variable (g : GroupRamp) (len : Nat)

theorem GroupRamp.retarget_none_target : (g.retarget none len).ramp.target = 0 := by
  rw [GroupRamp.retarget_none]
  exact Ramp.retarget_target ..

/-- The target of a group-indexed ramp that a group is wanted of: its value once the index is the group's, and until then
0, with the group pending. -/
theorem GroupRamp.retarget_some_target (h : Group) (v : Int) :
    ((g.retarget (some (h, v)) len).index = h →
        (g.retarget (some (h, v)) len).ramp.target = v ∧ (g.retarget (some (h, v)) len).pending = none) ∧
      ((g.retarget (some (h, v)) len).index ≠ h →
        (g.retarget (some (h, v)) len).ramp.target = 0 ∧ (g.retarget (some (h, v)) len).pending = some h) := by
  by_cases own : h = g.index
  · subst own
    rw [GroupRamp.retarget_same]
    exact ⟨fun _ => ⟨Ramp.retarget_target .., rfl⟩, fun other => absurd rfl other⟩
  · cases silent : (g.ramp.retarget 0 len).silent with
    | true =>
      rw [g.retarget_take len own v silent]
      exact ⟨fun _ => ⟨Ramp.retarget_target .., rfl⟩, fun other => absurd rfl other⟩
    | false =>
      rw [g.retarget_wait len own v silent]
      exact ⟨fun same => absurd same.symm own, fun _ => ⟨Ramp.retarget_target .., rfl⟩⟩

end

/-! ### The composition of a return (R21, R23) -/

/-- The talk level of the position that a line is in the care of and selected by (R21). -/
def talkLevel (t : ScreeningTable) (k : Line) (c : LineCtx) : Option GainCode :=
  (selectedBy t k c).map fun p => (t.positions[p]).level

theorem talkLevel_eq (t : ScreeningTable) (k : Line) (c : LineCtx) :
    talkLevel t k c =
      match c.position with
      | none => none
      | some p => if (t.positions[p]).selected = some k then some (t.positions[p]).level else none := by
  unfold talkLevel selectedBy
  cases c.position with
  | none => rfl
  | some p =>
    dsimp only [Option.bind_some]
    split <;> rfl

theorem composition_eq (t : ScreeningTable) (k : Line) (c : LineCtx) :
    composition t k c =
      match c.heard with
      | .vacant | .parked | .lost => { air := none, group := none, hold := none, screener := none }
      | .screen =>
        { air := none, group := none
          hold := some (if talkLevel t k c = none then c.plan.levels.hold else c.plan.levels.bed)
          screener := talkLevel t k c }
      | .hold => { air := none, group := none, hold := some c.plan.levels.hold, screener := none }
      | .shadow | .air => { air := some c.plan.levels.ret, group := none, hold := none, screener := none }
      | .confer =>
        { air := some c.plan.levels.conferAir, hold := none, screener := none
          group := match c.plan.role with
            | .confer g => some (g, c.plan.levels.ret)
            | .off | .auto | .screen _ | .hold | .air => none } := by
  unfold composition
  cases c.heard with
  | screen =>
    dsimp only
    unfold talkLevel
    cases selectedBy t k c <;> rfl
  | confer =>
    dsimp only
    cases c.plan.role <;> rfl
  | vacant | parked | lost | hold | shadow | air => rfl

/-- The connected state of a line, by its role (R34). -/
theorem connectedState_position (c : LineCtx) :
    connectedState c.plan.role c.shadowCount c.autoScreener =
      match c.plan.role with
      | .off => .parked
      | .air => .air
      | .confer _ => .confer
      | .hold => if c.shadowCount = 0 then .hold else .shadow
      | .screen _ => if c.shadowCount = 0 then .screen else .shadow
      | .auto => if c.shadowCount ≠ 0 then .shadow else if c.position = none then .hold else .screen := by
  rw [connectedState_table]
  unfold LineCtx.position
  cases c.plan.role <;> rfl

end Sys2Proof.Machine

open Sys2Proof Sys2Proof.Machine

/-- Settles O30: the table of multipliers keeps the gain law, and every target is the one recomputed on the lines, the codes
and the cue after the tick. -/
theorem blockTickTargets : Obligations.BlockTickTargets := by
  unfold Obligations.BlockTickTargets
  refine ⟨⟨by decide, fun c on => ?_⟩, fun s t pins follows first run => ?_⟩
  · obtain ⟨some, low, high⟩ := gain_law c on
    exact ⟨rfl, some, low, high⟩
  · obtain rfl : s.blockTick pins follows first = t :=
      Host.Outcome.next.inj ((exec_blockTick s pins follows first).symm.trans run)
    refine ⟨fun i => ?_, fun l => ?_, fun k => ?_⟩
    · rw [State.blockTick_source]
      exact Ramp.retarget_target ..
    · obtain ⟨voice, air, group⟩ := s.blockTick_contrib pins follows first l
      dsimp only
      refine ⟨voice, ?_, fun other => ?_, fun g confer role => ?_⟩
      · rw [air]
        exact Ramp.retarget_target ..
      · rw [group, groupMemberWant_other other]
        exact GroupRamp.retarget_none_target ..
      · rw [group, groupMemberWant_confer confer role]
        exact GroupRamp.retarget_some_target ..
    · obtain ⟨peak, own⟩ := s.blockTick_mixReturn pins follows first k
      obtain ⟨cueIn, cueOut, held⟩ := s.linePart_returnKept k
      rw [held] at own
      generalize s.blockTick pins follows first = t at own ⊢
      intro c v position connected level p d r target
      have levelIs : level = talkLevel t.scrn.table k c := (talkLevel_eq t.scrn.table k c).symm
      have connectedIs : connected = connectedState c.plan.role c.shadowCount c.autoScreener :=
        (connectedState_position c).symm
      have terms : p = composition t.scrn.table k c := by
        rw [composition_eq]
        unfold LineCtx.heard
        rw [← levelIs, ← connectedIs] <;> rfl
      have targetIs : target = termTarget (t.cue.returns[k]).duck d := by
        funext code
        unfold termTarget levelTarget ducked
        cases code with
        | none => rfl
        | some level => cases h : (t.cue.returns[k]).duck <;> simp only [target, h]
      have tick : r = _ := own
      rw [terms, targetIs, tick]
      unfold ReturnCtx.tick
      refine ⟨Ramp.retarget_target .., Ramp.retarget_target .., Ramp.retarget_target .., fun none => ?_,
        fun g code wanted => ?_, rfl, ?_⟩
      · unfold groupTermWant
        dsimp only
        rw [none]
        exact GroupRamp.retarget_none_target ..
      · unfold groupTermWant
        dsimp only
        rw [wanted]
        exact GroupRamp.retarget_some_target ..
      · rfl

end

