-- ==== Sys2Proof/Proofs/TickRamps.lean ====
section
/-! PROOFS. The ramps of MIX at a block tick, and the cue crossfade of a return (R16 to R20, R64 to R67). -/

namespace Sys2Proof.Machine

/-! ### A ramp retargeted (R18) -/

/-- A recomputed target, as a ramp takes it: it goes on, stops where it stands, or starts afresh. -/
def Ramp.moves (x x' : Ramp) (len : Nat) : Prop :=
  (x'.target = x.target → x' = x) ∧
    (x'.target ≠ x.target → x'.target = x.cur → x'.cur = x.cur ∧ x'.start = x.cur ∧ x'.len ≤ x'.pos) ∧
    (x'.target ≠ x.target → x'.target ≠ x.cur →
      x' = { cur := x.cur, start := x.cur, target := x'.target, len := len, pos := 0 })

theorem Ramp.retarget_moves (x : Ramp) (t : Int) (len : Nat) : x.moves (x.retarget t len) len := by
  unfold Ramp.moves
  rw [Ramp.retarget_target]
  obtain ⟨same, kept⟩ | ⟨new, own, stopped⟩ | ⟨new, apart, begun⟩ := x.retarget_cases t len
  · exact ⟨fun _ => kept, fun other => absurd same other, fun other => absurd same other⟩
  · rw [stopped]
    exact ⟨fun same => absurd same new, fun _ _ => ⟨own, own, le_refl _⟩, fun _ apart => absurd own apart⟩
  · rw [begun]
    exact ⟨fun same => absurd same new, fun _ own => absurd own apart, fun _ _ => rfl⟩

/-- A ramp started from rest at 0. -/
def Ramp.risesFromZero (x' : Ramp) (len : Nat) : Prop :=
  x'.cur = 0 ∧ (x'.target = 0 → x'.len ≤ x'.pos) ∧
    (x'.target ≠ 0 → x' = { cur := 0, start := 0, target := x'.target, len := len, pos := 0 })

theorem Ramp.retarget_risesFromZero {x : Ramp} (zero : x.cur = 0) (target : x.target = 0) (rest : x.len ≤ x.pos) (t : Int)
    (len : Nat) : (x.retarget t len).risesFromZero len := by
  unfold Ramp.risesFromZero
  rw [Ramp.retarget_target, Ramp.retarget_cur]
  refine ⟨zero, fun none => ?_, fun some => ?_⟩
  · have kept : x.retarget t len = x := if_pos (none.trans target.symm)
    rw [kept]
    exact rest
  · obtain ⟨-, -, begun⟩ := x.retarget_moves t len
    rw [Ramp.retarget_target, target, zero] at begun
    exact begun some some

/-- A group-indexed ramp at a tick, with the group it left where it took its pending one ahead of it (R20). -/
def GroupRamp.moves (g g' : GroupRamp) (taken : Option Group) (len : Nat) : Prop :=
  (taken = none → g'.index = g.index → g.ramp.moves g'.ramp len) ∧
    (taken = none → g'.index ≠ g.index → g.ramp.cur = 0) ∧
    (taken ≠ none ∨ g'.index ≠ g.index → g'.ramp.risesFromZero len)

/-- A group-indexed ramp retargeted: on the index it has, or on a new one, from rest at 0. -/
theorem GroupRamp.retarget_ramp (g : GroupRamp) (want : Option (Group × Int)) (len : Nat) :
    (∃ t, (g.retarget want len).index = g.index ∧ (g.retarget want len).ramp = g.ramp.retarget t len) ∨
      (∃ t, (g.retarget want len).index ≠ g.index ∧ g.ramp.cur = 0 ∧ (g.ramp.retarget 0 len).silent = true ∧
        (g.retarget want len).ramp = (g.ramp.retarget 0 len).retarget t len) := by
  cases want with
  | none => exact .inl ⟨0, rfl, rfl⟩
  | some wanted =>
    obtain ⟨h, v⟩ := wanted
    by_cases own : h = g.index
    · subst own
      rw [GroupRamp.retarget_same]
      exact .inl ⟨v, rfl, rfl⟩
    · cases silent : (g.ramp.retarget 0 len).silent with
      | true =>
        rw [g.retarget_take len own v silent]
        refine .inr ⟨v, own, ?_, rfl, rfl⟩
        rw [← g.ramp.retarget_cur 0 len]
        exact ((Ramp.silent_iff _).mp silent).2
      | false =>
        rw [g.retarget_wait len own v silent]
        exact .inl ⟨0, rfl, rfl⟩

theorem GroupRamp.rewind_moves (g : GroupRamp) (taken : Option Group) (want : Option (Group × Int)) (len : Nat) :
    g.moves ((g.rewind taken).retarget want len) taken len := by
  have zeroed (x : GroupRamp) (t : Int) (silent : (x.ramp.retarget 0 len).silent = true) :
      ((x.ramp.retarget 0 len).retarget t len).risesFromZero len := by
    obtain ⟨rest, zero⟩ := (Ramp.silent_iff _).mp silent
    exact Ramp.retarget_risesFromZero zero (Ramp.retarget_target ..) rest t len
  cases taken with
  | none =>
    show g.moves (g.retarget want len) none len
    obtain ⟨t, same, ramp⟩ | ⟨t, other, zero, silent, ramp⟩ := g.retarget_ramp want len
    · refine ⟨fun _ _ => ?_, fun _ other => absurd same other, fun change => ?_⟩
      · rw [ramp]
        exact Ramp.retarget_moves ..
      · exact absurd same (change.resolve_left fun none => none rfl)
    · refine ⟨fun _ same => absurd same other, fun _ _ => zero, fun _ => ?_⟩
      rw [ramp]
      exact zeroed g t silent
  | some o =>
    refine ⟨nofun, nofun, fun _ => ?_⟩
    obtain ⟨t, -, ramp⟩ | ⟨t, -, -, silent, ramp⟩ := (g.rewind (some o)).retarget_ramp want len
    · rw [ramp]
      exact Ramp.retarget_risesFromZero rfl rfl (le_refl _) t len
    · rw [ramp]
      exact zeroed _ t silent

/-! ### The cue crossfade (R10, R16, R64 to R67) -/

/-- The ramp of a new winner: from 0 toward its code. -/
theorem cueInTick_new {r : Ramp} {q : CueReturn} (new : q.isNew = true) (code : GainCode) (len : Nat) :
    (cueInTick r q (some code) len).cur = 0 ∧ (cueInTick r q (some code) len).target = mult code ∧
      (mult code ≠ 0 → cueInTick r q (some code) len =
        { cur := 0, start := 0, target := mult code, len := len, pos := 0 }) := by
  have own : cueInTick r q (some code) len = (r.stopAt 0).retarget (mult code) len := if_pos new
  obtain ⟨zero, -, begun⟩ := Ramp.retarget_risesFromZero (x := r.stopAt 0) rfl rfl (le_refl _) (mult code) len
  rw [Ramp.retarget_target] at begun
  rw [own]
  exact ⟨zero, Ramp.retarget_target .., begun⟩

theorem cueInTick_stays {r : Ramp} {q : CueReturn} (old : q.isNew = false) (code : GainCode) (len : Nat) :
    cueInTick r q (some code) len = r.retarget (mult code) len := if_neg (Bool.eq_false_iff.mp old)

theorem cueOutTick_new {out cur : Ramp} {q : CueReturn} (new : q.outNew = true) (len : Nat) :
    cueOutTick out cur q len = cur.begin 0 len := if_pos new

theorem cueOutTick_none {out cur : Ramp} {q : CueReturn} (old : q.outNew = false) (none : q.outgoing = none) (len : Nat) :
    cueOutTick out cur q len = out.stopAt 0 := by
  unfold cueOutTick
  rw [old, none]
  rfl

theorem cueOutTick_kept {out cur : Ramp} {q : CueReturn} (old : q.outNew = false) (some : q.outgoing.isSome = true)
    (len : Nat) : cueOutTick out cur q len = out := by
  unfold cueOutTick
  rw [old, ← Option.not_isSome, some]
  rfl

section
variable {q : CueReturn} {c : LineCtx} {named : Option Route} {routes : Vector RouteCtx 32} {replaced : Vector Bool 32}
  {faded : Bool} (live : c.state ≠ .vacant)
include live

theorem CueReturn.tick_talker :
    (q.tick c named routes replaced faded).talker = named.map fun r => routes[r].entry.talker := by
  unfold CueReturn.tick
  rw [if_neg live]
  dsimp only
  split
  next => rfl
  next => split <;> rfl

/-- A winner displaced, or whose route is replaced, becomes the outgoing route (R65, R66). -/
theorem CueReturn.tick_displaced {w : Route} (held : q.winner = some w) (ends : named ≠ some w ∨ replaced[w] = true) :
    (q.tick c named routes replaced faded).outgoing = some w ∧
      (q.tick c named routes replaced faded).outTalker = q.talker ∧
      (q.tick c named routes replaced faded).outNew = true ∧
      (q.tick c named routes replaced faded).isNew = named.isSome := by
  have other : sameWinner q named replaced = false := by
    unfold sameWinner
    rw [held]
    obtain other | again := ends
    · rw [decide_eq_false other, Bool.false_and]
    · show (_ && !replaced[w]) = false
      rw [again, Bool.not_true, Bool.and_false]
  unfold CueReturn.tick
  rw [if_neg live, other, if_neg Bool.false_ne_true, held]
  exact ⟨rfl, rfl, rfl, rfl⟩

/-- Without a winner displaced, an outgoing route goes on until its fade has ended (R67). -/
theorem CueReturn.tick_kept (stays : ∀ w, q.winner = some w → named = some w ∧ replaced[w] = false) :
    (q.tick c named routes replaced faded).outNew = false ∧
      ((q.tick c named routes replaced faded).outgoing, (q.tick c named routes replaced faded).outTalker) =
        (if faded then (none, none) else (q.outgoing, q.outTalker)) ∧
      (q.tick c named routes replaced faded).isNew = (q.winner.isNone && named.isSome) := by
  have fade : ((q.fadeEnd faded).outgoing, (q.fadeEnd faded).outTalker) =
      (if faded then (none, none) else (q.outgoing, q.outTalker)) := by
    unfold CueReturn.fadeEnd
    cases faded <;> rfl
  rw [← fade]
  cases held : q.winner with
  | some w =>
    obtain ⟨own, kept⟩ := stays w held
    have same : sameWinner q named replaced = true := by
      unfold sameWinner
      rw [held, own, decide_eq_true rfl]
      show (true && !replaced[w]) = true
      rw [kept]
      rfl
    unfold CueReturn.tick
    rw [if_neg live, if_pos same]
    exact ⟨rfl, rfl, rfl⟩
  | none =>
    unfold CueReturn.tick
    rw [if_neg live]
    dsimp only
    split
    next same =>
      unfold sameWinner at same
      rw [Bool.and_eq_true, decide_eq_true_eq, held] at same
      rw [same.1]
      exact ⟨rfl, rfl, rfl⟩
    next =>
      rw [held]
      exact ⟨rfl, rfl, rfl⟩

end

/-- The cue of a return before its arbitration at a tick, with what arbitration reads of the tick. -/
theorem State.blockTick_cueReturn (s : State) (pins : BitVec 16) (follows first : Bool) (k : Line)
    (live : ((s.blockTick pins follows first).line.ctx[k]).state ≠ .vacant) :
    let t := s.blockTick pins follows first
    s.linePart.mix.returns[k] = s.mix.returns[k] ∧
      ∃ named, t.cue.returns[k] =
        (s.cue.returns[k]).tick t.line.ctx[k] named t.cue.routes s.applied.inst.replaced
          ((s.cue.returns[k]).outgoing.isSome && (s.mix.returns[k]).cueOut.silent) := by
  obtain ⟨pending, line⟩ := s.blockTick_line pins follows first k
  have stays : s.linePart.mix.returns[k] = s.mix.returns[k] ∧ s.linePart.cue.returns[k] = s.cue.returns[k] := by
    refine (s.linePart_return k).resolve_right fun entered => live ?_
    rw [line]
    exact entered.1
  obtain ⟨mix, cue⟩ := stays
  have heldCue : (s.beforeCue pins).cue.returns = s.linePart.cue.returns := by
    rw [State.beforeCue_eq, ← s.afterLines_cue]
    simp [State.keyPhase]
  have heldMix : (s.beforeCue pins).mix = s.linePart.mix := by
    rw [State.beforeCue_eq, ← s.afterLines_mix]
    simp
  have marks : (s.beforeCue pins).inst.replaced = s.applied.inst.replaced := by
    obtain ⟨-, -, -, -, -, replaced, -⟩ := s.linePart_applied
    rw [State.beforeCue_eq, ← replaced, ← s.afterLines_inst]
    simp
  have whole := s.blockTick_return pins follows first k
  unfold State.fadeEnded at whole
  dsimp only at whole
  rw [heldCue, heldMix, marks, mix, cue] at whole
  exact ⟨mix, _, whole⟩

end Sys2Proof.Machine

open Sys2Proof Sys2Proof.Machine

/-- Settles O31: every ramp is retargeted from where it stands, and the cue of a return crossfades as its winner changes. -/
theorem cueCrossfade : Obligations.CueCrossfade := by
  unfold Obligations.CueCrossfade
  intro s a t pins follows first run apply
  obtain rfl : s.blockTick pins follows first = t :=
    Host.Outcome.next.inj ((exec_blockTick s pins follows first).symm.trans run)
  obtain rfl : s.applied = a := Host.Outcome.next.inj ((exec_apply s).symm.trans apply)
  intro cueLen mainLen moves groupMoves
  refine ⟨fun i => ?_, fun l => ⟨?_, ?_⟩, fun k => ?_, fun k live => ?_⟩
  · rw [State.blockTick_source]
    exact Ramp.retarget_moves ..
  · obtain ⟨-, air, -⟩ := s.blockTick_contrib pins follows first l
    rw [air]
    exact Ramp.retarget_moves ..
  · obtain ⟨-, -, group⟩ := s.blockTick_contrib pins follows first l
    rw [group]
    exact GroupRamp.rewind_moves ..
  · obtain ⟨peak, own⟩ := s.blockTick_mixReturn pins follows first k
    obtain ⟨cueIn, cueOut, held⟩ := s.linePart_returnKept k
    rw [held] at own
    intro m m' len
    have length : len = programLength (s.blockTick pins follows first).mix (s.blockTick pins follows first).line.ctx[k]
        m.duck ((s.blockTick pins follows first).cue.returns[k]).duck := by
      have duck : m'.duck = ((s.blockTick pins follows first).cue.returns[k]).duck := by
        show ((s.blockTick pins follows first).mix.returns[k]).duck = _
        rw [own]
        rfl
      unfold programLength
      refine if_congr ?_ rfl rfl
      rw [Bool.and_eq_true, decide_eq_true_eq, decide_eq_true_eq, duck, ne_comm]
    have tick : m' = _ := own
    rw [length, tick]
    exact ⟨Ramp.retarget_moves .., Ramp.retarget_moves .., Ramp.retarget_moves .., GroupRamp.rewind_moves ..⟩
  · obtain ⟨peak, own⟩ := s.blockTick_mixReturn pins follows first k
    obtain ⟨mix, named, cue⟩ := s.blockTick_cueReturn pins follows first k live
    rw [mix] at own
    intro q q' m m' code replaced ended risen goesOn
    have cueIn : m'.cueIn = cueInTick m.cueIn q'
        (q'.winner.map fun w => ((s.blockTick pins follows first).cue.routes[w]).entry.cueCode) cueLen :=
      congrArg ReturnCtx.cueIn own
    have cueOut : m'.cueOut = cueOutTick m.cueOut m.cueIn q' cueLen := congrArg ReturnCtx.cueOut own
    have winner : q'.winner = named := (congrArg CueReturn.winner cue).trans (CueReturn.tick_winner _ _ _ _ _ _ live)
    have talker := (congrArg CueReturn.talker cue).trans (CueReturn.tick_talker live)
    have faded : (q.outgoing.isSome && m.cueOut.silent) = true ↔ ended := by
      rw [Bool.and_eq_true, Ramp.silent_iff, and_comm (a := m.cueOut.len ≤ m.cueOut.pos)]
    have rises (new : q'.isNew = named.isSome) : risen := fun n won => by
      rw [cueIn, won]
      exact cueInTick_new (new.trans (by rw [← winner, won]; rfl)) _ cueLen
    have continues (old : q'.outNew = false) (pair : (q'.outgoing, q'.outTalker) =
        if (q.outgoing.isSome && m.cueOut.silent) = true then (none, none) else (q.outgoing, q.outTalker)) : goesOn := by
      refine ⟨fun silent => ?_, fun going => ?_⟩
      · rw [if_pos (faded.mpr silent)] at pair
        obtain ⟨none, noTalker⟩ := Prod.mk.inj pair
        rw [cueOut, cueOutTick_none old none]
        exact ⟨none, noTalker, rfl, rfl⟩
      · rw [if_neg (mt faded.mp going)] at pair
        obtain ⟨same, sameTalker⟩ := Prod.mk.inj pair
        refine ⟨same, sameTalker, fun some => ?_⟩
        rw [cueOut, cueOutTick_kept old (by rw [same]; exact some)]
    refine ⟨fun w won => ?_, fun none => ?_, fun w held ends => ?_, fun none => ?_, fun w held won stands => ?_⟩
    · show q'.talker = _
      rw [talker, ← winner, won]
      rfl
    · rw [cueIn, none]
      exact ⟨rfl, rfl⟩
    · have ends : named ≠ some w ∨ s.applied.inst.replaced[w] = true := by
        rw [← winner]
        refine ends.imp_right ?_
        rintro ⟨x, won, again⟩
        obtain rfl := Option.some.inj (held.symm.trans won)
        exact again
      obtain ⟨outgoing, outTalker, outNew, isNew⟩ := CueReturn.tick_displaced (q := q)
        (faded := q.outgoing.isSome && m.cueOut.silent) (routes := (s.blockTick pins follows first).cue.routes) live held ends
      rw [← cue] at outgoing outTalker outNew isNew
      refine ⟨outgoing, outTalker, ?_, rises isNew⟩
      rw [cueOut, cueOutTick_new outNew]
      rfl
    · obtain ⟨outNew, pair, isNew⟩ := CueReturn.tick_kept (q := q) (named := named)
        (faded := q.outgoing.isSome && m.cueOut.silent) (routes := (s.blockTick pins follows first).cue.routes)
        (replaced := s.applied.inst.replaced) live fun w held => nomatch none.symm.trans held
      rw [← cue] at outNew pair isNew
      rw [none] at isNew
      exact ⟨rises isNew, continues outNew pair⟩
    · have same : ∀ x, q.winner = some x → named = some x ∧ s.applied.inst.replaced[x] = false := fun x own => by
        obtain rfl := Option.some.inj (held.symm.trans own)
        exact ⟨winner.symm.trans won, Bool.eq_false_iff.mpr fun again => stands ⟨w, held, again⟩⟩
      obtain ⟨outNew, pair, isNew⟩ := CueReturn.tick_kept (q := q)
        (faded := q.outgoing.isSome && m.cueOut.silent) (routes := (s.blockTick pins follows first).cue.routes) live same
      rw [← cue] at outNew pair isNew
      rw [held] at isNew
      rw [cueIn, won]
      show (cueInTick m.cueIn q' (some _) cueLen).target = _ ∧ moves m.cueIn (cueInTick m.cueIn q' (some _) cueLen) cueLen ∧ _
      rw [cueInTick_stays isNew]
      exact ⟨Ramp.retarget_target .., Ramp.retarget_moves .., continues outNew pair⟩

end

