-- ==== Sys2Proof/Proofs/RoundWork.lean ====
section
/-! PROOFS. The work of a round, its records in their order, and what a round takes when it begins (R135 to R138, R142). -/

namespace Sys2Proof.Machine

/-! ### The work that the engine allows (R136, R142) -/

/-- The report-pending flags of the lines as they stand. -/
def State.lineFlags (s : State) (l : Line) : Bool := (s.line.ctx[l]).reportPending

section
variable {s : State} (on : s.link.engine ≠ .stopped)
include on

theorem State.work_verdicts : s.work.verdicts = s.report.verdicts := by
  unfold State.work
  cases engine : s.link.engine with
  | stopped => exact absurd engine on
  | draining => rfl
  | active => rfl

theorem State.work_full : s.work.full = s.report.fullRequest := by
  unfold State.work
  cases engine : s.link.engine with
  | stopped => exact absurd engine on
  | draining => rfl
  | active => rfl

theorem State.work_meters_iff : s.work.meters = true ↔ s.roundMeters := by
  unfold State.work State.roundMeters Work.meters
  cases engine : s.link.engine with
  | stopped => exact absurd engine on
  | draining => simp [Work.nothing]
  | active => simp

theorem State.mem_work_lanes (e : Fin 9) :
    e ∈ s.work.lanes ↔ s.link.engine = .active ∧ lanePending s e = true := by
  unfold State.work
  cases engine : s.link.engine with
  | stopped => exact absurd engine on
  | draining => simp [Work.nothing]
  | active => simp

theorem State.mem_work_lines (l : Line) :
    l ∈ s.work.lines ↔ s.link.engine = .active ∧ s.lineFlags l = true := by
  unfold State.work
  cases engine : s.link.engine with
  | stopped => exact absurd engine on
  | draining => simp [Work.nothing]
  | active => simp [State.lineFlags]

theorem State.mem_carriedLanes (e : Fin 9) : e ∈ s.work.carriedLanes ↔ s.roundLane (lanePending s e) := by
  unfold Work.carriedLanes State.roundLane
  rw [← State.work_meters_iff on, ← State.mem_work_lanes on]
  cases s.work.meters <;> simp

theorem State.mem_carriedLines (l : Line) : l ∈ s.work.carriedLines ↔ s.roundLine (s.lineFlags l) := by
  unfold Work.carriedLines State.roundLine
  rw [← State.mem_work_lines on, State.work_full on]
  cases s.report.fullRequest <;> simp

omit on in
/-- A round is begun exactly where there is work for it. -/
theorem State.work_present_iff :
    s.work.present = true ↔ s.link.engine ≠ .stopped ∧ s.roundWork (lanePending s) s.lineFlags := by
  constructor
  · intro present
    obtain ⟨on, -⟩ := State.work_present present
    refine ⟨on, ?_⟩
    simp only [Work.present, Bool.or_eq_true, Bool.not_eq_true', List.isEmpty_eq_false_iff] at present
    obtain (((verdicts | full) | periodic) | lanes) | lines := present
    · rw [State.work_verdicts on] at verdicts
      exact .inl verdicts
    · rw [State.work_full on] at full
      exact .inr (.inl (.inl full))
    · exact .inr (.inl ((State.work_meters_iff on).mp (by unfold Work.meters; rw [periodic, Bool.or_true])))
    · obtain ⟨e, flagged⟩ := List.exists_mem_of_ne_nil _ lanes
      exact .inr (.inr (.inl ⟨e, .inr ((State.mem_work_lanes on e).mp flagged)⟩))
    · obtain ⟨l, flagged⟩ := List.exists_mem_of_ne_nil _ lines
      exact .inr (.inr (.inr ⟨l, .inr ((State.mem_work_lines on l).mp flagged)⟩))
  · rintro ⟨on, work⟩
    have ofMeters (meters : s.roundMeters) : s.work.full = true ∨ s.work.periodic = true :=
      Bool.or_eq_true _ _ ▸ (State.work_meters_iff on).mpr meters
    simp only [Work.present, Bool.or_eq_true, Bool.not_eq_true', List.isEmpty_eq_false_iff, or_assoc]
    obtain verdicts | meters | ⟨e, lane⟩ | ⟨l, line⟩ := work
    · rw [← State.work_verdicts on] at verdicts
      exact .inl verdicts
    · exact .inr ((ofMeters meters).imp_right .inl)
    · obtain meters | flagged := lane
      · exact .inr ((ofMeters meters).imp_right .inl)
      · exact .inr (.inr (.inr (.inl (List.ne_nil_of_mem ((State.mem_work_lanes on e).mpr flagged)))))
    · obtain full | flagged := line
      · rw [← State.work_full on] at full
        exact .inr (.inl full)
      · exact .inr (.inr (.inr (.inr (List.ne_nil_of_mem ((State.mem_work_lines on l).mpr flagged)))))

end

/-! ### The records of a round (R136, R137) -/

section
variable (s : State) (w : Work)

theorem mem_roundRecords_iff (x : RoundRecord) :
    x ∈ roundRecords s w ↔
      (∃ v ∈ w.verdicts, x = plainRecord (.verdict v.sec) (verdictBody v)) ∨
      (w.meters = true ∧ x = plainRecord .part (partBody s s.report.blockCount)) ∨
      (∃ e ∈ w.carriedLanes, x = { kind := .lane e, body := laneBody s e, stateChange := lanePending s e }) ∨
      (∃ l ∈ w.carriedLines,
        x = plainRecord (.line l) (lineBody l s.line.ctx[l] (s.cue.returns[l]).winner s.report.blockCount)) ∨
      (w.meters = true ∧ ∃ i, x = plainRecord (.meter i) (meterBody s.mix i)) := by
  simp only [roundRecords, List.mem_append, List.mem_map, or_assoc]
  cases w.meters <;> simp [eq_comm]

theorem carriedLanes_sorted : s.work.carriedLanes.Pairwise (· < ·) := by
  unfold Work.carriedLanes
  split
  · exact List.pairwise_lt_finRange 9
  · unfold State.work
    cases s.link.engine with
    | stopped => exact .nil
    | draining => exact .nil
    | active => exact (List.pairwise_lt_finRange 9).filter _

theorem carriedLines_sorted : s.work.carriedLines.Pairwise (· < ·) := by
  unfold Work.carriedLines
  split
  · exact List.pairwise_lt_finRange 24
  · unfold State.work
    cases s.link.engine with
    | stopped => exact .nil
    | draining => exact .nil
    | active => exact (List.pairwise_lt_finRange 24).filter fun l => (s.line.ctx[l]).reportPending

/-- Records of one kind at ascending places. -/
theorem pairwise_place {α : Type} {f : α → RoundRecord} {lt : α → α → Prop} {xs : List α} (sorted : xs.Pairwise lt)
    (ascend : ∀ a b, lt a b → (f a).kind.place < (f b).kind.place) :
    (xs.map f).Pairwise fun x y => x.kind.place < y.kind.place :=
  List.pairwise_map.mpr (sorted.imp fun {a b} below => ascend a b below)

/-- Two runs of records, with every place of the first below every place of the second. -/
theorem pairwise_place_append {xs ys : List RoundRecord} (bound : Nat)
    (first : xs.Pairwise fun x y => x.kind.place < y.kind.place) (low : ∀ x ∈ xs, x.kind.place < bound)
    (second : ys.Pairwise fun x y => x.kind.place < y.kind.place) (high : ∀ y ∈ ys, bound ≤ y.kind.place) :
    (xs ++ ys).Pairwise fun x y => x.kind.place < y.kind.place :=
  List.pairwise_append.mpr ⟨first, second, fun x inXs y inYs => (low x inXs).trans_le (high y inYs)⟩

/-- Where each run of records stands (R137). -/
theorem place_bounds :
    (∀ x ∈ w.verdicts.map (fun v => plainRecord (.verdict v.sec) (verdictBody v)), x.kind.place < 32) ∧
    (∀ x ∈ w.carriedLanes.map (fun e =>
      ({ kind := .lane e, body := laneBody s e, stateChange := lanePending s e } : RoundRecord)),
      33 ≤ x.kind.place ∧ x.kind.place < 42) ∧
    (∀ x ∈ w.carriedLines.map (fun l => plainRecord (.line l)
      (lineBody l s.line.ctx[l] (s.cue.returns[l]).winner s.report.blockCount)),
      42 ≤ x.kind.place ∧ x.kind.place < 66) ∧
    ∀ x ∈ (List.finRange 48).map (fun i => plainRecord (.meter i) (meterBody s.mix i)), 66 ≤ x.kind.place := by
  refine ⟨fun x among => ?_, fun x among => ?_, fun x among => ?_, fun x among => ?_⟩
  · obtain ⟨v, -, rfl⟩ := List.mem_map.mp among
    exact v.sec.isLt
  · obtain ⟨e, -, rfl⟩ := List.mem_map.mp among
    exact ⟨Nat.le_add_right 33 _, Nat.add_lt_add_left e.isLt 33⟩
  · obtain ⟨l, -, rfl⟩ := List.mem_map.mp among
    exact ⟨Nat.le_add_right 42 _, Nat.add_lt_add_left l.isLt 42⟩
  · obtain ⟨i, -, rfl⟩ := List.mem_map.mp among
    exact Nat.le_add_right 66 _

/-- The records stand in the order of their writing (R137). -/
theorem roundRecords_sorted (ascend : s.work.verdicts.Pairwise fun a b => a.sec < b.sec) :
    (roundRecords s s.work).Pairwise fun x y => x.kind.place < y.kind.place := by
  obtain ⟨verdicts, lanes, lines, meters⟩ := place_bounds s s.work
  have part : ∀ x ∈ (if s.work.meters = true then [plainRecord .part (partBody s s.report.blockCount)] else []),
      x.kind.place = 32 := by
    intro x among
    split at among
    · obtain rfl := List.mem_singleton.mp among
      rfl
    · exact absurd among List.not_mem_nil
  unfold roundRecords
  dsimp only
  refine pairwise_place_append 66 (pairwise_place_append 42 (pairwise_place_append 33 (pairwise_place_append 32
    (pairwise_place ascend fun a b below => below) verdicts ?_ fun x among => (part x among).ge) ?_
    (pairwise_place (carriedLanes_sorted s) fun a b below => Nat.add_lt_add_left below 33) fun x among => (lanes x among).1)
    ?_ (pairwise_place (carriedLines_sorted s) fun a b below => Nat.add_lt_add_left below 42)
    fun x among => (lines x among).1) ?_ ?_ ?_
  · split
    · exact List.pairwise_singleton _ _
    · exact .nil
  · intro x among
    obtain verdict | one := List.mem_append.mp among
    · exact (verdicts x verdict).trans (by decide)
    · rw [part x one]
      decide
  · intro x among
    obtain before | lane := List.mem_append.mp among
    · obtain verdict | one := List.mem_append.mp before
      · exact (verdicts x verdict).trans (by decide)
      · rw [part x one]
        decide
    · exact (lanes x lane).2
  · intro x among
    obtain before | line := List.mem_append.mp among
    · obtain earlier | lane := List.mem_append.mp before
      · obtain verdict | one := List.mem_append.mp earlier
        · exact (verdicts x verdict).trans (by decide)
        · rw [part x one]
          decide
      · exact (lanes x lane).2.trans (by decide)
    · exact (lines x line).2
  · split
    · exact pairwise_place (List.pairwise_lt_finRange 48) fun a b below => Nat.add_lt_add_left below 66
    · exact .nil
  · intro x among
    split at among
    · exact meters x among
    · exact absurd among List.not_mem_nil

end

end Sys2Proof.Machine
end

