-- ==== Sys2Proof/Proofs/RoundBegins.lean ====
section
/-! PROOFS. What a round takes, clears and restarts when it begins (R13, R135, R136, R138). -/

namespace Sys2Proof.Machine

/-! ### What a round takes -/

theorem Mix.clipTotals_return (m : Mix) (l : Line) : m.clipTotals[Fin.ofNat 32 l.val] = (m.returns[l]).clip := by
  have place : (Fin.ofNat 32 l.val).val = l.val := Nat.mod_eq_of_lt (by omega)
  have own : Fin.ofNat 24 (Fin.ofNat 32 l.val).val = l := Fin.ext (by rw [place]; exact Nat.mod_eq_of_lt l.isLt)
  have whole : m.clipTotals[Fin.ofNat 32 l.val] =
      if (Fin.ofNat 32 l.val).val < 24 then (m.returns[Fin.ofNat 24 (Fin.ofNat 32 l.val).val]).clip
      else (m.outputs[Fin.ofNat 8 ((Fin.ofNat 32 l.val).val - 24)]).clip := ofFn_at ..
  rw [whole, if_pos (by rw [place]; exact l.isLt)]
  exact congrArg (fun k : Line => (m.returns[k]).clip) own

theorem Mix.clipTotals_output (m : Mix) (i : Slot) : m.clipTotals[Fin.ofNat 32 (24 + i.val)] = (m.outputs[i]).clip := by
  have place : (Fin.ofNat 32 (24 + i.val)).val = 24 + i.val := Nat.mod_eq_of_lt (by omega)
  have own : Fin.ofNat 8 ((Fin.ofNat 32 (24 + i.val)).val - 24) = i := Fin.ext (by
    rw [place, Nat.add_sub_cancel_left]; exact Nat.mod_eq_of_lt i.isLt)
  have whole : m.clipTotals[Fin.ofNat 32 (24 + i.val)] =
      if (Fin.ofNat 32 (24 + i.val)).val < 24 then (m.returns[Fin.ofNat 24 (Fin.ofNat 32 (24 + i.val)).val]).clip
      else (m.outputs[Fin.ofNat 8 ((Fin.ofNat 32 (24 + i.val)).val - 24)]).clip := ofFn_at ..
  rw [whole, if_neg (by rw [place]; omega)]
  exact congrArg (fun k : Fin 8 => (m.outputs[k]).clip) own

/-- What the work in a state is read of stands in another with the same reports and engine. -/
theorem State.roundMeters_congr {s seen : State} (report : seen.report = s.report) (link : seen.link = s.link) :
    seen.roundMeters ↔ s.roundMeters := by
  unfold State.roundMeters
  rw [report, link]

theorem State.roundLane_congr {s seen : State} (report : seen.report = s.report) (link : seen.link = s.link) (flag : Bool) :
    seen.roundLane flag ↔ s.roundLane flag := by
  unfold State.roundLane
  rw [State.roundMeters_congr report link, link]

theorem State.roundLine_congr {s seen : State} (report : seen.report = s.report) (link : seen.link = s.link) (flag : Bool) :
    seen.roundLine flag ↔ s.roundLine flag := by
  unfold State.roundLine
  rw [report, link]

theorem State.roundWork_congr {s seen : State} (report : seen.report = s.report) (link : seen.link = s.link)
    (lane : Fin 9 → Bool) (line : Line → Bool) : seen.roundWork lane line ↔ s.roundWork lane line := by
  unfold State.roundWork
  simp only [State.roundMeters_congr report link, State.roundLane_congr report link, State.roundLine_congr report link,
    report]

/-- The round begun with the work that REPORT holds, its snapshots taken of `seen`. -/
theorem newRound_takes {s seen t : State} (report : seen.report = s.report) (link : seen.link = s.link)
    (mixSeen : seen.mix = s.mix) (on : s.link.engine ≠ .stopped)
    (taken : t.report = s.report.takeWork seen.work (newRound seen seen.work))
    (mix : t.mix = if seen.work.meters = true then s.mix.restartPeaks else s.mix) :
    (newRound seen seen.work).takes s t (lanePending seen) seen.lineFlags := by
  have onSeen : seen.link.engine ≠ .stopped := by rwa [link]
  have verdicts : seen.work.verdicts = s.report.verdicts := by rw [State.work_verdicts onSeen, report]
  have full : seen.work.full = s.report.fullRequest := by rw [State.work_full onSeen, report]
  have meters : seen.work.meters = true ↔ s.roundMeters :=
    (State.work_meters_iff onSeen).trans (State.roundMeters_congr report link)
  have lanes (e : Fin 9) : e ∈ seen.work.carriedLanes ↔ s.roundLane (lanePending seen e) :=
    (State.mem_carriedLanes onSeen e).trans (State.roundLane_congr report link _)
  have lines (l : Line) : l ∈ seen.work.carriedLines ↔ s.roundLine (seen.lineFlags l) :=
    (State.mem_carriedLines onSeen l).trans (State.roundLine_congr report link _)
  have among (x : RoundRecord) := mem_roundRecords_iff seen seen.work x
  refine ⟨rfl, meters, by rw [← full]; exact Iff.rfl, fun x h sec kind => ?_, fun v held => ?_, ?_, fun e => ?_,
    fun x h e kind => ?_, fun l => ?_, fun i => ?_, fun x h i kind => ?_, fun ascend => ?_, fun l => ?_, fun i => ?_, ?_,
    ?_, ?_, fun none => ?_, fun some => ?_⟩
  · obtain ⟨v, held, rfl⟩ | ⟨-, rfl⟩ | ⟨e, -, rfl⟩ | ⟨l, -, rfl⟩ | ⟨-, i, rfl⟩ := (among x).mp h
    · rw [verdicts] at held
      exact ⟨v, held, RecordKind.verdict.inj kind, rfl⟩
    all_goals exact nomatch kind
  · rw [← verdicts] at held
    exact ⟨_, (among _).mpr (.inl ⟨v, held, rfl⟩), rfl, rfl⟩
  · constructor
    · rintro ⟨x, h, kind⟩
      obtain ⟨v, -, rfl⟩ | ⟨on, rfl⟩ | ⟨e, -, rfl⟩ | ⟨l, -, rfl⟩ | ⟨-, i, rfl⟩ := (among x).mp h
      · exact nomatch kind
      · exact meters.mp on
      all_goals exact nomatch kind
    · exact fun on => ⟨_, (among _).mpr (.inr (.inl ⟨meters.mpr on, rfl⟩)), rfl⟩
  · constructor
    · rintro ⟨x, h, kind⟩
      obtain ⟨v, -, rfl⟩ | ⟨-, rfl⟩ | ⟨f, carried, rfl⟩ | ⟨l, -, rfl⟩ | ⟨-, i, rfl⟩ := (among x).mp h
      · exact nomatch kind
      · exact nomatch kind
      · obtain rfl := RecordKind.lane.inj kind
        exact (lanes _).mp carried
      all_goals exact nomatch kind
    · exact fun carried => ⟨_, (among _).mpr (.inr (.inr (.inl ⟨e, (lanes e).mpr carried, rfl⟩))), rfl⟩
  · obtain ⟨v, -, rfl⟩ | ⟨-, rfl⟩ | ⟨f, -, rfl⟩ | ⟨l, -, rfl⟩ | ⟨-, i, rfl⟩ := (among x).mp h
    · exact nomatch kind
    · exact nomatch kind
    · obtain rfl := RecordKind.lane.inj kind
      rfl
    all_goals exact nomatch kind
  · constructor
    · rintro ⟨x, h, kind⟩
      obtain ⟨v, -, rfl⟩ | ⟨-, rfl⟩ | ⟨f, -, rfl⟩ | ⟨k, carried, rfl⟩ | ⟨-, i, rfl⟩ := (among x).mp h
      · exact nomatch kind
      · exact nomatch kind
      · exact nomatch kind
      · obtain rfl := RecordKind.line.inj kind
        exact (lines _).mp carried
      · exact nomatch kind
    · exact fun carried => ⟨_, (among _).mpr (.inr (.inr (.inr (.inl ⟨l, (lines l).mpr carried, rfl⟩)))), rfl⟩
  · constructor
    · rintro ⟨x, h, kind⟩
      obtain ⟨v, -, rfl⟩ | ⟨-, rfl⟩ | ⟨f, -, rfl⟩ | ⟨l, -, rfl⟩ | ⟨on, j, rfl⟩ := (among x).mp h
      · exact nomatch kind
      · exact nomatch kind
      · exact nomatch kind
      · exact nomatch kind
      · exact meters.mp on
    · exact fun on => ⟨_, (among _).mpr (.inr (.inr (.inr (.inr ⟨meters.mpr on, i, rfl⟩)))), rfl⟩
  · obtain ⟨v, -, rfl⟩ | ⟨-, rfl⟩ | ⟨f, -, rfl⟩ | ⟨l, -, rfl⟩ | ⟨-, j, rfl⟩ := (among x).mp h
    · exact nomatch kind
    · exact nomatch kind
    · exact nomatch kind
    · exact nomatch kind
    · obtain rfl := RecordKind.meter.inj kind
      rw [← mixSeen]
      rfl
  · exact roundRecords_sorted seen (by rw [verdicts]; exact ascend)
  · rw [← mixSeen]
    exact Mix.clipTotals_return ..
  · rw [← mixSeen]
    exact Mix.clipTotals_output ..
  · rw [taken]
    unfold Report.takeWork
    rw [full, Bool.and_not_self]
  · rw [taken, ← meters]
    show (s.report.due && !seen.work.meters) = true ↔ _
    rw [Bool.and_eq_true, Bool.not_eq_true', Bool.not_eq_true]
  · rw [taken, ← full]
    rfl
  · rw [mix, if_neg (mt meters.mp none)]
  · rw [mix, if_pos (meters.mpr some)]
    exact ⟨fun x => Mix.restartPeaks_source .., fun l => ⟨Mix.restartPeaks_contrib .., Mix.restartPeaks_return ..⟩,
      fun i => Mix.restartPeaks_output .., rfl⟩

/-! ### The flags it leaves (R136) -/

theorem inLaneEntry_val (i : InLane) : (inLaneEntry i).val = i.val := by
  show i.val % 9 = i.val
  omega

theorem outLaneEntry_val (o : OutLane) : (outLaneEntry o).val = 5 + o.val := by
  show (5 + o.val) % 9 = 5 + o.val
  omega

theorem lanePending_in {e : Fin 9} (low : e.val < 5) :
    ∃ i : InLane, inLaneEntry i = e ∧ ∀ t : State, lanePending t e = (t.lrx.lanes[i]).statusPending :=
  ⟨Fin.ofNat 5 e.val, Fin.ext (by rw [inLaneEntry_val, Fin.val_ofNat]; omega), fun t => if_pos low⟩

theorem lanePending_out {e : Fin 9} (high : ¬e.val < 5) :
    ∃ o : OutLane, outLaneEntry o = e ∧ ∀ t : State, lanePending t e = (t.ltx.lanes[o]).statusPending :=
  ⟨Fin.ofNat 4 (e.val - 5), Fin.ext (by rw [outLaneEntry_val, Fin.val_ofNat]; omega), fun t => if_neg high⟩

theorem LineBlock.flag_line (b : LineBlock) (lines : List Line) (on : Line → Bool) (l : Line) :
    (b.flag lines on).ctx[l] = { b.ctx[l] with reportPending := if l ∈ lines then on l else (b.ctx[l]).reportPending } := by
  have own : (b.flag lines on).ctx[l] =
      if lines.contains l = true then { b.ctx[l] with reportPending := on l } else b.ctx[l] := ofFn_at ..
  rw [own]
  by_cases among : l ∈ lines
  · rw [if_pos (List.contains_iff_mem.mpr among), if_pos among]
  · rw [if_neg (mt List.contains_iff_mem.mp among), if_neg among]

theorem Lrx.flag_entry (x : Lrx) (entries : List (Fin 9)) (on : Fin 9 → Bool) (i : InLane) :
    (x.flag entries on).lanes[i] =
      { x.lanes[i] with
        statusPending := if inLaneEntry i ∈ entries then on (inLaneEntry i) else (x.lanes[i]).statusPending } := by
  have own : (x.flag entries on).lanes[i] =
      if entries.contains (inLaneEntry i) = true then { x.lanes[i] with statusPending := on (inLaneEntry i) }
      else x.lanes[i] := ofFn_at ..
  rw [own]
  by_cases among : inLaneEntry i ∈ entries
  · rw [if_pos (List.contains_iff_mem.mpr among), if_pos among]
  · rw [if_neg (mt List.contains_iff_mem.mp among), if_neg among]

theorem Ltx.flag_entry (x : Ltx) (entries : List (Fin 9)) (on : Fin 9 → Bool) (o : OutLane) :
    (x.flag entries on).lanes[o] =
      { x.lanes[o] with
        statusPending := if outLaneEntry o ∈ entries then on (outLaneEntry o) else (x.lanes[o]).statusPending } := by
  have own : (x.flag entries on).lanes[o] =
      if entries.contains (outLaneEntry o) = true then { x.lanes[o] with statusPending := on (outLaneEntry o) }
      else x.lanes[o] := ofFn_at ..
  rw [own]
  by_cases among : outLaneEntry o ∈ entries
  · rw [if_pos (List.contains_iff_mem.mpr among), if_pos among]
  · rw [if_neg (mt List.contains_iff_mem.mp among), if_neg among]

/-- A round that clears the flags of what it carries, but for those that later events have set again. -/
theorem State.flaggedAfter_of {s seen t : State} (report : seen.report = s.report) (link : seen.link = s.link)
    (on : s.link.engine ≠ .stopped) {left : ReportFlags}
    (line : ∀ l : Line, t.line.ctx[l] = (s.line.flag seen.work.carriedLines left.lines).ctx[l])
    (lrx : ∀ i : InLane, t.lrx.lanes[i] = (s.lrx.flag seen.work.carriedLanes left.lanes).lanes[i])
    (ltx : ∀ o : OutLane, t.ltx.lanes[o] = (s.ltx.flag seen.work.carriedLanes left.lanes).lanes[o]) :
    s.flaggedAfter t (lanePending seen) seen.lineFlags left.lanes left.lines := by
  have onSeen : seen.link.engine ≠ .stopped := by rwa [link]
  have lanes (e : Fin 9) : e ∈ seen.work.carriedLanes ↔ s.roundLane (lanePending seen e) :=
    (State.mem_carriedLanes onSeen e).trans (State.roundLane_congr report link _)
  have lines (l : Line) : l ∈ seen.work.carriedLines ↔ s.roundLine (seen.lineFlags l) :=
    (State.mem_carriedLines onSeen l).trans (State.roundLine_congr report link _)
  refine ⟨fun l => ?_, fun i => ?_, fun o => ?_, fun e => ?_⟩
  · rw [line, LineBlock.flag_line]
    exact ⟨rfl, fun carried => if_pos ((lines l).mpr carried), fun other => if_neg (mt (lines l).mp other)⟩
  · rw [lrx, Lrx.flag_entry]
  · rw [ltx, Ltx.flag_entry]
  · by_cases low : e.val < 5
    · obtain ⟨i, rfl, own⟩ := lanePending_in low
      rw [own t, own s, lrx, Lrx.flag_entry]
      exact ⟨fun carried => if_pos ((lanes _).mpr carried), fun other => if_neg (mt (lanes _).mp other)⟩
    · obtain ⟨o, rfl, own⟩ := lanePending_out low
      rw [own t, own s, ltx, Ltx.flag_entry]
      exact ⟨fun carried => if_pos ((lanes _).mpr carried), fun other => if_neg (mt (lanes _).mp other)⟩

/-! ### ROUND_BEGIN (R136) -/

section
variable {s : State} (idle : s.report.round = none) (just : s.inst = { Instant.none with roundOpen := true })
include idle just

theorem State.roundDue_iff :
    s.roundDue = true ↔ s.link.engine ≠ .stopped ∧ s.roundWork (lanePending s) s.lineFlags := by
  unfold State.roundDue State.mayRound Instant.justTicked
  rw [idle, ← State.work_present_iff, decide_eq_true just]
  simp

omit idle just in
theorem exec_roundBegin_begins (due : s.roundDue = true) :
    exec .roundBegin s = .next { s.startRound s ReportFlags.clear s.work with inst := Instant.none } := by
  have may : s.mayRound = true := (Bool.and_eq_true _ _ ▸ due : _ ∧ _).1
  have begun : s.roundTick = s.startRound s ReportFlags.clear s.work := if_pos may
  show Host.Outcome.next (if s.roundDue = true then s.roundAfter else s) = _
  rw [if_pos due]
  unfold State.roundAfter
  rw [begun]

end

end Sys2Proof.Machine
end

