-- ==== Sys2Proof/Proofs/TickFlags.lean ====
section
/-! PROOFS. The flags of a block tick: those of its own events are set, whatever was set before it, and those set before it
stay (R50, R51, R103). -/

namespace Sys2Proof.Machine

/-! ### Flags of lines and lanes -/

/-- Flags set here or there. -/
def ReportFlags.or (f g : ReportFlags) : ReportFlags :=
  { lines := fun l => f.lines l || g.lines l, lanes := fun e => f.lanes e || g.lanes e }

theorem ReportFlags.or_lines (f g : ReportFlags) (l : Line) : (f.or g).lines l = (f.lines l || g.lines l) := rfl

theorem ReportFlags.or_lanes (f g : ReportFlags) (e : Fin 9) : (f.or g).lanes e = (f.lanes e || g.lanes e) := rfl

theorem State.flags_lines (s : State) (l : Line) : s.flags.lines l = (s.line.ctx[l]).reportPending := rfl

theorem State.flags_lanes (s : State) (e : Fin 9) : s.flags.lanes e = lanePending s e := rfl

/-- A flag for every lane status record, from those of the input and of the output lanes (R130). -/
def byEntry (a : InLane → Bool) (b : OutLane → Bool) (e : Fin 9) : Bool :=
  if e.val < 5 then a (Fin.ofNat 5 e.val) else b (Fin.ofNat 4 (e.val - 5))

theorem byEntry_in (a : InLane → Bool) (b : OutLane → Bool) (i : InLane) : byEntry a b (inLaneEntry i) = a i := by
  have own : Fin.ofNat 5 (inLaneEntry i).val = i := Fin.ext (by rw [inLaneEntry_val, Fin.val_ofNat]; omega)
  unfold byEntry
  rw [if_pos (by rw [inLaneEntry_val]; exact i.isLt), own]

theorem byEntry_out (a : InLane → Bool) (b : OutLane → Bool) (o : OutLane) : byEntry a b (outLaneEntry o) = b o := by
  have own : Fin.ofNat 4 ((outLaneEntry o).val - 5) = o := Fin.ext (by rw [outLaneEntry_val, Fin.val_ofNat]; omega)
  unfold byEntry
  rw [if_neg (by rw [outLaneEntry_val]; omega), own]

theorem byEntry_or (a a' : InLane → Bool) (b b' : OutLane → Bool) (e : Fin 9) :
    byEntry (fun i => a i || a' i) (fun o => b o || b' o) e = (byEntry a b e || byEntry a' b' e) := by
  unfold byEntry
  split <;> rfl

theorem lanePending_byEntry (s : State) :
    lanePending s = byEntry (fun i => (s.lrx.lanes[i]).statusPending) fun o => (s.ltx.lanes[o]).statusPending := rfl

theorem lanePending_inLane (s : State) (i : InLane) : lanePending s (inLaneEntry i) = (s.lrx.lanes[i]).statusPending :=
  byEntry_in (fun i => (s.lrx.lanes[i]).statusPending) (fun o => (s.ltx.lanes[o]).statusPending) i

theorem lanePending_outLane (s : State) (o : OutLane) : lanePending s (outLaneEntry o) = (s.ltx.lanes[o]).statusPending :=
  byEntry_out (fun i => (s.lrx.lanes[i]).statusPending) (fun o => (s.ltx.lanes[o]).statusPending) o

/-- The part with these flags in place of its own. -/
def State.flagAs (s : State) (f : ReportFlags) : State :=
  { s with
    line := s.line.flag (List.finRange 24) f.lines
    lrx := s.lrx.flag (List.finRange 9) f.lanes
    ltx := s.ltx.flag (List.finRange 9) f.lanes }

theorem State.unflagged_flagAs (s : State) : s.unflagged = s.flagAs ReportFlags.clear := rfl

section
variable (s : State) (f : ReportFlags)

@[simp] theorem State.flagAs_mix : (s.flagAs f).mix = s.mix := by unfold State.flagAs; rfl
@[simp] theorem State.flagAs_scrn : (s.flagAs f).scrn = s.scrn := by unfold State.flagAs; rfl
@[simp] theorem State.flagAs_cue : (s.flagAs f).cue = s.cue := by unfold State.flagAs; rfl
@[simp] theorem State.flagAs_cmap : (s.flagAs f).cmap = s.cmap := by unfold State.flagAs; rfl
@[simp] theorem State.flagAs_ref : (s.flagAs f).ref = s.ref := by unfold State.flagAs; rfl
@[simp] theorem State.flagAs_intake : (s.flagAs f).intake = s.intake := by unfold State.flagAs; rfl
@[simp] theorem State.flagAs_report : (s.flagAs f).report = s.report := by unfold State.flagAs; rfl
@[simp] theorem State.flagAs_link : (s.flagAs f).link = s.link := by unfold State.flagAs; rfl
@[simp] theorem State.flagAs_hostMem : (s.flagAs f).hostMem = s.hostMem := by unfold State.flagAs; rfl
@[simp] theorem State.flagAs_inst : (s.flagAs f).inst = s.inst := by unfold State.flagAs; rfl
@[simp] theorem State.flagAs_pending : (s.flagAs f).pending = s.pending := by unfold State.flagAs; rfl

theorem State.flagAs_lineBlock : (s.flagAs f).line = { s.line with ctx := (s.flagAs f).line.ctx } := by
  unfold State.flagAs LineBlock.flag
  rfl

theorem State.flagAs_lrx : (s.flagAs f).lrx = { s.lrx with lanes := (s.flagAs f).lrx.lanes } := by
  unfold State.flagAs Lrx.flag
  rfl

theorem State.flagAs_ltx : (s.flagAs f).ltx = { s.ltx with lanes := (s.flagAs f).ltx.lanes } := by
  unfold State.flagAs Ltx.flag
  rfl

theorem State.flagAs_line (l : Line) :
    (s.flagAs f).line.ctx[l] = { s.line.ctx[l] with reportPending := f.lines l } := by
  have own : (s.flagAs f).line.ctx[l] = _ := s.line.flag_line (List.finRange 24) f.lines l
  rw [own, if_pos (List.mem_finRange l)]

theorem State.flagAs_inLane (i : InLane) :
    (s.flagAs f).lrx.lanes[i] = { s.lrx.lanes[i] with statusPending := f.lanes (inLaneEntry i) } := by
  have own : (s.flagAs f).lrx.lanes[i] = _ := s.lrx.flag_entry (List.finRange 9) f.lanes i
  rw [own, if_pos (List.mem_finRange _)]

theorem State.flagAs_outLane (o : OutLane) :
    (s.flagAs f).ltx.lanes[o] = { s.ltx.lanes[o] with statusPending := f.lanes (outLaneEntry o) } := by
  have own : (s.flagAs f).ltx.lanes[o] = _ := s.ltx.flag_entry (List.finRange 9) f.lanes o
  rw [own, if_pos (List.mem_finRange _)]

theorem State.flagAs_own : s.flagAs s.flags = s := by
  have line : s.line.flag (List.finRange 24) s.flags.lines = s.line := by
    have ctx : (s.flagAs s.flags).line.ctx = s.line.ctx := vector_ext_fin fun l => s.flagAs_line s.flags l
    rw [LineBlock.flag_eq]
    exact congrArg (fun x => { s.line with ctx := x }) ctx
  have lrx : s.lrx.flag (List.finRange 9) s.flags.lanes = s.lrx := by
    have lanes : (s.flagAs s.flags).lrx.lanes = s.lrx.lanes := vector_ext_fin fun i => by
      rw [s.flagAs_inLane, show s.flags.lanes (inLaneEntry i) = _ from lanePending_inLane s i]
    exact congrArg (fun x => { s.lrx with lanes := x }) lanes
  have ltx : s.ltx.flag (List.finRange 9) s.flags.lanes = s.ltx := by
    have lanes : (s.flagAs s.flags).ltx.lanes = s.ltx.lanes := vector_ext_fin fun o => by
      rw [s.flagAs_outLane, show s.flags.lanes (outLaneEntry o) = _ from lanePending_outLane s o]
    exact congrArg (fun x => { s.ltx with lanes := x }) lanes
  unfold State.flagAs
  rw [line, lrx, ltx]

theorem State.flagAs_lanePending (e : Fin 9) : lanePending (s.flagAs f) e = f.lanes e := by
  by_cases low : e.val < 5
  · obtain ⟨i, rfl, own⟩ := lanePending_in low
    rw [own, s.flagAs_inLane]
  · obtain ⟨o, rfl, own⟩ := lanePending_out low
    rw [own, s.flagAs_outLane]

/-- Two states that differ in their flags alone. -/
theorem State.flagAs_of {u v : State} (rest : u = { v with line := u.line, lrx := u.lrx, ltx := u.ltx })
    (line : u.line = { v.line with ctx := u.line.ctx }) (lrx : u.lrx = { v.lrx with lanes := u.lrx.lanes })
    (ltx : u.ltx = { v.ltx with lanes := u.ltx.lanes })
    (lines : ∀ l : Line, u.line.ctx[l] = { v.line.ctx[l] with reportPending := f.lines l })
    (inputs : ∀ i : InLane, u.lrx.lanes[i] = { v.lrx.lanes[i] with statusPending := f.lanes (inLaneEntry i) })
    (outputs : ∀ o : OutLane, u.ltx.lanes[o] = { v.ltx.lanes[o] with statusPending := f.lanes (outLaneEntry o) }) :
    u = v.flagAs f := by
  have ctx : u.line.ctx = (v.flagAs f).line.ctx := vector_ext_fin fun l => by rw [lines, v.flagAs_line]
  have ins : u.lrx.lanes = (v.flagAs f).lrx.lanes := vector_ext_fin fun i => by rw [inputs, v.flagAs_inLane]
  have outs : u.ltx.lanes = (v.flagAs f).ltx.lanes := vector_ext_fin fun o => by rw [outputs, v.flagAs_outLane]
  rw [rest, line, lrx, ltx, ctx, ins, outs]
  rfl

end

/-! ### The lanes (R87, R103) -/

/-- The tick of an input lane sets its flag. -/
def InLaneCtx.tickEvent (c : InLaneCtx) (laneLoss : Nat) (taken : Bool) : Bool :=
  (({ c with statusPending := false } : InLaneCtx).tick laneLoss taken).statusPending

theorem InLaneCtx.tick_flag (c : InLaneCtx) (pending : Bool) (laneLoss : Nat) (taken : Bool) :
    ({ c with statusPending := pending } : InLaneCtx).tick laneLoss taken =
      { c.tick laneLoss taken with statusPending := pending || c.tickEvent laneLoss taken } := by
  have missing (b : Bool) : ({ c with statusPending := b } : InLaneCtx).syncMissing = c.syncMissing := rfl
  unfold InLaneCtx.tickEvent
  cases taken with
  | true =>
    rw [InLaneCtx.tick_taken, InLaneCtx.tick_taken, InLaneCtx.tick_taken]
    unfold InLaneCtx.showLost InLaneCtx.isLost
    simp
  | false =>
    unfold InLaneCtx.tick
    simp only [missing, Bool.false_eq_true, if_false]
    cases c.syncMissing with
    | true =>
      simp [InLaneCtx.loseLock, InLaneCtx.enterSeeking, InLaneCtx.showLost, InLaneCtx.isLost, InLaneCtx.emptied]
    | false =>
      unfold InLaneCtx.seekTick InLaneCtx.showLost InLaneCtx.isLost
      by_cases seeking : c.state = .seeking
      · simp [seeking]
      · simp [seeking]

theorem InLaneCtx.applySetup_flag (c : InLaneCtx) (pending : Bool) (p : LaneSetup) :
    ({ c with statusPending := pending } : InLaneCtx).applySetup p =
      { c.applySetup p with
        statusPending := pending || (({ c with statusPending := false } : InLaneCtx).applySetup p).statusPending } := by
  unfold InLaneCtx.applySetup
  dsimp only
  cases setupRestarts c.setup p with
  | false => simp
  | true => cases p.enabled <;> simp [InLaneCtx.enterSeeking, InLaneCtx.enterOff, InLaneCtx.emptied]

theorem OutLaneCtx.applySetup_flag (c : OutLaneCtx) (pending : Bool) (p : LaneSetup) :
    ({ c with statusPending := pending } : OutLaneCtx).applySetup p =
      { c.applySetup p with
        statusPending := pending || (({ c with statusPending := false } : OutLaneCtx).applySetup p).statusPending } := by
  unfold OutLaneCtx.applySetup
  dsimp only
  cases setupRestarts c.setup p with
  | false => simp
  | true => cases p.enabled <;> cases c.setup.enabled <;> simp [OutLaneCtx.emptied]

end Sys2Proof.Machine
end

