-- ==== Sys2Proof/Proofs/TickEventFlags.lean ====
section
/-! PROOFS. The lines' part of a block tick reads no flag, and sets those of its own events over those that stand (R50,
R103). -/

namespace Sys2Proof.Machine

/-! ### The apply and the flags (R87) -/

section
variable (s : State) (f : ReportFlags)

theorem State.handOver_inLane (i : InLane) :
    s.handOver.lrx.lanes[i] =
      match s.intake.staging.lanes with
      | none => s.lrx.lanes[i]
      | some t => (s.lrx.lanes[i]).applySetup t.inputs[i] := by
  unfold State.handOver Lrx.applied
  dsimp only
  cases s.intake.staging.lanes with
  | none => rfl
  | some t => exact ofFn_at ..

theorem State.handOver_outLane (o : OutLane) :
    s.handOver.ltx.lanes[o] =
      match s.intake.staging.lanes with
      | none => s.ltx.lanes[o]
      | some t => (s.ltx.lanes[o]).applySetup t.outputs[o] := by
  unfold State.handOver Ltx.applied
  dsimp only
  cases s.intake.staging.lanes with
  | none => rfl
  | some t => exact ofFn_at ..

theorem restartedLanes_flag (x : Lrx) (entries : List (Fin 9)) (on : Fin 9 → Bool) (g : Staging) :
    restartedLanes (x.flag entries on) g = restartedLanes x g := by
  unfold restartedLanes
  cases g.lanes with
  | none => rfl
  | some t => exact congrArg Vector.ofFn (funext fun i => by rw [Lrx.flag_entry])

theorem State.flagAs_applyRefused : (s.flagAs f).applyRefused = s.applyRefused := by
  have held : (Vector.ofFn fun l => ((s.flagAs f).line.ctx[l]).plan.role) =
      Vector.ofFn fun l => (s.line.ctx[l]).plan.role :=
    congrArg Vector.ofFn (funext fun l => by rw [s.flagAs_line])
  unfold State.applyRefused State.capacityInput
  rw [held, s.flagAs_intake, s.flagAs_scrn]

theorem State.flagAs_admittedPlans : (s.flagAs f).admittedPlans = s.admittedPlans := by
  unfold State.admittedPlans
  rw [s.flagAs_applyRefused, s.flagAs_intake]

theorem State.flagAs_applyDue : (s.flagAs f).applyDue = s.applyDue := by
  unfold State.applyDue
  rw [s.flagAs_intake, s.flagAs_inst]

theorem State.handOver_lineBlock : s.handOver.line = s.line.applied s.intake.staging := by
  unfold State.handOver
  rfl

theorem State.handOver_lrx : s.handOver.lrx = s.lrx.applied s.intake.staging := by
  unfold State.handOver
  rfl

theorem State.handOver_ltx : s.handOver.ltx = s.ltx.applied s.intake.staging := by
  unfold State.handOver
  rfl

/-- The apply reads no flag, but in the blocks that hold them. -/
theorem State.handOver_flagAs_rest :
    (s.flagAs f).handOver = { s.handOver with
      line := (s.flagAs f).handOver.line, lrx := (s.flagAs f).handOver.lrx, ltx := (s.flagAs f).handOver.ltx } := by
  have restarted : restartedLanes (s.flagAs f).lrx s.intake.staging = restartedLanes s.lrx s.intake.staging :=
    restartedLanes_flag s.lrx (List.finRange 9) f.lanes s.intake.staging
  unfold State.handOver
  dsimp only
  rw [s.flagAs_applyRefused, s.flagAs_intake, restarted, s.flagAs_mix, s.flagAs_scrn, s.flagAs_cue, s.flagAs_cmap,
    s.flagAs_report, s.flagAs_inst, s.flagAs_ref, s.flagAs_link, s.flagAs_hostMem, s.flagAs_pending]

/-- The apply sets the flags of the lanes it restarts, whatever was set before it. -/
theorem State.handOver_flagAs : ∃ ev : ReportFlags, (∀ l, ev.lines l = false) ∧
    ∀ f, (s.flagAs f).handOver = s.handOver.flagAs (f.or ev) := by
  have lines (l : Line) : s.unflagged.handOver.flags.lines l = false := by
    rw [State.flags_lines, State.handOver_ctx, State.unflagged_flagAs, State.flagAs_line]
    rfl
  refine ⟨s.unflagged.handOver.flags, lines, fun f => ?_⟩
  have line : (s.flagAs f).handOver.line = { s.handOver.line with ctx := (s.flagAs f).handOver.line.ctx } := by
    rw [State.handOver_lineBlock, State.handOver_lineBlock, s.flagAs_intake, s.flagAs_lineBlock]
    unfold LineBlock.applied
    rfl
  have lrx : (s.flagAs f).handOver.lrx = { s.handOver.lrx with lanes := (s.flagAs f).handOver.lrx.lanes } := by
    rw [State.handOver_lrx, State.handOver_lrx, s.flagAs_intake, s.flagAs_lrx]
    unfold Lrx.applied
    rfl
  have ltx : (s.flagAs f).handOver.ltx = { s.handOver.ltx with lanes := (s.flagAs f).handOver.ltx.lanes } := by
    rw [State.handOver_ltx, State.handOver_ltx, s.flagAs_intake, s.flagAs_ltx]
    unfold Ltx.applied
    rfl
  refine State.flagAs_of _ (s.handOver_flagAs_rest f) line lrx ltx (fun l => ?_) (fun i => ?_) fun o => ?_
  · rw [State.handOver_ctx, State.handOver_ctx, s.flagAs_line, ReportFlags.or_lines, lines, Bool.or_false]
  · have event : s.unflagged.handOver.flags.lanes (inLaneEntry i) = (s.unflagged.handOver.lrx.lanes[i]).statusPending := by
      rw [State.flags_lanes, lanePending_inLane]
    rw [ReportFlags.or_lanes, event, State.handOver_inLane, State.handOver_inLane, State.handOver_inLane, s.unflagged_flagAs, s.flagAs_inLane,
      s.flagAs_inLane, s.flagAs_intake, s.flagAs_intake]
    cases s.intake.staging.lanes with
    | none => exact congrArg (fun b => { s.lrx.lanes[i] with statusPending := b }) (Bool.or_false _).symm
    | some t => exact InLaneCtx.applySetup_flag ..
  · have event : s.unflagged.handOver.flags.lanes (outLaneEntry o) = (s.unflagged.handOver.ltx.lanes[o]).statusPending := by
      rw [State.flags_lanes, lanePending_outLane]
    rw [ReportFlags.or_lanes, event, State.handOver_outLane, State.handOver_outLane, State.handOver_outLane, s.unflagged_flagAs,
      s.flagAs_outLane, s.flagAs_outLane, s.flagAs_intake, s.flagAs_intake]
    cases s.intake.staging.lanes with
    | none => exact congrArg (fun b => { s.ltx.lanes[o] with statusPending := b }) (Bool.or_false _).symm
    | some t => exact OutLaneCtx.applySetup_flag ..

end

/-! ### Lanes and lines (R50, R103) -/

section
variable (s : State) (plans : Vector (Option LinePlan) 24) (delta : Int)

theorem State.flagAs_laneAfter (f : ReportFlags) (i : InLane) :
    (s.flagAs f).laneAfter i =
      { s.laneAfter i with
        statusPending := f.lanes (inLaneEntry i) || (s.lrx.lanes[i]).tickEvent s.lrx.laneLoss s.inst.lanes[i] } := by
  unfold State.laneAfter
  rw [s.flagAs_inLane, s.flagAs_lrx, s.flagAs_inst]
  exact InLaneCtx.tick_flag ..

theorem lineDelivery_statusPending (m : Cmap) (after : InLaneCtx) (pending : Bool) (laneLoss : Nat) (l : Line) :
    lineDelivery m { after with statusPending := pending } laneLoss l = lineDelivery m after laneLoss l := rfl

theorem State.flagAs_lineEnv (f : ReportFlags) : (s.flagAs f).lineEnv delta = s.lineEnv delta := by
  unfold State.lineEnv
  rw [s.flagAs_lineBlock, s.flagAs_scrn]

theorem State.flagAs_lineInput (f : ReportFlags) (plan : Option LinePlan) (l : Line) :
    (s.flagAs f).lineInput plan l = s.lineInput plan l := by
  have delivery : (s.flagAs f).delivery l = s.delivery l := by
    unfold State.delivery
    rw [s.flagAs_laneAfter, s.flagAs_cmap, s.flagAs_lrx]
    exact lineDelivery_statusPending ..
  unfold State.lineInput
  rw [delivery, s.flagAs_inst]

theorem State.flagAs_lineInputs (f : ReportFlags) : (s.flagAs f).lineInputs plans = s.lineInputs plans :=
  congrArg Vector.ofFn (funext fun l => s.flagAs_lineInput f plans[l] l)

theorem takesArrival_reportPending (c : LineCtx) (pending : Bool) (i : LineInput) :
    takesArrival { c with reportPending := pending } i = takesArrival c i := rfl

theorem State.flagAs_arrivalTakers (f : ReportFlags) (input : Vector LineInput 24) :
    arrivalTakers (s.flagAs f).line.ctx input = arrivalTakers s.line.ctx input := by
  unfold arrivalTakers
  refine List.filter_congr fun l _ => ?_
  rw [s.flagAs_line, takesArrival_reportPending]

theorem State.linePhase_flagAs_line (l : Line) :
    ∃ e i n, ∀ f, ((s.flagAs f).linePhase plans delta).line.ctx[l] =
      lineTick e { s.line.ctx[l] with reportPending := f.lines l } i n := by
  refine ⟨s.lineEnv delta, (s.lineInputs plans)[l], s.scrn.arrivals + BitVec.ofNat 8
    ((arrivalTakers s.line.ctx (s.lineInputs plans)).countP fun j => decide (j < l)), fun f => ?_⟩
  rw [State.linePhase_lineBlock]
  dsimp only
  rw [linesTick_getElem, s.flagAs_line, s.flagAs_lineInputs, s.flagAs_arrivalTakers, s.flagAs_lineEnv, s.flagAs_scrn]

theorem State.linePhase_flagAs_inLane (i : InLane) :
    ∃ ev, ∀ f, ((s.flagAs f).linePhase plans delta).lrx.lanes[i] =
      { (s.linePhase plans delta).lrx.lanes[i] with statusPending := f.lanes (inLaneEntry i) || ev } := by
  refine ⟨(s.lrx.lanes[i]).tickEvent s.lrx.laneLoss s.inst.lanes[i], fun f => ?_⟩
  rw [State.linePhase_lane, State.linePhase_lane]
  exact s.flagAs_laneAfter f i

theorem State.linePhase_flagAs_outLane (f : ReportFlags) (o : OutLane) :
    ((s.flagAs f).linePhase plans delta).ltx.lanes[o] =
      { (s.linePhase plans delta).ltx.lanes[o] with statusPending := f.lanes (outLaneEntry o) } := by
  rw [State.linePhase_ltx, State.linePhase_ltx]
  exact s.flagAs_outLane f o

end

/-! ### The lines' part of a tick -/

section
variable (s : State)

theorem State.flagAs_applyTick (f : ReportFlags) :
    (s.flagAs f).applyTick =
      if s.intake.staging.carriesLines = true then
        ((s.flagAs f).handOver.linePhase s.admittedPlans
          ((s.handOver.line.dumpDepth : Int) - s.line.dumpDepth)).countRoles
      else (s.flagAs f).handOver.linePhase s.admittedPlans ((s.handOver.line.dumpDepth : Int) - s.line.dumpDepth) := by
  have depth : (s.flagAs f).line.dumpDepth = s.line.dumpDepth := by rw [s.flagAs_lineBlock]
  have depthAfter : (s.flagAs f).handOver.line.dumpDepth = s.handOver.line.dumpDepth := by
    rw [State.handOver_lineBlock, State.handOver_lineBlock, s.flagAs_intake, s.flagAs_lineBlock]
    unfold LineBlock.applied
    rfl
  unfold State.applyTick
  dsimp only
  rw [s.flagAs_admittedPlans, s.flagAs_intake, depth, depthAfter]

theorem State.flagAs_applyTick_parts (f : ReportFlags) :
    let u := (s.flagAs f).handOver.linePhase s.admittedPlans ((s.handOver.line.dumpDepth : Int) - s.line.dumpDepth)
    (s.flagAs f).applyTick.line = u.line ∧ (s.flagAs f).applyTick.lrx = u.lrx ∧ (s.flagAs f).applyTick.ltx = u.ltx := by
  intro u
  rw [s.flagAs_applyTick]
  split
  · exact ⟨State.countRoles_line u, State.countRoles_lrx u, State.countRoles_ltx u⟩
  · exact ⟨rfl, rfl, rfl⟩

theorem State.linePart_parts_due (due : s.applyDue = true) :
    let u := s.handOver.linePhase s.admittedPlans ((s.handOver.line.dumpDepth : Int) - s.line.dumpDepth)
    s.linePart.lrx = u.lrx ∧ s.linePart.ltx = u.ltx := by
  intro u
  rw [State.linePart_due due]
  unfold State.applyTick
  dsimp only
  split
  · exact ⟨State.countRoles_lrx u, State.countRoles_ltx u⟩
  · exact ⟨rfl, rfl⟩

/-- A line after the lines' part of a tick, whatever its flag was: its tick reads no flag. -/
theorem State.linePart_flagAs_line (l : Line) :
    ∃ e i n, ∀ f, (s.flagAs f).linePart.line.ctx[l] = lineTick e { s.line.ctx[l] with reportPending := f.lines l } i n := by
  cases due : s.applyDue with
  | true =>
    obtain ⟨ev, lines, handed⟩ := s.handOver_flagAs
    obtain ⟨e, i, n, phase⟩ := s.handOver.linePhase_flagAs_line s.admittedPlans
      ((s.handOver.line.dumpDepth : Int) - s.line.dumpDepth) l
    refine ⟨e, i, n, fun f => ?_⟩
    obtain ⟨line, -, -⟩ := s.flagAs_applyTick_parts f
    rw [State.linePart_due ((s.flagAs_applyDue f).trans due), line, handed f, phase (f.or ev), ReportFlags.or_lines, lines,
      Bool.or_false, s.handOver_ctx]
  | false =>
    obtain ⟨e, i, n, phase⟩ := s.linePhase_flagAs_line (Vector.replicate 24 none) 0 l
    refine ⟨e, i, n, fun f => ?_⟩
    rw [State.linePart_plain ((s.flagAs_applyDue f).trans due)]
    exact phase f

/-- An input lane after the lines' part of a tick, whatever its flag was. -/
theorem State.linePart_flagAs_inLane (i : InLane) :
    ∃ ev, ∀ f, (s.flagAs f).linePart.lrx.lanes[i] =
      { s.linePart.lrx.lanes[i] with statusPending := f.lanes (inLaneEntry i) || ev } := by
  cases due : s.applyDue with
  | true =>
    obtain ⟨ev, -, handed⟩ := s.handOver_flagAs
    obtain ⟨tick, phase⟩ := s.handOver.linePhase_flagAs_inLane s.admittedPlans
      ((s.handOver.line.dumpDepth : Int) - s.line.dumpDepth) i
    refine ⟨ev.lanes (inLaneEntry i) || tick, fun f => ?_⟩
    obtain ⟨-, lrx, -⟩ := s.flagAs_applyTick_parts f
    obtain ⟨before, -⟩ := s.linePart_parts_due due
    rw [State.linePart_due ((s.flagAs_applyDue f).trans due), lrx, before, handed f, phase (f.or ev), ReportFlags.or_lanes,
      Bool.or_assoc]
  | false =>
    obtain ⟨tick, phase⟩ := s.linePhase_flagAs_inLane (Vector.replicate 24 none) 0 i
    refine ⟨tick, fun f => ?_⟩
    rw [State.linePart_plain ((s.flagAs_applyDue f).trans due), State.linePart_plain due]
    exact phase f

theorem State.linePart_flagAs_outLane (o : OutLane) :
    ∃ ev, ∀ f, (s.flagAs f).linePart.ltx.lanes[o] =
      { s.linePart.ltx.lanes[o] with statusPending := f.lanes (outLaneEntry o) || ev } := by
  cases due : s.applyDue with
  | true =>
    obtain ⟨ev, -, handed⟩ := s.handOver_flagAs
    refine ⟨ev.lanes (outLaneEntry o), fun f => ?_⟩
    obtain ⟨-, -, ltx⟩ := s.flagAs_applyTick_parts f
    obtain ⟨-, before⟩ := s.linePart_parts_due due
    rw [State.linePart_due ((s.flagAs_applyDue f).trans due), ltx, before, handed f, State.linePhase_flagAs_outLane,
      ReportFlags.or_lanes]
  | false =>
    refine ⟨false, fun f => ?_⟩
    rw [State.linePart_plain ((s.flagAs_applyDue f).trans due), State.linePart_plain due, Bool.or_false]
    exact s.linePhase_flagAs_outLane _ _ f o

/-! ### The flags of a tick (R51) -/

theorem State.audioTick_parts (pins : BitVec 16) :
    (s.audioTick pins).line = s.linePart.line ∧ (s.audioTick pins).lrx = s.linePart.lrx ∧
      (s.audioTick pins).ltx = s.linePart.ltx := by
  rw [← s.afterLines_line, ← s.afterLines_lrx, ← s.afterLines_ltx]
  simp [State.audioTick_eq, State.beforeCue_eq]

theorem State.tickFlags_line (pins : BitVec 16) (l : Line) :
    (s.tickFlags pins).lines l = (s.unflagged.linePart.line.ctx[l]).reportPending := by
  obtain ⟨line, -, -⟩ := s.unflagged.audioTick_parts pins
  unfold State.tickFlags
  rw [State.flags_lines, line]

theorem State.tickFlags_inLane (pins : BitVec 16) (i : InLane) :
    (s.tickFlags pins).lanes (inLaneEntry i) = (s.unflagged.linePart.lrx.lanes[i]).statusPending := by
  obtain ⟨-, lrx, -⟩ := s.unflagged.audioTick_parts pins
  unfold State.tickFlags
  rw [State.flags_lanes, lanePending_inLane, lrx]

theorem State.tickFlags_outLane (pins : BitVec 16) (o : OutLane) :
    (s.tickFlags pins).lanes (outLaneEntry o) = (s.unflagged.linePart.ltx.lanes[o]).statusPending := by
  obtain ⟨-, -, ltx⟩ := s.unflagged.audioTick_parts pins
  unfold State.tickFlags
  rw [State.flags_lanes, lanePending_outLane, ltx]

theorem lineTick_flag (e : LineEnv) (c : LineCtx) (i : LineInput) (n : BitVec 8) (pending : Bool) :
    (lineTick e { c with reportPending := pending } i n).reportPending = (pending || lineMarked e c i n) := rfl

/-- A line's tick, with the events that mark it (R50). -/
theorem State.linePart_lineEvents (pins : BitVec 16) (l : Line) :
    ∃ e i n, s.linePart.line.ctx[l] = lineTick e s.line.ctx[l] i n ∧
      (s.tickFlags pins).lines l = lineMarked e s.line.ctx[l] i n := by
  obtain ⟨e, i, n, part⟩ := s.linePart_flagAs_line l
  have own := part s.flags
  have clear := congrArg LineCtx.reportPending (part ReportFlags.clear)
  rw [State.flagAs_own] at own
  rw [lineTick_flag, ← State.unflagged_flagAs, ← s.tickFlags_line pins] at clear
  exact ⟨e, i, n, own, clear.trans (Bool.false_or _)⟩

section
variable (pins : BitVec 16) (follows : Bool)

theorem State.tickEvents_lineFlags (l : Line) :
    (s.tickEvents pins follows).lineFlags l = (s.lineFlags l || (s.tickFlags pins).lines l) := by
  obtain ⟨-, -, -, line, -⟩ := s.tickEvents_parts pins follows
  obtain ⟨e, i, n, own, event⟩ := s.linePart_lineEvents pins l
  unfold State.lineFlags
  rw [line, own, event]
  rfl

theorem State.tickEvents_lanePending (e : Fin 9) :
    lanePending (s.tickEvents pins follows) e = (lanePending s e || (s.tickFlags pins).lanes e) := by
  obtain ⟨-, lrx, ltx, -, -⟩ := s.tickEvents_parts pins follows
  by_cases low : e.val < 5
  · obtain ⟨i, rfl, own⟩ := lanePending_in low
    obtain ⟨ev, part⟩ := s.linePart_flagAs_inLane i
    have whole := congrArg InLaneCtx.statusPending (part s.flags)
    have clear := congrArg InLaneCtx.statusPending (part ReportFlags.clear)
    rw [State.flagAs_own] at whole
    rw [← State.unflagged_flagAs, ← s.tickFlags_inLane pins] at clear
    rw [own, lrx, whole, clear]
    rfl
  · obtain ⟨o, rfl, own⟩ := lanePending_out low
    obtain ⟨ev, part⟩ := s.linePart_flagAs_outLane o
    have whole := congrArg OutLaneCtx.statusPending (part s.flags)
    have clear := congrArg OutLaneCtx.statusPending (part ReportFlags.clear)
    rw [State.flagAs_own] at whole
    rw [← State.unflagged_flagAs, ← s.tickFlags_outLane pins] at clear
    rw [own, ltx, whole, clear]
    rfl

/-! What the snapshots of the tick show. -/

theorem State.seenAt_line (t : State) (first : Bool) (l : Line) :
    (t.seenAt s pins first).line.ctx[l] =
      if first = true ∧ (s.tickFlags pins).lines l = true then (s.line.ctx[l]).beforeEvents else t.line.ctx[l] := by
  unfold State.seenAt
  cases first with
  | false => rfl
  | true =>
    rw [if_pos rfl]
    unfold State.seenBefore
    refine (ofFn_at ..).trans (if_congr ?_ rfl rfl)
    exact (and_iff_right rfl).symm

theorem State.seenAt_inLane (t : State) (first : Bool) (i : InLane) :
    (t.seenAt s pins first).lrx.lanes[i] =
      if first = true ∧ (s.tickFlags pins).lanes (inLaneEntry i) = true then s.lrx.lanes[i] else t.lrx.lanes[i] := by
  unfold State.seenAt
  cases first with
  | false => rfl
  | true =>
    rw [if_pos rfl]
    unfold State.seenBefore
    refine (ofFn_at ..).trans (if_congr ?_ rfl rfl)
    exact (and_iff_right rfl).symm

theorem State.seenAt_outLane (t : State) (first : Bool) (o : OutLane) :
    (t.seenAt s pins first).ltx.lanes[o] =
      if first = true ∧ (s.tickFlags pins).lanes (outLaneEntry o) = true then s.ltx.lanes[o] else t.ltx.lanes[o] := by
  unfold State.seenAt
  cases first with
  | false => rfl
  | true =>
    rw [if_pos rfl]
    unfold State.seenBefore
    refine (ofFn_at ..).trans (if_congr ?_ rfl rfl)
    exact (and_iff_right rfl).symm

theorem LineCtx.beforeEvents_reportPending (c : LineCtx) : c.beforeEvents.reportPending = c.reportPending := rfl

/-- With the snapshots before the events, the flags that count are those from before the tick (R51). -/
theorem State.seenAt_lineFlags (first : Bool) (l : Line) :
    ((s.tickEvents pins follows).seenAt s pins first).lineFlags l =
      if first = true then s.lineFlags l else (s.tickEvents pins follows).lineFlags l := by
  have kept := s.tickEvents_lineFlags pins follows l
  unfold State.lineFlags at kept ⊢
  rw [s.seenAt_line pins]
  cases first with
  | false => rfl
  | true =>
    cases event : (s.tickFlags pins).lines l with
    | true => rfl
    | false =>
      rw [event, Bool.or_false] at kept
      exact kept

theorem State.seenAt_lanePending (first : Bool) (e : Fin 9) :
    lanePending ((s.tickEvents pins follows).seenAt s pins first) e =
      if first = true then lanePending s e else lanePending (s.tickEvents pins follows) e := by
  have kept := s.tickEvents_lanePending pins follows e
  by_cases low : e.val < 5
  · obtain ⟨i, rfl, own⟩ := lanePending_in low
    rw [own, own s, own (s.tickEvents pins follows)]
    rw [own, own s] at kept
    rw [s.seenAt_inLane pins]
    cases first with
    | false => rfl
    | true =>
      cases event : (s.tickFlags pins).lanes (inLaneEntry i) with
      | true => rfl
      | false =>
        rw [event, Bool.or_false] at kept
        exact kept
  · obtain ⟨o, rfl, own⟩ := lanePending_out low
    rw [own, own s, own (s.tickEvents pins follows)]
    rw [own, own s] at kept
    rw [s.seenAt_outLane pins]
    cases first with
    | false => rfl
    | true =>
      cases event : (s.tickFlags pins).lanes (outLaneEntry o) with
      | true => rfl
      | false =>
        rw [event, Bool.or_false] at kept
        exact kept

end

end

end Sys2Proof.Machine
end

