-- ==== Sys2Proof/Proofs/RoundsAtTicks.lean ====
section
/-! PROOFS. The round of a block tick: its work is that of the same tick with a round in progress, with the flags that the
snapshots show (R51, R135 to R138, R142). -/

namespace Sys2Proof.Machine

/-! ### A tick with a round in progress -/

/-- The part with this round in progress, or none. -/
def State.withRound (s : State) (r : Option Round) : State := { s with report := { s.report with round := r } }

section
variable (s : State) (r : Option Round)

theorem State.withRound_ite {p : Prop} [Decidable p] (u v : State) :
    (if p then u else v).withRound r = if p then u.withRound r else v.withRound r :=
  apply_ite (State.withRound · r) p u v

theorem State.linePhase_withRound (plans : Vector (Option LinePlan) 24) (delta : Int) :
    (s.withRound r).linePhase plans delta = (s.linePhase plans delta).withRound r := by
  have moved : (s.withRound r).linesMoved plans delta = (s.linesMoved plans delta).withRound r := rfl
  unfold State.linePhase
  rw [moved]
  rfl

theorem State.applyTick_withRound : (s.withRound r).applyTick = s.applyTick.withRound r := by
  have handed : (s.withRound r).handOver = s.handOver.withRound r := rfl
  have plans : (s.withRound r).admittedPlans = s.admittedPlans := rfl
  have counted (u : State) : (u.withRound r).countRoles = u.countRoles.withRound r := rfl
  have intake : (s.withRound r).intake = s.intake := rfl
  have line (u : State) : (u.withRound r).line = u.line := rfl
  unfold State.applyTick
  simp only [handed, plans, State.linePhase_withRound, counted, State.withRound_ite, intake, line]

theorem State.linePart_withRound : (s.withRound r).linePart = s.linePart.withRound r := by
  have due : (s.withRound r).applyDue = s.applyDue := rfl
  unfold State.linePart
  simp only [due, State.applyTick_withRound, State.linePhase_withRound, State.withRound_ite]

theorem State.takePhase_withRound : (s.withRound r).takePhase = s.takePhase.withRound r := by
  unfold State.takePhase State.takeTick
  simp only [State.withRound_ite]
  rfl

theorem State.periodPhase_withRound : (s.withRound r).periodPhase = s.periodPhase.withRound r := by
  have tick : ({ s.report with round := r } : Report).periodTick = { s.report.periodTick with round := r } := by
    unfold Report.periodTick
    split <;> rfl
  have own : ({ s.withRound r with report := (s.withRound r).report.periodTick } : State) =
      ({ s with report := s.report.periodTick } : State).withRound r :=
    congrArg (fun x : Report => { s with report := x }) tick
  unfold State.periodPhase
  rw [own, State.withRound_ite]
  rfl

theorem State.audioTick_withRound (pins : BitVec 16) : (s.withRound r).audioTick pins = (s.audioTick pins).withRound r := by
  have counted (u : State) : (u.withRound r).countBlock = u.countBlock.withRound r := rfl
  have keys (u : State) : (u.withRound r).keyPhase pins = (u.keyPhase pins).withRound r := rfl
  have cued (u : State) : (u.withRound r).cuePhase = u.cuePhase.withRound r := rfl
  have mixed (u : State) : (u.withRound r).mixPhase = u.mixPhase.withRound r := rfl
  have engine : ({ s.withRound r with link := (s.withRound r).link.engineTick } : State) =
    ({ s with link := s.link.engineTick } : State).withRound r := rfl
  unfold State.audioTick
  simp only [engine, State.takePhase_withRound, counted, State.linePart_withRound, State.periodPhase_withRound, keys, cued,
    mixed]

theorem State.timeoutRead_withRound : (s.withRound r).timeoutRead = s.timeoutRead.withRound r := by
  have intake : (s.withRound r).intake = s.intake := rfl
  unfold State.timeoutRead
  rw [intake]
  cases s.intake.position <;> rfl

theorem State.readTick_withRound : (s.withRound r).readTick = s.readTick.withRound r := by
  have link : (s.withRound r).link = s.link := rfl
  unfold State.readTick
  rw [link]
  cases s.link.read with
  | none => rfl
  | some x =>
    simp only [State.withRound_ite, State.timeoutRead_withRound]
    rfl

theorem State.setRef_withRound (x : RefMonitor) : (s.withRound r).setRef x = (s.setRef x).withRound r := by
  unfold State.setRef
  rw [State.withRound_ite]
  rfl

theorem State.tickEvents_withRound (pins : BitVec 16) (follows : Bool) :
    (s.withRound r).tickEvents pins follows = (s.tickEvents pins follows).withRound r := by
  unfold State.tickEvents
  simp only [State.audioTick_withRound, ← State.readTick_withRound, ← State.setRef_withRound]
  rfl

/-- A tick with a round in progress begins none: it is its events alone. -/
theorem State.blockTick_busy (busy : Round) (pins : BitVec 16) (follows first : Bool) :
    (s.withRound (some busy)).blockTick pins follows first =
      ((s.tickEvents pins follows).withRound (some busy)).endTick false := by
  have round (t seen : State) (left : ReportFlags) (report : seen.report.round = some busy) :
      t.lookRound seen left = t ∧ seen.staysOpen = false := by
    have may : seen.mayRound = false := by
      unfold State.mayRound
      rw [report]
      rfl
    refine ⟨if_neg (Bool.eq_false_iff.mp may), ?_⟩
    unfold State.staysOpen
    rw [report]
    rfl
  have held : (((s.tickEvents pins follows).withRound (some busy)).seenAt (s.withRound (some busy)) pins
      first).report.round = some busy := by
    rw [State.seenAt_report]
    rfl
  unfold State.blockTick
  dsimp only
  rw [State.roundPhase_eq, State.tickEvents_withRound]
  obtain ⟨kept, closed⟩ := round ((s.tickEvents pins follows).withRound (some busy)) _
    (if first = true then (s.withRound (some busy)).tickFlags pins else ReportFlags.clear) held
  rw [kept, closed]

end

/-! ### The round of a tick -/

section
variable (s t : State) (pins : BitVec 16) (first : Bool)

theorem State.seenAt_link : (t.seenAt s pins first).link = t.link := by
  unfold State.seenAt
  split
  · exact State.seenBefore_link ..
  · rfl

theorem State.seenAt_mix : (t.seenAt s pins first).mix = t.mix := by
  unfold State.seenAt
  split
  · exact State.seenBefore_mix ..
  · rfl

theorem State.seenAt_cue : (t.seenAt s pins first).cue = t.cue := by
  unfold State.seenAt
  split
  · exact State.seenBefore_cue ..
  · rfl

end

/-- A tick, as REPORT's look for a round after its events. -/
theorem State.blockTick_looks (s : State) (pins : BitVec 16) (follows first : Bool) :
    s.blockTick pins follows first =
      ((s.tickEvents pins follows).lookRound ((s.tickEvents pins follows).seenAt s pins first)
        (if first = true then s.tickFlags pins else ReportFlags.clear)).endTick
        ((s.tickEvents pins follows).seenAt s pins first).staysOpen := by
  rw [← State.roundPhase_eq]
  rfl

theorem State.endTick_inLane (t : State) (roundOpen : Bool) (i : InLane) :
    (t.endTick roundOpen).lrx.lanes[i] = (t.lrx.lanes[i]).endTick := ofFn_at ..

/-- The end of a tick keeps every flag of a lane. -/
theorem State.endTick_lanePending (t : State) (roundOpen : Bool) (e : Fin 9) :
    lanePending (t.endTick roundOpen) e = lanePending t e := by
  by_cases low : e.val < 5
  · obtain ⟨i, rfl, own⟩ := lanePending_in low
    rw [own, own t, t.endTick_inLane]
    rfl
  · obtain ⟨o, rfl, own⟩ := lanePending_out low
    rw [own, own t]
    rfl

/-- Without a round begun, the tick is that with a round in progress, but for it. -/
theorem State.endTick_noRound {T : State} (idle : T.report.round = none) (busy : Round) (roundOpen : Bool) :
    T.endTick roundOpen =
      { (T.withRound (some busy)).endTick false with
        report := { ((T.withRound (some busy)).endTick false).report with round := none }
        inst := (T.endTick roundOpen).inst } := by
  have report : ({ T.report with round := none } : Report) = T.report := by rw [← idle]
  show _ = { T.endTick roundOpen with report := { T.report with round := none } }
  rw [report]
  rfl

/-- Flags after a round, seen at the ends of two ticks. -/
theorem State.flaggedAfter_endTick {T t : State} {lane : Fin 9 → Bool} {line : Line → Bool} {left : ReportFlags}
    (flagged : T.flaggedAfter t lane line left.lanes left.lines) (busy : Round) (roundOpen : Bool) :
    ((T.withRound (some busy)).endTick false).flaggedAfter (t.endTick roundOpen) lane line left.lanes left.lines := by
  obtain ⟨lines, inputs, outputs, lanes⟩ := flagged
  refine ⟨lines, fun i => ?_, outputs, fun e => ?_⟩
  · have same : ((T.withRound (some busy)).endTick false).lrx.lanes[i] = (T.lrx.lanes[i]).endTick := State.endTick_inLane ..
    rw [State.endTick_inLane, same, inputs i]
    rfl
  · rw [State.endTick_lanePending, State.endTick_lanePending]
    exact lanes e

/-- The flags that the events of a tick set are those of the tick from a part without a flag. -/
theorem State.blockTick_events (s : State) (busy : Round) (pins : BitVec 16) (follows first : Bool) :
    let e := (s.unflagged.withRound (some busy)).blockTick pins follows first
    (∀ x, lanePending e x = (s.tickFlags pins).lanes x) ∧
      ∀ l : Line, (e.line.ctx[l]).reportPending = (s.tickFlags pins).lines l := by
  intro e
  obtain ⟨-, lrx, ltx, line, -⟩ := s.unflagged.tickEvents_parts pins follows
  have whole : e = ((s.unflagged.tickEvents pins follows).withRound (some busy)).endTick false := State.blockTick_busy ..
  rw [whole]
  constructor
  · intro x
    rw [State.endTick_lanePending]
    show lanePending (s.unflagged.tickEvents pins follows) x = _
    by_cases low : x.val < 5
    · obtain ⟨i, rfl, own⟩ := lanePending_in low
      rw [own, lrx, s.tickFlags_inLane]
    · obtain ⟨o, rfl, own⟩ := lanePending_out low
      rw [own, ltx, s.tickFlags_outLane]
  · intro l
    show ((s.unflagged.tickEvents pins follows).line.ctx[l]).reportPending = _
    rw [line, s.tickFlags_line]

end Sys2Proof.Machine

open Sys2Proof Sys2Proof.Machine

/-- Settles O50: a round is begun with the work that REPORT holds, after a block tick or by it. -/
theorem roundBegun : Obligations.RoundBegun := by
  unfold Obligations.RoundBegun
  refine ⟨fun s idle just => ⟨fun none => ?_, fun on work => ?_⟩,
    fun s t u e pins follows first busy idle runT runU runE => ?_⟩
  · have due : ¬s.roundDue = true := fun due => by
      obtain ⟨on, work⟩ := (State.roundDue_iff idle just).mp due
      exact none.elim on fun noWork => noWork work
    exact congrArg Host.Outcome.next (if_neg due)
  · have due := (State.roundDue_iff idle just).mpr ⟨on, work⟩
    have among := mem_roundRecords_iff s s.work
    refine ⟨_, newRound s s.work, exec_roundBegin_begins due, rfl, newRound_takes rfl rfl rfl on rfl rfl,
      fun x h kind => ?_, fun x h e kind => ?_, fun x h l kind => ?_,
      State.flaggedAfter_of (left := ReportFlags.clear) rfl rfl on (fun _ => rfl) (fun _ => rfl) (fun _ => rfl), rfl⟩
    · obtain ⟨v, -, rfl⟩ | ⟨-, rfl⟩ | ⟨f, -, rfl⟩ | ⟨l, -, rfl⟩ | ⟨-, j, rfl⟩ := (among x).mp h
      · exact nomatch kind
      · rfl
      all_goals exact nomatch kind
    · obtain ⟨v, -, rfl⟩ | ⟨-, rfl⟩ | ⟨f, -, rfl⟩ | ⟨l, -, rfl⟩ | ⟨-, j, rfl⟩ := (among x).mp h
      · exact nomatch kind
      · exact nomatch kind
      · obtain rfl := RecordKind.lane.inj kind
        rfl
      all_goals exact nomatch kind
    · obtain ⟨v, -, rfl⟩ | ⟨-, rfl⟩ | ⟨f, -, rfl⟩ | ⟨k, -, rfl⟩ | ⟨-, j, rfl⟩ := (among x).mp h
      · exact nomatch kind
      · exact nomatch kind
      · exact nomatch kind
      · obtain rfl := RecordKind.line.inj kind
        rfl
      · exact nomatch kind
  · obtain rfl : s.blockTick pins follows first = t :=
      Host.Outcome.next.inj ((exec_blockTick s pins follows first).symm.trans runT)
    obtain rfl : (s.withRound (some busy)).blockTick pins follows first = u :=
      Host.Outcome.next.inj ((exec_blockTick (s.withRound (some busy)) pins follows first).symm.trans runU)
    have unflagged : ({ s.unflagged with report := { s.report with round := some busy } } : State) =
        s.unflagged.withRound (some busy) := by
      unfold State.withRound
      rw [State.unflagged_report]
    rw [unflagged] at runE
    obtain rfl : (s.unflagged.withRound (some busy)).blockTick pins follows first = e :=
      Host.Outcome.next.inj ((exec_blockTick (s.unflagged.withRound (some busy)) pins follows first).symm.trans runE)
    obtain ⟨eventLanes, eventLines⟩ := s.blockTick_events busy pins follows first
    have seenLine (l : Line) := s.seenAt_lineFlags pins follows first l
    have seenLane (x : Fin 9) := s.seenAt_lanePending pins follows first x
    have idleAfter := (s.tickEvents_round pins follows).trans idle
    have report : ((s.tickEvents pins follows).seenAt s pins first).report = (s.tickEvents pins follows).report :=
      s.seenAt_report pins first _
    have link : ((s.tickEvents pins follows).seenAt s pins first).link = (s.tickEvents pins follows).link :=
      s.seenAt_link _ pins first
    have mix : ((s.tickEvents pins follows).seenAt s pins first).mix = (s.tickEvents pins follows).mix :=
      s.seenAt_mix _ pins first
    have looks := s.blockTick_looks pins follows first
    rw [State.blockTick_busy] at runU ⊢
    generalize (s.unflagged.withRound (some busy)).blockTick pins follows first = e at eventLanes eventLines ⊢
    generalize hleft : (if first = true then s.tickFlags pins else ReportFlags.clear) = left at looks
    generalize (s.tickEvents pins follows).seenAt s pins first = seen at looks seenLine seenLane report link mix
    generalize s.blockTick pins follows first = t at looks ⊢
    generalize s.tickEvents pins follows = T at looks seenLine seenLane report link mix idleAfter ⊢
    intro lane line
    have lanes : lanePending seen = lane := funext fun x => by
      rw [seenLane x]
      cases first with
      | true => rfl
      | false => exact (State.endTick_lanePending (T.withRound (some busy)) false x).symm
    have lines : seen.lineFlags = line := funext fun l => by
      rw [seenLine l]
      cases first <;> rfl
    have engine : t.link.engine = T.link.engine := by
      rw [looks, State.endTick_link, State.lookRound_link]
    have leftLanes : left.lanes = fun x => first && lanePending e x := funext fun x => by
      rw [← hleft, eventLanes]
      cases first <;> rfl
    have leftLines : left.lines = fun l => first && (e.line.ctx[l]).reportPending := funext fun l => by
      rw [← hleft]
      show _ = (first && (e.line.ctx[l]).reportPending)
      rw [eventLines]
      cases first <;> rfl
    have may : seen.mayRound = true ↔ t.link.engine ≠ .stopped ∧
        ((T.withRound (some busy)).endTick false).roundWork lane line := by
      rw [State.mayRound_iff, report, State.work_present_iff, link, State.roundWork_congr report link, lanes, lines, engine]
      exact and_iff_right idleAfter
    refine ⟨fun none => ?_, fun on work => ?_⟩
    · have kept : T.lookRound seen left = T := if_neg fun begun => by
        obtain ⟨on, work⟩ := may.mp begun
        exact none.elim on fun noWork => noWork work
      rw [looks, kept]
      exact State.endTick_noRound idleAfter busy _
    · have begun : T.lookRound seen left = T.startRound seen left seen.work := if_pos (may.mpr ⟨on, work⟩)
      rw [begun] at looks
      have takes := newRound_takes (t := t) report link mix (by rw [← engine]; exact on) (by rw [looks]; rfl)
        (by rw [looks]; rfl)
      have flagged := State.flaggedAfter_of (t := T.startRound seen left seen.work) report link
        (by rw [← engine]; exact on) (left := left) (fun _ => rfl) (fun _ => rfl) (fun _ => rfl)
      rw [lanes, lines] at takes flagged
      have ended := State.flaggedAfter_endTick flagged busy seen.staysOpen
      rw [← looks, leftLanes, leftLines] at ended
      refine ⟨newRound seen seen.work, by rw [looks]; rfl, takes, ended, ?_⟩
      rw [looks]
      rfl

end

