-- ==== Sys2Proof/Proofs/TickLink.lean ====
section
/-! PROOFS. What a block tick leaves of LINK, and the round that it keeps, begins or leaves open (R136, R137, R158). -/

namespace Sys2Proof.Machine

/-! ### LINK -/

/-- LINK as before, but for the post word, the notices with their messages, and the read outstanding. -/
def Link.stands (k t : Link) : Prop :=
  t = { k with
    post := t.post, notice := t.notice, read := t.read, stale := t.stale, messages := t.messages
    lastMessage := t.lastMessage, beforeEvent := t.beforeEvent }

theorem Link.stands.refl (k : Link) : k.stands k := rfl

theorem Link.stands.trans {k t u : Link} (first : k.stands t) (second : t.stands u) : k.stands u := by
  unfold Link.stands at first second ⊢
  rw [second, first]

theorem Link.raise_stands (k : Link) (bits : Word32) : k.stands (k.raise bits) := by
  unfold Link.stands
  rw [(k.raise_raises bits).eq]

theorem Link.dropRead_stands (k : Link) : k.stands k.dropRead := by
  unfold Link.stands Link.dropRead
  cases k.read <;> rfl

section
variable (s : State) (pins : BitVec 16) (follows first : Bool)

theorem State.takenAt_stands_link : s.link.engineTick.stands s.takenAt.link := by
  unfold State.takenAt State.takePhase State.takeTick
  split
  · exact .refl _
  · split
    · rw [State.takePost_eq]
      rfl
    · exact .refl _

theorem State.setRef_stands (x : RefMonitor) : s.link.stands (s.setRef x).link := by
  unfold State.setRef
  split
  · exact .refl _
  · exact s.link.raise_stands noticeRef

theorem State.readTick_stands : s.link.stands s.readTick.link := by
  unfold State.readTick
  cases s.link.read with
  | none => exact .refl _
  | some r =>
    dsimp only
    split
    · unfold State.timeoutRead
      cases s.intake.position <;> exact s.link.dropRead_stands
    · exact rfl

/-- A block tick moves LINK by the start of the engine alone, but for the post word, the notices and the read. -/
theorem State.blockTick_stands : s.link.engineTick.stands (s.blockTick pins follows first).link := by
  have taken : s.link.engineTick.stands (s.audioTick pins).link := by
    rw [State.audioTick_link]
    exact s.takenAt_stands_link
  rw [State.blockTick_link]
  exact (taken.trans (State.setRef_stands ..)).trans (State.readTick_stands _)

theorem State.blockTick_engine : (s.blockTick pins follows first).link.engine = s.link.engineTick.engine :=
  by
  have stands : s.link.engineTick.stands (s.blockTick pins follows first).link := s.blockTick_stands pins follows first
  unfold Link.stands at stands
  rw [stands]

theorem Link.engineTick_on {k : Link} (on : k.engine ≠ .stopped) : k.engineTick = k := by
  refine if_neg fun starts => ?_
  unfold Link.startsAtTick at starts
  rw [Bool.and_eq_true, Bool.and_eq_true, decide_eq_true_eq] at starts
  exact on starts.1.1

theorem Link.engineTick_barred {k : Link} (barred : k.memEnable = false ∨ k.busMaster = false) : k.engineTick = k := by
  refine if_neg fun starts => ?_
  unfold Link.startsAtTick at starts
  rw [Bool.and_eq_true, Bool.and_eq_true] at starts
  obtain off | off := barred
  · exact nomatch off.symm.trans starts.1.2
  · exact nomatch off.symm.trans starts.2

theorem Link.engineTick_frame (k : Link) : k.engineTick = { k with engine := k.engineTick.engine } := by
  unfold Link.engineTick
  split <;> rfl

theorem State.blockTick_linkFrame :
    let t := s.blockTick pins follows first
    t.link = { s.link with
      post := t.link.post, notice := t.link.notice, engine := t.link.engine, read := t.link.read, stale := t.link.stale
      messages := t.link.messages, lastMessage := t.link.lastMessage, beforeEvent := t.link.beforeEvent } := by
  intro t
  have stands : s.link.engineTick.stands t.link := s.blockTick_stands pins follows first
  have engine : t.link.engine = s.link.engineTick.engine := s.blockTick_engine pins follows first
  unfold Link.stands at stands
  rw [Link.engineTick_frame, ← engine] at stands
  exact stands

/-! ### The round of a tick -/

/-- The meter period moves its counter and the due mark alone. -/
theorem State.periodPhase_frame (u : State) :
    u.periodPhase.report =
      { u.report with meterCounter := u.periodPhase.report.meterCounter, due := u.periodPhase.report.due } := by
  unfold State.periodPhase Report.periodTick
  split
  · rfl
  · dsimp only
    split <;> rfl

theorem State.tickEvents_blockCount : (s.tickEvents pins follows).report.blockCount = s.report.blockCount + 1 := by
  rw [State.tickEvents_report, State.periodPhase_frame, s.afterLines_report]

/-- A tick begins no round, or the one that takes the work its snapshots show. -/
theorem State.blockTick_cases :
    let t := s.blockTick pins follows first
    let T := s.tickEvents pins follows
    let seen := T.seenAt s pins first
    let left := if first = true then s.tickFlags pins else ReportFlags.clear
    (t = T.endTick seen.staysOpen ∧ t.report.round = s.report.round) ∨
      (s.report.round = none ∧ T.link.engine ≠ .stopped ∧ t = (T.startRound seen left seen.work).endTick false) := by
  intro t T seen left
  have looks : t = (T.lookRound seen left).endTick seen.staysOpen := s.blockTick_looks pins follows first
  have report : seen.report = T.report := s.seenAt_report pins first T
  have link : seen.link = T.link := s.seenAt_link T pins first
  have idle : T.report.round = s.report.round := s.tickEvents_round pins follows
  obtain ⟨-, kept⟩ | ⟨may, begun⟩ := T.lookRound_cases seen left
  · rw [kept] at looks
    exact .inl ⟨looks, by rw [looks]; exact idle⟩
  · obtain ⟨none, present⟩ := (State.mayRound_iff seen).mp may
    have closed : seen.staysOpen = false := by
      unfold State.staysOpen
      rw [present, Bool.not_true, Bool.and_false]
    rw [begun, closed] at looks
    obtain ⟨on, -⟩ := State.work_present_iff.mp present
    rw [report, idle] at none
    rw [link] at on
    exact .inr ⟨none, on, looks⟩

theorem State.staysOpen_iff (seen : State) :
    seen.staysOpen = true ↔ seen.report.round = none ∧ seen.link.engine ≠ .stopped ∧ seen.work.present = false := by
  unfold State.staysOpen
  rw [Bool.and_eq_true, Bool.and_eq_true, Option.isNone_iff_eq_none, decide_eq_true_eq, Bool.not_eq_true', and_assoc]

/-- A round in progress goes on, none begins while the engine is STOPPED, and one may begin after the tick only where
there was none and the tick began none. -/
theorem State.blockTick_round :
    let t := s.blockTick pins follows first
    (∀ r, s.report.round = some r → t.report.round = some r) ∧
    (t.link.engine = .stopped → s.report.round = none → t.report.round = none) ∧
    (t.inst.roundOpen = true → s.report.round = none ∧ t.report.round = none ∧ t.link.engine ≠ .stopped) := by
  intro t
  have report : ((s.tickEvents pins follows).seenAt s pins first).report = (s.tickEvents pins follows).report :=
    s.seenAt_report pins first _
  have link := State.seenAt_link s (s.tickEvents pins follows) pins first
  obtain ⟨ended, round⟩ | ⟨idle, on, begun⟩ := s.blockTick_cases pins follows first
  · have engine : t.link.engine = (s.tickEvents pins follows).link.engine := by
      show (s.blockTick pins follows first).link.engine = _
      rw [ended, State.endTick_link]
    have roundOpen : t.inst.roundOpen = ((s.tickEvents pins follows).seenAt s pins first).staysOpen := by
      show (s.blockTick pins follows first).inst.roundOpen = _
      rw [ended]
      rfl
    refine ⟨fun r busy => round.trans busy, fun _ idle => round.trans idle, fun stays => ?_⟩
    rw [roundOpen] at stays
    obtain ⟨none, on, -⟩ := (State.staysOpen_iff _).mp stays
    rw [report, s.tickEvents_round] at none
    rw [link] at on
    exact ⟨none, round.trans none, engine ▸ on⟩
  · have engine : t.link.engine = (s.tickEvents pins follows).link.engine := by
      show (s.blockTick pins follows first).link.engine = _
      rw [begun, State.endTick_link]
      rfl
    have closed : t.inst.roundOpen = false := by
      show (s.blockTick pins follows first).inst.roundOpen = _
      rw [begun]
      rfl
    exact ⟨fun r busy => (nomatch busy.symm.trans idle), fun stopped => absurd (engine.symm.trans stopped) on,
      fun stays => nomatch closed.symm.trans stays⟩

end

end Sys2Proof.Machine
end

