-- ==== Sys2Proof/Proofs/TickKept.lean ====
section
/-! PROOFS. What a block tick leaves of the peaks, the clip totals and the settings (R13, R135). -/

namespace Sys2Proof.Machine

/-! ### Peaks and clip totals -/

section
variable (s : State) (pins : BitVec 16) (follows first : Bool)

theorem State.linePart_outputs : s.linePart.mix.outputs = s.mix.outputs := by
  refine s.linePart_split (P := fun u => u.mix.outputs = s.mix.outputs) ?_
    (fun u kept => by rw [u.countRoles_mix]; exact kept) (by rw [State.linePhase_mix])
  rw [State.linePhase_mix]
  unfold State.handOver Mix.applied
  rfl

theorem Mix.tick_outputs (m : Mix) (t : ScreeningTable) (ctx : Vector LineCtx 24) (q : Vector CueReturn 24)
    (routes : Vector RouteCtx 32) : (m.tick t ctx q routes).outputs = m.outputs := by
  unfold Mix.tick
  rfl

theorem Mix.rewind_outputs (m : Mix) (members terms : Vector (Option Group) 24) :
    (m.rewind members terms).outputs = m.outputs := by
  unfold Mix.rewind
  rfl

/-- The events of a tick leave every peak and every clip total. -/
theorem State.tickEvents_peaks :
    let m := (s.tickEvents pins follows).mix
    (∀ i : Source, (m.sources[i]).peak = (s.mix.sources[i]).peak) ∧
    (∀ l : Line, (m.contribs[l]).peak = (s.mix.contribs[l]).peak ∧ (m.returns[l]).peak = (s.mix.returns[l]).peak ∧
      (m.returns[l]).clip = (s.mix.returns[l]).clip) ∧ m.outputs = s.mix.outputs := by
  intro m
  have whole : m = (s.linePart.mix.rewind s.inst.members s.inst.terms).tick s.linePart.scrn.table s.linePart.line.ctx
      (s.blockTick pins follows false).cue.returns (s.blockTick pins follows false).cue.routes :=
    s.tickEvents_mix pins follows false
  rw [whole]
  refine ⟨fun i => ?_, fun l => ⟨?_, ?_⟩, by rw [Mix.tick_outputs, Mix.rewind_outputs, s.linePart_outputs]⟩
  · obtain ⟨code, held⟩ := s.linePart_source i
    rw [Mix.tick_source, Mix.rewind_sources, held]
    rfl
  · rw [Mix.tick_contrib, Mix.rewind_contrib, s.linePart_contribs]
    rfl
  · obtain ⟨cueIn, cueOut, held⟩ := s.linePart_returnKept l
    rw [Mix.tick_return, Mix.rewind_return, held]
    exact ⟨rfl, rfl⟩

/-- MIX after a tick is that of its events, every peak restarted where the tick begins a round with meters. -/
theorem State.blockTick_restarts :
    let t := s.blockTick pins follows first
    let restarted := ∃ r, s.report.round = none ∧ t.report.round = some r ∧ r.meters = true
    (restarted ∧ t.mix = (s.tickEvents pins follows).mix.restartPeaks) ∨
      (¬restarted ∧ t.mix = (s.tickEvents pins follows).mix) := by
  intro t restarted
  obtain ⟨ended, round⟩ | ⟨idle, -, begun⟩ := s.blockTick_cases pins follows first
  · refine .inr ⟨?_, ?_⟩
    · rintro ⟨r, idle, busy, -⟩
      exact nomatch (round.trans idle).symm.trans busy
    · show (s.blockTick pins follows first).mix = _
      rw [ended, State.endTick_mix]
  · have mix : t.mix = if ((s.tickEvents pins follows).seenAt s pins first).work.meters = true then
        (s.tickEvents pins follows).mix.restartPeaks else (s.tickEvents pins follows).mix := by
      show (s.blockTick pins follows first).mix = _
      rw [begun, State.endTick_mix]
      rfl
    have round : t.report.round = some (newRound ((s.tickEvents pins follows).seenAt s pins first)
        ((s.tickEvents pins follows).seenAt s pins first).work) := by
      show (s.blockTick pins follows first).report.round = _
      rw [begun, State.endTick_report]
      rfl
    rw [mix]
    split
    next on => exact .inl ⟨⟨_, idle, round, on⟩, rfl⟩
    next off =>
      refine .inr ⟨?_, rfl⟩
      rintro ⟨r, -, taken, on⟩
      obtain rfl := Option.some.inj (round.symm.trans taken)
      exact off on

theorem State.blockTick_peaks :
    let t := s.blockTick pins follows first
    let restarted := ∃ r, s.report.round = none ∧ t.report.round = some r ∧ r.meters = true
    let peak := fun n n' : Nat => (restarted → n' = 0) ∧ (¬restarted → n' = n)
    (∀ i : Source, peak (s.mix.sources[i]).peak (t.mix.sources[i]).peak) ∧
    (∀ l : Line, peak (s.mix.contribs[l]).peak (t.mix.contribs[l]).peak ∧
      peak (s.mix.returns[l]).peak (t.mix.returns[l]).peak ∧ (t.mix.returns[l]).clip = (s.mix.returns[l]).clip) ∧
    ∀ i : Slot, peak (s.mix.outputs[i]).peak (t.mix.outputs[i]).peak ∧
      (t.mix.outputs[i]).clip = (s.mix.outputs[i]).clip := by
  intro t restarted peak
  obtain ⟨sources, lines, outputs⟩ := s.tickEvents_peaks pins follows
  have cleared {n n' : Nat} (on : restarted) (zero : n' = 0) : peak n n' := ⟨fun _ => zero, fun off => absurd on off⟩
  have kept {n n' : Nat} (off : ¬restarted) (same : n' = n) : peak n n' := ⟨fun on => absurd on off, fun _ => same⟩
  obtain ⟨on, mix⟩ | ⟨off, mix⟩ := s.blockTick_restarts pins follows first
  · rw [mix]
    refine ⟨fun i => cleared on ?_, fun l => ⟨cleared on ?_, cleared on ?_, ?_⟩, fun i => ⟨cleared on ?_, ?_⟩⟩
    · rw [Mix.restartPeaks_source]
    · rw [Mix.restartPeaks_contrib]
    · rw [Mix.restartPeaks_return]
    · obtain ⟨-, -, clip⟩ := lines l
      rw [Mix.restartPeaks_return, clip]
    · rw [Mix.restartPeaks_output]
    · rw [Mix.restartPeaks_output, outputs]
  · rw [mix, outputs]
    refine ⟨fun i => kept off (sources i), fun l => ?_, fun i => ⟨kept off rfl, rfl⟩⟩
    obtain ⟨contrib, ret, clip⟩ := lines l
    exact ⟨kept off contrib, kept off ret, clip⟩

end

/-! ### The settings of a tick that takes no apply -/

section
variable {s : State} (free : s.applyDue = false) (pins : BitVec 16) (follows first : Bool)
include free

theorem State.linePart_mix_plain : s.linePart.mix = { s.mix with returns := s.linePart.mix.returns } := by
  rw [State.linePart_plain free]
  exact State.linePhase_mix ..

/-- MIX keeps its settings. -/
theorem State.blockTick_mixSettings :
    let t := s.blockTick pins follows first
    t.mix = { s.mix with sources := t.mix.sources, contribs := t.mix.contribs, returns := t.mix.returns,
                         outputs := t.mix.outputs } ∧
      ∀ i : Source, (t.mix.sources[i]).airCode = (s.mix.sources[i]).airCode := by
  intro t
  have whole : (s.tickEvents pins follows).mix = (s.linePart.mix.rewind s.inst.members s.inst.terms).tick
      s.linePart.scrn.table s.linePart.line.ctx (s.blockTick pins follows first).cue.returns
      (s.blockTick pins follows first).cue.routes := s.tickEvents_mix pins follows first
  have settings : (s.tickEvents pins follows).mix = { s.mix with
      sources := (s.tickEvents pins follows).mix.sources, contribs := (s.tickEvents pins follows).mix.contribs
      returns := (s.tickEvents pins follows).mix.returns, outputs := (s.tickEvents pins follows).mix.outputs } := by
    rw [whole, State.linePart_mix_plain free]
    unfold Mix.tick Mix.rewind
    rfl
  have code (i : Source) : ((s.tickEvents pins follows).mix.sources[i]).airCode = (s.mix.sources[i]).airCode := by
    rw [whole, Mix.tick_source, Mix.rewind_sources, State.linePart_mix_plain free]
    rfl
  obtain ⟨-, mix⟩ | ⟨-, mix⟩ := s.blockTick_restarts pins follows first
  · refine ⟨?_, fun i => ?_⟩
    · rw [mix, settings]
      unfold Mix.restartPeaks
      rfl
    · rw [mix, Mix.restartPeaks_source]
      exact code i
  · rw [mix]
    exact ⟨settings, code⟩

/-- Every other block keeps its settings. -/
theorem State.blockTick_settings :
    let t := s.blockTick pins follows first
    t.line = { s.line with ctx := t.line.ctx } ∧ t.scrn = { s.scrn with arrivals := t.scrn.arrivals } ∧
      t.cmap = { s.cmap with records := t.cmap.records } ∧ t.lrx = { s.lrx with lanes := t.lrx.lanes } ∧
      t.ltx = { s.ltx with lanes := t.ltx.lanes } := by
  intro t
  have line : t.line = { s.linePart.line with ctx := t.line.ctx } := s.blockTick_lineBlock pins follows first
  have loss : t.lrx.laneLoss = s.lrx.laneLoss := State.blockTick_laneLoss_of free pins follows first
  have scrn : t.scrn = s.linePart.scrn := s.blockTick_scrn pins follows first
  have cmap : t.cmap = s.linePart.cmap := s.blockTick_cmap pins follows first
  have hold : t.ltx.hold = s.ltx.hold := by
    have events : (s.tickEvents pins follows).ltx = s.ltx := by
      obtain ⟨-, -, ltx, -⟩ := s.tickEvents_parts pins follows
      rw [ltx, State.linePart_plain free, State.linePhase_ltx]
    rw [← events]
    obtain ⟨ended, -⟩ | ⟨-, -, begun⟩ := s.blockTick_cases pins follows first
    · show (s.blockTick pins follows first).ltx.hold = _
      rw [ended, State.endTick_ltx]
    · show (s.blockTick pins follows first).ltx.hold = _
      rw [begun, State.endTick_ltx]
      unfold State.startRound Ltx.flag
      rfl
  refine ⟨?_, ?_, ?_, ?_, ?_⟩
  · rw [line, State.linePart_plain free, State.linePhase_lineBlock]
  · rw [scrn, State.linePart_plain free, State.linePhase_scrn]
  · rw [cmap, State.linePart_plain free, State.linePhase_cmap]
  · dsimp only
    rw [← loss]
  · dsimp only
    rw [← hold]

theorem State.tickEvents_reportPlain :
    (s.tickEvents pins follows).report =
      { s.report with
        blockCount := (s.tickEvents pins follows).report.blockCount
        meterCounter := (s.tickEvents pins follows).report.meterCounter
        due := (s.tickEvents pins follows).report.due } := by
  have applied : s.applied = s := if_neg (Bool.eq_false_iff.mp free)
  rw [s.tickEvents_report, State.periodPhase_frame, s.afterLines_report, applied]

theorem State.blockTick_reportSettings :
    let t := s.blockTick pins follows first
    t.report = { s.report with
      blockCount := t.report.blockCount, meterCounter := t.report.meterCounter, due := t.report.due
      verdicts := t.report.verdicts, fullRequest := t.report.fullRequest, round := t.report.round } := by
  intro t
  have events := State.tickEvents_reportPlain free pins follows
  obtain report | ⟨-, w, round, -, -, report⟩ := s.blockTick_report_cases pins follows first
  · have own : t.report = (s.tickEvents pins follows).report := report
    rw [own, events]
  · have own : t.report = (s.tickEvents pins follows).report.takeWork w round := report
    rw [own, events]
    rfl

/-- Without a round begun, REPORT's work stands, and so do the flags of the output lanes. -/
theorem State.blockTick_workStands (same : (s.blockTick pins follows first).report.round = s.report.round) :
    let t := s.blockTick pins follows first
    t.report.verdicts = s.report.verdicts ∧ t.report.fullRequest = s.report.fullRequest ∧ t.ltx = s.ltx := by
  intro t
  have look := s.blockTick_noRound pins follows first same (s.tickEvents_round pins follows)
  have report : t.report = (s.tickEvents pins follows).report := by
    show (s.blockTick pins follows first).report = _
    unfold State.blockTick
    rw [State.endTick_report, look]
  have ltx : t.ltx = s.ltx := by
    obtain ⟨-, -, ltx, -⟩ := s.tickEvents_parts pins follows
    show (s.blockTick pins follows first).ltx = _
    unfold State.blockTick
    rw [State.endTick_ltx, look, ltx, State.linePart_plain free, State.linePhase_ltx]
  rw [report, State.tickEvents_reportPlain free pins follows]
  exact ⟨rfl, rfl, ltx⟩

theorem State.blockTick_outLanePlain (o : OutLane) :
    let t := s.blockTick pins follows first
    t.ltx.lanes[o] = { s.ltx.lanes[o] with statusPending := (t.ltx.lanes[o]).statusPending } := by
  intro t
  obtain ⟨pending, lane⟩ := s.blockTick_outLane pins follows first o
  rw [State.linePart_plain free, State.linePhase_ltx] at lane
  have own : t.ltx.lanes[o] = { s.ltx.lanes[o] with statusPending := pending } := lane
  rw [own]

/-- An input lane that is OFF, or LOCKED and not missing its sync, stands, its block ended. -/
theorem State.blockTick_inLaneStands (i : InLane)
    (stands : (s.lrx.lanes[i]).state = .off ∨ ((s.lrx.lanes[i]).state = .locked ∧
      ((s.lrx.lanes[i]).setup.clocking = .master ∨ (s.lrx.lanes[i]).frameSeen = true ∨ s.inst.lanes[i] = true))) :
    let t := s.blockTick pins follows first
    let c := s.lrx.lanes[i]
    t.lrx.lanes[i] =
      { c with
        lostShown := false, statusPending := (t.lrx.lanes[i]).statusPending, frameSeen := false
        sideSample := Vector.replicate 8 none } ∧
      (t.report.round = s.report.round → c.lostShown = false → (t.lrx.lanes[i]).statusPending = c.statusPending) := by
  intro t c
  have noSeek : c.state ≠ .seeking := by
    obtain off | ⟨locked, -⟩ := stands
    · exact fun seeking => nomatch off.symm.trans seeking
    · exact fun seeking => nomatch locked.symm.trans seeking
  have notLost (laneLoss : Nat) : c.isLost laneLoss = false := by
    unfold InLaneCtx.isLost
    rw [decide_eq_false noSeek, Bool.false_and]
  have shown : s.laneAfter i = { c with lostShown := false, statusPending := c.statusPending || c.lostShown } := by
    have plain : s.laneAfter i = c.showLost s.lrx.laneLoss := by
      show c.tick s.lrx.laneLoss s.inst.lanes[i] = _
      cases taken : s.inst.lanes[i] with
      | true => exact InLaneCtx.tick_taken _
      | false =>
        have whole : c.syncMissing = false := Bool.eq_false_iff.mpr fun missing => by
          obtain ⟨locked, slave, unseen⟩ := InLaneCtx.syncMissing_iff.mp missing
          obtain off | ⟨-, master | seen | took⟩ := stands
          · exact nomatch off.symm.trans locked
          · exact nomatch master.symm.trans slave
          · exact nomatch seen.symm.trans unseen
          · exact nomatch took.symm.trans taken
        have still : c.seekTick = c := if_neg noSeek
        rw [InLaneCtx.tick_counts whole, still]
    rw [plain]
    unfold InLaneCtx.showLost
    rw [notLost]
    cases c.lostShown <;> rfl
  obtain ⟨pending, lane⟩ := State.blockTick_laneAfter free pins follows first i
  rw [shown] at lane
  refine ⟨?_, fun same still => ?_⟩
  · have own : t.lrx.lanes[i] = { ({ c with lostShown := false, statusPending := c.statusPending || c.lostShown } :
        InLaneCtx).endTick with statusPending := pending } := lane
    rw [own]
    rfl
  · have own : t.lrx.lanes[i] = (s.laneAfter i).endTick := by
      show (s.blockTick pins follows first).lrx.lanes[i] = _
      rw [s.blockTick_inLane_noRound pins follows first same, State.linePart_plain free, State.linePhase_lane]
    rw [own, shown, still]
    exact Bool.or_false _

end

end Sys2Proof.Machine
end

