-- ==== Sys2Proof/Proofs/TickRecords.lean ====
section
/-! PROOFS. The records of a round that a block tick begins, and the tick as a whole (R51, R133 to R136). -/

namespace Sys2Proof.Machine

/-! ### What the events of a tick mark -/

/-- A line taken ahead of the tick, to which the tick does nothing, is not marked by it. -/
theorem State.tickFlags_taken {s : State} {l : Line} (taken : s.inst.lines[l] = true)
    (sound : LineCtx.sound l s.line.ctx[l] = true) (pins : BitVec 16) : (s.tickFlags pins).lines l = false := by
  have begun : s.inst.begun = true := by
    have line : ((List.finRange 24).any fun l => s.inst.lines[l]) = true :=
      List.any_eq_true.mpr ⟨l, List.mem_finRange l, taken⟩
    unfold Instant.begun
    rw [line]
    simp
  have free : s.unflagged.applyDue = false := State.applyDue_false (.inr (by rw [State.unflagged_inst]; exact begun))
  obtain ⟨n, tick⟩ := s.unflagged.linePhase_line (Vector.replicate 24 none) 0 l
  have input : s.unflagged.lineInput (Vector.replicate 24 (none : Option LinePlan))[l] l =
      { plan := none, delivery := none, counted := false } :=
    State.lineInput_taken (by rw [State.unflagged_inst]; exact taken) _
  have unmarked : s.unflagged.line.ctx[l] = { s.line.ctx[l] with reportPending := false } :=
    s.flagAs_line ReportFlags.clear l
  have still : LineCtx.sound l { s.line.ctx[l] with reportPending := false } = true := sound
  rw [s.tickFlags_line, State.linePart_plain free, tick, input, unmarked, lineTick_untouched still rfl]

/-- A line whose state, role or condition the tick changes is marked by it. -/
theorem lineMarked_of_changed {e : LineEnv} {c : LineCtx} {i : LineInput} {n : BitVec 8}
    (changed : (lineTick e c i n).state ≠ c.state ∨ (lineTick e c i n).plan.role ≠ c.plan.role ∨
      (lineTick e c i n).condition ≠ c.condition) : lineMarked e c i n = true := by
  unfold lineMarked
  obtain state | role | condition := changed
  · have moved : decide (stateAfter e c i n ≠ c.state) = true := decide_eq_true state
    rw [moved]
    simp only [Bool.true_or]
  · have moved : roleChanged c i = true := decide_eq_true role
    rw [moved]
    simp only [Bool.true_or, Bool.or_true]
  · have moved : conditionChanged c i = true := by
      unfold conditionChanged
      have other : (i.delivery.map (·.condition)).getD c.condition ≠ c.condition := condition
      cases given : i.delivery with
      | none =>
        rw [given] at other
        exact absurd rfl other
      | some d =>
        rw [given] at other
        exact decide_eq_true other
    rw [moved]
    simp only [Bool.true_or, Bool.or_true]

/-! ### Bodies of records -/

theorem laneBody_inLane (t : State) (i : InLane) : laneBody t (inLaneEntry i) = inLaneBody t.lrx.lanes[i] :=
  laneBody_in t (inLaneEntry_val i)

theorem laneBody_outLane (t : State) (o : OutLane) : laneBody t (outLaneEntry o) = outLaneBody t.ltx.lanes[o] :=
  laneBody_out t (outLaneEntry_val o)

theorem inLaneBody_marks (c : InLaneCtx) (pending : Bool) :
    inLaneBody ({ c with statusPending := pending } : InLaneCtx).endTick = inLaneBody c := rfl

theorem outLaneBody_marks (c : OutLaneCtx) (pending : Bool) :
    outLaneBody { c with statusPending := pending } = outLaneBody c := rfl

theorem lineBody_marks (l : Line) (c : LineCtx) (pending : Bool) (winner : Option Route) (count : BitVec 32) :
    lineBody l { c with reportPending := pending } winner count = lineBody l c winner count := rfl

/-- A snapshot shows a lane as it stood before the tick where its events come after the snapshot, and else after it. -/
theorem State.seenAt_laneBody (s t : State) (pins : BitVec 16) (first : Bool) (e : Fin 9) :
    laneBody (t.seenAt s pins first) e =
      if first = true ∧ (s.tickFlags pins).lanes e = true then laneBody s e else laneBody t e := by
  by_cases low : e.val < 5
  · obtain ⟨i, rfl, -⟩ := lanePending_in low
    rw [laneBody_inLane, laneBody_inLane, laneBody_inLane, s.seenAt_inLane pins]
    split <;> rfl
  · obtain ⟨o, rfl, -⟩ := lanePending_out low
    rw [laneBody_outLane, laneBody_outLane, laneBody_outLane, s.seenAt_outLane pins]
    split <;> rfl

/-! ### The records of a tick's round -/

section
variable {s : State} {pins : BitVec 16} {follows first : Bool}
  (idle : s.report.round = none) {r : Round} (round : (s.blockTick pins follows first).report.round = some r)
include idle round

/-- A tick that begins a round takes the work its snapshots show, with the flags that the later events set again. -/
theorem State.blockTick_begun :
    let seen := (s.tickEvents pins follows).seenAt s pins first
    r = newRound seen seen.work ∧
      s.blockTick pins follows first = ((s.tickEvents pins follows).startRound seen
        (if first = true then s.tickFlags pins else ReportFlags.clear) seen.work).endTick false := by
  intro seen
  obtain ⟨-, same⟩ | ⟨-, -, begun⟩ := s.blockTick_cases pins follows first
  · exact nomatch round.symm.trans (same.trans idle)
  · rw [begun, State.endTick_report] at round
    have own : newRound seen seen.work = r := Option.some.inj round
    exact ⟨own.symm, begun⟩

theorem State.blockTick_partRecord (x : RoundRecord) (among : x ∈ r.todo) (kind : x.kind = .part) :
    x.body = partBody (s.blockTick pins follows first) (s.blockTick pins follows first).report.blockCount := by
  obtain ⟨rfl, begun⟩ := State.blockTick_begun idle round
  obtain ⟨v, -, rfl⟩ | ⟨-, rfl⟩ | ⟨e, -, rfl⟩ | ⟨l, -, rfl⟩ | ⟨-, i, rfl⟩ := (mem_roundRecords_iff _ _ x).mp among
  · exact nomatch kind
  · have seen : partBody ((s.tickEvents pins follows).seenAt s pins first)
        ((s.tickEvents pins follows).seenAt s pins first).report.blockCount =
        partBody (s.tickEvents pins follows) (s.tickEvents pins follows).report.blockCount := by
      unfold State.seenAt
      split
      · unfold partBody
        rw [State.seenBefore_report, State.seenBefore_intake, State.seenBefore_link, State.seenBefore_ref,
          State.seenBefore_scrn]
      · rfl
    refine seen.trans ?_
    rw [begun]
    unfold partBody
    rw [State.endTick_report, State.endTick_intake, State.endTick_link, State.endTick_ref, State.endTick_scrn,
      State.startRound_intake, State.startRound_link, State.startRound_ref, State.startRound_scrn]
    rfl
  all_goals exact nomatch kind

/-- A lane record shows the lane before the tick where it is left marked, and else after it. -/
theorem State.blockTick_laneRecord (x : RoundRecord) (among : x ∈ r.todo) (e : Fin 9) (kind : x.kind = .lane e) :
    let t := s.blockTick pins follows first
    (first = false → lanePending t e = false) ∧ (lanePending t e = false → x.body = laneBody t e) ∧
      (lanePending t e = true → x.body = laneBody s e) := by
  intro t
  obtain ⟨rfl, begun⟩ := State.blockTick_begun idle round
  obtain ⟨v, -, rfl⟩ | ⟨-, rfl⟩ | ⟨f, carried, rfl⟩ | ⟨l, -, rfl⟩ | ⟨-, i, rfl⟩ := (mem_roundRecords_iff _ _ x).mp among
  · exact nomatch kind
  · exact nomatch kind
  · obtain rfl := RecordKind.lane.inj kind
    have shows := s.seenAt_laneBody (s.tickEvents pins follows) pins first f
    have ended : t = _ := begun
    generalize (s.tickEvents pins follows).seenAt s pins first = seen at carried ended shows
    have left : lanePending t f = (first && (s.tickFlags pins).lanes f) ∧
        laneBody t f = laneBody (s.tickEvents pins follows) f := by
      have own : (if first = true then s.tickFlags pins else ReportFlags.clear).lanes f =
          (first && (s.tickFlags pins).lanes f) := by
        cases first <;> rfl
      rw [← own, ended, State.endTick_lanePending]
      by_cases low : f.val < 5
      · obtain ⟨i, rfl, flag⟩ := lanePending_in low
        have lane (k : InLane) := Lrx.flag_entry (s.tickEvents pins follows).lrx seen.work.carriedLanes
          (if first = true then s.tickFlags pins else ReportFlags.clear).lanes k
        refine ⟨?_, ?_⟩
        · rw [flag]
          unfold State.startRound
          rw [lane, if_pos carried]
        · rw [laneBody_inLane, laneBody_inLane, State.endTick_inLane]
          unfold State.startRound
          rw [lane]
          exact inLaneBody_marks ..
      · obtain ⟨o, rfl, flag⟩ := lanePending_out low
        have lane (k : OutLane) := Ltx.flag_entry (s.tickEvents pins follows).ltx seen.work.carriedLanes
          (if first = true then s.tickFlags pins else ReportFlags.clear).lanes k
        refine ⟨?_, ?_⟩
        · rw [flag]
          unfold State.startRound
          rw [lane, if_pos carried]
        · rw [laneBody_outLane, laneBody_outLane, State.endTick_ltx]
          unfold State.startRound
          rw [lane]
          exact outLaneBody_marks ..
    obtain ⟨flag, body⟩ := left
    rw [flag, body]
    refine ⟨fun last => by rw [last]; rfl, fun off => ?_, fun on => ?_⟩
    · refine shows.trans (if_neg fun both => ?_)
      rw [both.1, both.2] at off
      exact nomatch off
    · exact shows.trans (if_pos (by rwa [Bool.and_eq_true] at on))
  all_goals exact nomatch kind

/-- The mark that a tick leaves on a line that its round carries. -/
theorem State.blockTick_lineLeft {l : Line}
    (carried : l ∈ ((s.tickEvents pins follows).seenAt s pins first).work.carriedLines) :
    (s.blockTick pins follows first).line.ctx[l] =
      { s.linePart.line.ctx[l] with reportPending := first && (s.tickFlags pins).lines l } := by
  obtain ⟨-, begun⟩ := State.blockTick_begun idle round
  obtain ⟨-, -, -, line, -⟩ := s.tickEvents_parts pins follows
  have own : (if first = true then s.tickFlags pins else ReportFlags.clear).lines l =
      (first && (s.tickFlags pins).lines l) := by
    cases first <;> rfl
  rw [← own, begun, State.endTick_line, ← line]
  generalize (s.tickEvents pins follows).seenAt s pins first = seen at carried
  unfold State.startRound
  rw [LineBlock.flag_line, if_pos carried]

/-- A line record shows the line before its events where it is left marked, and else after them. -/
theorem State.blockTick_lineRecord (x : RoundRecord) (among : x ∈ r.todo) (l : Line) (kind : x.kind = .line l) :
    let t := s.blockTick pins follows first
    let winner := (t.cue.returns[l]).winner
    (t.line.ctx[l]).reportPending = (first && (s.tickFlags pins).lines l) ∧
      ((t.line.ctx[l]).reportPending = false → x.body = lineBody l t.line.ctx[l] winner t.report.blockCount) ∧
      ((t.line.ctx[l]).reportPending = true →
        x.body = lineBody l (s.line.ctx[l]).beforeEvents winner t.report.blockCount) := by
  intro t winner
  obtain ⟨rfl, begun⟩ := State.blockTick_begun idle round
  obtain ⟨v, -, rfl⟩ | ⟨-, rfl⟩ | ⟨e, -, rfl⟩ | ⟨k, carried, rfl⟩ | ⟨-, i, rfl⟩ := (mem_roundRecords_iff _ _ x).mp among
  · exact nomatch kind
  · exact nomatch kind
  · exact nomatch kind
  · obtain rfl := RecordKind.line.inj kind
    have left : t.line.ctx[k] = _ := State.blockTick_lineLeft idle round carried
    obtain ⟨-, -, -, line, -⟩ := s.tickEvents_parts pins follows
    have shows := s.seenAt_line pins (s.tickEvents pins follows) first k
    have cue : winner = (((s.tickEvents pins follows).seenAt s pins first).cue.returns[k]).winner := by
      rw [State.seenAt_cue]
      show ((s.blockTick pins follows first).cue.returns[k]).winner = _
      rw [begun, State.endTick_cue, State.startRound_cue]
    have count : t.report.blockCount = ((s.tickEvents pins follows).seenAt s pins first).report.blockCount := by
      rw [State.seenAt_report]
      show (s.blockTick pins follows first).report.blockCount = _
      rw [begun, State.endTick_report]
      rfl
    rw [left, cue, count, lineBody_marks]
    refine ⟨rfl, fun off => ?_, fun on => ?_⟩
    · have late : ¬(first = true ∧ (s.tickFlags pins).lines k = true) := fun both => by
        dsimp only at off
        rw [both.1, both.2] at off
        exact nomatch off
      rw [if_neg late, line] at shows
      exact (congrArg (lineBody k · _ _) shows).trans (lineBody_marks ..).symm
    · have early : first = true ∧ (s.tickFlags pins).lines k = true := (Bool.and_eq_true _ _).mp on
      rw [if_pos early] at shows
      show lineBody k ((s.tickEvents pins follows).seenAt s pins first).line.ctx[k] _ _ = _
      rw [shows]
  · exact nomatch kind

end

end Sys2Proof.Machine

open Sys2Proof Sys2Proof.Machine

/-- Settles O27: a block tick, block by block, and the records of the round that it begins. -/
theorem blockTickCounts : Obligations.BlockTickCounts := by
  unfold Obligations.BlockTickCounts
  intro s pins follows first
  obtain ⟨busy, stopped, stays⟩ := s.blockTick_round pins follows first
  have engine := s.blockTick_engine pins follows first
  refine ⟨_, exec_blockTick s pins follows first, ?_, ?_, ?_, ?_, fun on => ?_, fun off on master => ?_, fun off barred => ?_,
    busy, stopped, stays, s.blockTick_peaks pins follows first, s.blockTick_linkFrame pins follows first, fun plain => ?_,
    fun r idle round x among => ⟨State.blockTick_partRecord idle round x among,
      fun e kind => State.blockTick_laneRecord idle round x among e kind, fun l kind => ?_⟩⟩
  · have events := s.tickEvents_blockCount pins follows
    obtain report | ⟨-, w, round, -, -, report⟩ := s.blockTick_report_cases pins follows first
    · rw [report, events]
    · rw [report]
      exact events
  · rw [s.blockTick_looks, State.endTick_inst]
  · simp
  · simp
  · rw [engine, Link.engineTick_on on]
  · rw [engine]
    exact (Link.engineTick_active_iff _).mpr (.inr ⟨off, on, master⟩)
  · rw [engine, Link.engineTick_barred barred, off]
  · have free := State.applyDue_false plain
    obtain ⟨mix, codes⟩ := State.blockTick_mixSettings free pins follows first
    obtain ⟨line, scrn, cmap, lrx, ltx⟩ := State.blockTick_settings free pins follows first
    exact ⟨mix, codes, line, scrn, cmap, lrx, ltx, State.blockTick_reportSettings free pins follows first,
      State.blockTick_workStands free pins follows first, State.blockTick_outLanePlain free pins follows first,
      fun i stands => State.blockTick_inLaneStands free pins follows first i stands⟩
  · intro winner
    obtain ⟨flag, after, before⟩ := State.blockTick_lineRecord idle round x among l kind
    refine ⟨fun unmarked => ?_, after, fun on => ⟨_, before on, rfl, rfl, ?_⟩, fun early changed => ?_⟩
    · rw [flag]
      obtain late | ⟨taken, sound⟩ := unmarked
      · rw [late, Bool.false_and]
      · rw [State.tickFlags_taken taken sound, Bool.and_false]
    · unfold LineCtx.beforeEvents
      generalize s.line.ctx[l] = c
      by_cases lost : c.state = .lost <;> simp [lost]
    · obtain ⟨pending, own⟩ := s.blockTick_line pins follows first l
      obtain ⟨e, i, n, tick, event⟩ := s.linePart_lineEvents pins l
      rw [tick] at own
      rw [own] at changed
      rw [flag, early, Bool.true_and, event]
      exact lineMarked_of_changed changed
end

