-- ==== Sys2Proof/Proofs/ApplyBlocks.lean ====
section
/-! PROOFS. The apply, block by block: what is handed over, and what the tick of every lane and line then moves (R121 to
R124). -/

namespace Sys2Proof.Machine

/-! ### What is handed over -/

section
variable (s : State)

theorem State.handOver_mix : s.handOver.mix = s.mix.applied s.intake.staging := by
  unfold State.handOver
  rfl

theorem State.handOver_scrn : s.handOver.scrn = s.scrn.applied s.intake.staging := by
  unfold State.handOver
  rfl

theorem State.handOver_cmap :
    s.handOver.cmap = s.cmap.applied s.intake.staging (restartedLanes s.lrx s.intake.staging) := by
  unfold State.handOver
  rfl

theorem State.handOver_intake : s.handOver.intake = s.intake.applied s.applyRefused := by
  unfold State.handOver
  rfl

theorem State.handOver_report :
    s.handOver.report = s.report.applied (s.intake.applied s.applyRefused).verdicts s.intake.staging := by
  unfold State.handOver
  rfl

theorem State.handOver_inst :
    s.handOver.inst =
      s.inst.applied (restartedLanes s.lrx s.intake.staging) (replacedRoutes s.cue s.intake.staging) := by
  unfold State.handOver
  rfl

theorem State.handOver_timing : s.handOver.timing = s.intake.staging.timing.getD s.timing := by
  cases given : s.intake.staging.timing with
  | none => simp [State.timing, State.handOver, Mix.applied, LineBlock.applied, Cmap.applied, Lrx.applied, Report.applied, given]
  | some x => simp [State.timing, State.handOver, Mix.applied, LineBlock.applied, Cmap.applied, Lrx.applied, Report.applied, given]

/-! ### The tick of every lane and line -/

/-- The part with every staged record handed over and the tick of every lane and line, its role counts as they were. -/
def State.phased : State :=
  s.handOver.linePhase s.admittedPlans ((s.handOver.line.dumpDepth : Int) - s.line.dumpDepth)

theorem State.applyTick_phased :
    s.applyTick = if s.intake.staging.carriesLines = true then s.phased.countRoles else s.phased := rfl

theorem State.applyTick_of {α : Type} (f : State → α) (same : ∀ u : State, f u.countRoles = f u) :
    f s.applyTick = f s.phased := by
  rw [State.applyTick_phased]
  split
  · exact same _
  · rfl

theorem State.applyTick_intake : s.applyTick.intake = s.intake.applied s.applyRefused := by
  rw [s.applyTick_of (·.intake) State.countRoles_intake]
  exact (State.linePhase_intake ..).trans s.handOver_intake

theorem State.applyTick_mix :
    s.applyTick.mix = { s.mix.applied s.intake.staging with returns := s.applyTick.mix.returns } := by
  rw [s.applyTick_of (·.mix) State.countRoles_mix, ← s.handOver_mix]
  exact State.linePhase_mix ..

theorem State.applyTick_ltx : s.applyTick.ltx = s.ltx.applied s.intake.staging := by
  rw [s.applyTick_of (·.ltx) State.countRoles_ltx]
  exact (State.linePhase_ltx ..).trans s.handOver_ltx

theorem State.applyTick_lane (i : InLane) : s.applyTick.lrx.lanes[i] = s.handOver.laneAfter i := by
  rw [s.applyTick_of (·.lrx) State.countRoles_lrx]
  exact State.linePhase_lane ..

theorem State.applyTick_laneLoss : s.applyTick.lrx.laneLoss = s.handOver.lrx.laneLoss := by
  rw [s.applyTick_of (·.lrx) State.countRoles_lrx]
  exact State.linePhase_laneLoss ..

theorem State.applyTick_cmap :
    s.applyTick.cmap = { s.handOver.cmap with records := Vector.ofFn fun l =>
      if s.handOver.inst.lines[l] then s.handOver.cmap.records[l] else s.handOver.settleAfter l } := by
  rw [s.applyTick_of (·.cmap) State.countRoles_cmap]
  exact State.linePhase_cmap ..

theorem State.applyTick_line :
    s.applyTick.line = { s.line.applied s.intake.staging with
      ctx := linesTick (s.handOver.lineEnv ((s.handOver.line.dumpDepth : Int) - s.line.dumpDepth)) s.line.ctx
        (s.handOver.lineInputs s.admittedPlans) s.scrn.arrivals } := by
  have phase := State.linePhase_lineBlock s.handOver s.admittedPlans
    ((s.handOver.line.dumpDepth : Int) - s.line.dumpDepth)
  have arrivals : s.handOver.scrn.arrivals = s.scrn.arrivals := by
    rw [s.handOver_scrn]
    rfl
  rw [s.applyTick_of (·.line) State.countRoles_line]
  refine phase.trans ?_
  rw [arrivals, s.handOver_ctx, s.handOver_lineBlock]

theorem State.applyTick_arrivals :
    s.applyTick.scrn.arrivals = arrivalsTick s.line.ctx (s.handOver.lineInputs s.admittedPlans) s.scrn.arrivals := by
  have phase := State.linePhase_scrn s.handOver s.admittedPlans ((s.handOver.line.dumpDepth : Int) - s.line.dumpDepth)
  have arrivals : s.handOver.scrn.arrivals = s.scrn.arrivals := by
    rw [s.handOver_scrn]
    rfl
  rw [s.applyTick_of (·.scrn.arrivals) fun u => rfl]
  refine (congrArg Scrn.arrivals phase).trans ?_
  rw [arrivals, s.handOver_ctx]

theorem State.applyTick_table : s.applyTick.scrn.table = s.intake.staging.screening.getD s.scrn.table := by
  have phase := State.linePhase_scrn s.handOver s.admittedPlans ((s.handOver.line.dumpDepth : Int) - s.line.dumpDepth)
  rw [s.applyTick_of (·.scrn.table) fun u => rfl]
  refine (congrArg Scrn.table phase).trans ?_
  rw [s.handOver_scrn]
  rfl

theorem State.applyTick_inst :
    s.applyTick.inst =
      (s.inst.applied (restartedLanes s.lrx s.intake.staging) (replacedRoutes s.cue s.intake.staging)).allLines := by
  rw [s.applyTick_of (·.inst) State.countRoles_inst, ← s.handOver_inst]
  exact State.linePhase_inst ..

theorem State.applyTick_keys : s.applyTick.cue.keys = (s.cue.applied s.intake.staging).keys := by
  rw [s.applyTick_of (·.cue) State.countRoles_cue, ← s.handOver_cue]
  exact State.linePhase_keys ..

theorem State.applyTick_routes : s.applyTick.cue.routes = (s.cue.applied s.intake.staging).routes := by
  rw [s.applyTick_of (·.cue) State.countRoles_cue, ← s.handOver_cue]
  exact State.linePhase_routes ..

theorem State.applyTick_timing : s.applyTick.timing = s.intake.staging.timing.getD s.timing := by
  rw [s.applyTick_of State.timing fun u => rfl, ← s.handOver_timing]
  exact State.linePhase_timing ..

/-- The role counts are set by an apply that carries line plan records, and else stand (R80). -/
theorem State.applyTick_roleCounts :
    s.applyTick.scrn.roleCounts =
      if s.intake.staging.carriesLines = true then
        Vector.ofFn (roleCount (Vector.ofFn fun l => (s.applyTick.line.ctx[l]).plan.role))
      else s.scrn.roleCounts := by
  have line : s.applyTick.line = s.phased.line := s.applyTick_of (·.line) State.countRoles_line
  have counted (u : State) : u.countRoles.scrn.roleCounts =
      Vector.ofFn (roleCount (Vector.ofFn fun l => (u.line.ctx[l]).plan.role)) := rfl
  rw [line, State.applyTick_phased]
  split
  · exact counted s.phased
  · exact (State.linePhase_roleCounts ..).trans s.handOver_roleCounts

theorem Staging.carriesLines_iff (g : Staging) : g.carriesLines = true ↔ ∃ l : Line, (g.lines[l]).isSome = true := by
  unfold Staging.carriesLines
  rw [List.any_eq_true]
  exact ⟨fun ⟨l, _, carried⟩ => ⟨l, carried⟩, fun ⟨l, carried⟩ => ⟨l, List.mem_finRange l, carried⟩⟩

/-! ### Returns (R68) -/

/-- The return of a line that enters VACANT loses its cue, and every other return stands. -/
theorem State.applyTick_return (l : Line) :
    let t := s.applyTick
    let vacated := (t.line.ctx[l]).state = .vacant ∧ (s.line.ctx[l]).state ≠ .vacant
    (¬vacated → t.mix.returns[l] = s.mix.returns[l] ∧ t.cue.returns[l] = s.cue.returns[l]) ∧
      (vacated → t.mix.returns[l] = (s.mix.returns[l]).vacate ∧ t.cue.returns[l] = CueReturn.clear) := by
  intro t vacated
  obtain ⟨mix, cue⟩ := s.handOver.linePhase_return s.admittedPlans
    ((s.handOver.line.dumpDepth : Int) - s.line.dumpDepth) l
  have entered : ((s.phased.line.ctx[l]).state = .vacant && (s.handOver.line.ctx[l]).state ≠ .vacant : Bool) = true ↔
      vacated := by
    have line : t.line = s.phased.line := s.applyTick_of (·.line) State.countRoles_line
    rw [Bool.and_eq_true, decide_eq_true_eq, decide_eq_true_eq, ← line, s.handOver_ctx]
  have mixOf : t.mix = s.phased.mix := s.applyTick_of (·.mix) State.countRoles_mix
  have cueOf : t.cue = s.phased.cue := s.applyTick_of (·.cue) State.countRoles_cue
  rw [s.handOver_mixReturns] at mix
  rw [s.handOver_cueReturns] at cue
  rw [mixOf, cueOf]
  refine ⟨fun out => ⟨mix.trans (if_neg (mt entered.mp out)), cue.trans (if_neg (mt entered.mp out))⟩,
    fun goes => ⟨mix.trans (if_pos (entered.mpr goes)), cue.trans (if_pos (entered.mpr goes))⟩⟩

end

end Sys2Proof.Machine
end

