-- ==== Sys2Proof/Proofs/ApplySetups.lean ====
section
/-! PROOFS. The apply on lanes and routes: what a lane setup restarts, and what an applied route entry replaces (R59 to
R61, R87, R89, R102). -/

namespace Sys2Proof.Machine

/-! ### Lane setups -/

theorem setupRestarts_iff (held applied : LaneSetup) :
    setupRestarts held applied = true ↔
      applied.enabled ≠ held.enabled ∨ (applied.enabled = true ∧ applied.clocking ≠ held.clocking) := by
  unfold setupRestarts
  rw [Bool.or_eq_true, Bool.and_eq_true, decide_eq_true_eq, decide_eq_true_eq, ne_comm, ne_comm (a := held.clocking)]

theorem setupRestarts_same (held : LaneSetup) : setupRestarts held held = false := by
  unfold setupRestarts
  simp

section
variable (s : State)

/-- The setup of an input lane after an apply: the one staged, or its own. -/
def State.inSetup (i : InLane) : LaneSetup :=
  match s.intake.staging.lanes with
  | none => (s.lrx.lanes[i]).setup
  | some p => p.inputs[i]

/-- The setup of an output lane after an apply: the one staged, or its own. -/
def State.outSetup (o : OutLane) : LaneSetup :=
  match s.intake.staging.lanes with
  | none => (s.ltx.lanes[o]).setup
  | some p => p.outputs[o]

theorem InLaneCtx.applySetup_kept {c : InLaneCtx} {p : LaneSetup} (kept : setupRestarts c.setup p = false) :
    c.applySetup p = { c with setup := p } := if_pos (by rw [kept]; rfl)

theorem OutLaneCtx.applySetup_kept {c : OutLaneCtx} {p : LaneSetup} (kept : setupRestarts c.setup p = false) :
    c.applySetup p = { c with setup := p } := if_pos (by rw [kept]; rfl)

theorem State.handOver_inSetup (i : InLane) :
    s.handOver.lrx.lanes[i] = (s.lrx.lanes[i]).applySetup (s.inSetup i) ∧
      (restartedLanes s.lrx s.intake.staging)[i] = setupRestarts (s.lrx.lanes[i]).setup (s.inSetup i) := by
  rw [s.handOver_inLane]
  unfold State.inSetup restartedLanes
  cases s.intake.staging.lanes with
  | none =>
    have same := setupRestarts_same (s.lrx.lanes[i]).setup
    refine ⟨(InLaneCtx.applySetup_kept same).symm, ?_⟩
    rw [same]
    simp
  | some p => exact ⟨rfl, ofFn_at ..⟩

theorem State.handOver_outSetup (o : OutLane) :
    s.handOver.ltx.lanes[o] = (s.ltx.lanes[o]).applySetup (s.outSetup o) := by
  rw [s.handOver_outLane]
  unfold State.outSetup
  cases s.intake.staging.lanes with
  | none => exact (OutLaneCtx.applySetup_kept (setupRestarts_same (s.ltx.lanes[o]).setup)).symm
  | some p => rfl

/-- An input lane after an apply: its setup, then its tick, which a restart takes. -/
theorem State.applyTick_inSetup (i : InLane) :
    s.applyTick.lrx.lanes[i] = ((s.lrx.lanes[i]).applySetup (s.inSetup i)).tick s.applyTick.lrx.laneLoss
      (s.inst.lanes[i] || setupRestarts (s.lrx.lanes[i]).setup (s.inSetup i)) := by
  obtain ⟨lane, restarted⟩ := s.handOver_inSetup i
  have marks : s.handOver.inst.lanes[i] = (s.inst.lanes[i] || setupRestarts (s.lrx.lanes[i]).setup (s.inSetup i)) := by
    rw [s.handOver_inst, ← restarted]
    exact ofFn_at ..
  rw [s.applyTick_lane, s.applyTick_laneLoss, ← lane, ← marks]
  rfl

theorem State.applyTick_outSetup (o : OutLane) :
    s.applyTick.ltx.lanes[o] = (s.ltx.lanes[o]).applySetup (s.outSetup o) := by
  rw [s.applyTick_ltx, ← s.handOver_ltx]
  exact s.handOver_outSetup o

end

/-! ### An input lane with a setup applied -/

section
variable (c : InLaneCtx) (p : LaneSetup) (laneLoss : Nat) (taken : Bool)

theorem InLaneCtx.tick_setup : (c.tick laneLoss taken).setup = c.setup := by
  unfold InLaneCtx.tick
  split
  · rfl
  · split
    · rfl
    · unfold InLaneCtx.seekTick
      split <;> rfl

/-- A lane is shown lost exactly where it is. -/
theorem InLaneCtx.tick_lostShown :
    (c.tick laneLoss taken).lostShown = true ↔
      (c.tick laneLoss taken).state = .seeking ∧ laneLoss ≤ (c.tick laneLoss taken).seeking := by
  have shown : (c.tick laneLoss taken).lostShown = (c.tick laneLoss taken).isLost laneLoss := by
    unfold InLaneCtx.tick
    split
    · rfl
    · split <;> rfl
  rw [shown]
  unfold InLaneCtx.isLost
  rw [Bool.and_eq_true, decide_eq_true_eq, decide_eq_true_eq]

theorem InLaneCtx.applySetup_setup : (c.applySetup p).setup = p := by
  unfold InLaneCtx.applySetup
  dsimp only
  split
  · rfl
  · split <;> rfl

theorem InLaneCtx.applySetup_sideSample : (c.applySetup p).sideSample = c.sideSample := by
  unfold InLaneCtx.applySetup
  dsimp only
  split
  · rfl
  · split <;> rfl

theorem InLaneCtx.showLost_marked (marked : c.statusPending = true) :
    c.showLost laneLoss = { c with lostShown := (c.showLost laneLoss).lostShown } := by
  unfold InLaneCtx.showLost
  rw [marked, Bool.true_or]

/-- A lane as it begins to seek, shown lost or not. -/
def InLaneCtx.seeks (shown : Bool) : InLaneCtx :=
  { c with
    setup := p, state := .seeking, run := 0, seeking := 0, lostShown := shown, buffer := [], mode := .refilling
    shown := Shown.silent, frameSeen := false, readDone := false, statusPending := true }

/-- A restarted lane enters SEEKING or OFF. -/
theorem InLaneCtx.tick_restarted (restarts : setupRestarts c.setup p = true) :
    let c' := (c.applySetup p).tick laneLoss (taken || setupRestarts c.setup p)
    c' = if p.enabled = true then c.seeks p c'.lostShown else { c.seeks p c'.lostShown with state := .off } := by
  intro c'
  have whole : c' = (c.applySetup p).showLost laneLoss := by
    show (c.applySetup p).tick laneLoss (taken || setupRestarts c.setup p) = _
    rw [restarts, Bool.or_true]
    exact InLaneCtx.tick_taken _
  have applied : c.applySetup p = if p.enabled = true then ({ c with setup := p } : InLaneCtx).enterSeeking
      else ({ c with setup := p } : InLaneCtx).enterOff := if_neg (by rw [restarts]; decide)
  rw [applied] at whole
  split at whole
  next on =>
    rw [if_pos on, whole, InLaneCtx.showLost_marked _ _ rfl]
    rfl
  next off =>
    rw [if_neg off, whole, InLaneCtx.showLost_marked _ _ rfl]
    rfl

section
variable {c p laneLoss taken} (kept : setupRestarts c.setup p = false)
include kept

theorem InLaneCtx.tick_kept :
    (c.applySetup p).tick laneLoss (taken || setupRestarts c.setup p) =
      ({ c with setup := p } : InLaneCtx).tick laneLoss taken := by
  rw [InLaneCtx.applySetup_kept kept, kept, Bool.or_false]

/-- A lane not restarted loses its lock by a missing sync. -/
theorem InLaneCtx.tick_keptMissing (fresh : taken = false) (locked : c.state = .locked) (slave : p.clocking = .slave)
    (unseen : c.frameSeen = false) :
    let c' := (c.applySetup p).tick laneLoss (taken || setupRestarts c.setup p)
    c' = { c.seeks p c'.lostShown with syncLosses := min 65535 (c.syncLosses + 1) } := by
  intro c'
  have missing : ({ c with setup := p } : InLaneCtx).syncMissing = true :=
    InLaneCtx.syncMissing_of locked slave unseen
  have whole : c' = ({ c with setup := p } : InLaneCtx).loseLock.showLost laneLoss := by
    show (c.applySetup p).tick laneLoss (taken || setupRestarts c.setup p) = _
    rw [InLaneCtx.tick_kept kept, fresh]
    exact InLaneCtx.tick_missing missing laneLoss
  rw [whole, InLaneCtx.showLost_marked _ _ rfl]
  rfl

/-- A lane that nothing takes out of its state counts while SEEKING. -/
theorem InLaneCtx.tick_keptStays
    (stays : ¬(c.state = .locked ∧ p.clocking = .slave ∧ c.frameSeen = false ∧ taken = false)) :
    let c' := (c.applySetup p).tick laneLoss (taken || setupRestarts c.setup p)
    c' =
      { c with
        setup := p, lostShown := c'.lostShown, statusPending := c'.statusPending
        seeking := if c.state = .seeking ∧ taken = false then min 65535 (c.seeking + 1) else c.seeking } ∧
      (c'.statusPending = true ↔ c.statusPending = true ∨ c'.lostShown ≠ c.lostShown) := by
  intro c'
  have whole : c' = ({ c with
      setup := p
      seeking := if c.state = .seeking ∧ taken = false then min 65535 (c.seeking + 1) else c.seeking } :
        InLaneCtx).showLost laneLoss := by
    show (c.applySetup p).tick laneLoss (taken || setupRestarts c.setup p) = _
    rw [InLaneCtx.tick_kept kept]
    cases taken with
    | true =>
      rw [if_neg fun both => nomatch both.2]
      exact InLaneCtx.tick_taken _
    | false =>
      have seen : ({ c with setup := p } : InLaneCtx).syncMissing = false := Bool.eq_false_iff.mpr fun missing => by
        obtain ⟨locked, slave, unseen⟩ := InLaneCtx.syncMissing_iff.mp missing
        exact stays ⟨locked, slave, unseen, rfl⟩
      rw [InLaneCtx.tick_counts seen]
      unfold InLaneCtx.seekTick
      by_cases seeking : c.state = .seeking
      · rw [if_pos seeking, if_pos ⟨seeking, rfl⟩]
        rfl
      · rw [if_neg seeking, if_neg fun both => seeking both.1]
  rw [whole]
  unfold InLaneCtx.showLost
  refine ⟨rfl, ?_⟩
  rw [Bool.or_eq_true, decide_eq_true_eq]

end

end

/-! ### An output lane with a setup applied -/

section
variable (c : OutLaneCtx) (p : LaneSetup)

theorem OutLaneCtx.applySetup_setup : (c.applySetup p).setup = p := by
  unfold OutLaneCtx.applySetup
  dsimp only
  split
  · rfl
  · split
    · rfl
    · split <;> rfl

theorem OutLaneCtx.applySetup_enabled (changed : p.enabled ≠ c.setup.enabled) :
    c.applySetup p =
      { c with
        setup := p, running := p.enabled, buffer := [], mode := .refilling, previous := SlotWords.silent
        statusPending := true, sent := if p.enabled = true then c.sent else none } := by
  have restarts : setupRestarts c.setup p = true := (setupRestarts_iff _ _).mpr (.inl changed)
  unfold OutLaneCtx.applySetup
  rw [restarts]
  cases on : p.enabled with
  | false => rfl
  | true =>
    have off : c.setup.enabled = false := by
      cases held : c.setup.enabled with
      | false => rfl
      | true => exact absurd (on.trans held.symm) changed
    rw [off]
    rfl

theorem OutLaneCtx.applySetup_clocking (same : p.enabled = c.setup.enabled) (restarts : setupRestarts c.setup p = true) :
    c.applySetup p =
      { c with setup := p, buffer := [], mode := .refilling, previous := SlotWords.silent } := by
  have on : p.enabled = true := by
    obtain changed | ⟨on, -⟩ := (setupRestarts_iff _ _).mp restarts
    · exact absurd same changed
    · exact on
  unfold OutLaneCtx.applySetup
  rw [restarts, on, ← same, on]
  rfl

end

/-! ### Route entries -/

/-- The applied entry keeps the held route: only its cue code or hold value may differ. -/
def keepsRoute (held applied : RouteEntry) : Prop :=
  held.valid = true ∧ applied.talker = held.talker ∧ applied.key = held.key ∧ applied.target = held.target ∧
    applied.priority = held.priority ∧ applied.mode = held.mode

theorem keepsRoute_iff (held applied : RouteEntry) :
    keepsRoute held applied ↔ held.valid = true ∧ sameRoute held applied = true := by
  unfold keepsRoute sameRoute
  simp only [Bool.and_eq_true, decide_eq_true_eq, and_assoc, eq_comm (b := held.talker), eq_comm (b := held.key),
    eq_comm (b := held.target), eq_comm (b := held.priority), eq_comm (b := held.mode)]

theorem replaces_iff (held applied : RouteEntry) :
    replaces held applied = true ↔ applied.valid = true ∧ ¬keepsRoute held applied := by
  rw [keepsRoute_iff]
  unfold replaces
  cases applied.valid <;> cases held.valid <;> simp

section
variable {x : RouteCtx} {n : RouteEntry} (down : Bool)

theorem RouteCtx.applyEntry_kept (valid : n.valid = true) (same : keepsRoute x.entry n) :
    x.applyEntry n down = { x with entry := n } := by
  have stays : replaces x.entry n = false := Bool.eq_false_iff.mpr fun goes => ((replaces_iff _ _).mp goes).2 same
  unfold RouteCtx.applyEntry
  rw [valid, stays, Bool.not_true, Bool.and_false]
  rfl

theorem RouteCtx.applyEntry_replaced (valid : n.valid = true) (other : ¬keepsRoute x.entry n) :
    x.applyEntry n down =
      { entry := n, holdCount := 0, activity := if n.mode = .momentary ∧ down = true then .active else .idle } := by
  have goes : replaces x.entry n = true := (replaces_iff _ _).mpr ⟨valid, other⟩
  unfold RouteCtx.applyEntry
  rw [valid, goes, Bool.not_true, Bool.and_false]
  unfold RouteCtx.restart
  simp only [Bool.and_eq_true, decide_eq_true_eq]
  rfl

theorem RouteCtx.applyEntry_invalidated (invalid : n.valid = false) (valid : x.entry.valid = true) :
    x.applyEntry n down = { entry := { x.entry with valid := false }, activity := .idle, holdCount := 0 } :=
  if_pos (by rw [invalid, valid]; rfl)

theorem RouteCtx.applyEntry_invalid (invalid : n.valid = false) (held : x.entry.valid = false) :
    x.applyEntry n down = { x with entry := n } := by
  have stays : replaces x.entry n = false := by
    unfold replaces
    rw [invalid, Bool.false_and]
  unfold RouteCtx.applyEntry
  rw [held, stays, Bool.false_and]
  rfl

end

end Sys2Proof.Machine
end

