-- ==== Sys2Proof/Proofs/ApplyLines.lean ====
section
/-! PROOFS. The apply on CMAP and LINE: the settle records as the apply leaves them, and the tick of every line with the
record admitted for it (R46, R99 to R102, R121). -/

namespace Sys2Proof.Machine

section
variable (s : State) (l : Line)

/-- A line's settle record at an apply before its sample: clear on a lane that is not LOCKED after the tick, and with its
mark clear where a code table is applied. -/
def State.applyBase (t : State) : SettleRec :=
  if (t.lrx.lanes[lineLane l]).state ≠ .locked then { last := none, count := 0, delivered := false }
  else if s.intake.staging.codes.isSome = true then { s.cmap.records[l] with delivered := false }
  else s.cmap.records[l]

theorem State.handOver_sideSample (i : InLane) :
    (s.handOver.laneAfter i).sideSample = (s.lrx.lanes[i]).sideSample := by
  obtain ⟨lane, -⟩ := s.handOver_inSetup i
  have side : (s.handOver.laneAfter i).sideSample = (s.handOver.lrx.lanes[i]).sideSample := InLaneCtx.tick_sideSample ..
  rw [side, lane, InLaneCtx.applySetup_sideSample]

/-- A lane that is LOCKED after an apply has not been restarted by it. -/
theorem State.applyTick_unrestarted {i : InLane} (locked : (s.applyTick.lrx.lanes[i]).state = .locked) :
    (restartedLanes s.lrx s.intake.staging)[i] = false := by
  obtain ⟨-, restarted⟩ := s.handOver_inSetup i
  rw [restarted]
  refine Bool.eq_false_iff.mpr fun restarts => ?_
  have moved := InLaneCtx.tick_restarted (s.lrx.lanes[i]) (s.inSetup i) s.applyTick.lrx.laneLoss s.inst.lanes[i] restarts
  rw [← s.applyTick_inSetup i] at moved
  dsimp only at moved
  rw [moved] at locked
  split at locked <;> exact nomatch locked

theorem State.applyTick_sampleAt :
    s.sampleAt s.applyTick l =
      if (s.handOver.laneAfter (lineLane l)).state = .locked then
        (s.handOver.laneAfter (lineLane l)).sideSample[lineSlot l]
      else none := by
  unfold State.sampleAt
  rw [s.applyTick_lane, s.handOver_sideSample]

theorem State.handOver_record :
    s.handOver.cmap.records[l] = (s.cmap.records[l]).applied (restartedLanes s.lrx s.intake.staging)[lineLane l]
      s.intake.staging.codes.isSome := by
  rw [s.handOver_cmap]
  exact ofFn_at ..

/-- A settle record at an apply before its check: the record held after the apply, with the sample of the tick. -/
theorem State.handOver_settleRecord :
    s.handOver.settleRecord l = (s.applyBase l s.applyTick).withSample (s.sampleAt s.applyTick l) := by
  have lane := s.applyTick_lane (lineLane l)
  rw [s.applyTick_sampleAt, ← SettleRec.sampled_withSample]
  unfold State.settleRecord State.applyBase
  rw [lane]
  by_cases locked : (s.handOver.laneAfter (lineLane l)).state = .locked
  · have kept := s.applyTick_unrestarted (lane ▸ locked)
    rw [settleSampled_locked _ _ _ locked, if_neg fun out => out locked, if_pos locked, s.handOver_record, kept]
    rfl
  · rw [settleSampled_cleared _ _ _ locked, if_pos locked, if_neg locked]
    rfl

/-- What CMAP delivers, read from the part after the tick. -/
theorem State.delivery_deliveredAt {s h t : State} {held : SettleRec} {l : Line}
    (lane : t.lrx.lanes[lineLane l] = h.laneAfter (lineLane l)) (loss : t.lrx.laneLoss = h.lrx.laneLoss)
    (table : t.cmap.table = h.cmap.table) (settle : t.cmap.settle = h.cmap.settle)
    (record : h.settleRecord l = held.withSample (s.sampleAt t l)) : h.delivery l = s.deliveredAt t held l := by
  unfold State.delivery State.deliveredAt lineDelivery
  rw [lane, loss, table, settle, ← record]
  refine if_congr Iff.rfl rfl ?_
  show settledDelivery h.cmap.table (h.settleRecord l) h.cmap.settle = _
  generalize h.settleRecord l = r
  cases last : r.last with
  | none =>
    unfold settledDelivery SettleRec.settles
    rw [last]
    rfl
  | some code =>
    rw [settledDelivery_entry _ _ _ code last]
    simp only [Bool.or_eq_true, decide_eq_true_eq]

theorem State.applyTick_codes :
    s.applyTick.cmap.table = s.intake.staging.codes.getD s.cmap.table ∧
      s.applyTick.cmap.table = s.handOver.cmap.table ∧ s.applyTick.cmap.settle = s.handOver.cmap.settle := by
  rw [s.applyTick_cmap, s.handOver_cmap]
  exact ⟨rfl, rfl, rfl⟩

theorem State.handOver_delivery : s.handOver.delivery l = s.deliveredAt s.applyTick (s.applyBase l s.applyTick) l := by
  obtain ⟨-, table, settle⟩ := s.applyTick_codes
  exact State.delivery_deliveredAt (s.applyTick_lane (lineLane l)) s.applyTick_laneLoss table settle
    (s.handOver_settleRecord l)

/-- What every line is given of an apply is read from the part after it. -/
theorem State.applyTick_envAt :
    s.envAt s.applyTick = s.handOver.lineEnv ((s.handOver.line.dumpDepth : Int) - s.line.dumpDepth) := by
  have table : s.applyTick.scrn.table = s.handOver.scrn.table := by
    rw [s.applyTick_table, s.handOver_scrn]
    rfl
  unfold State.envAt State.lineEnv
  rw [table, s.applyTick_line, s.handOver_lineBlock]

end

section
variable {s : State} (due : s.applyDue = true)
include due

theorem State.handOver_unlined (l : Line) : s.handOver.inst.lines[l] = false := by
  rw [s.handOver_lines]
  exact State.applyDue_lines due l

/-- What reaches a line at an apply. -/
theorem State.applyTick_inputs :
    s.handOver.lineInputs s.admittedPlans = Vector.ofFn fun l =>
      { plan := if l ∈ s.applyRefused then none else s.intake.staging.lines[l]
        delivery := s.deliveredAt s.applyTick (s.applyBase l s.applyTick) l, counted := true } := by
  unfold State.lineInputs
  refine congrArg Vector.ofFn (funext fun l => ?_)
  rw [State.lineInput_fresh (State.handOver_unlined due l), s.handOver_delivery, s.admittedPlans_at]
  simp only [List.contains_iff_mem]

theorem State.applyTick_record (l : Line) :
    s.applyTick.cmap.records[l] =
      (s.applyBase l s.applyTick).settled (s.sampleAt s.applyTick l) s.applyTick.cmap.settle := by
  obtain ⟨-, -, settle⟩ := s.applyTick_codes
  have record : s.applyTick.cmap.records[l] = s.handOver.settleAfter l := by
    rw [s.applyTick_cmap]
    exact (ofFn_at ..).trans (if_neg (Bool.eq_false_iff.mp (State.handOver_unlined due l)))
  rw [record, settle, ← SettleRec.check_settled, SettleRec.sampled_withSample, ← s.handOver_settleRecord]
  rfl

theorem State.applyTick_plan (l : Line) :
    (s.applyTick.line.ctx[l]).plan =
      match s.intake.staging.lines[l] with
      | none => (s.line.ctx[l]).plan
      | some p => if l ∈ s.applyRefused then (s.line.ctx[l]).plan else p := by
  have line : s.applyTick.line = s.phased.line := s.applyTick_of (·.line) State.countRoles_line
  have plan : (s.phased.line.ctx[l]).plan = (s.admittedPlans[l]).getD (s.line.ctx[l]).plan := State.applied_plan due _ l
  rw [line, plan, s.admittedPlans_at]
  simp only [List.contains_iff_mem]
  cases s.intake.staging.lines[l] with
  | none => split <;> rfl
  | some p => split <;> rfl

end

end Sys2Proof.Machine
end

