-- ==== Sys2Proof/Proofs/ApplyTicks.lean ====
section
/-! PROOFS. The apply, by its row and by the block tick that it falls to (R120 to R124). -/

namespace Sys2Proof.Machine

/-! ### Parts of a tick that put an apply off -/

theorem Instant.begun_iff (t : Instant) :
    t.begun = true ↔ (∃ k : Key, t.keys[k] = true) ∨ (∃ r : Route, t.holds[r] = true) ∨ (∃ l : Line, t.lines[l] = true) ∨
      t.laneLost = true ∨ t.period = true ∨ t.take = true := by
  unfold Instant.begun
  simp only [Bool.or_eq_true, List.any_eq_true, List.mem_finRange, true_and, or_assoc]

theorem Instant.none_unbegun (roundOpen : Bool) : ({ Instant.none with roundOpen := roundOpen } : Instant).begun = false := by
  refine Bool.eq_false_iff.mpr fun begun => ?_
  rw [Instant.begun_iff] at begun
  simp [Instant.none] at begun

/-- A tick without an apply due leaves a READY INTAKE for the next one. -/
theorem State.blockTick_putOff {s : State} (ready : s.intake.phase = .ready) (begun : s.inst.begun = true)
    (none : s.link.read = none) (pins : BitVec 16) (follows first : Bool) :
    (s.blockTick pins follows first).intake = s.intake ∧ (s.blockTick pins follows first).inst.begun = false := by
  have free : s.atTick.applyDue = false := by
    rw [s.atTick_applyDue]
    exact State.applyDue_false (.inr begun)
  have taken : s.takenAt.intake = s.intake := by
    rw [s.takenAt_stands (.inl (by rw [ready]; decide))]
  refine ⟨(s.blockTick_intake_of pins follows first none free).trans taken, ?_⟩
  rw [s.blockTick_looks, State.endTick_inst]
  exact Instant.none_unbegun _

/-! ### A tick on the settings -/

section
variable (s : State) (pins : BitVec 16) (follows first : Bool)

theorem State.blockTick_sourceSettings :
    let t := s.blockTick pins follows first
    t.mix.holdFeed = s.linePart.mix.holdFeed ∧
      ∀ i : Source, (t.mix.sources[i]).airCode = (s.linePart.mix.sources[i]).airCode := by
  intro t
  have events : (s.tickEvents pins follows).mix.holdFeed = s.linePart.mix.holdFeed ∧
      ∀ i : Source, ((s.tickEvents pins follows).mix.sources[i]).airCode = (s.linePart.mix.sources[i]).airCode := by
    rw [s.tickEvents_mix pins follows first]
    refine ⟨?_, fun i => ?_⟩
    · unfold Mix.tick Mix.rewind
      rfl
    · rw [Mix.tick_source, Mix.rewind_sources]
      rfl
  obtain ⟨hold, codes⟩ := events
  obtain ⟨-, mix⟩ | ⟨-, mix⟩ := s.blockTick_restarts pins follows first
  · rw [mix]
    refine ⟨hold, fun i => ?_⟩
    rw [Mix.restartPeaks_source]
    exact codes i
  · rw [mix]
    exact ⟨hold, codes⟩

theorem State.blockTick_period : (s.blockTick pins follows first).report.period = s.linePart.report.period := by
  have events : (s.tickEvents pins follows).report.period = s.linePart.report.period := by
    rw [s.tickEvents_report, State.periodPhase_frame, s.afterLines_report, ← s.linePart_applied.2.2.1]
  obtain report | ⟨-, w, round, -, -, report⟩ := s.blockTick_report_cases pins follows first
  · rw [report, events]
  · rw [report]
    exact events

/-- The timing values of a tick are those of the lines' part. -/
theorem State.blockTick_timing : (s.blockTick pins follows first).timing = s.linePart.timing := by
  obtain ⟨main, cue⟩ := s.blockTick_blocks pins follows first
  unfold State.timing
  rw [main, cue, s.blockTick_lineBlock, s.blockTick_cmap, s.blockTick_laneLoss, s.blockTick_period]

theorem RouteCtx.letGo_entry (x : RouteCtx) : x.letGo.entry = x.entry := by
  unfold RouteCtx.letGo
  split <;> rfl

theorem RouteCtx.event_entry (x : RouteCtx) (e : KeyEvent) : (x.event e).entry = x.entry := by
  cases valid : x.entry.valid with
  | false => rw [RouteCtx.event_invalid valid]
  | true =>
    cases mode : x.entry.mode with
    | momentary =>
      rw [RouteCtx.event_momentary valid mode]
      cases e with
      | press => rfl
      | release =>
        unfold RouteCtx.momentaryEvent
        dsimp only
        split
        · exact x.letGo_entry
        · rfl
    | latch =>
      rw [RouteCtx.event_latch valid mode]
      unfold RouteCtx.latchEvent
      cases e with
      | press =>
        dsimp only
        split
        · exact x.letGo_entry
        · rfl
      | release => rfl

theorem RouteCtx.tick_entry (x : RouteCtx) (replaced loaded slow down : Bool) (e : Option KeyEvent) :
    (x.tick replaced loaded slow down e).entry = x.entry := by
  have counted : (if (slow && !loaded) = true then x.slowTick else x).entry = x.entry := by
    split
    · exact x.slowTick_entry
    · rfl
  unfold RouteCtx.tick
  split
  · rfl
  · split
    · rfl
    · cases e with
      | none => exact counted
      | some e => exact (RouteCtx.event_entry _ e).trans counted

theorem State.blockTick_soft (k : Key) :
    ((s.blockTick pins follows first).cue.keys[k]).soft = (s.applied.cue.keys[k]).soft := by
  rw [State.blockTick_key]
  split
  · rfl
  · exact keySample_soft ..

theorem State.blockTick_entry (r : Route) :
    ((s.blockTick pins follows first).cue.routes[r]).entry = (s.applied.cue.routes[r]).entry := by
  rw [State.blockTick_route]
  exact RouteCtx.tick_entry ..

end

/-! ### A tick that takes an apply -/

section
variable {s : State} (due : s.applyDue = true) (pins : BitVec 16) (follows first : Bool)
include due

theorem State.blockTick_intake_due (none : s.link.read = none) :
    (s.blockTick pins follows first).intake = s.applyTick.intake := by
  have noRead := State.readTick_none ((s.beforeRead_read pins follows).1.trans none)
  have found : s.atTick = s.outer s.takenAt.link s.intake { s.report with blockCount := s.report.blockCount + 1 } := by
    rw [s.atTick_eq, s.takenAt_intake_of_due due]
  have part : s.atTick.linePart.intake = s.applyTick.intake := by
    rw [State.linePart_due (s.atTick_applyDue.trans due), found, State.applyTick_outer]
    rfl
  rw [State.blockTick_intake, noRead, State.beforeRead_intake]
  exact part

/-- Without a round begun, a tick leaves the verdicts and every flag as the apply leaves them. -/
theorem State.blockTick_flags_due (same : (s.blockTick pins follows first).report.round = s.report.round) :
    let u := s.blockTick pins follows first
    let t := s.applyTick
    u.report.verdicts = t.report.verdicts ∧
      (∀ l : Line, (u.line.ctx[l]).reportPending = (t.line.ctx[l]).reportPending) ∧
      (∀ i : InLane, (u.lrx.lanes[i]).statusPending = (t.lrx.lanes[i]).statusPending) ∧
      ∀ o : OutLane, (u.ltx.lanes[o]).statusPending = (t.ltx.lanes[o]).statusPending := by
  intro u t
  have part := State.linePart_due due
  have look := s.blockTick_noRound pins follows first same (s.tickEvents_round pins follows)
  refine ⟨?_, fun l => ?_, fun i => ?_, fun o => ?_⟩
  · have report : u.report = (s.tickEvents pins follows).report := by
      show (s.blockTick pins follows first).report = _
      unfold State.blockTick
      rw [State.endTick_report, look]
    rw [report, s.tickEvents_report, State.periodPhase_frame, s.afterLines_report, ← s.linePart_applied.2.2.1, part]
  · show ((s.blockTick pins follows first).line.ctx[l]).reportPending = _
    rw [s.blockTick_line_noRound pins follows first same, part]
  · show ((s.blockTick pins follows first).lrx.lanes[i]).statusPending = _
    rw [s.blockTick_inLane_noRound pins follows first same, part]
    rfl
  · obtain ⟨-, -, ltx, -⟩ := s.tickEvents_parts pins follows
    show ((s.blockTick pins follows first).ltx.lanes[o]).statusPending = _
    unfold State.blockTick
    rw [State.endTick_ltx, look, ltx, part]

/-- A tick that takes an apply gives every lane and line what the apply gives it, but for its flag and its block's end. -/
theorem State.blockTick_carried_due :
    let u := s.blockTick pins follows first
    let t := s.applyTick
    u.line = { t.line with ctx := u.line.ctx } ∧
      (∀ l : Line, u.line.ctx[l] = { t.line.ctx[l] with reportPending := (u.line.ctx[l]).reportPending }) ∧
      (∀ i : InLane, u.lrx.lanes[i] =
        { t.lrx.lanes[i] with
          statusPending := (u.lrx.lanes[i]).statusPending, frameSeen := false
          sideSample := Vector.replicate 8 none }) ∧
      ∀ o : OutLane, u.ltx.lanes[o] = { t.ltx.lanes[o] with statusPending := (u.ltx.lanes[o]).statusPending } := by
  intro u t
  have part := State.linePart_due due
  refine ⟨?_, fun l => ?_, fun i => ?_, fun o => ?_⟩
  · have line := s.blockTick_lineBlock pins follows first
    rw [part] at line
    exact line
  · obtain ⟨pending, line⟩ := s.blockTick_line pins follows first l
    rw [part] at line
    have own : u.line.ctx[l] = { t.line.ctx[l] with reportPending := pending } := line
    rw [own]
  · obtain ⟨pending, lane⟩ := s.blockTick_inLane pins follows first i
    rw [part] at lane
    have own : u.lrx.lanes[i] = { (t.lrx.lanes[i]).endTick with statusPending := pending } := lane
    rw [own]
    rfl
  · obtain ⟨pending, lane⟩ := s.blockTick_outLane pins follows first o
    rw [part] at lane
    have own : u.ltx.lanes[o] = { t.ltx.lanes[o] with statusPending := pending } := lane
    rw [own]

end

end Sys2Proof.Machine
end

