-- ==== Sys2Proof/Proofs/ApplyWhole.lean ====
section
/-! PROOFS. The apply as a whole: every staged record with its owner (R121 to R124). -/

namespace Sys2Proof.Machine

section
variable (s : State)

theorem State.applyTick_verdicts :
    s.applyTick.intake.verdicts = s.intake.verdicts.map fun v =>
      if (s.applyRefused.any fun l => l.val = v.sec.val) = true then
        { v with verdict := .groupFull, field := some 0 }
      else v := by
  rw [s.applyTick_intake]
  rfl

theorem State.applyTick_reportParts :
    s.applyTick.report =
        { s.report with verdicts := s.applyTick.report.verdicts, period := s.applyTick.report.period } ∧
      s.applyTick.report.verdicts = s.applyTick.intake.verdicts := by
  rw [State.applyTick_report, s.handOver_report, s.applyTick_intake]
  exact ⟨rfl, rfl⟩

theorem State.applyTick_mixParts :
    s.applyTick.mix =
        { s.mix with
          sources := s.applyTick.mix.sources, holdFeed := s.applyTick.mix.holdFeed
          mainBlocks := s.applyTick.mix.mainBlocks, cueBlocks := s.applyTick.mix.cueBlocks
          returns := s.applyTick.mix.returns } ∧
      s.applyTick.mix.holdFeed = (s.intake.staging.sources.map (·.holdFeed)).getD s.mix.holdFeed ∧
      ∀ i : Source, s.applyTick.mix.sources[i] =
        { s.mix.sources[i] with airCode :=
          match s.intake.staging.sources with
          | none => (s.mix.sources[i]).airCode
          | some t => t.airCodes[i] } := by
  rw [s.applyTick_mix]
  unfold Mix.applied
  refine ⟨rfl, rfl, fun i => ?_⟩
  dsimp only
  cases s.intake.staging.sources with
  | none => rfl
  | some t => exact ofFn_at ..

theorem Cue.applied_keyWhole (q : Cue) (g : Staging) (k : Key) :
    (q.applied g).keys[k] =
      match g.studio with
      | none => q.keys[k]
      | some t => { q.keys[k] with soft := t.softKeys[k] } := by
  unfold Cue.applied
  dsimp only
  cases g.studio with
  | none => rfl
  | some t => exact ofFn_at ..

/-- A route after an apply takes its entry, with the debounced state of the key that the entry names. -/
theorem Cue.applied_routeWhole (q : Cue) (g : Staging) (r : Route) :
    (q.applied g).routes[r] =
      match g.routes with
      | none => q.routes[r]
      | some t => (q.routes[r]).applyEntry t[r] (q.keys[(t[r]).key]).down := by
  have down (k : Key) : ((q.applied g).keys[k]).down = (q.keys[k]).down := by
    obtain ⟨soft, own⟩ := q.applied_key g k
    rw [own]
  cases staged : g.routes with
  | none =>
    unfold Cue.applied
    rw [staged]
  | some t =>
    have own : (q.applied g).routes[r] = (q.routes[r]).applyEntry t[r] ((q.applied g).keys[(t[r]).key]).down := by
      unfold Cue.applied
      rw [staged]
      exact ofFn_at ..
    rw [own, down]

theorem State.applyTick_replaced (r : Route) :
    s.applyTick.inst.replaced[r] = (s.inst.replaced[r] || (replacedRoutes s.cue s.intake.staging)[r]) := by
  rw [s.applyTick_inst]
  exact ofFn_at ..

/-- A route at an apply: replaced, amended, kept or invalidated. -/
theorem State.applyTick_route (r : Route) :
    let t := s.applyTick
    let x := s.cue.routes[r]
    (s.intake.staging.routes = none → t.cue.routes[r] = x ∧ t.inst.replaced[r] = s.inst.replaced[r]) ∧
      ∀ tab, s.intake.staging.routes = some tab →
        (t.inst.replaced[r] = true ↔ s.inst.replaced[r] = true ∨ replaces x.entry tab[r] = true) ∧
          t.cue.routes[r] = x.applyEntry tab[r] (s.cue.keys[(tab[r]).key]).down := by
  intro t x
  have route : t.cue.routes[r] = (s.cue.applied s.intake.staging).routes[r] := by
    show s.applyTick.cue.routes[r] = _
    rw [s.applyTick_routes]
  have replaced : t.inst.replaced[r] = (s.inst.replaced[r] || (replacedRoutes s.cue s.intake.staging)[r]) :=
    s.applyTick_replaced r
  rw [Cue.applied_routeWhole] at route
  unfold replacedRoutes at replaced
  refine ⟨fun none => ?_, fun tab staged => ?_⟩
  · rw [none] at route replaced
    exact ⟨route, replaced.trans (by simp)⟩
  · rw [staged] at route replaced
    dsimp only at replaced
    rw [ofFn_at] at replaced
    rw [replaced, Bool.or_eq_true]
    exact ⟨Iff.rfl, route⟩

theorem State.applyTick_instFrame :
    s.applyTick.inst =
      { s.inst with
        lanes := s.applyTick.inst.lanes, lines := s.applyTick.inst.lines, replaced := s.applyTick.inst.replaced } := by
  rw [s.applyTick_inst]
  unfold Instant.allLines Instant.applied
  rfl

theorem State.applyTick_lrxFrame :
    s.applyTick.lrx = { s.lrx with lanes := s.applyTick.lrx.lanes, laneLoss := s.applyTick.lrx.laneLoss } := rfl

end

end Sys2Proof.Machine

open Sys2Proof Sys2Proof.Machine

/-- Settles O47: the apply hands over every staged record, by its row and by the tick that it falls to. -/
theorem applyHandsOver : Obligations.ApplyHandsOver := by
  unfold Obligations.ApplyHandsOver
  intro restarts
  refine ⟨fun s => ⟨s.inst.begun_iff, fun stands => ?_, fun ready begun none pins follows first => ?_⟩,
    fun s ready fresh => ?_⟩
  · exact congrArg Host.Outcome.next (if_neg (Bool.eq_false_iff.mp (State.applyDue_false stands)))
  · exact ⟨_, exec_blockTick s pins follows first, State.blockTick_putOff ready begun none pins follows first⟩
  intro g
  have due : s.applyDue = true := by
    unfold State.applyDue
    rw [fresh, decide_eq_true ready]
    rfl
  have runs : s.applied = s.applyTick := if_pos due
  obtain ⟨mix, holdFeed, sources⟩ := s.applyTick_mixParts
  obtain ⟨report, verdicts⟩ := s.applyTick_reportParts
  obtain ⟨codes, -, -⟩ := s.applyTick_codes
  refine ⟨s.applyTick, (exec_apply s).trans (congrArg Host.Outcome.next runs), s.applyTick_ref, s.applyTick_link,
    s.applyTick_hostMem, s.applyTick_pending, ?_, report, mix, fun i => ?_, fun l => ?_, rfl, ?_, s.applyTick_instFrame,
    ?_, ?_, ?_, verdicts, s.applyTick_verdicts, State.applyTick_plan due, fun carried i => ?_, fun bare => ?_, fun i => ?_,
    holdFeed, s.applyTick_table, codes, ?_, fun k => ?_, s.applyTick_timing, fun i => ?_, fun o => ?_, fun i => ?_, ?_,
    fun o changed => ?_, fun o same => ⟨fun kept => ?_, fun goes => ?_⟩, fun r => ?_, fun none pins follows first => ?_⟩
  · rw [s.applyTick_intake]
    rfl
  · rw [sources]
  · intro vacated
    obtain ⟨stands, enters⟩ := s.applyTick_return l
    refine ⟨stands, fun goes => ?_⟩
    obtain ⟨ret, cue⟩ := enters goes
    rw [ret]
    exact ⟨cue, rfl, rfl, rfl, rfl, rfl⟩
  · rw [s.applyTick_ltx]
    rfl
  · rw [s.applyTick_intake]
    rfl
  · rw [s.applyTick_intake]
    rfl
  · rw [s.applyTick_intake]
    rfl
  · rw [s.applyTick_roleCounts, if_pos ((Staging.carriesLines_iff _).mpr carried)]
    exact ofFn_at ..
  · rw [s.applyTick_roleCounts]
    refine if_neg fun carries => ?_
    obtain ⟨l, carried⟩ := (Staging.carriesLines_iff _).mp carries
    rw [bare l] at carried
    exact nomatch carried
  · exact congrArg SourceCtx.airCode (sources i)
  · rw [s.applyTick_line]
    rfl
  · rw [s.applyTick_keys]
    exact Cue.applied_keyWhole ..
  · rw [s.applyTick_inSetup, InLaneCtx.tick_setup, InLaneCtx.applySetup_setup]
    rfl
  · rw [s.applyTick_outSetup, OutLaneCtx.applySetup_setup]
    rfl
  · intro c c' restarted missing seeking lost
    have lane : c' = (c.applySetup (s.inSetup i)).tick s.applyTick.lrx.laneLoss
        (s.inst.lanes[i] || setupRestarts c.setup (s.inSetup i)) := s.applyTick_inSetup i
    have setup : c'.setup = s.inSetup i := by rw [lane, InLaneCtx.tick_setup, InLaneCtx.applySetup_setup]
    have goes : restarted ↔ setupRestarts c.setup (s.inSetup i) = true := by
      rw [setupRestarts_iff, ← setup]
    have shown := InLaneCtx.tick_lostShown (c.applySetup (s.inSetup i)) s.applyTick.lrx.laneLoss
      (s.inst.lanes[i] || setupRestarts c.setup (s.inSetup i))
    rw [← lane] at shown
    refine ⟨shown, fun on => ?_, fun off gone => ?_, fun off stays => ?_⟩
    · have moved := InLaneCtx.tick_restarted c (s.inSetup i) s.applyTick.lrx.laneLoss s.inst.lanes[i] (goes.mp on)
      rw [← lane, ← setup] at moved
      exact moved
    · obtain ⟨locked, slave, unseen, fresh⟩ := gone
      have moved := InLaneCtx.tick_keptMissing (laneLoss := s.applyTick.lrx.laneLoss)
        (Bool.eq_false_iff.mpr (mt goes.mpr off)) fresh locked (setup ▸ slave) unseen
      rw [← lane, ← setup] at moved
      exact moved
    · have moved := InLaneCtx.tick_keptStays (laneLoss := s.applyTick.lrx.laneLoss) (taken := s.inst.lanes[i])
        (Bool.eq_false_iff.mpr (mt goes.mpr off)) (by rw [← setup]; exact stays)
      rw [← lane, ← setup] at moved
      exact moved
  · intro base input
    have inputs : s.handOver.lineInputs s.admittedPlans = input := State.applyTick_inputs due
    refine ⟨State.applyTick_record due, ?_, fun l => ?_⟩
    · rw [s.applyTick_arrivals, inputs]
    · rw [s.applyTick_envAt, s.applyTick_line, inputs]
  · rw [s.applyTick_outSetup, OutLaneCtx.applySetup_setup] at changed ⊢
    exact OutLaneCtx.applySetup_enabled _ _ changed
  · rw [s.applyTick_outSetup, OutLaneCtx.applySetup_setup] at kept ⊢
    exact OutLaneCtx.applySetup_kept (Bool.eq_false_iff.mpr (mt (setupRestarts_iff _ _).mp kept))
  · rw [s.applyTick_outSetup, OutLaneCtx.applySetup_setup] at same goes ⊢
    exact OutLaneCtx.applySetup_clocking _ _ same ((setupRestarts_iff _ _).mpr goes)
  · intro x
    obtain ⟨bare, staged⟩ := s.applyTick_route r
    refine ⟨bare, fun tab given => ?_⟩
    intro n same
    obtain ⟨replaced, route⟩ := staged tab given
    have keeps : same ↔ keepsRoute x.entry n := Iff.rfl
    rw [route]
    refine ⟨replaced.trans (or_congr_right (replaces_iff ..)), RouteCtx.applyEntry_kept _, RouteCtx.applyEntry_replaced _,
      RouteCtx.applyEntry_invalidated _, RouteCtx.applyEntry_invalid _⟩
  · have part := State.linePart_due due
    obtain ⟨line, lines, inputs, outputs⟩ := State.blockTick_carried_due due pins follows first
    obtain ⟨hold, codes⟩ := s.blockTick_sourceSettings pins follows first
    rw [part] at hold codes
    refine ⟨_, exec_blockTick s pins follows first, State.blockTick_intake_due due pins follows first none, ?_, ?_, ?_,
      hold, codes, line, lines, fun k => ?_, fun r => ?_, inputs, outputs,
      fun same => State.blockTick_flags_due due pins follows first same⟩
    · rw [State.blockTick_scrn, part]
    · rw [State.blockTick_cmap, part]
    · rw [State.blockTick_timing, part]
    · rw [State.blockTick_soft, runs]
    · rw [State.blockTick_entry, runs]
end
